-- ==== Sys2Proof/Word.lean ====
section
/-! DEFINITION. The machine's two word types: the byte every buffer element and literal is (R9 `BYTE`), and the
32-bit unsigned word that the field and VLQ operations carry (R9 `WORD`, R12). -/

namespace Sys2Proof

/-- One buffer element (R9 `BYTE`, R30). -/
abbrev Byte := BitVec 8

/-- The unsigned 32-bit integer of `write_uint32`, `read_uint32` and the VLQ coder (R9 `WORD`). -/
abbrev Word := BitVec 32

end Sys2Proof
end

