-- ==== Sys2Proof/Syntax.lean ====
section
/-! DEFINITION. The instruction set as syntax: one constructor per row of spec/opcode_table.json, the seven token rows of
the compressed format first (R100 to R108), then the fifteen operations with their command codes 0 to 14 (R115). -/

namespace Sys2Proof

/-- The direction tag of a BitStream: `W` or `R` (R37). -/
inductive Dir where
  | W
  | R
  deriving DecidableEq, Repr

/-- The name of a ByteBuffer: its place in the machine's list of buffers. Each buffer is an address space of its own (R70). -/
abbrev BufId := Nat

/-- The Config tuple of a Codec instance (R10, R40 to R42). -/
structure Cfg where
  offsetBits    : Nat
  lengthBits    : Nat
  minimumLength : Nat
  deriving DecidableEq, Repr

/-- The instructions. -/
inductive Instr where
  /-- VLQ.LAST, final group of a VLQ (R101). -/
  | vlqLast (payload : BitVec 7)
  /-- VLQ.CONT, a group with more to follow (R101). -/
  | vlqCont (payload : BitVec 7)
  /-- HDR, the header: the original length as one VLQ (R103). -/
  | hdr (value : Word)
  /-- LITERAL, flag 0 and a raw byte (R105). -/
  | literal (byte : Byte)
  /-- PAIR, flag 1, backward distance, run length; the field widths are the Config's (R106, R107). -/
  | pair (offset length : Nat)
  /-- PAIR@cfg(10,6,2), the pair token whose fields are 10 and 6 bits wide (R106). -/
  | pairDemo (offset : BitVec 10) (length : BitVec 6)
  /-- PAD, the `k` padding bits after the last token (R108). -/
  | pad (k : Nat)
  /-- Command 0 (R140). -/
  | bsCreate (buffer : BufId) (dir : Dir)
  /-- Command 1 (R142). -/
  | writeBit (bit : Word)
  /-- Command 2 (R145). -/
  | readBit
  /-- Command 3 (R148). -/
  | writeUint32 (value : Word) (bits : Nat)
  /-- Command 4 (R151). -/
  | readUint32 (bits : Nat)
  /-- Command 5 (R154). -/
  | flushPartial
  /-- Command 6 (R170). -/
  | write7bitUint32 (value : Word)
  /-- Command 7 (R174). -/
  | read7bitUint32
  /-- Command 8 (R190). -/
  | findBestMatch (buffer : BufId) (index : Nat) (config : Cfg)
  /-- Command 9 (R210). -/
  | codecInit (offsetBits lengthBits minimumLength : Nat)
  /-- Command 10 (R212). -/
  | upperBound (n : Nat)
  /-- Command 11 (R215). -/
  | encode (config : Cfg) (input : BufId)
  /-- Command 12 (R240). -/
  | peekOriginalLength (input : BufId)
  /-- Command 13 (R243). -/
  | decodeInto (config : Cfg) (input output : BufId)
  /-- Command 14 (R260). -/
  | decode (config : Cfg) (input : BufId)
  deriving DecidableEq, Repr

/-- An operand of a command: a typed value that travels beside the command code, not a bit field (R115). -/
inductive Operand where
  | buf (b : BufId)
  | dir (d : Dir)
  | word (v : Word)
  | nat (n : Nat)
  | cfg (c : Cfg)
  deriving DecidableEq, Repr

end Sys2Proof
end

