-- ==== Sys2Proof/Config.lean ====
section
/-! DEFINITION. What is fixed for the machine: the constants of R9, and the FREE VALUES of the model, one opaque
constant per `UNSPEC` of the spec (R13, 93_implementation_defined.md U1 to U17). An opaque constant has no body:
nothing in Lean can evaluate it, so no claim can rest on its value. The `Nat` argument is a draw number, taken from
the counter `State.draws`; the log entries 1 to 5 name each of them. -/

namespace Sys2Proof.Config

/-- `BYTE`, R9. -/
def byteBits : Nat := 8
/-- `FIELD_MAX`, R9: the largest legal `bits` operand. -/
def fieldMax : Nat := 32
/-- `VLQ_PAYLOAD`, R9. -/
def vlqPayload : Nat := 7
/-- `VLQ_MAX_GROUPS`, R9. -/
def vlqMaxGroups : Nat := 5
/-- `HEADER_ALLOWANCE`, R9. -/
def headerAllowance : Nat := 32
/-- `LITERAL_BITS`, R9. -/
def literalBits : Nat := 9
/-- `CFG_SUM_MAX`, R9. -/
def cfgSumMax : Nat := 31
/-- `N_MAX`, R11: the largest input length `encode` accepts. -/
def nMax : Nat := 4294967295

/-- `freshByte tag a`: the byte at index `a` that nothing has written, of the contents with the free tag `tag`. The tag is
drawn when the contents become unspecified, so the byte is fixed from then on (R85, R214; U1, U5, U7, U8). -/
opaque freshByte : Nat → Nat → BitVec 8

/-- `BS.byte_buffer` of a dead stream (R157, U10a). -/
opaque freeAccumulator : Nat → BitVec 8

/-- `BS.bit_count` (width 4) of a dead stream (R157, U10a). -/
opaque freeBitCount : Nat → BitVec 4

/-- `M.offset` (up to 31 bits) where no rule fixes it (R46, R195, U9, U11). -/
opaque freeOffset : Nat → BitVec 31

/-- `M.length` (up to 31 bits) from the start of a call to the return of `find_best_match` (R62, U11). -/
opaque freeLength : Nat → BitVec 31

/-- The scan cursor `index` from the start of a call to the scan's first step (R62, U11). -/
opaque freeIndex : Nat → Nat

/-- `declared_length` from the start of a call until the header is read (R62, U11). -/
opaque freeDeclared : Nat → BitVec 32

/-- `OUT.length` after a failed decode (R257, U1); the model keeps it within the capacity (R31). -/
opaque freeLogicalLength : Nat → Nat

/-- The host's answer to a `host_alloc` request for which `State.grants` holds no answer (R214, U16). -/
opaque allocGranted : Nat → Bool

end Sys2Proof.Config
end

