-- ==== Sys2Proof/WellFormed.lean ====
section
/-! DEFINITION. Which instructions are well formed: operands inside the ranges the spec gives them. The widths of a pair
token are not in the stream (R109), so the check takes the Config. -/

namespace Sys2Proof

/-- The two invariants of a Config (R10, R40 to R42). -/
def Cfg.WellFormed (c : Cfg) : Bool :=
  decide (c.offsetBits + c.lengthBits ≤ 31) && decide (1 ≤ c.minimumLength)

/-- The field widths of the row PAIR@cfg(10,6,2). -/
def Cfg.DemoWidths (c : Cfg) : Bool :=
  decide (c.offsetBits = 10) && decide (c.lengthBits = 6)

/-- Operand ranges: R106 and R107 (pair fields), R108 (at most 7 padding bits), R148 and R151 (`bits` at most 32), R210 (a
Config's invariants), R90 (`decode_into` needs two buffers). A pair under the widths (10, 6) is the row PAIR@cfg(10,6,2). -/
def Instr.WellFormed (c : Cfg) : Instr → Bool
  | .vlqLast _ => true
  | .vlqCont _ => true
  | .hdr _ => true
  | .literal _ => true
  | .pair o l => !c.DemoWidths && decide (o < 2 ^ c.offsetBits) && decide (l < 2 ^ c.lengthBits)
  | .pairDemo _ _ => c.DemoWidths
  | .pad k => decide (k ≤ 7)
  | .bsCreate _ _ => true
  | .writeBit _ => true
  | .readBit => true
  | .writeUint32 _ bits => decide (bits ≤ 32)
  | .readUint32 bits => decide (bits ≤ 32)
  | .flushPartial => true
  | .write7bitUint32 _ => true
  | .read7bitUint32 => true
  | .findBestMatch _ _ config => config.WellFormed
  | .codecInit ob lb ml => Cfg.WellFormed ⟨ob, lb, ml⟩
  | .upperBound _ => true
  | .encode config _ => config.WellFormed
  | .peekOriginalLength _ => true
  | .decodeInto config input output => config.WellFormed && decide (input ≠ output)
  | .decode config _ => config.WellFormed

end Sys2Proof
end

