-- ==== Sys2Proof/Decode.lean ====
section
/-! DEFINITION. The decoder, total and rejecting by name, and after it the encoder. Two spaces exist: the compressed
format, a stream of bits whose first bit is the most significant (R74 to R77, R100 to R109), and the command codes with
typed operands beside them (R115). -/

namespace Sys2Proof

/-! ### Bits and fields -/

/-- The `n` bits of a field holding `v`, in stream order: `v[n-1]` first, `v[0]` last (R76, R148). Bits of `v` at `n` and
above do not appear (R150). -/
def fieldBits (v : Nat) : Nat → List Bool
  | 0 => []
  | n + 1 => v.testBit n :: fieldBits v n

/-- One more bit after the value `r`: `(r << 1) | bit` (R151). -/
def shiftIn (r : Nat) (b : Bool) : Nat := 2 * r + b.toNat

/-- The value of a field from its bits in stream order (R76, R151). -/
def bitsValue (l : List Bool) : Nat := l.foldl shiftIn 0

/-- The first `n` bits and the rest; `none` if fewer remain. -/
def takeBits : Nat → List Bool → Option (List Bool × List Bool)
  | 0, l => some ([], l)
  | _ + 1, [] => none
  | n + 1, b :: l => (takeBits n l).map fun p => (b :: p.1, p.2)

/-! ### VLQ groups (R101, R102, R170, R174) -/

/-- The continuation flag `G[7]` of a group (R101). -/
def contFlag (g : Byte) : Bool := g.getLsbD 7

/-- `(result | ((g & 0x7F) << shift)) mod 2^32` (R174). -/
def vlqAdd (result : Word) (shift : Nat) (g : Byte) : Word :=
  result ||| ((g &&& 0x7F#8).setWidth 32 <<< shift)

/-- The end test of the reader's loop, `shift` being the value after the group: `(b & 0x80) == 0 or shift > 32` (R174, R176). -/
def vlqStop (g : Byte) (shift : Nat) : Bool := !contFlag g || decide (32 < shift)

/-- The groups of a value, least significant first, shortest form (R102, R170); five are enough for 32 bits (R172). -/
def vlqGroups : Nat → Nat → List Byte
  | 0, _ => []
  | f + 1, v =>
    if v >>> 7 = 0 then [BitVec.ofNat 8 (v &&& 0x7F)]
    else BitVec.ofNat 8 ((v &&& 0x7F) ||| 0x80) :: vlqGroups f (v >>> 7)

/-- The stream bits of a list of groups, each an 8-bit field (R77, R101). -/
def groupBits (gs : List Byte) : List Bool := gs.flatMap fun g => fieldBits g.toNat 8

/-- The VLQ of a 32-bit value as stream bits (R170). -/
def vlqBits (v : Word) : List Bool := groupBits (vlqGroups 5 v.toNat)

/-- Assembling a VLQ from stream bits, at most `fuel` more groups (R102, R174). -/
def vlqTake : Nat → Word → Nat → List Bool → Option (Word × List Bool)
  | 0, result, _, l => some (result, l)
  | f + 1, result, shift, l =>
    match takeBits 8 l with
    | none => none
    | some (g, rest) =>
      let b := BitVec.ofNat 8 (bitsValue g)
      if vlqStop b (shift + 7) then some (vlqAdd result shift b, rest)
      else vlqTake f (vlqAdd result shift b) (shift + 7) rest

/-! ### The decoder -/

/-- Why a word or a run of bits is no instruction. -/
inductive DecodeError where
  /-- Command code 15 (R115). -/
  | unassignedCommand
  /-- The operands beside a command code are not of the types R115 lists for it. -/
  | operandShape
  /-- The bits end inside a VLQ group. -/
  | groupCut
  /-- The bits end inside the header. -/
  | headerCut
  /-- The bits end inside a token. -/
  | tokenCut
  /-- More than 7 bits offered as padding (R108). -/
  | paddingTooLong
  /-- A command where stream bits stand, or stream bits where a command stands. -/
  | wrongSpace
  deriving DecidableEq, Repr

/-- One VLQ group (R101). -/
def decodeGroup (l : List Bool) : Except DecodeError (Instr × List Bool) :=
  match takeBits 8 l with
  | none => .error .groupCut
  | some (g, rest) =>
    let b := BitVec.ofNat 8 (bitsValue g)
    .ok (if contFlag b then .vlqCont (b.setWidth 7) else .vlqLast (b.setWidth 7), rest)

/-- The header: one VLQ of at most five groups, the irregular forms of R112 included (R103, R176, R177). -/
def decodeHeader (l : List Bool) : Except DecodeError (Instr × List Bool) :=
  match vlqTake 5 0#32 0 l with
  | none => .error .headerCut
  | some (v, rest) => .ok (.hdr v, rest)

/-- The pair instruction for two field values: under the widths (10, 6) the row PAIR@cfg(10,6,2), else PAIR. -/
def mkPair (c : Cfg) (offset length : Nat) : Instr :=
  if c.DemoWidths then .pairDemo (BitVec.ofNat 10 offset) (BitVec.ofNat 6 length) else .pair offset length

/-- One token: the flag bit is its whole opcode (R104); the pair's widths are the Config's (R109). -/
def decodeToken (c : Cfg) : List Bool → Except DecodeError (Instr × List Bool)
  | [] => .error .tokenCut
  | false :: l =>
    match takeBits 8 l with
    | none => .error .tokenCut
    | some (b, rest) => .ok (.literal (BitVec.ofNat 8 (bitsValue b)), rest)
  | true :: l =>
    match takeBits c.offsetBits l with
    | none => .error .tokenCut
    | some (o, l') =>
      match takeBits c.lengthBits l' with
      | none => .error .tokenCut
      | some (n, rest) => .ok (mkPair c (bitsValue o) (bitsValue n), rest)

/-- Padding: all the bits that are left in the last byte, whatever their values (R108, R112). -/
def decodePad (l : List Bool) : Except DecodeError (Instr × List Bool) :=
  if l.length ≤ 7 then .ok (.pad l.length, []) else .error .paddingTooLong

/-- A command code and its operands (R115). -/
def decodeCommand (code : BitVec 4) (args : List Operand) : Except DecodeError Instr :=
  match code.toNat, args with
  | 0, [.buf b, .dir d] => .ok (.bsCreate b d)
  | 1, [.word v] => .ok (.writeBit v)
  | 2, [] => .ok .readBit
  | 3, [.word v, .nat n] => .ok (.writeUint32 v n)
  | 4, [.nat n] => .ok (.readUint32 n)
  | 5, [] => .ok .flushPartial
  | 6, [.word v] => .ok (.write7bitUint32 v)
  | 7, [] => .ok .read7bitUint32
  | 8, [.buf b, .nat i, .cfg c] => .ok (.findBestMatch b i c)
  | 9, [.nat ob, .nat lb, .nat ml] => .ok (.codecInit ob lb ml)
  | 10, [.nat n] => .ok (.upperBound n)
  | 11, [.cfg c, .buf i] => .ok (.encode c i)
  | 12, [.buf i] => .ok (.peekOriginalLength i)
  | 13, [.cfg c, .buf i, .buf o] => .ok (.decodeInto c i o)
  | 14, [.cfg c, .buf i] => .ok (.decode c i)
  | 15, _ => .error .unassignedCommand
  | _, _ => .error .operandShape

/-- Where an instruction stands: the command port, or one of the four places of the format (R109). -/
inductive Slot where
  | command
  | group
  | header
  | token
  | padding
  deriving DecidableEq, Repr

/-- An encoded instruction: stream bits, or a command code with its operands. -/
inductive Encoded where
  | stream (bits : List Bool)
  | command (code : BitVec 4) (args : List Operand)
  deriving DecidableEq, Repr

/-- The decoder as one function: the instruction at a slot, and the stream bits after it. -/
def decodeAt (c : Cfg) : Slot → Encoded → Except DecodeError (Instr × List Bool)
  | .command, .command code args => (decodeCommand code args).map fun i => (i, [])
  | .group, .stream l => decodeGroup l
  | .header, .stream l => decodeHeader l
  | .token, .stream l => decodeToken c l
  | .padding, .stream l => decodePad l
  | .command, .stream _ => .error .wrongSpace
  | _, .command _ _ => .error .wrongSpace

/-! ### The encoder -/

/-- The slot an instruction belongs to. -/
def Instr.slot : Instr → Slot
  | .vlqLast _ | .vlqCont _ => .group
  | .hdr _ => .header
  | .literal _ | .pair _ _ | .pairDemo _ _ => .token
  | .pad _ => .padding
  | .bsCreate _ _ | .writeBit _ | .readBit | .writeUint32 _ _ | .readUint32 _ | .flushPartial
  | .write7bitUint32 _ | .read7bitUint32 | .findBestMatch _ _ _ | .codecInit _ _ _ | .upperBound _
  | .encode _ _ | .peekOriginalLength _ | .decodeInto _ _ _ | .decode _ _ => .command

/-- The bits of a literal token (R105, R218). -/
def literalBits (b : Byte) : List Bool := false :: fieldBits b.toNat 8

/-- The bits of a pair token with fields of `ob` and `lb` bits (R106, R217). -/
def pairBits (ob lb offset length : Nat) : List Bool :=
  true :: (fieldBits offset ob ++ fieldBits length lb)

/-- The encoding of an instruction, from the tables of 30_encoding.md (R101 to R108, R115). -/
def encode (c : Cfg) : Instr → Encoded
  | .vlqLast p => .stream (false :: fieldBits p.toNat 7)
  | .vlqCont p => .stream (true :: fieldBits p.toNat 7)
  | .hdr v => .stream (vlqBits v)
  | .literal b => .stream (literalBits b)
  | .pair o l => .stream (pairBits c.offsetBits c.lengthBits o l)
  | .pairDemo o l => .stream (pairBits 10 6 o.toNat l.toNat)
  | .pad k => .stream (List.replicate k false)
  | .bsCreate b d => .command 0#4 [.buf b, .dir d]
  | .writeBit v => .command 1#4 [.word v]
  | .readBit => .command 2#4 []
  | .writeUint32 v n => .command 3#4 [.word v, .nat n]
  | .readUint32 n => .command 4#4 [.nat n]
  | .flushPartial => .command 5#4 []
  | .write7bitUint32 v => .command 6#4 [.word v]
  | .read7bitUint32 => .command 7#4 []
  | .findBestMatch b i c => .command 8#4 [.buf b, .nat i, .cfg c]
  | .codecInit ob lb ml => .command 9#4 [.nat ob, .nat lb, .nat ml]
  | .upperBound n => .command 10#4 [.nat n]
  | .encode c i => .command 11#4 [.cfg c, .buf i]
  | .peekOriginalLength i => .command 12#4 [.buf i]
  | .decodeInto c i o => .command 13#4 [.cfg c, .buf i, .buf o]
  | .decode c i => .command 14#4 [.cfg c, .buf i]

/-! ### Words of the opcode table -/

/-- The operands that stand beside a command code given as a bare number, for which the table has no operand bits: the least
legal value of each type (log 15). -/
def bareOperands (code : BitVec 4) : List Operand :=
  match code.toNat with
  | 0 => [.buf 0, .dir .W]
  | 1 => [.word 0]
  | 3 => [.word 0, .nat 0]
  | 4 => [.nat 0]
  | 6 => [.word 0]
  | 8 => [.buf 0, .nat 0, .cfg ⟨0, 0, 1⟩]
  | 9 => [.nat 0, .nat 0, .nat 1]
  | 10 => [.nat 0]
  | 11 => [.cfg ⟨0, 0, 1⟩, .buf 0]
  | 12 => [.buf 0]
  | 13 => [.cfg ⟨0, 0, 1⟩, .buf 0, .buf 1]
  | 14 => [.cfg ⟨0, 0, 1⟩, .buf 0]
  | _ => []

/-- The first instruction a decoder answers, if it answers one. -/
def decodedInstr (r : Except DecodeError (Instr × List Bool)) : Option Instr :=
  match r with
  | .ok (i, _) => some i
  | .error _ => none

/-- A bare command code. -/
def decodeBareCommand (w : Nat) : Option Instr :=
  let code := BitVec.ofNat 4 w
  decodedInstr (decodeAt ⟨0, 0, 1⟩ .command (.command code (bareOperands code)))

/-- The instruction of an opcode-table word (log 15). The table's two spaces overlap as numbers, so a rule chooses: a number of
at most 8 bits is a command code if it is below 16, else a VLQ group; a number of at most 16 bits is a command code if it is 8 to
15 or has a bit above bit 7, else a literal token read as the 9-bit integer of R105; a longer number is the 17-bit pair token of
the widths (10, 6), bit 16 being the flag (R106). -/
def decodeTableWord (nbits w : Nat) : Option Instr :=
  if nbits ≤ 8 then
    if w < 16 then decodeBareCommand w
    else if w < 256 then decodedInstr (decodeAt ⟨0, 0, 1⟩ .group (.stream (fieldBits w 8)))
    else none
  else if nbits ≤ 16 then
    if (8 ≤ w ∧ w < 16) ∨ 256 ≤ w then decodeBareCommand (w % 16)
    else decodedInstr (decodeAt ⟨0, 0, 1⟩ .token (.stream (fieldBits w 9)))
  else if 65536 ≤ w ∧ w < 131072 then
    decodedInstr (decodeAt ⟨10, 6, 2⟩ .token (.stream (fieldBits w 17)))
  else none

end Sys2Proof
end

