-- ==== Sys2Proof/Machine/State.lean ====
section
/-! DEFINITION. The machine's state as plain data, the reasons a step can stop, and the state after reset
(10_state.md). -/

namespace Sys2Proof.Machine

/-- A ByteBuffer (R30, R31). `cells` lists the bytes that have been written, with strictly rising indexes; an index it does
not list is a byte nothing has written, which reads as `Config.freshByte tag index` (R85, log 1). -/
structure Buffer where
  capacity : Nat
  length   : Nat
  cells    : List Host.Cell
  tag      : Nat
  deriving DecidableEq, Repr

/-- The BitStream registers (R32 to R38). -/
structure BitStream where
  buf        : BufId
  position   : Nat
  byteBuffer : Byte
  bitCount   : Nat
  dir        : Dir
  dead       : Bool
  deriving DecidableEq, Repr

/-- The Match result `{offset, length}` (R46). -/
structure Match where
  offset : Nat
  length : Nat
  deriving DecidableEq, Repr

/-- The loop registers of a header that is read one group a step: `result` and `shift` of R174, and whether the loop has
ended. -/
structure VlqRegs where
  result  : Word
  shift   : Nat
  stopped : Bool
  deriving DecidableEq, Repr

/-- STATUS: success and the four error kinds (R53, R280). -/
inductive Status where
  | ok
  | noOp
  | bufferOutOfBounds
  | couldNotAllocate
  | wrongOutputSize
  deriving DecidableEq, Repr

/-- The value a call returns to the host (R13 `return v`, R18). -/
inductive Ret where
  | none
  | bit (b : Bool)
  | word (v : Word)
  | nat (n : Nat)
  | mtch (m : Match)
  | cfg (c : Cfg)
  | buf (b : BufId)
  deriving DecidableEq, Repr

/-- The place inside a call. `idle`: no call is in progress. The `dec` places belong to a call that reads a compressed buffer,
the `enc` places to one that writes it: reading the header group by group, the header as a whole, the tokens, the end. -/
inductive Phase where
  | idle
  | decGroups
  | decHeader
  | decBody
  | decTail
  | encHeader
  | encBody
  | encTail
  deriving DecidableEq, Repr

/-- What the host hands over between calls (R18, log 7): a call as a command code with its operands (R115); a `decode_into` or
an `encode` that the machine is to run one unit of the format a step (log 8); a ByteBuffer; a change of a ByteBuffer the host
already provided or got back, also under a live stream (R55; that it is a request of its own is the model's choice, log 23). -/
inductive Request where
  | call (code : BitVec 4) (args : List Operand)
  | decodeStepwise (grouped : Bool) (config : Cfg) (input output : BufId)
  | encodeStepwise (config : Cfg) (input : BufId)
  | provide (capacity length : Nat) (cells : List Host.Cell)
  | change (buffer : BufId) (length : Nat) (cells : List Host.Cell)
  deriving DecidableEq, Repr

/-- The machine's state. -/
structure State where
  mem      : List Buffer
  bs       : Option BitStream
  cfg      : Option Cfg
  inBuf    : Option BufId
  outBuf   : Option BufId
  mtch     : Match
  index    : Nat
  declared : Word
  vlq      : VlqRegs
  status   : Status
  result   : Ret
  phase    : Phase
  requests : List Request
  grants   : List Bool
  draws    : Nat
  deriving DecidableEq, Repr

/-- Why the machine stops with a fault. The hardware has no such stop: its error kinds end the call and are next states. -/
inductive Fault where
  /-- Raised by the scan loops of `encode`, `decode_into` and `decode` when the model's loop budget is used up. Safe: R20 says
  every operation ends within the budget, so no run of the hardware is cut short (log 14). -/
  | scanBudget
  deriving DecidableEq, Repr

/-- Why a step has no meaning: the spec's `refuse` (R13, R287), by name. All are safe: the spec gives such a call no step. -/
inductive Refusal where
  /-- An instruction without a meaning in this model. Raised by no arm now. -/
  | notModelled (mnemonic : String)
  /-- Raised by the request port on a command that does not decode: code 15, or operands of other types (R115). -/
  | undecodable (e : DecodeError)
  /-- Raised by a stream operation or a token when no BitStream is live (R39, R60). -/
  | noStream
  /-- Raised by a stream operation or a token on a dead stream (R38, R157). -/
  | deadStream
  /-- Raised by a write operation on an `R` stream or a read operation on a `W` stream (R37, R158). -/
  | wrongDirection
  /-- Raised by `write_uint32` and `read_uint32` with `bits > 32` (R148, R151). -/
  | fieldTooWide
  /-- Raised where an operand, or a host's change, names no ByteBuffer (R140, R190, R215, R240, R243, R260: the operand is a
  ByteBuffer). -/
  | noBuffer
  /-- Raised by `codec_init`, and by an operation given such a Config, when an invariant is broken (R44, R210). -/
  | invalidConfig
  /-- Raised by a pair token on a `W` stream when no Config exists (R60). -/
  | noConfig
  /-- Raised by a token of the decoder when no decode call is in progress, so that there is no OUT (R60, R70). -/
  | noOutput
  /-- Raised by `decode_into` when OUT is IN (R90; of capacity 0 too, by the model's choice, logs 12 and 18). -/
  | aliasedBuffers
  /-- Raised by `encode` with an input longer than `2^32 - 1` (R215). -/
  | inputTooLong
  /-- Raised by the request port on a buffer, or a change of one, that breaks R30 or R31. -/
  | badBuffer
  deriving DecidableEq, Repr

/-- The state after a reset of the block (R60, R62, R320): no Config, no stream, no buffer, no call. The registers that R62
leaves `UNSPEC` hold the values named in log 6. -/
def State.reset : State :=
  { mem := [], bs := none, cfg := none, inBuf := none, outBuf := none, mtch := ⟨0, 0⟩, index := 0, declared := 0#32,
    vlq := ⟨0#32, 0, false⟩, status := .ok, result := .none, phase := .idle, requests := [], grants := [], draws := 0 }

end Sys2Proof.Machine
end

