-- ==== Sys2Proof/Machine/Ops.lean ====
section
/-! DEFINITION. The operations over buffers and registers that the meanings share: one byte read and written (R71), one bit
appended and taken (R142, R145), the start and end of a call (R62, R88), TAKING AN ERROR (R291), and the host's allocation
service (R214). -/

namespace Sys2Proof.Machine

/-! ### Bytes of a buffer (20_memory.md) -/

/-- The written byte at an index, if there is one. -/
def cellAt : List Host.Cell → Nat → Option Byte
  | [], _ => none
  | (k, v) :: rest, a => if a = k then some v else cellAt rest a

/-- Writing one byte keeps the indexes strictly rising. -/
def cellPut : List Host.Cell → Nat → Byte → List Host.Cell
  | [], a, v => [(a, v)]
  | (k, w) :: rest, a, v =>
    if a < k then (a, v) :: (k, w) :: rest
    else if a = k then (a, v) :: rest
    else (k, w) :: cellPut rest a v

/-- The canonical form of a buffer's cells: indexes strictly rising from `lo` on and below `hi`. -/
def cellsWf : Nat → Nat → List Host.Cell → Bool
  | _, _, [] => true
  | lo, hi, (k, _) :: rest => decide (lo ≤ k) && decide (k < hi) && cellsWf (k + 1) hi rest

/-- The invariant of a ByteBuffer: canonical cells, logical length within the capacity (R30, R31). -/
def Buffer.wf (b : Buffer) : Bool := cellsWf 0 b.capacity b.cells && decide (b.length ≤ b.capacity)

/-- The canonical form of all buffers. -/
def Memory.wf (mem : List Buffer) : Bool := mem.all Buffer.wf

/-- The byte at an index: the one written last, or the free byte of contents nothing has written (R85, R86). -/
def Buffer.byteAt (b : Buffer) (a : Nat) : Byte := (cellAt b.cells a).getD (Config.freshByte b.tag a)

/-- `MemRead(B, a, 1)` (R13, R71): `none` is `raise BufferOutOfBounds`. The index may be negative (R252). -/
def Buffer.memRead (b : Buffer) (a : Int) : Option Byte :=
  if a < 0 ∨ (b.capacity : Int) ≤ a then none else some (b.byteAt a.toNat)

/-- `MemWrite(B, a, 1, v)` (R13, R71): `none` is `raise BufferOutOfBounds`, nothing being written. -/
def Buffer.memWrite (b : Buffer) (a : Nat) (v : Byte) : Option Buffer :=
  if b.capacity ≤ a then none else some { b with cells := cellPut b.cells a v }

/-- Every byte becomes one that nothing has written, with a new free tag (R221, R257, U1, U7). -/
def Buffer.forget (b : Buffer) (tag : Nat) : Buffer := { b with cells := [], tag := tag }

/-- A ByteBuffer by its name. -/
def State.buf? (s : State) (id : BufId) : Option Buffer := s.mem[id]?

/-- Replace a buffer. -/
def State.putBuf (s : State) (id : BufId) (b : Buffer) : State := { s with mem := s.mem.set id b }

/-- Replace the live stream. -/
def State.putStream (s : State) (bs : Option BitStream) : State := { s with bs := bs }

/-! ### Results of an operation inside a call -/

/-- How an operation of the pseudocode ends: with a value; by `raise` (R13, R290), keeping what was done before; by `refuse`
(R13, R287); or, for the model's own loops, with the budget used up. -/
inductive Res (α : Type) where
  | ok (s : State) (v : α)
  | raised (k : Status) (s : State)
  | refused (r : Refusal)
  | stuck (f : Fault)

/-- One operation after another; a `raise` or `refuse` ends the whole (R290). -/
def Res.bind {α β : Type} (x : Res α) (f : State → α → Res β) : Res β :=
  match x with
  | .ok s v => f s v
  | .raised k s => .raised k s
  | .refused r => .refused r
  | .stuck e => .stuck e

/-! ### Start and end of a call -/

/-- A BitStream as `bs_create` makes it (R140). -/
def BitStream.fresh (buf : BufId) (dir : Dir) : BitStream :=
  { buf := buf, position := 0, byteBuffer := 0#8, bitCount := 0, dir := dir, dead := false }

/-- The start of a Codec call (R62): no stream of an earlier call survives (R39), IN and OUT are the call's (R70), and
`index`, `declared_length` and the Match are `UNSPEC` until the call writes them (U11, log 3). -/
def State.beginCall (s : State) (p : Phase) (input output : Option BufId) : State :=
  { s with
    bs := none, phase := p, inBuf := input, outBuf := output
    index := Config.freeIndex s.draws
    declared := Config.freeDeclared s.draws
    mtch := ⟨(Config.freeOffset s.draws).toNat, (Config.freeLength s.draws).toNat⟩
    vlq := ⟨0#32, 0, false⟩
    draws := s.draws + 1 }

/-- The call is over: its stream is discarded (R39) and its buffers belong to the host (R18). That `index`, `declared_length` and
the Match keep the call's last values until the next Codec call is the model's choice (log 3). -/
def State.leaveCall (s : State) : State :=
  { s with bs := none, phase := .idle, inBuf := none, outBuf := none, vlq := ⟨0#32, 0, false⟩ }

/-- The normal return of a Codec call (R53, R293). -/
def State.endCall (s : State) (v : Ret) : State := { s.leaveCall with status := .ok, result := v }

/-! ### Taking an error (R291, R157, R221, R257, R295, R296) -/

/-- A stream one of whose operations raised an error: dead, accumulator and bit count `UNSPEC` (R157, U10a, log 2). -/
def BitStream.kill (bs : BitStream) (draw : Nat) : BitStream :=
  { bs with
    dead := true, byteBuffer := Config.freeAccumulator draw, bitCount := (Config.freeBitCount draw).toNat }

/-- OUT after a failed `encode`: logical length 0, every byte `UNSPEC` (R221, R295, U7, log 4). -/
def Buffer.afterFailedEncode (b : Buffer) (draw : Nat) : Buffer := { b.forget draw with length := 0 }

/-- OUT after a decode that ended with `BufferOutOfBounds`: every byte and the logical length `UNSPEC` (R257, R296, U1, log 4);
the length stays within the capacity (R31). -/
def Buffer.afterFailedDecode (b : Buffer) (draw : Nat) : Buffer :=
  { b.forget draw with length := Config.freeLogicalLength draw % (b.capacity + 1) }

/-- What an error does to OUT. Only `BufferOutOfBounds` can occur once OUT may have been written (R222, R257, R258). -/
def State.outAfterError (s : State) (k : Status) : List Buffer :=
  match s.outBuf with
  | none => s.mem
  | some o =>
    match s.buf? o with
    | none => s.mem
    | some b =>
      match s.phase with
      | .idle => s.mem
      | .encHeader | .encBody | .encTail => s.mem.set o (b.afterFailedEncode s.draws)
      | .decGroups | .decHeader | .decBody | .decTail =>
        if k = .bufferOutOfBounds then s.mem.set o (b.afterFailedDecode s.draws) else s.mem

/-- TAKING AN ERROR. STATUS gets the kind, nothing is saved, no value is returned; the stream becomes dead; if a Codec call is
in progress it ends, its stream is discarded with it and OUT is left as the call's contract says; control goes back to the host
(R290, R291). No handler exists, so nothing returns from it (R297). -/
def takeError (k : Status) (s : State) : State :=
  let t : State :=
    { s with
      status := k, result := .none
      mem := s.outAfterError k
      bs := s.bs.map fun bs => bs.kill s.draws
      draws := s.draws + 1 }
  match s.phase with
  | .idle => t
  | _ => t.leaveCall

/-- The end of an operation the host calls on the BitStream or the MatchFinder: STATUS `Ok` and the value returned, or the error
taken, or the refusal. -/
def settle (r : Res Ret) : Host.Outcome State Fault Refusal :=
  match r with
  | .ok s v => .next { s with status := .ok, result := v }
  | .raised k s => .next (takeError k s)
  | .refused e => .refused e
  | .stuck f => .fault f

/-- The end of a unit of the format inside a call: STATUS is written only at the return of the call (R53). -/
def settleUnit (r : Res Unit) : Host.Outcome State Fault Refusal :=
  match r with
  | .ok s _ => .next s
  | .raised k s => .next (takeError k s)
  | .refused e => .refused e
  | .stuck f => .fault f

/-- The end of a Codec call. -/
def settleCall (r : Res Ret) : Host.Outcome State Fault Refusal :=
  match r with
  | .ok s v => .next (s.endCall v)
  | .raised k s => .next (takeError k s)
  | .refused e => .refused e
  | .stuck f => .fault f

/-! ### The host's allocation service (R214) -/

/-- The host's answer to the next allocation request: the oldest answer given, or a free one (U16, log 5). -/
def State.nextGrant (s : State) : Bool :=
  match s.grants with
  | [] => Config.allocGranted s.draws
  | g :: _ => g

/-- `host_alloc(capacity)` (R214): a fresh buffer of exactly that capacity, every byte `UNSPEC`, logical length 0, or
`CouldNotAllocate` with no other effect. -/
def hostAlloc (capacity : Nat) (s : State) : Res BufId :=
  let t : State := { s with grants := s.grants.tail, draws := s.draws + 1 }
  if s.nextGrant then
    .ok { t with mem := s.mem ++ [{ capacity := capacity, length := 0, cells := [], tag := s.draws }] } s.mem.length
  else .raised .couldNotAllocate t

/-! ### Bits of a stream (40_bitstream_bits.md) -/

/-- The end of a write on a stream and its buffer. -/
inductive Written where
  | ok (bs : BitStream) (b : Buffer)
  | raised (bs : BitStream) (b : Buffer)

/-- The end of a read on a stream. -/
inductive Taken (α : Type) where
  | ok (bs : BitStream) (v : α)
  | raised (bs : BitStream)

/-- `write_bit` on a `W` stream (R142): shift in, count, and flush at the eighth bit. -/
def pushBit (bs : BitStream) (b : Buffer) (bit : Bool) : Written :=
  let acc : Byte := (bs.byteBuffer <<< 1) ||| BitVec.ofNat 8 bit.toNat
  if bs.bitCount + 1 = 8 then
    match b.memWrite bs.position acc with
    | none => .raised bs b
    | some b' => .ok { bs with position := bs.position + 1, byteBuffer := 0#8, bitCount := 0 } b'
  else .ok { bs with byteBuffer := acc, bitCount := bs.bitCount + 1 } b

/-- Bits appended one after another; what was written before a failing bit stays written (R149). -/
def pushBits (bs : BitStream) (b : Buffer) : List Bool → Written
  | [] => .ok bs b
  | x :: xs =>
    match pushBit bs b x with
    | .ok bs' b' => pushBits bs' b' xs
    | .raised bs' b' => .raised bs' b'

/-- `flush_partial` on a `W` stream (R154). -/
def flushBits (bs : BitStream) (b : Buffer) : Written :=
  if 0 < bs.bitCount then
    match b.memWrite bs.position (bs.byteBuffer <<< (8 - bs.bitCount)) with
    | none => .raised bs b
    | some b' => .ok { bs with position := bs.position + 1, byteBuffer := 0#8, bitCount := 0 } b'
  else .ok bs b

/-- `read_bit` on an `R` stream (R145): the pull is lazy, at the start of the read that needs it. -/
def pullBit (bs : BitStream) (b : Buffer) : Taken Bool :=
  if bs.bitCount = 0 then
    match b.memRead bs.position with
    | none => .raised bs
    | some v => .ok { bs with byteBuffer := v, position := bs.position + 1, bitCount := 7 } (v.getLsbD 7)
  else .ok { bs with bitCount := bs.bitCount - 1 } (bs.byteBuffer.getLsbD (bs.bitCount - 1))

/-- The next `n` bits, in stream order; the bits before a failing one are consumed (R152). -/
def pullBits : Nat → BitStream → Buffer → Taken (List Bool)
  | 0, bs, _ => .ok bs []
  | n + 1, bs, b =>
    match pullBit bs b with
    | .raised bs' => .raised bs'
    | .ok bs' x =>
      match pullBits n bs' b with
      | .raised bs'' => .raised bs''
      | .ok bs'' xs => .ok bs'' (x :: xs)

/-- `read_uint32(bits)`: `r <- (r << 1) | read_bit()`, `bits` times (R151). -/
def pullField (n : Nat) (bs : BitStream) (b : Buffer) : Taken Nat :=
  match pullBits n bs b with
  | .raised bs' => .raised bs'
  | .ok bs' xs => .ok bs' (bitsValue xs)

/-- The groups of a VLQ, `shift` being the loop register before the next group and `fuel` the groups that may still come
(R174, R176). -/
def pullGroups : Nat → Nat → BitStream → Buffer → Taken (List Byte)
  | 0, _, bs, _ => .ok bs []
  | f + 1, shift, bs, b =>
    match pullField 8 bs b with
    | .raised bs' => .raised bs'
    | .ok bs' v =>
      if vlqStop (BitVec.ofNat 8 v) (shift + 7) then .ok bs' [BitVec.ofNat 8 v]
      else
        match pullGroups f (shift + 7) bs' b with
        | .raised bs'' => .raised bs''
        | .ok bs'' gs => .ok bs'' (BitVec.ofNat 8 v :: gs)

/-- The value of a list of groups, the first at `shift` (R102, R174). -/
def vlqValue : Word → Nat → List Byte → Word
  | result, _, [] => result
  | result, shift, g :: gs => vlqValue (vlqAdd result shift g) (shift + 7) gs

/-- `read_7bit_uint32` on an `R` stream (R174). -/
def pullVlq (bs : BitStream) (b : Buffer) : Taken Word :=
  match pullGroups 5 0 bs b with
  | .raised bs' => .raised bs'
  | .ok bs' gs => .ok bs' (vlqValue 0#32 0 gs)

/-- The bits of one token: the flag, and the fields it announces (R104, R109, R249). -/
def pullToken (c : Cfg) (bs : BitStream) (b : Buffer) : Taken (List Bool) :=
  match pullBit bs b with
  | .raised bs' => .raised bs'
  | .ok bs' flag =>
    match pullBits (if flag then c.offsetBits + c.lengthBits else 8) bs' b with
    | .raised bs'' => .raised bs''
    | .ok bs'' xs => .ok bs'' (flag :: xs)

end Sys2Proof.Machine
end

