-- ==== Sys2Proof/Machine/Operands.lean ====
section
/-! DEFINITION. The operand forms of the operations, each with its precondition: the live stream in the direction an operation
needs (R37, R38, R157, R158), a ByteBuffer, a Config (R44, R210), a field width (R148, R151). -/

namespace Sys2Proof.Machine

/-- A Config's invariants, as `codec_init` checks them (R210). -/
def configLegal (c : Cfg) : Bool :=
  decide (c.offsetBits + c.lengthBits ≤ 31) && decide (1 ≤ c.minimumLength)

/-- The operand is a Config, or the call is outside its precondition (R44, D17). -/
def withConfig {α : Type} (c : Cfg) (k : Res α) : Res α := if configLegal c then k else .refused .invalidConfig

/-- A Config stands for its field widths and limits (R43). -/
def maxOffset (c : Cfg) : Nat := 2 ^ c.offsetBits - 1

/-- See `maxOffset`. -/
def maxLength (c : Cfg) : Nat := 2 ^ c.lengthBits - 1

/-- The operand is a ByteBuffer. -/
def withBuffer {α : Type} (s : State) (id : BufId) (k : Buffer → Res α) : Res α :=
  match s.buf? id with
  | none => .refused .noBuffer
  | some b => k b

/-- The live stream and its buffer, for an operation in direction `d` (R37, R38, R157, R158). -/
def withStream {α : Type} (s : State) (d : Dir) (k : BitStream → Buffer → Res α) : Res α :=
  match s.bs with
  | none => .refused .noStream
  | some bs =>
    if bs.dead then .refused .deadStream
    else if bs.dir ≠ d then .refused .wrongDirection
    else withBuffer s bs.buf fun b => k bs b

/-- A write operation on the live `W` stream: its registers, and on a flush one byte of its buffer, change (R159). -/
def writeStream (s : State) (f : BitStream → Buffer → Written) : Res Unit :=
  withStream s .W fun bs b =>
    match f bs b with
    | .ok bs' b' => .ok ((s.putBuf bs.buf b').putStream (some bs')) ()
    | .raised bs' b' => .raised .bufferOutOfBounds ((s.putBuf bs.buf b').putStream (some bs'))

/-- A read operation on the live `R` stream: its registers change, no buffer does (R83, R159). -/
def readStream {α : Type} (s : State) (f : BitStream → Buffer → Taken α) : Res α :=
  withStream s .R fun bs b =>
    match f bs b with
    | .ok bs' v => .ok (s.putStream (some bs')) v
    | .raised bs' => .raised .bufferOutOfBounds (s.putStream (some bs'))

/-- The `bits` operand of the field operations: at most 32 (R148, R151, D11). -/
def withWidth {α : Type} (bits : Nat) (k : Res α) : Res α := if 32 < bits then .refused .fieldTooWide else k

/-- A value handed back where the operation returns none. -/
def Res.noValue (r : Res Unit) : Res Ret := r.bind fun s _ => .ok s .none

end Sys2Proof.Machine
end

