-- ==== Sys2Proof/Machine/Flags.lean ====
section
/-! DEFINITION. The block has no arithmetic flags or condition codes (R53). What stands in their place: the numbers of STATUS
(R281), and the two bits of the stream that the source calls flags (R54): a token's flag bit (R104) and a VLQ group's
continuation flag (R101), with what a group does to the VLQ loop registers (R174). -/

namespace Sys2Proof.Machine

/-- The number of a result kind (R281). -/
def Status.code : Status → BitVec 3
  | .ok => 0#3
  | .noOp => 1#3
  | .bufferOutOfBounds => 2#3
  | .couldNotAllocate => 3#3
  | .wrongOutputSize => 4#3

/-- One group read into the VLQ loop registers: the payload is added, the shift advances, and the continuation flag or the fifth
group ends the loop (R174, R176). -/
def vlqAfter (r : VlqRegs) (g : Byte) : VlqRegs :=
  { result := vlqAdd r.result r.shift g, shift := r.shift + 7, stopped := vlqStop g (r.shift + 7) }

/-- The group byte of VLQ.LAST: continuation flag 0 (R101). -/
def lastGroup (payload : BitVec 7) : Byte := payload.setWidth 8

/-- The group byte of VLQ.CONT: continuation flag 1 (R101). -/
def contGroup (payload : BitVec 7) : Byte := payload.setWidth 8 ||| 0x80#8

/-- Which way a token row is executed: by the decoder on the live `R` stream, by the encoder on the live `W` stream (R37). -/
def byDirection (s : State) (reader writer : Res Unit) : Res Unit :=
  match s.bs with
  | none => .refused .noStream
  | some bs =>
    if bs.dead then .refused .deadStream
    else
      match bs.dir with
      | .R => reader
      | .W => writer

end Sys2Proof.Machine
end

