-- ==== Sys2Proof/Machine/BitStream.lean ====
section
/-! DEFINITION. The BitStream operations on bits and fields (40_bitstream_bits.md). -/

namespace Sys2Proof.Machine

/-- R140. `bs_create(buffer, dir)`: a fresh stream over the buffer; no byte is touched. -/
def execBsCreate (buffer : BufId) (dir : Dir) (s : State) : Host.Outcome State Fault Refusal :=
  settle (withBuffer s buffer fun _ => .ok (s.putStream (some (BitStream.fresh buffer dir))) .none)

/-- R142 to R144. `write_bit(bit)`: only bit 0 of the operand counts. -/
def execWriteBit (bit : Word) (s : State) : Host.Outcome State Fault Refusal :=
  settle (writeStream s fun bs b => pushBit bs b (bit.getLsbD 0)).noValue

/-- R145 to R147. `read_bit() -> bit`. -/
def execReadBit (s : State) : Host.Outcome State Fault Refusal :=
  settle ((readStream s pullBit).bind fun t x => .ok t (.bit x))

/-- R148 to R150. `write_uint32(value, bits)`. -/
def execWriteUint32 (value : Word) (bits : Nat) (s : State) : Host.Outcome State Fault Refusal :=
  settle (withWidth bits (writeStream s fun bs b => pushBits bs b (fieldBits value.toNat bits))).noValue

/-- R151, R152. `read_uint32(bits) -> value`. -/
def execReadUint32 (bits : Nat) (s : State) : Host.Outcome State Fault Refusal :=
  settle (withWidth bits ((readStream s (pullField bits)).bind fun t v => .ok t (.word (BitVec.ofNat 32 v))))

/-- R154, R155. `flush_partial()`. -/
def execFlushPartial (s : State) : Host.Outcome State Fault Refusal :=
  settle (writeStream s flushBits).noValue

end Sys2Proof.Machine
end

