-- ==== Sys2Proof/Machine/Finder.lean ====
section
/-! DEFINITION. The MatchFinder (42_matchfinder.md). -/

namespace Sys2Proof.Machine

/-- The run length of a candidate: equal bytes from `cand` and from `index` on, `room` bytes being left before the end of the
buffer (R193). It is not capped, and may pass `index`. -/
def runLength (b : Buffer) : Nat → Nat → Nat → Nat
  | 0, _, _ => 0
  | room + 1, cand, index =>
    if b.byteAt cand = b.byteAt index then runLength b room (cand + 1) (index + 1) + 1 else 0

/-- The best candidate so far: its run and its index. -/
abbrev Best := Nat × Option Nat

/-- One candidate against the best so far: on equal runs the later one is kept (R194). -/
def betterOf (best : Best) (cand run : Nat) : Best := if best.1 ≤ run then (run, some cand) else best

/-- The ascending scan of `count` candidates from `cand` on (R192, R194). -/
def scanFrom (b : Buffer) (index : Nat) : Nat → Nat → Best → Best
  | 0, _, best => best
  | count + 1, cand, best =>
    scanFrom b index count (cand + 1) (betterOf best cand (runLength b (b.length - index) cand index))

/-- The backward distance and capped length of the best candidate; length 0 when there is none (R195). -/
def foundPair (index cap : Nat) (best : Best) : Nat × Nat :=
  match best.2 with
  | none => (0, 0)
  | some cand => (index - cand, min best.1 cap)

/-- The search: tail guard (R191), window (R192), scan (R193, R194), result (R195). `free` is the `UNSPEC` offset of a result
of length 0 (R46, U9). -/
def findMatch (b : Buffer) (index : Nat) (c : Cfg) (free : Nat) : Match :=
  if b.length ≤ index + c.minimumLength then ⟨free, 0⟩
  else
    let start := index - maxOffset c
    let p := foundPair index (maxLength c) (scanFrom b index (index - start) start (0, none))
    if p.2 = 0 then ⟨free, 0⟩ else ⟨p.1, p.2⟩

/-- `find_best_match` on a buffer, its result in the Match registers. -/
def searchAt (b : Buffer) (index : Nat) (c : Cfg) (s : State) : State :=
  { s with mtch := findMatch b index c (Config.freeOffset s.draws).toNat, draws := s.draws + 1 }

/-- R190 to R198. `find_best_match(buffer, index, config) -> Match`. It writes no buffer byte and raises nothing (R196). That
the host's own stream survives it (log 11), and that `index` and `declared_length` keep their values through it (log 3), is the
model's choice. -/
def execFindBestMatch (buffer : BufId) (index : Nat) (config : Cfg) (s : State) : Host.Outcome State Fault Refusal :=
  settle (withConfig config (withBuffer s buffer fun b =>
    .ok (searchAt b index config s) (.mtch (searchAt b index config s).mtch)))

end Sys2Proof.Machine
end

