-- ==== Sys2Proof/Machine/Tokens.lean ====
section
/-! DEFINITION. The header, the tokens and the padding. On the live `R` stream each is executed as the decoder executes it
(44_codec_decode.md); on the live `W` stream as the encoder writes it (43_codec_encode.md; R118). -/

namespace Sys2Proof.Machine

/-- OUT of the decode call in progress. -/
def withOutput (s : State) (k : BufId → Buffer → Res Unit) : Res Unit :=
  match s.outBuf with
  | none => .refused .noOutput
  | some o => withBuffer s o fun b => k o b

/-- Decoder, step 2 and the start of step 3 (R243, R245): the declared length must be OUT's capacity; `index` starts at 0. -/
def readHdr (value : Word) (s : State) : Res Unit :=
  withOutput s fun _ b =>
    if value.toNat ≠ b.capacity then .raised .wrongOutputSize { s with declared := value }
    else .ok { s with declared := value, index := 0 } ()

/-- Encoder, step 3 and the start of step 4 (R215). -/
def writeHdr (value : Word) (s : State) : Res Unit :=
  (writeStream s fun bs b => pushBits bs b (vlqBits value)).bind fun t _ => .ok { t with index := 0 } ()

/-- Decoder, literal token: store the byte at `index`, advance by 1 (R248). -/
def readLiteral (byte : Byte) (s : State) : Res Unit :=
  withOutput s fun o b =>
    match b.memWrite s.index byte with
    | none => .raised .bufferOutOfBounds s
    | some b' => .ok { s.putBuf o b' with index := s.index + 1 } ()

/-- Encoder, literal token (R218): flag bit 0, the byte, advance by 1. -/
def writeLiteral (byte : Byte) (s : State) : Res Unit :=
  (writeStream s fun bs b => pushBits bs b (literalBits byte)).bind fun t _ => .ok { t with index := t.index + 1 } ()

/-- The pair copy, one byte a step in increasing order (R87, R250): each step reads OUT as the steps before left it. `dst` is
the destination index of the next step. The flag says whether every step was in bounds (R252, R253). -/
def copyForward (offset : Nat) : Nat → Nat → Buffer → Buffer × Bool
  | 0, _, b => (b, true)
  | n + 1, dst, b =>
    match b.memRead ((dst : Int) - offset) with
    | none => (b, false)
    | some v =>
      match b.memWrite dst v with
      | none => (b, false)
      | some b' => copyForward offset n (dst + 1) b'

/-- Decoder, pair token (R250 to R255): copy, then advance `index` by `length`. -/
def readPair (offset length : Nat) (s : State) : Res Unit :=
  withOutput s fun o b =>
    let r := copyForward offset length s.index b
    if r.2 then .ok { s.putBuf o r.1 with index := s.index + length } ()
    else .raised .bufferOutOfBounds (s.putBuf o r.1)

/-- Encoder, pair token (R217): flag bit 1, the offset, the length, advance by `length`. -/
def writePair (ob lb offset length : Nat) (s : State) : Res Unit :=
  (writeStream s fun bs b => pushBits bs b (pairBits ob lb offset length)).bind fun t _ =>
    .ok { t with index := t.index + length } ()

/-- The header, either way. -/
def runHdr (value : Word) (s : State) : Res Unit := byDirection s (readHdr value s) (writeHdr value s)

/-- A literal token, either way. -/
def runLiteral (byte : Byte) (s : State) : Res Unit := byDirection s (readLiteral byte s) (writeLiteral byte s)

/-- A pair token, either way; written, its widths are the Config's. -/
def runPair (offset length : Nat) (s : State) : Res Unit :=
  byDirection s (readPair offset length s)
    (match s.cfg with
     | none => .refused .noConfig
     | some c => writePair c.offsetBits c.lengthBits offset length s)

/-- A pair token of the widths (10, 6), either way. -/
def runPairDemo (offset : BitVec 10) (length : BitVec 6) (s : State) : Res Unit :=
  byDirection s (readPair offset.toNat length.toNat s) (writePair 10 6 offset.toNat length.toNat s)

/-- The padding, either way: the decoder never looks at it (R108, R246); the encoder's is `flush_partial` (R154). -/
def runPad (s : State) : Res Unit := byDirection s (.ok s ()) (writeStream s flushBits)

/-- R103, R215, R243, R245. HDR. -/
def execHdr (value : Word) (s : State) : Host.Outcome State Fault Refusal := settleUnit (runHdr value s)

/-- R105, R218, R248. LITERAL. -/
def execLiteral (byte : Byte) (s : State) : Host.Outcome State Fault Refusal := settleUnit (runLiteral byte s)

/-- R106, R217, R249 to R255. PAIR. -/
def execPair (offset length : Nat) (s : State) : Host.Outcome State Fault Refusal :=
  settleUnit (runPair offset length s)

/-- R106, R217, R249 to R255. PAIR@cfg(10,6,2). -/
def execPairDemo (offset : BitVec 10) (length : BitVec 6) (s : State) : Host.Outcome State Fault Refusal :=
  settleUnit (runPairDemo offset length s)

/-- R108, R154, R246. PAD. How many bits the padding has is fixed by the stream, on either side (log 9). -/
def execPad (_k : Nat) (s : State) : Host.Outcome State Fault Refusal := settleUnit (runPad s)

end Sys2Proof.Machine
end

