-- ==== Sys2Proof/Machine/Vlq.lean ====
section
/-! DEFINITION. The VLQ coder (41_bitstream_vlq.md): the two operations, and the two group rows of the format. -/

namespace Sys2Proof.Machine

/-- R170, R171. `write_7bit_uint32(value)`: each group is an 8-bit field at the current bit position. -/
def execWrite7bitUint32 (value : Word) (s : State) : Host.Outcome State Fault Refusal :=
  settle (writeStream s fun bs b => pushBits bs b (vlqBits value)).noValue

/-- R174 to R177. `read_7bit_uint32() -> value`. -/
def execRead7bitUint32 (s : State) : Host.Outcome State Fault Refusal :=
  settle ((readStream s pullVlq).bind fun t v => .ok t (.word v))

/-- One VLQ group: read, it enters the loop registers (R174); written, it is an 8-bit field (R170). -/
def runGroup (g : Byte) (s : State) : Res Unit :=
  byDirection s (.ok { s with vlq := vlqAfter s.vlq g } ())
    (writeStream s fun bs b => pushBits bs b (fieldBits g.toNat 8))

/-- R101, R170, R174. VLQ.LAST. -/
def execVlqLast (payload : BitVec 7) (s : State) : Host.Outcome State Fault Refusal :=
  settleUnit (runGroup (lastGroup payload) s)

/-- R101, R170, R174, R176. VLQ.CONT: as the fifth group it ends the loop too. -/
def execVlqCont (payload : BitVec 7) (s : State) : Host.Outcome State Fault Refusal :=
  settleUnit (runGroup (contGroup payload) s)

end Sys2Proof.Machine
end

