-- ==== Sys2Proof/Machine/Fetch.lean ====
section
/-! DEFINITION. The units a Codec call is made of: on the decoder's side the next header, group, token or padding, fetched from
the live `R` stream and decoded; on the encoder's side the next one to write, chosen from the input (R215, R216); and what
executing a unit does. -/

namespace Sys2Proof.Machine

/-! ### The decoder's side -/

/-- What the decoder answered for fetched bits, at the state after the fetch. -/
def decoded (s : State) (r : Except DecodeError (Instr × List Bool)) : Res Instr :=
  match r with
  | .ok (i, _) => .ok s i
  | .error e => .refused (.undecodable e)

/-- The Config of the call in progress. -/
def withCallConfig {α : Type} (s : State) (k : Cfg → Res α) : Res α :=
  match s.cfg with
  | none => .refused .noConfig
  | some c => k c

/-- The next VLQ group of the header (R101, R174). -/
def fetchGroup (s : State) : Res Instr :=
  (readStream s (pullBits 8)).bind fun t xs => decoded t (decodeGroup xs)

/-- The header (R103, R243): its groups until the loop of R174 ends; if they have been read one by one, their value. -/
def fetchHeader (s : State) : Res Instr :=
  if s.vlq.stopped then .ok s (.hdr s.vlq.result)
  else (readStream s (pullGroups 5 0)).bind fun t gs => decoded t (decodeHeader (groupBits gs))

/-- The next token of the body (R104, R109); all its fields are read before it has any effect (R249). -/
def fetchToken (s : State) : Res Instr :=
  withCallConfig s fun c => (readStream s (pullToken c)).bind fun t xs => decoded t (decodeToken c xs)

/-- The padding: the unread bits of the last byte, which are not looked at (R108, R246). -/
def fetchPad (s : State) : Res Instr := withStream s .R fun bs _ => .ok s (.pad bs.bitCount)

/-! ### The encoder's side -/

/-- IN of the encode call in progress. -/
def withInput {α : Type} (s : State) (k : Buffer → Res α) : Res α :=
  match s.inBuf with
  | none => .refused .noBuffer
  | some i => withBuffer s i k

/-- The header to write: the input's length (R103, R215 step 3). -/
def chooseHeader (s : State) : Res Instr := withInput s fun b => .ok s (.hdr (BitVec.ofNat 32 b.length))

/-- The token to write at `index` (R216): one search; a pair if and only if the match is at least `minimum_length` long, else
the byte of the input as a literal (R218). -/
def chooseToken (s : State) : Res Instr :=
  withCallConfig s fun c => withInput s fun b =>
    let t := searchAt b s.index c s
    if c.minimumLength ≤ t.mtch.length then .ok t (mkPair c t.mtch.offset t.mtch.length)
    else
      match b.memRead s.index with
      | none => .raised .bufferOutOfBounds t
      | some v => .ok t (.literal v)

/-- The padding to write: `(8 - (total_bits mod 8)) mod 8` bits (R108). -/
def choosePad (s : State) : Res Instr := withStream s .W fun bs _ => .ok s (.pad ((8 - bs.bitCount) % 8))

/-! ### One unit -/

/-- The next unit of the call in progress, by the place it has reached. -/
def nextUnit (s : State) : Res Instr :=
  match s.phase with
  | .idle => .refused .noOutput
  | .decGroups => fetchGroup s
  | .decHeader => fetchHeader s
  | .decBody => fetchToken s
  | .decTail => fetchPad s
  | .encHeader => chooseHeader s
  | .encBody => chooseToken s
  | .encTail => choosePad s

/-- Executing a unit of the format. A command is no unit of the format. -/
def runUnit (i : Instr) (s : State) : Res Unit :=
  match i with
  | .vlqLast p => runGroup (lastGroup p) s
  | .vlqCont p => runGroup (contGroup p) s
  | .hdr v => runHdr v s
  | .literal b => runLiteral b s
  | .pair o l => runPair o l s
  | .pairDemo o l => runPairDemo o l s
  | .pad _ => runPad s
  | .bsCreate _ _ | .writeBit _ | .readBit | .writeUint32 _ _ | .readUint32 _ | .flushPartial
  | .write7bitUint32 _ | .read7bitUint32 | .findBestMatch _ _ _ | .codecInit _ _ _ | .upperBound _
  | .encode _ _ | .peekOriginalLength _ | .decodeInto _ _ _ | .decode _ _ => .refused (.undecodable .wrongSpace)

/-! ### The ends of a Codec call -/

/-- The logical length of IN; 0 if there is none. -/
def State.inputLength (s : State) : Nat :=
  match s.inBuf with
  | none => 0
  | some i => ((s.buf? i).map Buffer.length).getD 0

/-- The capacity of IN; 0 if there is none. -/
def State.inputCapacity (s : State) : Nat :=
  match s.inBuf with
  | none => 0
  | some i => ((s.buf? i).map Buffer.capacity).getD 0

/-- Decoder, step 4: `OUT.length <- declared_length` (R243, R259). -/
def decodeDone (s : State) : Res Unit :=
  withOutput s fun o b => .ok (s.putBuf o { b with length := s.declared.toNat }) ()

/-- Encoder, step 6: `OUT.length <- BS.position` (R215, R220). -/
def encodeDone (s : State) : Res Unit :=
  withStream s .W fun bs b => .ok (s.putBuf bs.buf { b with length := bs.position }) ()

/-- The place reached after a unit: the scan ends on `index == declared_length` (R246) or on `index == n` (R219). -/
def State.advance (s : State) : State :=
  match s.phase with
  | .idle => s
  | .decGroups => if s.vlq.stopped then { s with phase := .decHeader } else s
  | .decHeader | .decBody =>
    { s with phase := if s.index = s.declared.toNat then .decTail else .decBody }
  | .decTail => s
  | .encHeader | .encBody =>
    { s with phase := if s.index < s.inputLength then .encBody else .encTail }
  | .encTail => s

/-- What follows a unit: the next place, or after the padding the return of the call. -/
def afterUnit (s : State) : Host.Outcome State Fault Refusal :=
  match s.phase with
  | .decTail => settleCall (decodeDone s).noValue
  | .encTail => settleCall ((encodeDone s).bind fun t _ => .ok t ((t.outBuf.map Ret.buf).getD .none))
  | .idle | .decGroups | .decHeader | .decBody | .encHeader | .encBody => .next s.advance

end Sys2Proof.Machine
end

