-- ==== Sys2Proof/Machine/Codec.lean ====
section
/-! DEFINITION. The Codec operations (43_codec_encode.md, 44_codec_decode.md). Each is one transition (R16); inside it the units
of Machine/Fetch.lean run one after another in the order of the pseudocode. -/

namespace Sys2Proof.Machine

/-- R210. `codec_init(offset_bits, length_bits, minimum_length) -> Config`. That the host's own stream survives it (log 11), and
that `index`, `declared_length` and the Match keep their values through it (log 3), is the model's choice. -/
def execCodecInit (offsetBits lengthBits minimumLength : Nat) (s : State) : Host.Outcome State Fault Refusal :=
  let c : Cfg := ⟨offsetBits, lengthBits, minimumLength⟩
  settle (withConfig c (.ok { s with cfg := some c } (.cfg c)))

/-- `ceil_div(32 + 9 * n, 8)` over the naturals (R212, D20). -/
def upperBoundBytes (n : Nat) : Nat := (32 + 9 * n + 7) / 8

/-- R212. `upper_bound(n) -> bytes`. That the host's own stream survives it (log 11), and that `index`, `declared_length` and the
Match keep their values through it (log 3), is the model's choice. -/
def execUpperBound (n : Nat) (s : State) : Host.Outcome State Fault Refusal :=
  settle (.ok s (.nat (upperBoundBytes n)))

/-! ### encode -/

/-- Steps 1 and 2 of `encode` (R215, R222): `NoOp`, the length limit, the allocation, the stream. -/
def openEncode (config : Cfg) (input : BufId) (s : State) : Res Unit :=
  withConfig config (withBuffer s input fun b =>
    let t : State := { s.beginCall .encHeader (some input) none with cfg := some config }
    if b.length = 0 then .raised .noOp t
    else if Config.nMax < b.length then .refused .inputTooLong
    else
      (hostAlloc (upperBoundBytes b.length) t).bind fun u o =>
        .ok { u with outBuf := some o, bs := some (BitStream.fresh o .W) } ())

/-- Step 4 of `encode` (R215, R219): a token at a time while `index < n`. -/
def scanEncode : Nat → State → Res Unit
  | 0, _ => .stuck .scanBudget
  | f + 1, s =>
    if s.index < s.inputLength then
      ((chooseToken s).bind fun t i => runUnit i t).bind fun t _ => scanEncode f t
    else .ok s ()

/-- Steps 3 to 6 of `encode`. Every token covers at least one byte (R20, R219), so `n + 1` rounds are enough. -/
def bodyEncode (s : State) : Res Unit :=
  (((chooseHeader s).bind fun t i => runUnit i t).bind fun t _ => scanEncode (t.inputLength + 1) t).bind fun t _ =>
    (runPad t).bind fun u _ => encodeDone u

/-- R215 to R223. `encode(config, input) -> output`. -/
def execEncode (config : Cfg) (input : BufId) (s : State) : Host.Outcome State Fault Refusal :=
  settleCall ((openEncode config input s).bind fun t _ =>
    (bodyEncode t).bind fun u _ => .ok u ((u.outBuf.map Ret.buf).getD .none))

/-! ### peek_original_length -/

/-- The header read with a stream of its own, which is then discarded (R240). -/
def peekHeader (input : BufId) (s : State) : Res Word :=
  (readStream (s.putStream (some (BitStream.fresh input .R))) pullVlq).bind fun t v => .ok (t.putStream none) v

/-- R240, R241. `peek_original_length(input) -> length`. -/
def execPeekOriginalLength (input : BufId) (s : State) : Host.Outcome State Fault Refusal :=
  settleCall (withBuffer s input fun b =>
    let t := s.beginCall .decHeader (some input) none
    if b.length = 0 then .raised .noOp t
    else (peekHeader input t).bind fun u v => .ok u (.word v))

/-! ### decode_into and decode -/

/-- Step 1 of `decode_into` (R243, R244), and its stream. OUT must be another buffer than IN (R90). One buffer of capacity 0 as both
shares no byte with itself, so that R90 leaves open whether step 1 gives `NoOp`; that it is refused too is the model's choice (logs
12 and 18). -/
def openDecode (config : Cfg) (input output : BufId) (s : State) : Res Unit :=
  withConfig config (withBuffer s input fun i => withBuffer s output fun o =>
    if input = output then .refused .aliasedBuffers
    else
      let t : State := { s.beginCall .decHeader (some input) (some output) with cfg := some config }
      if i.length = 0 ∨ o.capacity = 0 then .raised .noOp t
      else .ok (t.putStream (some (BitStream.fresh input .R))) ())

/-- Step 3 of `decode_into` (R243, R246): a token at a time until `index == declared_length`. -/
def scanDecode : Nat → State → Res Unit
  | 0, _ => .stuck .scanBudget
  | f + 1, s =>
    if s.index = s.declared.toNat then .ok s ()
    else ((fetchToken s).bind fun t i => runUnit i t).bind fun t _ => scanDecode f t

/-- Steps 2 to 4 of `decode_into`. Every token consumes at least one bit of the input (R20), so one round for each bit of the
capacity and two more are enough. -/
def bodyDecode (s : State) : Res Unit :=
  (((fetchHeader s).bind fun t i => runUnit i t).bind fun t _ => scanDecode (8 * t.inputCapacity + 2) t).bind fun t _ =>
    decodeDone t

/-- R243 to R259. `decode_into(config, input, output)`. -/
def execDecodeInto (config : Cfg) (input output : BufId) (s : State) : Host.Outcome State Fault Refusal :=
  settleCall ((openDecode config input output s).bind fun t _ => bodyDecode t).noValue

/-- R260, R261. `decode(config, input) -> output`: peek, allocate exactly the declared length, `decode_into`. -/
def execDecode (config : Cfg) (input : BufId) (s : State) : Host.Outcome State Fault Refusal :=
  settleCall (withConfig config (withBuffer s input fun b =>
    let t : State := { s.beginCall .decHeader (some input) none with cfg := some config }
    if b.length = 0 then .raised .noOp t
    else (peekHeader input t).bind fun u d =>
      if d = 0#32 then .raised .noOp u
      else (hostAlloc d.toNat u).bind fun v o =>
        (openDecode config input o v).bind fun w _ =>
          (bodyDecode w).bind fun x _ => .ok x (.buf o)))

end Sys2Proof.Machine
end

