-- ==== Sys2Proof/Machine/Dispatch.lean ====
section
/-! DEFINITION. One arm per instruction. -/

namespace Sys2Proof.Machine

def exec (i : Instr) (s : State) : Host.Outcome State Fault Refusal :=
  match i with
  -- the rows of the compressed format
  | .vlqLast payload => Sys2Proof.Machine.execVlqLast payload s
  | .vlqCont payload => Sys2Proof.Machine.execVlqCont payload s
  | .hdr value => Sys2Proof.Machine.execHdr value s
  | .literal byte => Sys2Proof.Machine.execLiteral byte s
  | .pair offset length => Sys2Proof.Machine.execPair offset length s
  | .pairDemo offset length => Sys2Proof.Machine.execPairDemo offset length s
  | .pad k => Sys2Proof.Machine.execPad k s
  -- the operations
  | .bsCreate buffer dir => Sys2Proof.Machine.execBsCreate buffer dir s
  | .writeBit bit => Sys2Proof.Machine.execWriteBit bit s
  | .readBit => Sys2Proof.Machine.execReadBit s
  | .writeUint32 value bits => Sys2Proof.Machine.execWriteUint32 value bits s
  | .readUint32 bits => Sys2Proof.Machine.execReadUint32 bits s
  | .flushPartial => Sys2Proof.Machine.execFlushPartial s
  | .write7bitUint32 value => Sys2Proof.Machine.execWrite7bitUint32 value s
  | .read7bitUint32 => Sys2Proof.Machine.execRead7bitUint32 s
  | .findBestMatch buffer index config => Sys2Proof.Machine.execFindBestMatch buffer index config s
  | .codecInit offsetBits lengthBits minimumLength => Sys2Proof.Machine.execCodecInit offsetBits lengthBits minimumLength s
  | .upperBound n => Sys2Proof.Machine.execUpperBound n s
  | .encode config input => Sys2Proof.Machine.execEncode config input s
  | .peekOriginalLength input => Sys2Proof.Machine.execPeekOriginalLength input s
  | .decodeInto config input output => Sys2Proof.Machine.execDecodeInto config input output s
  | .decode config input => Sys2Proof.Machine.execDecode config input s

end Sys2Proof.Machine
end

