-- ==== Sys2Proof/Machine/Control.lean ====
section
/-! DEFINITION. What a step does around `exec`: taking the host's next request when no call is in progress, or running the next
unit of the call in progress; and how an opcode-table word is placed so that the next step runs it. -/

namespace Sys2Proof.Machine

/-- A buffer the host provides (R30, R31): the bytes it wrote, the rest unspecified. -/
def takeBuffer (capacity length : Nat) (cells : List Host.Cell) (s : State) : Host.Outcome State Fault Refusal :=
  let b : Buffer := { capacity := capacity, length := length, cells := cells, tag := s.draws }
  if b.wf then .next { s with mem := s.mem ++ [b], draws := s.draws + 1 } else .refused .badBuffer

/-- Bytes written over a buffer's, one after another. -/
def cellPutAll (cells : List Host.Cell) (news : List Host.Cell) : List Host.Cell :=
  news.foldl (fun l c => cellPut l c.1 c.2) cells

/-- The host changes a buffer between calls (R55): some of its bytes and its logical length, never its capacity (R30). No register
of the block sees it, so a byte the live stream has pulled stays as it was. The spec gives the host no such move by name, and R18
bars it only during a call; that the request port takes it is the model's choice (log 23). -/
def changeBuffer (buffer : BufId) (length : Nat) (cells : List Host.Cell) (s : State) : Host.Outcome State Fault Refusal :=
  match s.buf? buffer with
  | none => .refused .noBuffer
  | some b =>
    let b' : Buffer := { b with length := length, cells := cellPutAll b.cells cells }
    if b'.wf then .next (s.putBuf buffer b') else .refused .badBuffer

/-- The start of a call that is run one unit a step: the operation's opening, then the given place. -/
def openCall (p : Phase) (r : Res Unit) : Host.Outcome State Fault Refusal :=
  settleUnit (r.bind fun t _ => .ok { t with phase := p } ())

/-- The first request, taken off the queue. -/
def takeRequest (r : Request) (s : State) : Host.Outcome State Fault Refusal :=
  match r with
  | .call code args =>
    match decodeCommand code args with
    | .error e => .refused (.undecodable e)
    | .ok i => exec i s
  | .decodeStepwise grouped config input output =>
    openCall (if grouped then .decGroups else .decHeader) (openDecode config input output s)
  | .encodeStepwise config input => openCall .encHeader (openEncode config input s)
  | .provide capacity length cells => takeBuffer capacity length cells s
  | .change buffer length cells => changeBuffer buffer length cells s

/-- No call in progress: the block does nothing until one is requested (R320). -/
def stepIdle (s : State) : Host.Outcome State Fault Refusal :=
  match s.requests with
  | [] => .next s
  | r :: rest => takeRequest r { s with requests := rest }

/-- A call in progress: its next unit is fetched or chosen, executed, and the place advances. -/
def stepUnit (s : State) : Host.Outcome State Fault Refusal :=
  match nextUnit s with
  | .ok t i =>
    match exec i t with
    | .next u => afterUnit u
    | .fault f => .fault f
    | .refused r => .refused r
  | .raised k t => .next (takeError k t)
  | .refused r => .refused r
  | .stuck f => .fault f

/-! ### Placing an opcode-table word (log 16) -/

/-- Cells for bytes from an index on. -/
def cellsFrom : Nat → List Byte → List Host.Cell
  | _, [] => []
  | a, v :: rest => (a, v) :: cellsFrom (a + 1) rest

/-- Stream bits packed into bytes, first bit in bit 7 (R75), the last byte filled with zeros; `fuel` bounds the bytes. -/
def packBits : Nat → List Bool → List Byte
  | 0, _ => []
  | f + 1, l =>
    match l with
    | [] => []
    | _ :: _ => BitVec.ofNat 8 (bitsValue (l.take 8 ++ List.replicate (8 - l.length) false)) :: packBits f (l.drop 8)

/-- A buffer that holds the given bytes and no more. -/
def bufferOf (bytes : List Byte) (tag : Nat) : Buffer :=
  { capacity := bytes.length, length := bytes.length, cells := cellsFrom 0 bytes, tag := tag }

/-- The buffer that stands in for one a bare command names and the state does not have: eight zero bytes. -/
def standIn : Buffer := bufferOf (List.replicate 8 0#8) 0

/-- A live stream in the direction an operation needs, over buffer 0 if the state has none. -/
def State.withLive (s : State) (d : Dir) : State :=
  match s.bs with
  | none => s.putStream (some (BitStream.fresh 0 d))
  | some bs => if bs.dead = false ∧ bs.dir = d then s else s.putStream (some (BitStream.fresh 0 d))

/-- What a bare command needs to run: no call in progress, two buffers to name, a stream in its direction, an answer to its
allocation. -/
def State.readyFor (s : State) (i : Instr) : State :=
  let t : State :=
    { s with
      phase := .idle, inBuf := none, outBuf := none
      mem := s.mem ++ List.replicate (2 - s.mem.length) standIn
      grants := if s.grants = [] then [true] else s.grants }
  match i with
  | .writeBit _ | .writeUint32 _ _ | .write7bitUint32 _ | .flushPartial => t.withLive .W
  | .readBit | .readUint32 _ | .read7bitUint32 => t.withLive .R
  | .vlqLast _ | .vlqCont _ | .hdr _ | .literal _ | .pair _ _ | .pairDemo _ _ | .pad _ | .bsCreate _ _
  | .findBestMatch _ _ _ | .codecInit _ _ _ | .upperBound _ | .encode _ _ | .peekOriginalLength _
  | .decodeInto _ _ _ | .decode _ _ => t

/-- The place of a decode call at which a slot's instructions are fetched. -/
def slotPhase : Slot → Phase
  | .command => .idle
  | .group => .decGroups
  | .header => .decHeader
  | .token => .decBody
  | .padding => .decTail

/-- A decode call in progress whose next unit is made of the given bits: IN holds them, OUT has room for 64 bytes. -/
def State.withStreamBits (s : State) (c : Cfg) (slot : Slot) (bits : List Bool) : State :=
  let input := bufferOf (packBits (bits.length + 1) bits) s.draws
  let output : Buffer := { capacity := 64, length := 0, cells := [], tag := s.draws + 1 }
  { s with
    mem := s.mem ++ [input, output]
    bs := some (BitStream.fresh s.mem.length .R)
    cfg := some c
    inBuf := some s.mem.length, outBuf := some (s.mem.length + 1)
    index := 0, declared := 64#32, vlq := ⟨0#32, 0, false⟩
    phase := slotPhase slot, draws := s.draws + 2 }

/-- The Config under which an opcode-table token word is read: that of the row PAIR@cfg(10,6,2). -/
def tableConfig : Cfg := ⟨10, 6, 2⟩

/-- An instruction placed where the next step takes it. -/
def State.place (s : State) (i : Instr) : State :=
  match encode tableConfig i with
  | .command code args => { s.readyFor i with requests := .call code args :: s.requests }
  | .stream bits => s.withStreamBits tableConfig i.slot bits

/-- A word that is no instruction, placed where the next step refuses it. -/
def State.placeNone (s : State) : State :=
  { s with phase := .idle, inBuf := none, outBuf := none, requests := .call 15#4 [] :: s.requests }

end Sys2Proof.Machine
end

