-- ==== Sys2Proof/Machine/Step.lean ====
section
/-! DEFINITION. One step of the machine, and how an opcode-table word is placed for it. -/

namespace Sys2Proof.Machine

/-- One step. The host has no move inside a call (R18): its requests wait while a call is in progress. -/
def step (s : State) : Host.Outcome State Fault Refusal :=
  if s.phase = .idle then stepIdle s else stepUnit s

/-- `s` with the instruction of an opcode-table word placed so that the very next step runs it (log 16). -/
def State.withFetchWord (s : State) (nbits w : Nat) : State :=
  match decodeTableWord nbits w with
  | none => s.placeNone
  | some i => s.place i

end Sys2Proof.Machine
end

