-- ==== Sys2Proof/Safety.lean ====
section
/-! DEFINITION. The terms claims use: the bits a stream has written or has left, one byte of a named buffer, a sequence of
instructions, the invariant of the machine, and reference meanings that know nothing of the machine (a token stream expanded on
a list of bytes; the run of a candidate as a property). -/

namespace Sys2Proof.Machine

/-! ### Reading a state -/

/-- One byte of a named buffer; `none` outside it. -/
def State.byte? (s : State) (id : BufId) (a : Nat) : Option Byte := (s.buf? id).bind fun b => b.memRead a

/-- The stream bits of `n` bytes from index `a` on (R75). -/
def bitsFrom (b : Buffer) : Nat → Nat → List Bool
  | 0, _ => []
  | n + 1, a => fieldBits (b.byteAt a).toNat 8 ++ bitsFrom b n (a + 1)

/-- All the stream bits of a buffer, slack included: the BitStream's bound is the capacity (R31). -/
def Buffer.bits (b : Buffer) : List Bool := bitsFrom b b.capacity 0

/-- The bytes of a buffer up to its logical length. -/
def Buffer.bytes (b : Buffer) : List Byte := (List.range b.length).map b.byteAt

/-- The bits an `R` stream has not returned yet: those left in the accumulator, then the bytes from `position` on (R34, R35). -/
def unreadBits (bs : BitStream) (b : Buffer) : List Bool :=
  fieldBits bs.byteBuffer.toNat bs.bitCount ++ bitsFrom b (b.capacity - bs.position) bs.position

/-- The bits a `W` stream has been given: the flushed bytes, then those in the accumulator (R34, R55). -/
def writtenBits (bs : BitStream) (b : Buffer) : List Bool :=
  bitsFrom b bs.position 0 ++ fieldBits bs.byteBuffer.toNat bs.bitCount

/-- A live, healthy stream in direction `d` with its buffer. -/
def State.Live (s : State) (d : Dir) (bs : BitStream) (b : Buffer) : Prop :=
  s.bs = some bs ∧ bs.dead = false ∧ bs.dir = d ∧ s.buf? bs.buf = some b

/-- The capacities and logical lengths of all buffers. -/
def State.sizes (s : State) : List (Nat × Nat) := s.mem.map fun b => (b.capacity, b.length)

/-- Every byte of every buffer reads as before, but for those of buffer `id` from `lo` up to but not including `hi`. -/
def SameBytesBut (s t : State) (id : BufId) (lo hi : Nat) : Prop :=
  ∀ j a, ¬ (j = id ∧ lo ≤ a ∧ a < hi) → t.byte? j a = s.byte? j a

/-- The bits a write operation appends (R142, R148, R170); `none` for any other instruction. -/
def appended : Instr → Option (List Bool)
  | .writeBit v => some [v.getLsbD 0]
  | .writeUint32 v n => if n ≤ 32 then some (fieldBits v.toNat n) else none
  | .write7bitUint32 v => some (vlqBits v)
  | _ => none

/-- The write operations of the BitStream (R37). -/
def isWriteOp : Instr → Bool
  | .writeBit _ | .writeUint32 _ _ | .write7bitUint32 _ | .flushPartial => true
  | _ => false

/-- The read operations of the BitStream (R37). -/
def isReadOp : Instr → Bool
  | .readBit | .readUint32 _ | .read7bitUint32 => true
  | _ => false

/-- The length of a stream of `bits` bits in whole bytes (R110). -/
def byteCount (bits : Nat) : Nat := (bits + 7) / 8

/-- `gs` is the VLQ of `v` as the writer makes it (R170). -/
def IsVlqOf : Nat → List Byte → Prop
  | _, [] => False
  | v, [g] => v < 128 ∧ g.toNat = v
  | v, g :: h :: gs => 128 ≤ v ∧ g.toNat = v % 128 + 128 ∧ IsVlqOf (v / 128) (h :: gs)

/-- `gs` is what the VLQ reader takes: each group but the last says that more follow; the last says that none does, or is the
fifth (R174, R176). -/
def IsReadVlq (gs : List Byte) : Prop :=
  gs ≠ [] ∧ gs.length ≤ 5 ∧ (∀ k, k + 1 < gs.length → contFlag (gs.getD k 0#8) = true) ∧
  (gs.length < 5 → contFlag (gs.getD (gs.length - 1) 0#8) = false)

/-- The sum of the payloads, each 7 bits above the one before (R102). -/
def groupSum : List Byte → Nat
  | [] => 0
  | g :: gs => g.toNat % 128 + 128 * groupSum gs

/-- The scan cursor after the encoder has written a unit (R215). -/
def indexAfter (i : Instr) (index : Nat) : Nat :=
  match i with
  | .hdr _ => 0
  | .literal _ => index + 1
  | .pair _ l => index + l
  | .pairDemo _ l => index + l.toNat
  | _ => index

/-- What a step does with the outcome of the unit it ran: the next place of the call, or its return. -/
def thenPlace (o : Host.Outcome State Fault Refusal) : Host.Outcome State Fault Refusal :=
  match o with
  | .next u => afterUnit u
  | .fault f => .fault f
  | .refused r => .refused r

/-- Steps while a call is in progress, at most `n` of them. -/
def runCall : Nat → State → Host.Outcome State Fault Refusal
  | 0, s => .next s
  | n + 1, s =>
    if s.phase = .idle then .next s
    else
      match step s with
      | .next t => runCall n t
      | .fault f => .fault f
      | .refused r => .refused r

/-- Instructions one after another, stopping at the first that does not answer a next state. -/
def execAll : List Instr → State → Host.Outcome State Fault Refusal
  | [], s => .next s
  | i :: rest, s =>
    match exec i s with
    | .next t => execAll rest t
    | .fault f => .fault f
    | .refused r => .refused r

/-- The same, giving the value each instruction returned. -/
def execValues : List Instr → State → Option (List Ret)
  | [], _ => some []
  | i :: rest, s =>
    match exec i s with
    | .next t => (execValues rest t).map fun vs => t.result :: vs
    | .fault _ => none
    | .refused _ => none

/-! ### The invariant -/

/-- A BitStream at an operation boundary (R33, R35, R36); a dead one keeps only its position (R157). -/
def BitStream.Inv (bs : BitStream) (b : Buffer) : Prop :=
  bs.position ≤ b.capacity ∧
  (bs.dead = false → bs.bitCount ≤ 7 ∧ (bs.dir = .W → bs.byteBuffer.toNat < 2 ^ bs.bitCount))

/-- The live stream wraps a buffer that exists and is at an operation boundary. -/
def State.StreamInv (s : State) : Prop :=
  ∀ bs, s.bs = some bs → ∃ b, s.buf? bs.buf = some b ∧ bs.Inv b

/-- A decode call in progress: a Config, a healthy `R` stream over IN, and OUT another buffer. -/
def State.DecodeCall (s : State) (bs : BitStream) (o : Buffer) : Prop :=
  ∃ i oid c b, s.inBuf = some i ∧ s.outBuf = some oid ∧ i ≠ oid ∧ s.cfg = some c ∧
    s.Live .R bs b ∧ bs.buf = i ∧ s.buf? oid = some o

/-- An encode call in progress: a Config, IN of a length the header can say, and a healthy `W` stream over OUT. -/
def State.EncodeCall (s : State) (n : Nat) : Prop :=
  ∃ i oid c b bs o, s.inBuf = some i ∧ s.outBuf = some oid ∧ i ≠ oid ∧ s.cfg = some c ∧
    s.buf? i = some b ∧ b.length = n ∧ 1 ≤ n ∧ n ≤ 4294967295 ∧ s.Live .W bs o ∧ bs.buf = oid

/-- What each place inside a call promises (R219, R246). -/
def State.CallInv (s : State) : Prop :=
  match s.phase with
  | .idle => s.inBuf = none ∧ s.outBuf = none
  | .decGroups => ∃ bs o, s.DecodeCall bs o ∧ s.vlq.stopped = false
  | .decHeader => ∃ bs o, s.DecodeCall bs o
  | .decBody => ∃ bs o, s.DecodeCall bs o ∧ s.declared.toNat = o.capacity ∧ s.index < o.capacity
  | .decTail => ∃ bs o, s.DecodeCall bs o ∧ s.declared.toNat = o.capacity ∧ s.index = o.capacity
  | .encHeader => ∃ n, s.EncodeCall n
  | .encBody => ∃ n, s.EncodeCall n ∧ s.index < n
  | .encTail => ∃ n, s.EncodeCall n ∧ s.index = n

/-- The invariant: every buffer is in canonical form with its logical length within its capacity (R30, R31); the Config, if there
is one, keeps its invariants (R10); the stream is at an operation boundary (R33 to R36); a call in progress is in order. -/
structure State.Inv (s : State) : Prop where
  memory : Memory.wf s.mem = true
  config : ∀ c, s.cfg = some c → c.WellFormed = true
  stream : s.StreamInv
  call   : s.CallInv

/-! ### Reference meanings -/

/-- `n` times: append the byte `offset` back (R250). -/
def copyBack (offset : Nat) : Nat → List Byte → List Byte
  | 0, out => out
  | n + 1, out => copyBack offset n (out ++ [out.getD (out.length - offset) 0#8])

/-- What a token does to the bytes rebuilt so far (R248, R250); `none` where the spec gives an error or bytes that no rule fixes. -/
def expandToken (out : List Byte) : Instr → Option (List Byte)
  | .literal b => some (out ++ [b])
  | .pair o l => if l = 0 ∨ (1 ≤ o ∧ o ≤ out.length) then some (copyBack o l out) else none
  | .pairDemo o l =>
    if l.toNat = 0 ∨ (1 ≤ o.toNat ∧ o.toNat ≤ out.length) then some (copyBack o.toNat l.toNat out) else none
  | _ => none

/-- A token list expanded from left to right. -/
def expandTokens : List Byte → List Instr → Option (List Byte)
  | out, [] => some out
  | out, i :: rest =>
    match expandToken out i with
    | none => none
    | some out' => expandTokens out' rest

/-- The stream bits of a list of units under a Config. -/
def unitBits (c : Cfg) : List Instr → List Bool
  | [] => []
  | i :: rest =>
    match encode c i with
    | .stream bits => bits ++ unitBits c rest
    | .command _ _ => unitBits c rest

/-- `r` is the run of a candidate (R193): the largest number of equal bytes from `cand` and from `index` within the logical
length. -/
def IsRun (b : Buffer) (index cand r : Nat) : Prop :=
  index + r ≤ b.length ∧ (∀ j, j < r → b.byteAt (cand + j) = b.byteAt (index + j)) ∧
  (index + r < b.length → b.byteAt (cand + r) ≠ b.byteAt (index + r))

/-- `cand` is the candidate the search keeps, and `r` its run: inside the window, no candidate with a longer run, no later one
with an equal run (R192, R194). -/
def IsKept (b : Buffer) (index : Nat) (c : Cfg) (cand r : Nat) : Prop :=
  index - (2 ^ c.offsetBits - 1) ≤ cand ∧ cand < index ∧ IsRun b index cand r ∧
  ∀ cand' r', index - (2 ^ c.offsetBits - 1) ≤ cand' → cand' < index → IsRun b index cand' r' →
    r' < r ∨ (r' = r ∧ cand' ≤ cand)

/-- The tokens the encoder chooses from `index` on (R215, R216), `fuel` bounding their number. `free` gives the `UNSPEC` offset
of a search without a match, which no token depends on. -/
def greedyTokens (b : Buffer) (c : Cfg) (free : Nat) : Nat → Nat → List Instr
  | 0, _ => []
  | f + 1, index =>
    if index < b.length then
      let m := findMatch b index c free
      if c.minimumLength ≤ m.length then
        mkPair c m.offset m.length :: greedyTokens b c free f (index + m.length)
      else .literal (b.byteAt index) :: greedyTokens b c free f (index + 1)
    else []

end Sys2Proof.Machine
end

