-- ==== Sys2Proof/Certificates/Slice0/Obligations.lean ====
section
/-! DEFINITION. The statements for the provers, each from numbered rules of the spec. Frames are written as one equation: a next
state `{ s with … }` names every field that may differ from `s`; a field given as `t.mem`, `t.draws` and so on is described beside
the equation. `draws` is the model's own counter of free values (log 6), and no statement rests on its value. -/

section Slice0Statements

open Sys2Proof Sys2Proof.Machine

/-! ### Reset and the step -/

/-- R60, R320: after reset no Config, no stream, no buffer, no call. (That the registers R62 leaves UNSPEC hold values at all is
the model's choice, log 6; none is stated here.) -/
def Obligations.ResetHoldsNothing : Prop :=
  State.reset.mem = [] ∧ State.reset.bs = none ∧ State.reset.cfg = none ∧ State.reset.inBuf = none ∧
    State.reset.outBuf = none ∧ State.reset.phase = .idle

/-- R320: the block does nothing until an operation is called. That a step without a request keeps the state is the model's
choice (log 7). -/
def Obligations.IdleBlockWaitsForACall : Prop :=
  ∀ s : State, s.phase = .idle → s.requests = [] → step s = .next s

/-- R115: a step with no call in progress runs the command the host requested, if its code and operands decode; otherwise it is
refused. The queue is the model's own (log 7). R115 refuses the unassigned code 15; that operands of other types than it lists are
refused too, which the second clause also covers, is the model's choice (log 12). -/
def Obligations.StepRunsTheRequestedCommand : Prop :=
  ∀ (s : State) code args rest, s.phase = .idle → s.requests = .call code args :: rest →
    (∀ i, decodeCommand code args = .ok i → step s = exec i { s with requests := rest }) ∧
    (∀ e, decodeCommand code args = .error e → step s = .refused (.undecodable e))

/-- R243, R104, R109: inside a decode call the step runs the instruction that the unread bits of IN decode to, on the state whose
stream has consumed exactly its bits, and then takes the next place of the call. R249, R256, R283: where the unread bits up to
IN's capacity hold no whole group, header or token, the call ends with `BufferOutOfBounds`; every buffer but OUT is unchanged and
OUT keeps its capacity (its bytes and length are UNSPEC, R257, log 4). (The places are the model's own, log 8.) -/
def Obligations.StepRunsTheDecodedUnit : Prop :=
  ∀ (s : State) (c : Cfg) bs b,
    s.cfg = some c → s.Live .R bs b → bs.Inv b →
    (∀ p slot i rest,
      (p, slot) ∈ [(Phase.decGroups, Slot.group), (Phase.decHeader, Slot.header), (Phase.decBody, Slot.token)] →
      s.phase = p → (p = .decHeader → s.vlq.stopped = false) →
      decodeAt c slot (.stream (unreadBits bs b)) = .ok (i, rest) →
      ∃ bs', step s = thenPlace (exec i (s.putStream (some bs'))) ∧ unreadBits bs' b = rest ∧ bs'.buf = bs.buf ∧
        bs'.dir = .R ∧ bs'.dead = false ∧ bs'.Inv b) ∧
    (∀ p slot e,
      (p, slot) ∈ [(Phase.decGroups, Slot.group), (Phase.decHeader, Slot.header), (Phase.decBody, Slot.token)] →
      s.phase = p → (p = .decHeader → s.vlq.stopped = false) →
      decodeAt c slot (.stream (unreadBits bs b)) = .error e →
      ∃ t, step s = .next t ∧
        t = { s with
              mem := t.mem, bs := none, inBuf := none, outBuf := none, vlq := t.vlq, status := .bufferOutOfBounds
              result := .none, phase := .idle, draws := t.draws } ∧
        (∀ j, s.outBuf ≠ some j → t.buf? j = s.buf? j) ∧
        t.mem.map Buffer.capacity = s.mem.map Buffer.capacity) ∧
    (s.phase = .decHeader → s.vlq.stopped = true → step s = thenPlace (exec (.hdr s.vlq.result) s)) ∧
    (s.phase = .decTail → step s = thenPlace (exec (.pad bs.bitCount) s))

/-- R215, R216: inside an encode call the step runs the unit the encoder chooses: the header of the input's length; at each
position one search, then a pair if and only if the match is at least `minimum_length` long, else the input byte as a literal;
at the end the padding. (The places are the model's own, log 8; the offset of a match of length 0 is free, log 3.) -/
def Obligations.StepRunsTheChosenUnit : Prop :=
  ∀ (s : State) (c : Cfg) i b,
    s.cfg = some c → s.inBuf = some i → s.buf? i = some b → b.length ≤ b.capacity →
    (s.phase = .encHeader → step s = thenPlace (exec (.hdr (BitVec.ofNat 32 b.length)) s)) ∧
    (s.phase = .encBody → s.index < b.length →
      ∃ m : Match, m.length = (findMatch b s.index c 0).length ∧ (0 < m.length → m = findMatch b s.index c 0) ∧
        step s =
          thenPlace
            (exec (if c.minimumLength ≤ m.length then mkPair c m.offset m.length else .literal (b.byteAt s.index))
              { s with mtch := m, draws := s.draws + 1 })) ∧
    (∀ bs o, s.phase = .encTail → s.Live .W bs o → step s = thenPlace (exec (.pad ((8 - bs.bitCount) % 8)) s))

/-- R219, R243, R246, R259: the scan ends when `index` reaches `declared_length`, or the input's length; after the padding the call
returns, with the logical length of OUT set. (The places are the model's own, log 8.) -/
def Obligations.PlacesFollowTheScan : Prop :=
  (∀ s : State, s.phase = .decHeader ∨ s.phase = .decBody →
    afterUnit s = .next { s with phase := if s.index = s.declared.toNat then .decTail else .decBody }) ∧
  (∀ (s : State) i b, s.phase = .encHeader ∨ s.phase = .encBody → s.inBuf = some i → s.buf? i = some b →
    afterUnit s = .next { s with phase := if s.index < b.length then .encBody else .encTail }) ∧
  (∀ (s : State) o b, s.phase = .decTail → s.outBuf = some o → s.buf? o = some b →
    ∃ t, afterUnit s = .next t ∧ t.phase = .idle ∧ t.status = .ok ∧ t.bs = none ∧ t.inBuf = none ∧ t.outBuf = none ∧
      t.mem = s.mem.set o { b with length := s.declared.toNat }) ∧
  (∀ (s : State) bs b, s.phase = .encTail → s.outBuf = some bs.buf → s.Live .W bs b →
    ∃ t, afterUnit s = .next t ∧ t.phase = .idle ∧ t.status = .ok ∧ t.result = .buf bs.buf ∧ t.bs = none ∧ t.inBuf = none ∧
      t.outBuf = none ∧ t.mem = s.mem.set bs.buf { b with length := bs.position })

/-! ### Encodings -/

/-- R101 to R109, R115: decoding the encoding of a well-formed instruction gives the instruction and leaves what follows it. -/
def Obligations.DecodeOfEncode : Prop :=
  ∀ (c : Cfg) (i : Instr) (rest : List Bool), i.WellFormed c = true →
    match encode c i with
    | .command code args => decodeAt c .command (.command code args) = .ok (i, [])
    | .stream bits =>
      if i.slot = .padding then decodeAt c .padding (.stream bits) = .ok (i, [])
      else decodeAt c i.slot (.stream (bits ++ rest)) = .ok (i, rest)

/-- R101, R104 to R107, R115: a group, a token and a command have one encoding each: what decodes to an instruction starts with
that instruction's encoding, and a decoded token is well formed. -/
def Obligations.EncodeOfDecode : Prop :=
  (∀ c l i rest, decodeToken c l = .ok (i, rest) →
    i.WellFormed c = true ∧ ∃ bits, encode c i = .stream bits ∧ l = bits ++ rest) ∧
  (∀ c l i rest, decodeGroup l = .ok (i, rest) → ∃ bits, encode c i = .stream bits ∧ l = bits ++ rest) ∧
  (∀ c code args i, decodeCommand code args = .ok i → encode c i = .command code args)

/-- Words written out from R101 (`cont p6 … p0`), R103 (300 is `AC 02`), R105 (`0 b7 … b0`), R106 (`1 oooooooooo llllll`) and
R115 (the codes) decode to the instructions they stand for. -/
def Obligations.SpecWordsDecode : Prop :=
  decodeGroup [false, false, false, false, true, false, true, false] = .ok (.vlqLast 10#7, []) ∧
  decodeGroup [true, false, true, false, true, true, false, false] = .ok (.vlqCont 44#7, []) ∧
  decodeHeader [true, false, true, false, true, true, false, false, false, false, false, false, false, false, true, false] =
    .ok (.hdr 300#32, []) ∧
  decodeToken ⟨10, 6, 2⟩ [false, false, true, false, false, false, false, false, true] = .ok (.literal 0x41#8, []) ∧
  decodeToken ⟨10, 6, 2⟩
      [true, false, false, false, false, false, false, false, false, false, true, false, false, true, false, false, true] =
    .ok (.pairDemo 1#10 9#6, []) ∧
  decodeToken ⟨4, 2, 2⟩ [true, false, false, true, true, true, false] = .ok (.pair 3 2, []) ∧
  decodePad [false, true, false] = .ok (.pad 3, []) ∧
  decodeCommand 3#4 [.word 5#32, .nat 3] = .ok (.writeUint32 5#32 3) ∧
  decodeCommand 11#4 [.cfg ⟨10, 6, 2⟩, .buf 0] = .ok (.encode ⟨10, 6, 2⟩ 0) ∧
  decodeCommand 15#4 [] = .error .unassignedCommand

/-- R172: the number of groups is `max(1, ceil_div(bit_length(value), 7))`, never more than 5, and the final group is 0 for the
value 0 only. `Nat.size` is the bit length. -/
def Obligations.VlqIsTheShortestForm : Prop :=
  ∀ v : Word,
    (vlqGroups 5 v.toNat).length = max 1 ((Nat.size v.toNat + 6) / 7) ∧ (vlqGroups 5 v.toNat).length ≤ 5 ∧
    ∀ g, (vlqGroups 5 v.toNat).getLast? = some g → contFlag g = false ∧ (g = 0#8 → v = 0#32)

/-! ### The BitStream: bits and fields -/

/-- R140: `bs_create` gives a stream with position, accumulator and bit count 0, whatever the buffer's capacity; nothing else of
the machine changes, no byte is touched. -/
def Obligations.BsCreateMakesAFreshStream : Prop :=
  ∀ (s : State) id d b, s.buf? id = some b →
    exec (.bsCreate id d) s =
      .next
        { s with
          bs := some { buf := id, position := 0, byteBuffer := 0#8, bitCount := 0, dir := d, dead := false }
          status := .ok, result := .none }

/-- R142: `write_bit` shifts the accumulator left by 1, ORs in bit 0 of the operand and counts; at the eighth bit the accumulator
is written at `position`, which advances, and accumulator and count become 0; with no room for that byte it raises
`BufferOutOfBounds` and the stream is dead. Everything else is unchanged. -/
def Obligations.WriteBitShiftsIn : Prop :=
  ∀ (s : State) bs b (v : Word), s.Live .W bs b → bs.Inv b →
    (bs.bitCount < 7 →
      exec (.writeBit v) s =
        .next
          { s with
            bs := some { bs with
              byteBuffer := (bs.byteBuffer <<< 1) ||| (v &&& 1#32).setWidth 8, bitCount := bs.bitCount + 1 }
            status := .ok, result := .none }) ∧
    (bs.bitCount = 7 → bs.position < b.capacity →
      ∃ t,
        exec (.writeBit v) s = .next t ∧
        t = { s with
              mem := t.mem
              bs := some { bs with position := bs.position + 1, byteBuffer := 0#8, bitCount := 0 }
              status := .ok, result := .none } ∧
        t.byte? bs.buf bs.position = some ((bs.byteBuffer <<< 1) ||| (v &&& 1#32).setWidth 8) ∧
        t.sizes = s.sizes ∧ SameBytesBut s t bs.buf bs.position (bs.position + 1)) ∧
    (bs.bitCount = 7 → b.capacity ≤ bs.position → s.phase = .idle →
      ∃ t bs',
        exec (.writeBit v) s = .next t ∧
        t = { s with bs := some bs', status := .bufferOutOfBounds, result := .none, draws := t.draws } ∧
        bs'.buf = bs.buf ∧ bs'.position = bs.position ∧ bs'.dir = bs.dir ∧ bs'.dead = true)

/-- R148, R76: `write_uint32` appends `bits` bits, most significant first: bit `bits - 1` of the value first, bit 0 last; more
than 32 bits are refused. Bytes from `position` on are stored as they fill; everything else is unchanged. -/
def Obligations.WriteFieldAppendsMsbFirst : Prop :=
  ∀ (s : State) bs b (v : Word) n, s.Live .W bs b → bs.Inv b →
    (n ≤ 32 → bs.position + (bs.bitCount + n) / 8 ≤ b.capacity →
      ∃ t bs' b',
        exec (.writeUint32 v n) s = .next t ∧
        t = { s with mem := t.mem, bs := some bs', status := .ok, result := .none } ∧
        t.buf? bs.buf = some b' ∧
        writtenBits bs' b' = writtenBits bs b ++ (List.range n).map (fun k => v.getLsbD (n - 1 - k)) ∧
        bs'.buf = bs.buf ∧ bs'.dir = .W ∧ bs'.dead = false ∧ bs'.Inv b' ∧
        bs'.position = bs.position + (bs.bitCount + n) / 8 ∧ bs'.bitCount = (bs.bitCount + n) % 8 ∧
        t.sizes = s.sizes ∧ SameBytesBut s t bs.buf bs.position (bs.position + (bs.bitCount + n) / 8)) ∧
    (32 < n → exec (.writeUint32 v n) s = .refused .fieldTooWide)

/-- R170: `write_7bit_uint32` appends the value's VLQ, 7 payload bits a group, least significant group first, each an 8-bit field
with the continuation flag in bit 7. Bytes from `position` on are stored as they fill; everything else is unchanged. -/
def Obligations.WriteVlqAppendsGroups : Prop :=
  ∀ (s : State) bs b (v : Word) gs, s.Live .W bs b → bs.Inv b → IsVlqOf v.toNat gs →
    bs.position + (bs.bitCount + 8 * gs.length) / 8 ≤ b.capacity →
    ∃ t bs' b',
      exec (.write7bitUint32 v) s = .next t ∧
      t = { s with mem := t.mem, bs := some bs', status := .ok, result := .none } ∧
      t.buf? bs.buf = some b' ∧
      writtenBits bs' b' = writtenBits bs b ++ gs.flatMap (fun g => fieldBits g.toNat 8) ∧
      bs'.buf = bs.buf ∧ bs'.dir = .W ∧ bs'.dead = false ∧ bs'.Inv b' ∧
      bs'.position = bs.position + gs.length ∧ bs'.bitCount = bs.bitCount ∧
      t.sizes = s.sizes ∧ SameBytesBut s t bs.buf bs.position (bs.position + (bs.bitCount + 8 * gs.length) / 8)

/-- R143, R149, R171: a write operation raises `BufferOutOfBounds` exactly when a byte fills that has no room; the whole bytes
filled before stay written and `position` counts them, and the stream is dead. Everything else is unchanged. -/
def Obligations.WritesFailExactlyWithoutRoom : Prop :=
  ∀ (s : State) bs b i xs, s.Live .W bs b → bs.Inv b → s.phase = .idle → appended i = some xs →
    ∃ t, exec i s = .next t ∧
      (t.status = .ok ∨ t.status = .bufferOutOfBounds) ∧
      (t.status = .bufferOutOfBounds ↔ b.capacity < bs.position + (bs.bitCount + xs.length) / 8) ∧
      (t.status = .bufferOutOfBounds →
        ∃ bs' b',
          t = { s with
                mem := t.mem, bs := some bs', status := .bufferOutOfBounds, result := .none, draws := t.draws } ∧
          bs'.buf = bs.buf ∧ bs'.dir = bs.dir ∧ bs'.dead = true ∧ bs'.position = b.capacity ∧
          t.buf? bs.buf = some b' ∧
          bitsFrom b' b.capacity 0 = (writtenBits bs b ++ xs).take (8 * b.capacity) ∧
          t.sizes = s.sizes ∧ SameBytesBut s t bs.buf bs.position b.capacity)

/-- R145, R146: `read_bit` pulls the byte at `position` if the accumulator is empty, counts down and returns that bit of it, bit 7
of a byte first; it raises `BufferOutOfBounds` only when a pull is needed and `position` has reached the capacity, and then the
stream is dead (its accumulator and count UNSPEC, R157, log 2). Only the stream's registers, STATUS and the returned value
change. -/
def Obligations.ReadBitTakesTheNextBit : Prop :=
  ∀ (s : State) bs b, s.Live .R bs b →
    (bs.bitCount ≠ 0 →
      exec .readBit s =
        .next
          { s with
            bs := some { bs with bitCount := bs.bitCount - 1 }
            status := .ok, result := .bit (bs.byteBuffer.getLsbD (bs.bitCount - 1)) }) ∧
    (bs.bitCount = 0 → bs.position < b.capacity →
      exec .readBit s =
        .next
          { s with
            bs := some { bs with byteBuffer := b.byteAt bs.position, position := bs.position + 1, bitCount := 7 }
            status := .ok, result := .bit ((b.byteAt bs.position).getLsbD 7) }) ∧
    (bs.bitCount = 0 → b.capacity ≤ bs.position → s.phase = .idle →
      ∃ t bs', exec .readBit s = .next t ∧
        t = { s with bs := some bs', status := .bufferOutOfBounds, result := .none, draws := t.draws } ∧
        bs'.buf = bs.buf ∧ bs'.position = bs.position ∧ bs'.dir = bs.dir ∧ bs'.dead = true)

/-- R151, R152, R76: `read_uint32` takes the next `bits` unread bits, the first as the most significant, and returns their value;
when fewer are left it raises `BufferOutOfBounds`: those bits are consumed, no value is returned, the stream is dead; more than 32
bits are refused. Only the stream's registers, STATUS and the returned value change. -/
def Obligations.ReadFieldTakesMsbFirst : Prop :=
  ∀ (s : State) bs b n, s.Live .R bs b → bs.Inv b →
    (n ≤ 32 → n ≤ (unreadBits bs b).length →
      ∃ bs' w,
        exec (.readUint32 n) s = .next { s with bs := some bs', status := .ok, result := .word w } ∧
        w.toNat = ((unreadBits bs b).take n).foldl (fun r x => 2 * r + x.toNat) 0 ∧ w.toNat < 2 ^ n ∧
        unreadBits bs' b = (unreadBits bs b).drop n ∧
        bs'.buf = bs.buf ∧ bs'.dir = .R ∧ bs'.dead = false ∧ bs'.Inv b) ∧
    (n ≤ 32 → (unreadBits bs b).length < n → s.phase = .idle →
      ∃ t bs', exec (.readUint32 n) s = .next t ∧
        t = { s with bs := some bs', status := .bufferOutOfBounds, result := .none, draws := t.draws } ∧
        bs'.buf = bs.buf ∧ bs'.position = b.capacity ∧ bs'.dir = bs.dir ∧ bs'.dead = true) ∧
    (32 < n → exec (.readUint32 n) s = .refused .fieldTooWide)

/-- R154, R155: `flush_partial` with an empty accumulator does nothing, even on a full buffer; else it writes the accumulator,
shifted left to the byte boundary, at `position`, or raises `BufferOutOfBounds` with nothing written; on an `R` stream it is
refused. -/
def Obligations.FlushPadsWithZeros : Prop :=
  ∀ (s : State) bs b, bs.Inv b →
    (s.Live .W bs b → bs.bitCount = 0 → exec .flushPartial s = .next { s with status := .ok, result := .none }) ∧
    (s.Live .W bs b → 0 < bs.bitCount → bs.position < b.capacity →
      ∃ t,
        exec .flushPartial s = .next t ∧
        t = { s with
              mem := t.mem
              bs := some { bs with position := bs.position + 1, byteBuffer := 0#8, bitCount := 0 }
              status := .ok, result := .none } ∧
        t.byte? bs.buf bs.position = some (bs.byteBuffer <<< (8 - bs.bitCount)) ∧
        t.sizes = s.sizes ∧ SameBytesBut s t bs.buf bs.position (bs.position + 1)) ∧
    (s.Live .W bs b → 0 < bs.bitCount → b.capacity ≤ bs.position → s.phase = .idle →
      ∃ t bs',
        exec .flushPartial s = .next t ∧
        t = { s with bs := some bs', status := .bufferOutOfBounds, result := .none, draws := t.draws } ∧
        bs'.buf = bs.buf ∧ bs'.position = bs.position ∧ bs'.dir = bs.dir ∧ bs'.dead = true) ∧
    (s.Live .R bs b → exec .flushPartial s = .refused .wrongDirection)

/-- R153: fields written one after another on a fresh stream and flushed are read back, by a fresh stream over the same buffer,
as the values written. The buffer has room for all the bits. -/
def Obligations.FieldsRoundTrip : Prop :=
  ∀ (s : State) id b (fs : List (Word × Nat)), s.buf? id = some b →
    (∀ f ∈ fs, f.2 ≤ 32 ∧ f.1.toNat < 2 ^ f.2) → (fs.map Prod.snd).sum ≤ 8 * b.capacity →
    ∃ t,
      execAll (.bsCreate id .W :: (fs.map fun f => .writeUint32 f.1 f.2) ++ [.flushPartial]) s = .next t ∧
      t.status = .ok ∧
      execValues (.bsCreate id .R :: fs.map fun f => .readUint32 f.2) t = some (.none :: fs.map fun f => .word f.1)

/-- R156: after write operations on a fresh stream and `flush_partial`, `position` is the number of bits written divided by 8 and
rounded up, and the bytes below it hold the written bits in order, filled with zero bits. (The spec marks R156 as its own
inference from R142 and R154.) -/
def Obligations.ProducedByteCount : Prop :=
  ∀ (s : State) id b (l : List (Instr × List Bool)), s.buf? id = some b → (∀ p ∈ l, appended p.1 = some p.2) →
    byteCount (l.flatMap Prod.snd).length ≤ b.capacity →
    ∃ t bs' b',
      execAll (.bsCreate id .W :: l.map Prod.fst ++ [.flushPartial]) s = .next t ∧ t.status = .ok ∧
      t.bs = some bs' ∧ t.buf? id = some b' ∧
      bs'.position = byteCount (l.flatMap Prod.snd).length ∧ bs'.bitCount = 0 ∧
      bitsFrom b' bs'.position 0 =
        l.flatMap Prod.snd ++ List.replicate (8 * bs'.position - (l.flatMap Prod.snd).length) false

/-- R157, R38: when a BitStream operation raises an error the stream is dead, and any further operation on it is refused. (What
its accumulator and count then hold is UNSPEC, log 2, and not stated.) -/
def Obligations.ErrorsKillTheStream : Prop :=
  (∀ (s t : State) i, s.phase = .idle → isWriteOp i = true ∨ isReadOp i = true → exec i s = .next t → t.status ≠ .ok →
    ∃ bs', t.bs = some bs' ∧ bs'.dead = true) ∧
  (∀ (s : State) bs i c, s.bs = some bs → bs.dead = true → isWriteOp i = true ∨ isReadOp i = true → i.WellFormed c = true →
    exec i s = .refused .deadStream)

/-- R158, R37: write operations on an `R` stream and read operations on a `W` stream are refused. -/
def Obligations.DirectionIsChecked : Prop :=
  ∀ (s : State) bs b i c, i.WellFormed c = true →
    (s.Live .R bs b → isWriteOp i = true → exec i s = .refused .wrongDirection) ∧
    (s.Live .W bs b → isReadOp i = true → exec i s = .refused .wrongDirection)

/-- R159: a BitStream operation, whether it succeeds or raises, changes nothing but the stream's registers and the bytes it
flushes, from the old `position` up to the new one; never a buffer's capacity or logical length; `bs_create` changes no buffer at
all; none makes a buffer. (STATUS and the returned value
are the call's result, R53; `draws` is the model's own.) -/
def Obligations.StreamOperationsFrame : Prop :=
  (∀ (s t : State) id d, exec (.bsCreate id d) s = .next t →
    t = { s with bs := t.bs, status := t.status, result := t.result }) ∧
  ∀ (s t : State) bs b i, s.bs = some bs → s.buf? bs.buf = some b → bs.Inv b → s.phase = .idle →
    isWriteOp i = true ∨ isReadOp i = true → exec i s = .next t →
    ∃ bs',
      t = { s with mem := t.mem, bs := some bs', status := t.status, result := t.result, draws := t.draws } ∧
      bs'.buf = bs.buf ∧ bs'.dir = bs.dir ∧ bs.position ≤ bs'.position ∧
      t.sizes = s.sizes ∧ SameBytesBut s t bs.buf bs.position bs'.position ∧
      (isReadOp i = true → t.mem = s.mem)

/-! ### The VLQ coder -/

/-- R174, R176, R177: `read_7bit_uint32` takes groups until one says that no more follow or five are taken, and returns the sum of
their payloads, each 7 bits above the one before, mod `2^32`; it accepts forms longer than needed and any fifth group. Only the
stream's registers, STATUS and the returned value change. -/
def Obligations.ReadVlqAssemblesGroups : Prop :=
  ∀ (s : State) bs b gs rest, s.Live .R bs b → bs.Inv b → IsReadVlq gs →
    unreadBits bs b = gs.flatMap (fun g => fieldBits g.toNat 8) ++ rest →
    ∃ bs' w,
      exec .read7bitUint32 s = .next { s with bs := some bs', status := .ok, result := .word w } ∧
      w.toNat = groupSum gs % 2 ^ 32 ∧ unreadBits bs' b = rest ∧
      bs'.buf = bs.buf ∧ bs'.dir = .R ∧ bs'.dead = false ∧ bs'.Inv b

/-- R175: `read_7bit_uint32` raises `BufferOutOfBounds` exactly when the bits end before or inside a group it needs; no value is
returned, the stream is dead, no buffer changes; there is no other error. -/
def Obligations.ReadVlqFailsExactlyAtTheEnd : Prop :=
  ∀ (s : State) bs b, s.Live .R bs b → bs.Inv b → s.phase = .idle →
    ∃ t, exec .read7bitUint32 s = .next t ∧ (t.status = .ok ∨ t.status = .bufferOutOfBounds) ∧
      (t.status = .ok ↔
        ∃ gs rest, IsReadVlq gs ∧ unreadBits bs b = gs.flatMap (fun g => fieldBits g.toNat 8) ++ rest) ∧
      (t.status = .bufferOutOfBounds →
        ∃ bs', t = { s with bs := some bs', status := .bufferOutOfBounds, result := .none, draws := t.draws } ∧
          bs'.buf = bs.buf ∧ bs'.dir = bs.dir ∧ bs'.dead = true)

/-- R178: a VLQ written and flushed is read back as the value written, and the reader consumes exactly the bytes written; the same
behind any fields that writer and reader both put in front, that is at any bit position. -/
def Obligations.VlqRoundTrip : Prop :=
  ∀ (s : State) id b (v : Word) (fs : List (Word × Nat)), s.buf? id = some b →
    (∀ f ∈ fs, f.2 ≤ 32 ∧ f.1.toNat < 2 ^ f.2) →
    byteCount ((fs.map Prod.snd).sum + 8 * (vlqGroups 5 v.toNat).length) ≤ b.capacity →
    ∃ t u bw br,
      execAll (.bsCreate id .W :: (fs.map fun f => .writeUint32 f.1 f.2) ++ [.write7bitUint32 v, .flushPartial]) s = .next t ∧
      t.status = .ok ∧
      execAll (.bsCreate id .R :: (fs.map fun f => .readUint32 f.2) ++ [.read7bitUint32]) t = .next u ∧ u.status = .ok ∧
      u.result = .word v ∧ t.bs = some bw ∧ u.bs = some br ∧ br.position = bw.position

/-! ### The MatchFinder -/

/-- R191 to R194 and the first half of R195: the tail guard gives length 0; else the kept candidate is the one with the longest
run in the window, the later on equal runs; the result is its backward distance and its run capped at `max_length`; without a
candidate that has a run, the length is 0. Nothing but the Match registers, STATUS and the returned value changes. (The offset of
a result of length 0 is UNSPEC, log 3, and not stated. That the host's own stream, `index` and `declared_length` stay through the
call is the model's choice, logs 11 and 3.) -/
def Obligations.FindBestMatchKeepsTheLastLongestRun : Prop :=
  ∀ (s : State) id b index (c : Cfg), c.WellFormed = true → s.buf? id = some b →
    ∃ m : Match,
      exec (.findBestMatch id index c) s =
        .next { s with mtch := m, status := .ok, result := .mtch m, draws := s.draws + 1 } ∧
      (b.length ≤ index + c.minimumLength → m.length = 0) ∧
      (index + c.minimumLength < b.length →
        (∀ cand r, IsKept b index c cand r →
          m.length = min r (2 ^ c.lengthBits - 1) ∧ (0 < m.length → m.offset = index - cand)) ∧
        ((∀ cand, index - (2 ^ c.offsetBits - 1) ≤ cand → cand < index → IsRun b index cand 0) → m.length = 0))

/-- R195: a match of length above 0 is a usable reference: `1 <= offset <= min(index, max_offset)`, `length <= max_length`,
`index + length <= n`, and the bytes `offset` back are the bytes from `index` on. -/
def Obligations.FoundMatchIsAReference : Prop :=
  ∀ (s t : State) id b index c, s.buf? id = some b → exec (.findBestMatch id index c) s = .next t → 0 < t.mtch.length →
    1 ≤ t.mtch.offset ∧ t.mtch.offset ≤ min index (2 ^ c.offsetBits - 1) ∧ t.mtch.length ≤ 2 ^ c.lengthBits - 1 ∧
    index + t.mtch.length ≤ b.length ∧
    ∀ j, j < t.mtch.length → b.byteAt (index - t.mtch.offset + j) = b.byteAt (index + j)

/-! ### The Codec: configuration, sizing, encoder -/

/-- R210: `codec_init` returns the Config of its three operands, unless `offset_bits + length_bits > 31` or `minimum_length < 1`,
which is refused. Nothing but the Config, STATUS and the returned value changes. (That the host's own stream, `index`,
`declared_length` and the Match stay through the call is the model's choice, logs 11 and 3.) -/
def Obligations.CodecInitMakesTheConfig : Prop :=
  ∀ (s : State) ob lb ml,
    (ob + lb ≤ 31 → 1 ≤ ml →
      exec (.codecInit ob lb ml) s =
        .next { s with cfg := some ⟨ob, lb, ml⟩, status := .ok, result := .cfg ⟨ob, lb, ml⟩ }) ∧
    (31 < ob + lb ∨ ml < 1 → exec (.codecInit ob lb ml) s = .refused .invalidConfig)

/-- R212: `upper_bound(n)` is the least number of bytes with room for `32 + 9n` bits, over the naturals. Nothing but STATUS and
the returned value changes. (That the host's own stream, `index`, `declared_length` and the Match stay through the call is the
model's choice, logs 11 and 3.) -/
def Obligations.UpperBoundIsTheLeastByteCount : Prop :=
  ∀ (s : State) n,
    ∃ q, exec (.upperBound n) s = .next { s with status := .ok, result := .nat q } ∧ 32 + 9 * n ≤ 8 * q ∧
      ∀ p, 32 + 9 * n ≤ 8 * p → q ≤ p

/-- R222, R294: `encode` tests in this order: an empty input is `NoOp`, before anything is allocated; an input longer than the
header can say is refused; a refused allocation is `CouldNotAllocate`, nothing written. No buffer changes in either case. (What the
queue of the host's answers holds afterwards is the model's choice, log 5.) -/
def Obligations.EncodeStopsInOrder : Prop :=
  ∀ (s : State) (c : Cfg) input b, c.WellFormed = true → s.buf? input = some b →
    (b.length = 0 →
      ∃ t, exec (.encode c input) s = .next t ∧ t.status = .noOp ∧ t.result = .none ∧ t.mem = s.mem ∧
        t.grants = s.grants) ∧
    (2 ^ 32 - 1 < b.length → exec (.encode c input) s = .refused .inputTooLong) ∧
    (1 ≤ b.length → b.length ≤ 2 ^ 32 - 1 → s.grants.head? = some false →
      ∃ t, exec (.encode c input) s = .next t ∧ t.status = .couldNotAllocate ∧ t.result = .none ∧ t.mem = s.mem ∧
        t.grants = s.grants.tail)

/-- R215, R220, R221, R222, R295: whatever way `encode` ends, no buffer that existed before changes, and beside the registers named
here nothing does. On `Ok` the new buffer has capacity `upper_bound(n)` and a logical length within it, and the scan ended at
`n`; on `BufferOutOfBounds` its logical length is 0; `WrongOutputSize` never occurs. (Model's choices in it: CFG after the return
is the operand, log 10; the buffer of a failed `encode` stays, log 17; the queue of answers, log 5.) -/
def Obligations.EncodeFrame : Prop :=
  ∀ (s t : State) c input b, s.buf? input = some b → b.length ≤ b.capacity → exec (.encode c input) s = .next t →
    t = { s with
          mem := t.mem, bs := none, cfg := some c, inBuf := none, outBuf := none, mtch := t.mtch, index := t.index
          declared := t.declared, vlq := t.vlq, status := t.status, result := t.result, phase := .idle
          grants := t.grants, draws := t.draws } ∧
    (∀ j, j < s.mem.length → t.mem[j]? = s.mem[j]?) ∧
    (t.grants = s.grants ∨ t.grants = s.grants.tail) ∧
    ((t.status = .ok ∧ t.result = .buf s.mem.length ∧ t.index = b.length ∧
        ∃ o, t.mem = s.mem ++ [o] ∧ o.capacity = upperBoundBytes b.length ∧ o.length ≤ o.capacity) ∨
      (t.status = .bufferOutOfBounds ∧ t.result = .none ∧
        ∃ o, t.mem = s.mem ++ [o] ∧ o.capacity = upperBoundBytes b.length ∧ o.length = 0) ∨
      ((t.status = .noOp ∨ t.status = .couldNotAllocate) ∧ t.result = .none ∧ t.mem = s.mem))

/-- R213: `encode` succeeds on every non-empty input shorter than `2^28` bytes under every Config with
`1 + offset_bits + length_bits <= 9 * minimum_length`, when the host grants the allocation. -/
def Obligations.EncodeFitsItsUpperBound : Prop :=
  ∀ (s : State) (c : Cfg) input b, c.WellFormed = true → s.buf? input = some b → b.length ≤ b.capacity →
    1 ≤ b.length → b.length < 2 ^ 28 → 1 + c.offsetBits + c.lengthBits ≤ 9 * c.minimumLength →
    s.grants.head? = some true →
    ∃ t, exec (.encode c input) s = .next t ∧ t.status = .ok ∧ t.result = .buf s.mem.length

/-- R100, R215 to R220: what a successful `encode` produces is the header, the tokens chosen greedily at each position, and zero
bits up to the byte boundary; the logical length is the number of those bytes. It holds for every value of the free offset of a
search without a match. -/
def Obligations.EncodeWritesTheGreedyTokens : Prop :=
  ∀ (s t : State) (c : Cfg) input b free, s.buf? input = some b → b.length ≤ b.capacity →
    exec (.encode c input) s = .next t → t.status = .ok →
    ∃ o, t.buf? s.mem.length = some o ∧
      o.length = byteCount
        (vlqBits (BitVec.ofNat 32 b.length) ++ unitBits c (greedyTokens b c free b.length 0)).length ∧
      bitsFrom o o.length 0 =
        vlqBits (BitVec.ofNat 32 b.length) ++ unitBits c (greedyTokens b c free b.length 0) ++
          List.replicate
            (8 * o.length -
              (vlqBits (BitVec.ofNat 32 b.length) ++ unitBits c (greedyTokens b c free b.length 0)).length) false

/-- R225: whenever `encode` returns `Ok`, decoding its output under the same Config gives the input back, when the host grants the
allocation. -/
def Obligations.DecodeInvertsEncode : Prop :=
  ∀ (s t : State) (c : Cfg) input b, s.buf? input = some b → b.length ≤ b.capacity →
    exec (.encode c input) s = .next t → t.status = .ok → t.grants.head? = some true →
    ∃ u o, exec (.decode c s.mem.length) t = .next u ∧ u.status = .ok ∧ u.result = .buf t.mem.length ∧
      u.buf? t.mem.length = some o ∧ o.bytes = b.bytes

/-! ### The Codec: decoder -/

/-- R240, R241: `peek_original_length` returns the value of the header at the start of the input; an empty input is `NoOp`; a
header cut by the input's capacity is `BufferOutOfBounds`. The stream it makes is discarded; no buffer and no Config changes. -/
def Obligations.PeekReadsTheHeader : Prop :=
  ∀ (s : State) input b, s.buf? input = some b →
    (b.length = 0 → ∃ t, exec (.peekOriginalLength input) s = .next t ∧ t.status = .noOp ∧ t.result = .none ∧
      t.mem = s.mem ∧ t.bs = none ∧ t.cfg = s.cfg ∧ t.requests = s.requests ∧ t.grants = s.grants) ∧
    (b.length ≠ 0 → ∀ gs rest, IsReadVlq gs → b.bits = gs.flatMap (fun g => fieldBits g.toNat 8) ++ rest →
      ∃ t w,
        exec (.peekOriginalLength input) s = .next t ∧ w.toNat = groupSum gs % 2 ^ 32 ∧
        t = { s with
              bs := none, inBuf := none, outBuf := none, mtch := t.mtch, index := t.index, declared := t.declared
              vlq := t.vlq, status := .ok, result := .word w, phase := .idle, draws := t.draws }) ∧
    (b.length ≠ 0 →
      (¬ ∃ gs rest, IsReadVlq gs ∧ b.bits = gs.flatMap (fun g => fieldBits g.toNat 8) ++ rest) →
      ∃ t, exec (.peekOriginalLength input) s = .next t ∧ t.status = .bufferOutOfBounds ∧ t.result = .none ∧
        t.mem = s.mem ∧ t.bs = none ∧ t.cfg = s.cfg ∧ t.requests = s.requests ∧ t.grants = s.grants)

/-- R243, R246, R247, R248, R250, R259: a stream made of a header and well-formed tokens, whatever comes after them, is decoded
to the bytes the tokens say, when OUT has the declared size. `expandTokens` knows nothing of the machine: a literal appends its
byte, a pair appends the byte `offset` back, `length` times. Nothing but OUT and the registers named here changes. (That CFG after
the return is the operand is the model's choice, log 10.) -/
def Obligations.DecodeIntoExecutesTheTokens : Prop :=
  ∀ (s : State) (c : Cfg) input output bi bo gs toks rest out,
    c.WellFormed = true → s.buf? input = some bi → s.buf? output = some bo → input ≠ output → bi.length ≠ 0 →
    IsReadVlq gs → (∀ i ∈ toks, i.WellFormed c = true) →
    bi.bits = gs.flatMap (fun g => fieldBits g.toNat 8) ++ (unitBits c toks ++ rest) →
    expandTokens [] toks = some out → out.length = groupSum gs % 2 ^ 32 → bo.capacity = out.length → out ≠ [] →
    ∃ t bo',
      exec (.decodeInto c input output) s = .next t ∧
      t = { s with
            mem := s.mem.set output bo', bs := none, cfg := some c, inBuf := none, outBuf := none, mtch := t.mtch
            index := out.length, declared := BitVec.ofNat 32 out.length, vlq := t.vlq, status := .ok, result := .none
            phase := .idle, draws := t.draws } ∧
      bo'.capacity = bo.capacity ∧ bo'.length = out.length ∧ bo'.bytes = out

/-- R244, R245, R258, R90: before any byte of OUT is written, `decode_into` tests in this order: an empty input or an OUT of
capacity 0 is `NoOp`; a header cut by the input's capacity is `BufferOutOfBounds`; a header value other than OUT's capacity is
`WrongOutputSize`. OUT being IN is refused. R257, R258, R296: whatever way it ends, no buffer but OUT changes and OUT keeps its
capacity; OUT is unchanged by `NoOp` and `WrongOutputSize`; `CouldNotAllocate` never occurs; no stream survives. (Model's choices
in it: CFG after the return is the operand, log 10; one buffer of capacity 0 as both IN and OUT is refused too, logs 12 and 18.) -/
def Obligations.DecodeIntoStopsBeforeWriting : Prop :=
  ∀ (s : State) (c : Cfg) input output bi bo, c.WellFormed = true → s.buf? input = some bi → s.buf? output = some bo →
    (input = output → exec (.decodeInto c input output) s = .refused .aliasedBuffers) ∧
    (input ≠ output →
      (bi.length = 0 ∨ bo.capacity = 0 →
        ∃ t, exec (.decodeInto c input output) s = .next t ∧ t.status = .noOp ∧ t.result = .none ∧ t.mem = s.mem) ∧
      (bi.length ≠ 0 → bo.capacity ≠ 0 →
        (∀ gs rest, IsReadVlq gs → bi.bits = gs.flatMap (fun g => fieldBits g.toNat 8) ++ rest →
          groupSum gs % 2 ^ 32 ≠ bo.capacity →
          ∃ t, exec (.decodeInto c input output) s = .next t ∧ t.status = .wrongOutputSize ∧ t.result = .none ∧
            t.mem = s.mem) ∧
        ((¬ ∃ gs rest, IsReadVlq gs ∧ bi.bits = gs.flatMap (fun g => fieldBits g.toNat 8) ++ rest) →
          ∃ t, exec (.decodeInto c input output) s = .next t ∧ t.status = .bufferOutOfBounds ∧ t.result = .none)) ∧
      ∃ t bo',
        exec (.decodeInto c input output) s = .next t ∧
        t = { s with
              mem := s.mem.set output bo', bs := none, cfg := some c, inBuf := none, outBuf := none, mtch := t.mtch
              index := t.index, declared := t.declared, vlq := t.vlq, status := t.status, result := .none
              phase := .idle, draws := t.draws } ∧
        bo'.capacity = bo.capacity ∧ t.status ≠ .couldNotAllocate ∧
        (t.status = .noOp ∨ t.status = .wrongOutputSize → t.mem = s.mem))

/-- R260: `decode` allocates a buffer of exactly the declared length, runs `decode_into` on it and returns it, its logical length
being the declared length. No buffer that existed before changes. (Model's choices in it: CFG after the return is the operand, log
10; the queue of answers, log 5.) -/
def Obligations.DecodeAllocatesTheDeclaredLength : Prop :=
  ∀ (s : State) (c : Cfg) input bi gs toks rest out,
    c.WellFormed = true → s.buf? input = some bi → bi.length ≠ 0 →
    IsReadVlq gs → (∀ i ∈ toks, i.WellFormed c = true) →
    bi.bits = gs.flatMap (fun g => fieldBits g.toNat 8) ++ (unitBits c toks ++ rest) →
    expandTokens [] toks = some out → out.length = groupSum gs % 2 ^ 32 → out ≠ [] → s.grants.head? = some true →
    ∃ t bo,
      exec (.decode c input) s = .next t ∧
      t = { s with
            mem := s.mem ++ [bo], bs := none, cfg := some c, inBuf := none, outBuf := none, mtch := t.mtch
            index := out.length, declared := BitVec.ofNat 32 out.length, vlq := t.vlq, status := .ok
            result := .buf s.mem.length, phase := .idle, grants := s.grants.tail, draws := t.draws } ∧
      bo.capacity = out.length ∧ bo.length = out.length ∧ bo.bytes = out

/-- R261: the errors of `decode` in order: `NoOp` on an empty input, `BufferOutOfBounds` on a cut header, `NoOp` on a header value
0, `CouldNotAllocate` on a refused allocation; `WrongOutputSize` cannot occur. No buffer that existed before changes, and on a
failure no buffer is handed over. (R261 leaves open whether a failure hands a buffer over; that none is, is the model's choice, log
17. The answer to the allocation comes from the queue of log 5.) -/
def Obligations.DecodeStopsInOrder : Prop :=
  ∀ (s : State) (c : Cfg) input bi, c.WellFormed = true → s.buf? input = some bi →
    (bi.length = 0 → ∃ t, exec (.decode c input) s = .next t ∧ t.status = .noOp ∧ t.mem = s.mem) ∧
    (bi.length ≠ 0 →
      (¬ ∃ gs rest, IsReadVlq gs ∧ bi.bits = gs.flatMap (fun g => fieldBits g.toNat 8) ++ rest) →
      ∃ t, exec (.decode c input) s = .next t ∧ t.status = .bufferOutOfBounds ∧ t.mem = s.mem) ∧
    (bi.length ≠ 0 → ∀ gs rest, IsReadVlq gs → bi.bits = gs.flatMap (fun g => fieldBits g.toNat 8) ++ rest →
      (groupSum gs % 2 ^ 32 = 0 → ∃ t, exec (.decode c input) s = .next t ∧ t.status = .noOp ∧ t.mem = s.mem) ∧
      (groupSum gs % 2 ^ 32 ≠ 0 → s.grants.head? = some false →
        ∃ t, exec (.decode c input) s = .next t ∧ t.status = .couldNotAllocate ∧ t.mem = s.mem)) ∧
    (∀ t, exec (.decode c input) s = .next t →
      t.status ≠ .wrongOutputSize ∧ (t.status ≠ .ok → t.result = .none) ∧
      ∀ j, j < s.mem.length → t.mem[j]? = s.mem[j]?)

/-- R247: `decode_into` never reads `minimum_length`: two Configs with the same field widths give the same outcome. (That CFG
after the return is the operand is the model's choice, log 10.) -/
def Obligations.MinimumLengthIsNotRead : Prop :=
  ∀ (s t : State) ob lb ml ml' input output, 1 ≤ ml' →
    exec (.decodeInto ⟨ob, lb, ml⟩ input output) s = .next t →
    exec (.decodeInto ⟨ob, lb, ml'⟩ input output) s = .next { t with cfg := some ⟨ob, lb, ml'⟩ }

/-- R84: the input buffer of a call is never written. (The spec marks R84 as its own inference from R70.) -/
def Obligations.InputIsNeverWritten : Prop :=
  ∀ (s t : State) (c : Cfg) input output i,
    i ∈ [.encode c input, .peekOriginalLength input, .decodeInto c input output, .decode c input] →
    exec i s = .next t → t.buf? input = s.buf? input

/-! ### Tokens on the decoder's side -/

/-- R243 step 2, R245: the header's value must be OUT's capacity: then `declared_length` is set and the scan starts at 0; else the
call ends with `WrongOutputSize`, no byte of any buffer changed. -/
def Obligations.HdrChecksTheOutputSize : Prop :=
  ∀ (s : State) bs b o bo value, s.Live .R bs b → s.outBuf = some o → s.buf? o = some bo →
    (value.toNat = bo.capacity → exec (.hdr value) s = .next { s with declared := value, index := 0 }) ∧
    (value.toNat ≠ bo.capacity → s.phase = .decHeader →
      ∃ t, exec (.hdr value) s = .next t ∧
        t = { s with
              declared := value, bs := none, inBuf := none, outBuf := none, vlq := t.vlq, status := .wrongOutputSize
              result := .none, phase := .idle, draws := t.draws })

/-- R248: the literal's byte is stored at `index`, which advances by 1; everything else is unchanged. -/
def Obligations.LiteralStoresItsByte : Prop :=
  ∀ (s : State) bs b o bo byte, s.Live .R bs b → s.outBuf = some o → s.buf? o = some bo → s.index < bo.capacity →
    ∃ t, exec (.literal byte) s = .next t ∧ t = { s with mem := t.mem, index := s.index + 1 } ∧
      t.byte? o s.index = some byte ∧ t.sizes = s.sizes ∧ SameBytesBut s t o s.index (s.index + 1)

/-- R250, R251: byte `k` of the copy is byte `k mod offset` of the `offset` bytes before `index`; `index` advances by `length`;
everything else is unchanged. For both pair rows. -/
def Obligations.PairCopiesForward : Prop :=
  ∀ (s : State) bs b o bo (i : Instr) offset length, s.Live .R bs b → s.outBuf = some o → s.buf? o = some bo →
    (i = .pair offset length ∨
      ∃ (f : BitVec 10) (g : BitVec 6), i = .pairDemo f g ∧ f.toNat = offset ∧ g.toNat = length) →
    1 ≤ offset → offset ≤ s.index → s.index + length ≤ bo.capacity →
    ∃ t, exec i s = .next t ∧ t = { s with mem := t.mem, index := s.index + length } ∧
      (∀ k, k < length → t.byte? o (s.index + k) = s.byte? o (s.index - offset + k % offset)) ∧
      t.sizes = s.sizes ∧ SameBytesBut s t o s.index (s.index + length)

/-- R252, R253, R257: a pair of length above 0 whose source lies before OUT or whose destination passes it ends the call with
`BufferOutOfBounds`; every buffer but OUT is unchanged, and OUT keeps its capacity (its bytes and length are UNSPEC, log 4). For
both pair rows. -/
def Obligations.PairOutOfBoundsEndsTheCall : Prop :=
  ∀ (s : State) bs b o bo (i : Instr) offset length, s.Live .R bs b → s.outBuf = some o → s.buf? o = some bo →
    s.phase = .decBody →
    (i = .pair offset length ∨
      ∃ (f : BitVec 10) (g : BitVec 6), i = .pairDemo f g ∧ f.toNat = offset ∧ g.toNat = length) →
    0 < length → s.index < offset ∨ bo.capacity < s.index + length →
    ∃ t bo', exec i s = .next t ∧
      t = { s with
            mem := s.mem.set o bo', bs := none, inBuf := none, outBuf := none, vlq := t.vlq
            status := .bufferOutOfBounds, result := .none, phase := .idle, draws := t.draws } ∧
      bo'.capacity = bo.capacity

/-- R254, R255: a pair with `offset = 0` that stays inside OUT copies each byte onto itself: no byte changes and `index` advances
by `length`; a pair with `length = 0` does nothing, whatever its offset. For both pair rows. -/
def Obligations.IrregularPairsRun : Prop :=
  ∀ (s : State) bs b o bo (i : Instr) offset length, s.Live .R bs b → s.outBuf = some o → s.buf? o = some bo →
    (i = .pair offset length ∨
      ∃ (f : BitVec 10) (g : BitVec 6), i = .pairDemo f g ∧ f.toNat = offset ∧ g.toNat = length) →
    (offset = 0 → s.index + length ≤ bo.capacity →
      ∃ t, exec i s = .next t ∧ t = { s with mem := t.mem, index := s.index + length } ∧
        t.sizes = s.sizes ∧ ∀ j a, t.byte? j a = s.byte? j a) ∧
    (length = 0 → exec i s = .next s)

/-- R101, R174, R176: a group read one step at a time enters the loop registers: its payload is ORed in at `shift`, `shift` advances
by 7, and VLQ.LAST, or a `shift` above 32, ends the loop. (The registers of a header read by groups are kept in State by the
model's choice, log 8.) -/
def Obligations.GroupsFillTheVlqRegisters : Prop :=
  ∀ (s : State) bs b (p : BitVec 7), s.Live .R bs b →
    exec (.vlqLast p) s =
      .next { s with
        vlq := { result := s.vlq.result ||| (p.setWidth 32 <<< s.vlq.shift), shift := s.vlq.shift + 7, stopped := true } } ∧
    exec (.vlqCont p) s =
      .next { s with
        vlq := { result := s.vlq.result ||| (p.setWidth 32 <<< s.vlq.shift), shift := s.vlq.shift + 7
                 stopped := decide (32 < s.vlq.shift + 7) } }

/-- R108, R246, R154: the decoder ignores the padding; the encoder's padding is the zero bits `flush_partial` adds, one byte
stored if any bit is pending. (Executing the padding as a unit of its own is the model's choice, log 9.) -/
def Obligations.PaddingIsIgnoredAndFlushed : Prop :=
  ∀ (s : State) bs b k, bs.Inv b →
    (s.Live .R bs b → exec (.pad k) s = .next s) ∧
    (s.Live .W bs b → bs.bitCount = 0 → exec (.pad k) s = .next s) ∧
    (s.Live .W bs b → 0 < bs.bitCount → bs.position < b.capacity →
      ∃ t, exec (.pad k) s = .next t ∧
        t = { s with mem := t.mem, bs := some { bs with position := bs.position + 1, byteBuffer := 0#8, bitCount := 0 } } ∧
        t.byte? bs.buf bs.position = some (bs.byteBuffer <<< (8 - bs.bitCount)) ∧
        t.sizes = s.sizes ∧ SameBytesBut s t bs.buf bs.position (bs.position + 1))

/-! ### Tokens on the encoder's side -/

/-- R101, R103, R215, R217, R218: on the encoder's stream a group, the header and a token append exactly their encoding; the scan
cursor starts at 0 after the header and advances by 1 for a literal, by `length` for a pair; everything else is unchanged.
(That a token row can be executed on the encoder's side is the model's choice, log 8.) -/
def Obligations.TokensAppendTheirEncoding : Prop :=
  ∀ (s : State) (c : Cfg) bs b i xs, s.Live .W bs b → bs.Inv b → s.cfg = some c → i.WellFormed c = true →
    i.slot ≠ .padding → encode c i = .stream xs → bs.position + (bs.bitCount + xs.length) / 8 ≤ b.capacity →
    ∃ t bs' b',
      exec i s = .next t ∧ t = { s with mem := t.mem, bs := some bs', index := indexAfter i s.index } ∧
      t.buf? bs.buf = some b' ∧ writtenBits bs' b' = writtenBits bs b ++ xs ∧
      bs'.buf = bs.buf ∧ bs'.dir = .W ∧ bs'.dead = false ∧ bs'.Inv b' ∧
      bs'.position = bs.position + (bs.bitCount + xs.length) / 8 ∧ bs'.bitCount = (bs.bitCount + xs.length) % 8 ∧
      t.sizes = s.sizes ∧ SameBytesBut s t bs.buf bs.position (bs.position + (bs.bitCount + xs.length) / 8)

/-- R221, R222, R295: a group, the header, a token, or the padding of the final flush (R154, R155) for which the output has no room
ends the encode call with `BufferOutOfBounds`: OUT has logical length 0, every other buffer is unchanged, no stream survives. (That
these are executed as units of a call is the model's choice, logs 8 and 9.) -/
def Obligations.TokenWithoutRoomEndsTheCall : Prop :=
  ∀ (s : State) (c : Cfg) bs b i, s.Live .W bs b → bs.Inv b → s.cfg = some c →
    s.phase ∈ [.encHeader, .encBody, .encTail] → s.outBuf = some bs.buf →
    (i.slot ≠ .padding ∧ i.WellFormed c = true ∧
        ∃ xs, encode c i = .stream xs ∧ b.capacity < bs.position + (bs.bitCount + xs.length) / 8) ∨
      (i.slot = .padding ∧ 0 < bs.bitCount ∧ b.capacity ≤ bs.position) →
    ∃ t b', exec i s = .next t ∧
      t = { s with
            mem := s.mem.set bs.buf b', bs := none, inBuf := none, outBuf := none, vlq := t.vlq
            status := .bufferOutOfBounds, result := .none, phase := .idle, draws := t.draws } ∧
      b'.length = 0 ∧ b'.capacity = b.capacity

/-! ### Errors, status -/

/-- R291: taking an error saves nothing; STATUS gets the kind; the stream becomes dead, and with a Codec call it is discarded and
the call ends; for `encode`, OUT's logical length becomes 0; no other buffer changes, nor any register but those named. (The spec
marks R291 as its own inference from R290 and R39.) -/
def Obligations.ErrorEntry : Prop :=
  ∀ (k : Status) (s : State),
    (takeError k s).status = k ∧ (takeError k s).result = .none ∧ (takeError k s).phase = .idle ∧
    (takeError k s).cfg = s.cfg ∧ (takeError k s).mtch = s.mtch ∧ (takeError k s).index = s.index ∧
    (takeError k s).declared = s.declared ∧ (takeError k s).requests = s.requests ∧ (takeError k s).grants = s.grants ∧
    (∀ bs', (takeError k s).bs = some bs' → bs'.dead = true) ∧
    (s.phase = .idle → (takeError k s).mem = s.mem) ∧
    (s.phase ≠ .idle →
      (takeError k s).bs = none ∧ (takeError k s).inBuf = none ∧ (takeError k s).outBuf = none) ∧
    (∀ j, s.outBuf ≠ some j → (takeError k s).buf? j = s.buf? j) ∧
    (∀ o b, s.phase ∈ [.encHeader, .encBody, .encTail] → s.outBuf = some o → s.buf? o = some b →
      ∃ b', (takeError k s).buf? o = some b' ∧ b'.length = 0 ∧ b'.capacity = b.capacity)

/-- R53, R297: no operation reads STATUS: a call's outcome does not depend on what an earlier call left there. -/
def Obligations.StatusIsNeverRead : Prop :=
  ∀ (s : State) i k, i.slot = .command → exec i { s with status := k } = exec i s

/-! ### The machine as a whole -/

/-- R30, R31, R33 to R36, R10, R40 to R42, R219, R246: every step keeps the invariant. -/
def Obligations.StepKeepsTheInvariant : Prop := ∀ s t : State, s.Inv → step s = .next t → t.Inv

/-- The invariant holds after reset. -/
def Obligations.ResetMeetsTheInvariant : Prop := State.reset.Inv

/-- R20: no operation runs out of the model's loop budget, in any state. -/
def Obligations.NoStepFaults : Prop := ∀ (s : State) f, step s ≠ .fault f

/-- R20: a call in progress returns after finitely many steps, and no step of it is refused. -/
def Obligations.EveryCallReturns : Prop :=
  ∀ s : State, s.Inv → ∃ n t, runCall n s = .next t ∧ t.phase = .idle

/-- R10, R18, R62, R84, R211: while a call is in progress its Config, its input and the host's requests stay as they are. -/
def Obligations.CallKeepsConfigAndInput : Prop :=
  ∀ s t : State, s.Inv → s.phase ≠ .idle → step s = .next t →
    t.cfg = s.cfg ∧ t.requests = s.requests ∧ t.grants = s.grants ∧ t.mem.length = s.mem.length ∧
    ∀ j, s.outBuf ≠ some j → t.mem[j]? = s.mem[j]?

/-- R16, R243, R109: `decode_into` as one transition gives exactly the state that its units give when the machine runs them one a
step, whether the header is read whole or group by group. (The stepwise form is the model's own, log 8.) -/
def Obligations.StepwiseDecodeIsDecodeInto : Prop :=
  ∀ (s u : State) grouped c input output rest, s.phase = .idle → s.requests = .decodeStepwise grouped c input output :: rest →
    exec (.decodeInto c input output) { s with requests := rest } = .next u →
    ∃ t n, step s = .next t ∧ runCall n t = .next u

/-- R16, R215: `encode` as one transition gives exactly the state that its units give when the machine runs them one a step. (The
stepwise form is the model's own, log 8.) -/
def Obligations.StepwiseEncodeIsEncode : Prop :=
  ∀ (s u : State) c input rest, s.phase = .idle → s.requests = .encodeStepwise c input :: rest →
    exec (.encode c input) { s with requests := rest } = .next u →
    ∃ t n, step s = .next t ∧ runCall n t = .next u

end Slice0Statements
end

