-- ==== Sys2Proof/Laws/State.lean ====
section
/-! SUPPORT. One lemma per field per named update of the state, true by rfl, so that no proof unfolds a record update. -/

namespace Sys2Proof.Machine

variable (s : State)

/-! ### `putBuf` -/

@[simp] theorem State.putBuf_mem (id : BufId) (b : Buffer) : (s.putBuf id b).mem = s.mem.set id b := rfl
@[simp] theorem State.putBuf_bs (id : BufId) (b : Buffer) : (s.putBuf id b).bs = s.bs := rfl
@[simp] theorem State.putBuf_cfg (id : BufId) (b : Buffer) : (s.putBuf id b).cfg = s.cfg := rfl
@[simp] theorem State.putBuf_inBuf (id : BufId) (b : Buffer) : (s.putBuf id b).inBuf = s.inBuf := rfl
@[simp] theorem State.putBuf_outBuf (id : BufId) (b : Buffer) : (s.putBuf id b).outBuf = s.outBuf := rfl
@[simp] theorem State.putBuf_mtch (id : BufId) (b : Buffer) : (s.putBuf id b).mtch = s.mtch := rfl
@[simp] theorem State.putBuf_index (id : BufId) (b : Buffer) : (s.putBuf id b).index = s.index := rfl
@[simp] theorem State.putBuf_declared (id : BufId) (b : Buffer) : (s.putBuf id b).declared = s.declared := rfl
@[simp] theorem State.putBuf_vlq (id : BufId) (b : Buffer) : (s.putBuf id b).vlq = s.vlq := rfl
@[simp] theorem State.putBuf_status (id : BufId) (b : Buffer) : (s.putBuf id b).status = s.status := rfl
@[simp] theorem State.putBuf_result (id : BufId) (b : Buffer) : (s.putBuf id b).result = s.result := rfl
@[simp] theorem State.putBuf_phase (id : BufId) (b : Buffer) : (s.putBuf id b).phase = s.phase := rfl
@[simp] theorem State.putBuf_requests (id : BufId) (b : Buffer) : (s.putBuf id b).requests = s.requests := rfl
@[simp] theorem State.putBuf_grants (id : BufId) (b : Buffer) : (s.putBuf id b).grants = s.grants := rfl
@[simp] theorem State.putBuf_draws (id : BufId) (b : Buffer) : (s.putBuf id b).draws = s.draws := rfl

/-! ### `putStream` -/

@[simp] theorem State.putStream_mem (x : Option BitStream) : (s.putStream x).mem = s.mem := rfl
@[simp] theorem State.putStream_bs (x : Option BitStream) : (s.putStream x).bs = x := rfl
@[simp] theorem State.putStream_cfg (x : Option BitStream) : (s.putStream x).cfg = s.cfg := rfl
@[simp] theorem State.putStream_inBuf (x : Option BitStream) : (s.putStream x).inBuf = s.inBuf := rfl
@[simp] theorem State.putStream_outBuf (x : Option BitStream) : (s.putStream x).outBuf = s.outBuf := rfl
@[simp] theorem State.putStream_mtch (x : Option BitStream) : (s.putStream x).mtch = s.mtch := rfl
@[simp] theorem State.putStream_index (x : Option BitStream) : (s.putStream x).index = s.index := rfl
@[simp] theorem State.putStream_declared (x : Option BitStream) : (s.putStream x).declared = s.declared := rfl
@[simp] theorem State.putStream_vlq (x : Option BitStream) : (s.putStream x).vlq = s.vlq := rfl
@[simp] theorem State.putStream_status (x : Option BitStream) : (s.putStream x).status = s.status := rfl
@[simp] theorem State.putStream_result (x : Option BitStream) : (s.putStream x).result = s.result := rfl
@[simp] theorem State.putStream_phase (x : Option BitStream) : (s.putStream x).phase = s.phase := rfl
@[simp] theorem State.putStream_requests (x : Option BitStream) : (s.putStream x).requests = s.requests := rfl
@[simp] theorem State.putStream_grants (x : Option BitStream) : (s.putStream x).grants = s.grants := rfl
@[simp] theorem State.putStream_draws (x : Option BitStream) : (s.putStream x).draws = s.draws := rfl

/-! ### `beginCall` -/

@[simp] theorem State.beginCall_mem (p : Phase) (i o : Option BufId) : (s.beginCall p i o).mem = s.mem := rfl
@[simp] theorem State.beginCall_bs (p : Phase) (i o : Option BufId) : (s.beginCall p i o).bs = none := rfl
@[simp] theorem State.beginCall_cfg (p : Phase) (i o : Option BufId) : (s.beginCall p i o).cfg = s.cfg := rfl
@[simp] theorem State.beginCall_inBuf (p : Phase) (i o : Option BufId) : (s.beginCall p i o).inBuf = i := rfl
@[simp] theorem State.beginCall_outBuf (p : Phase) (i o : Option BufId) : (s.beginCall p i o).outBuf = o := rfl
@[simp] theorem State.beginCall_mtch (p : Phase) (i o : Option BufId) : (s.beginCall p i o).mtch = ⟨(Config.freeOffset s.draws).toNat, (Config.freeLength s.draws).toNat⟩ := rfl
@[simp] theorem State.beginCall_index (p : Phase) (i o : Option BufId) : (s.beginCall p i o).index = Config.freeIndex s.draws := rfl
@[simp] theorem State.beginCall_declared (p : Phase) (i o : Option BufId) : (s.beginCall p i o).declared = Config.freeDeclared s.draws := rfl
@[simp] theorem State.beginCall_vlq (p : Phase) (i o : Option BufId) : (s.beginCall p i o).vlq = ⟨0#32, 0, false⟩ := rfl
@[simp] theorem State.beginCall_status (p : Phase) (i o : Option BufId) : (s.beginCall p i o).status = s.status := rfl
@[simp] theorem State.beginCall_result (p : Phase) (i o : Option BufId) : (s.beginCall p i o).result = s.result := rfl
@[simp] theorem State.beginCall_phase (p : Phase) (i o : Option BufId) : (s.beginCall p i o).phase = p := rfl
@[simp] theorem State.beginCall_requests (p : Phase) (i o : Option BufId) : (s.beginCall p i o).requests = s.requests := rfl
@[simp] theorem State.beginCall_grants (p : Phase) (i o : Option BufId) : (s.beginCall p i o).grants = s.grants := rfl
@[simp] theorem State.beginCall_draws (p : Phase) (i o : Option BufId) : (s.beginCall p i o).draws = s.draws + 1 := rfl

/-! ### `leaveCall` -/

@[simp] theorem State.leaveCall_mem : s.leaveCall.mem = s.mem := rfl
@[simp] theorem State.leaveCall_bs : s.leaveCall.bs = none := rfl
@[simp] theorem State.leaveCall_cfg : s.leaveCall.cfg = s.cfg := rfl
@[simp] theorem State.leaveCall_inBuf : s.leaveCall.inBuf = none := rfl
@[simp] theorem State.leaveCall_outBuf : s.leaveCall.outBuf = none := rfl
@[simp] theorem State.leaveCall_mtch : s.leaveCall.mtch = s.mtch := rfl
@[simp] theorem State.leaveCall_index : s.leaveCall.index = s.index := rfl
@[simp] theorem State.leaveCall_declared : s.leaveCall.declared = s.declared := rfl
@[simp] theorem State.leaveCall_vlq : s.leaveCall.vlq = ⟨0#32, 0, false⟩ := rfl
@[simp] theorem State.leaveCall_status : s.leaveCall.status = s.status := rfl
@[simp] theorem State.leaveCall_result : s.leaveCall.result = s.result := rfl
@[simp] theorem State.leaveCall_phase : s.leaveCall.phase = .idle := rfl
@[simp] theorem State.leaveCall_requests : s.leaveCall.requests = s.requests := rfl
@[simp] theorem State.leaveCall_grants : s.leaveCall.grants = s.grants := rfl
@[simp] theorem State.leaveCall_draws : s.leaveCall.draws = s.draws := rfl

/-! ### `endCall` -/

@[simp] theorem State.endCall_mem (v : Ret) : (s.endCall v).mem = s.mem := rfl
@[simp] theorem State.endCall_bs (v : Ret) : (s.endCall v).bs = none := rfl
@[simp] theorem State.endCall_cfg (v : Ret) : (s.endCall v).cfg = s.cfg := rfl
@[simp] theorem State.endCall_inBuf (v : Ret) : (s.endCall v).inBuf = none := rfl
@[simp] theorem State.endCall_outBuf (v : Ret) : (s.endCall v).outBuf = none := rfl
@[simp] theorem State.endCall_mtch (v : Ret) : (s.endCall v).mtch = s.mtch := rfl
@[simp] theorem State.endCall_index (v : Ret) : (s.endCall v).index = s.index := rfl
@[simp] theorem State.endCall_declared (v : Ret) : (s.endCall v).declared = s.declared := rfl
@[simp] theorem State.endCall_vlq (v : Ret) : (s.endCall v).vlq = ⟨0#32, 0, false⟩ := rfl
@[simp] theorem State.endCall_status (v : Ret) : (s.endCall v).status = .ok := rfl
@[simp] theorem State.endCall_result (v : Ret) : (s.endCall v).result = v := rfl
@[simp] theorem State.endCall_phase (v : Ret) : (s.endCall v).phase = .idle := rfl
@[simp] theorem State.endCall_requests (v : Ret) : (s.endCall v).requests = s.requests := rfl
@[simp] theorem State.endCall_grants (v : Ret) : (s.endCall v).grants = s.grants := rfl
@[simp] theorem State.endCall_draws (v : Ret) : (s.endCall v).draws = s.draws := rfl

/-! ### Streams and buffers -/

@[simp] theorem BitStream.fresh_buf (id : BufId) (d : Dir) : (BitStream.fresh id d).buf = id := rfl
@[simp] theorem BitStream.fresh_position (id : BufId) (d : Dir) : (BitStream.fresh id d).position = 0 := rfl
@[simp] theorem BitStream.fresh_byteBuffer (id : BufId) (d : Dir) : (BitStream.fresh id d).byteBuffer = 0#8 := rfl
@[simp] theorem BitStream.fresh_bitCount (id : BufId) (d : Dir) : (BitStream.fresh id d).bitCount = 0 := rfl
@[simp] theorem BitStream.fresh_dir (id : BufId) (d : Dir) : (BitStream.fresh id d).dir = d := rfl
@[simp] theorem BitStream.fresh_dead (id : BufId) (d : Dir) : (BitStream.fresh id d).dead = false := rfl
@[simp] theorem BitStream.kill_buf (bs : BitStream) (n : Nat) : (bs.kill n).buf = bs.buf := rfl
@[simp] theorem BitStream.kill_position (bs : BitStream) (n : Nat) : (bs.kill n).position = bs.position := rfl
@[simp] theorem BitStream.kill_dir (bs : BitStream) (n : Nat) : (bs.kill n).dir = bs.dir := rfl
@[simp] theorem BitStream.kill_dead (bs : BitStream) (n : Nat) : (bs.kill n).dead = true := rfl
@[simp] theorem Buffer.forget_capacity (b : Buffer) (n : Nat) : (b.forget n).capacity = b.capacity := rfl
@[simp] theorem Buffer.forget_length (b : Buffer) (n : Nat) : (b.forget n).length = b.length := rfl
@[simp] theorem Buffer.forget_cells (b : Buffer) (n : Nat) : (b.forget n).cells = [] := rfl
@[simp] theorem Buffer.afterFailedEncode_capacity (b : Buffer) (n : Nat) :
    (b.afterFailedEncode n).capacity = b.capacity := rfl
@[simp] theorem Buffer.afterFailedEncode_length (b : Buffer) (n : Nat) : (b.afterFailedEncode n).length = 0 := rfl
@[simp] theorem Buffer.afterFailedEncode_cells (b : Buffer) (n : Nat) : (b.afterFailedEncode n).cells = [] := rfl
@[simp] theorem Buffer.afterFailedDecode_capacity (b : Buffer) (n : Nat) :
    (b.afterFailedDecode n).capacity = b.capacity := rfl
@[simp] theorem Buffer.afterFailedDecode_cells (b : Buffer) (n : Nat) : (b.afterFailedDecode n).cells = [] := rfl

/-! ### The two readings of a legal Config agree -/

theorem configLegal_eq_wellFormed (c : Cfg) : configLegal c = c.WellFormed := rfl

/-! ### A buffer replaced, a buffer found -/

theorem State.buf?_putBuf_same {s : State} {id : BufId} {b b' : Buffer} (h : s.buf? id = some b) :
    (s.putBuf id b').buf? id = some b' := by
  have hl : id < s.mem.length := (List.getElem?_eq_some_iff.mp h).1
  simp [State.buf?, State.putBuf, hl]

theorem State.buf?_putBuf_other {s : State} {id j : BufId} {b' : Buffer} (h : id ≠ j) :
    (s.putBuf id b').buf? j = s.buf? j := by
  simp [State.buf?, State.putBuf, h]

@[simp] theorem State.buf?_putStream (x : Option BitStream) (id : BufId) : (s.putStream x).buf? id = s.buf? id := rfl

end Sys2Proof.Machine
end

