-- ==== Sys2Proof/Laws/Memory.lean ====
section
/-! SUPPORT. The laws of buffers: a read after a write, a write leaves every other byte alone, and every operation keeps the
canonical form. -/

namespace Sys2Proof.Machine

/-! ### Cells -/

@[simp] theorem cellAt_cellPut_same (l : List Host.Cell) (a : Nat) (v : Byte) : cellAt (cellPut l a v) a = some v := by
  induction l with
  | nil => simp [cellPut, cellAt]
  | cons c rest ih =>
    obtain ⟨k, w⟩ := c
    rcases Nat.lt_trichotomy a k with h | h | h
    · simp [cellPut, h, cellAt]
    · simp [cellPut, h, cellAt]
    · have h1 : ¬ a < k := by omega
      have h2 : a ≠ k := by omega
      simp [cellPut, h1, h2, cellAt, ih]

theorem cellAt_cellPut_other (l : List Host.Cell) {a j : Nat} (v : Byte) (hj : j ≠ a) :
    cellAt (cellPut l a v) j = cellAt l j := by
  induction l with
  | nil => simp [cellPut, cellAt, hj]
  | cons c rest ih =>
    obtain ⟨k, w⟩ := c
    rcases Nat.lt_trichotomy a k with h | h | h
    · simp [cellPut, h, cellAt, hj]
    · subst h; simp [cellPut, cellAt, hj]
    · have h1 : ¬ a < k := by omega
      have h2 : a ≠ k := by omega
      simp [cellPut, h1, h2, cellAt, ih]

theorem cellsWf_cellPut (l : List Host.Cell) {lo hi a : Nat} (v : Byte) (hlo : lo ≤ a) (hhi : a < hi)
    (h : cellsWf lo hi l = true) : cellsWf lo hi (cellPut l a v) = true := by
  induction l generalizing lo with
  | nil => simp [cellPut, cellsWf, hlo, hhi]
  | cons c rest ih =>
    obtain ⟨k, w⟩ := c
    simp only [cellsWf, Bool.and_eq_true, decide_eq_true_eq] at h
    obtain ⟨⟨hk, hkh⟩, hrest⟩ := h
    rcases Nat.lt_trichotomy a k with hak | hak | hak
    · simp [cellPut, hak, cellsWf, hlo, hhi, hkh, hrest, Nat.succ_le_of_lt hak]
    · subst hak; simp [cellPut, cellsWf, hlo, hhi, hrest]
    · have h1 : ¬ a < k := by omega
      have h2 : a ≠ k := by omega
      simp [cellPut, h1, h2, cellsWf, hk, hkh, ih (Nat.succ_le_of_lt hak) hrest]

/-! ### One byte of a buffer (R71, R86) -/

theorem Buffer.memRead_nat (b : Buffer) (a : Nat) :
    b.memRead (a : Int) = if a < b.capacity then some (b.byteAt a) else none := by
  unfold Buffer.memRead
  by_cases h : a < b.capacity
  · simp [h]
  · simp [h]

theorem Buffer.memRead_negative (b : Buffer) {a : Int} (h : a < 0) : b.memRead a = none := by
  simp [Buffer.memRead, h]

/-- What a one-byte write can do (R71). -/
theorem Buffer.memWrite_cases (b : Buffer) (a : Nat) (v : Byte) :
    (b.capacity ≤ a ∧ b.memWrite a v = none) ∨
    (a < b.capacity ∧ b.memWrite a v = some { b with cells := cellPut b.cells a v }) := by
  unfold Buffer.memWrite
  by_cases h : b.capacity ≤ a
  · simp [h]
  · exact .inr ⟨by omega, by simp [h]⟩

theorem Buffer.memWrite_eq_none {b : Buffer} {a : Nat} {v : Byte} : b.memWrite a v = none ↔ b.capacity ≤ a := by
  rcases b.memWrite_cases a v with ⟨h, e⟩ | ⟨h, e⟩ <;> simp [e] <;> omega

/-- Everything a successful one-byte write says. -/
theorem Buffer.memWrite_some {b b' : Buffer} {a : Nat} {v : Byte} (h : b.memWrite a v = some b') :
    a < b.capacity ∧ b'.capacity = b.capacity ∧ b'.length = b.length ∧ b'.tag = b.tag ∧ b'.byteAt a = v ∧
    ∀ j, j ≠ a → b'.byteAt j = b.byteAt j := by
  rcases b.memWrite_cases a v with ⟨_, e⟩ | ⟨ha, e⟩
  · rw [e] at h; cases h
  · rw [e] at h
    cases h
    exact ⟨ha, rfl, rfl, rfl, by simp [Buffer.byteAt], fun j hj => by simp [Buffer.byteAt, cellAt_cellPut_other _ _ hj]⟩

theorem Buffer.memWrite_wf {b b' : Buffer} {a : Nat} {v : Byte} (h : b.memWrite a v = some b') (hw : b.wf = true) :
    b'.wf = true := by
  rcases b.memWrite_cases a v with ⟨_, e⟩ | ⟨ha, e⟩
  · rw [e] at h; cases h
  · rw [e] at h
    cases h
    simp only [Buffer.wf, Bool.and_eq_true, decide_eq_true_eq] at hw ⊢
    exact ⟨cellsWf_cellPut _ _ (Nat.zero_le _) ha hw.1, hw.2⟩

/-! ### The canonical form -/

theorem Memory.wf_set {m : List Buffer} {id : Nat} {b : Buffer} (hm : Memory.wf m = true) (hb : b.wf = true) :
    Memory.wf (m.set id b) = true := by
  simp only [Memory.wf, List.all_eq_true] at hm ⊢
  intro x hx
  rcases List.mem_or_eq_of_mem_set hx with h | h
  · exact hm x h
  · exact h ▸ hb

theorem Memory.wf_append {m : List Buffer} {b : Buffer} (hm : Memory.wf m = true) (hb : b.wf = true) :
    Memory.wf (m ++ [b]) = true := by
  simp only [Memory.wf, List.all_append, Bool.and_eq_true] at hm ⊢
  exact ⟨hm, by simp [hb]⟩

theorem Memory.wf_get {m : List Buffer} {id : Nat} {b : Buffer} (hm : Memory.wf m = true) (h : m[id]? = some b) :
    b.wf = true := by
  simp only [Memory.wf, List.all_eq_true] at hm
  exact hm b (List.mem_of_getElem? h)

theorem Buffer.fresh_wf (capacity tag : Nat) : Buffer.wf { capacity, length := 0, cells := [], tag } = true := by
  simp [Buffer.wf, cellsWf]

theorem Buffer.afterFailedEncode_wf (b : Buffer) (n : Nat) : (b.afterFailedEncode n).wf = true := by
  simp [Buffer.wf, cellsWf]

theorem Buffer.afterFailedDecode_wf (b : Buffer) (n : Nat) : (b.afterFailedDecode n).wf = true := by
  have h : Config.freeLogicalLength n % (b.capacity + 1) < b.capacity + 1 := Nat.mod_lt _ (Nat.succ_pos _)
  exact decide_eq_true (Nat.lt_succ_iff.mp h)

theorem State.outAfterError_wf (s : State) (k : Status) (h : Memory.wf s.mem = true) :
    Memory.wf (s.outAfterError k) = true := by
  unfold State.outAfterError
  split
  · exact h
  · split
    · exact h
    · split
      · exact h
      · exact Memory.wf_set h (Buffer.afterFailedEncode_wf _ _)
      · exact Memory.wf_set h (Buffer.afterFailedEncode_wf _ _)
      · exact Memory.wf_set h (Buffer.afterFailedEncode_wf _ _)
      all_goals
        split
        · exact Memory.wf_set h (Buffer.afterFailedDecode_wf _ _)
        · exact h

/-- Taking an error keeps the canonical form. -/
theorem takeError_wf (k : Status) (s : State) (h : Memory.wf s.mem = true) : Memory.wf (takeError k s).mem = true := by
  unfold takeError
  split <;> simp [State.outAfterError_wf s k h]

/-- An allocation keeps the canonical form. -/
theorem hostAlloc_wf {n : Nat} {s t : State} {o : BufId} (e : hostAlloc n s = .ok t o) (h : Memory.wf s.mem = true) :
    Memory.wf t.mem = true := by
  unfold hostAlloc at e
  by_cases g : s.nextGrant = true
  · simp only [g, if_true] at e
    cases e
    exact Memory.wf_append h (Buffer.fresh_wf _ _)
  · simp only [g] at e
    cases e

/-- A buffer the host provides keeps the canonical form. -/
theorem takeBuffer_wf {c l : Nat} {cells : List Host.Cell} {s t : State} (e : takeBuffer c l cells s = .next t)
    (h : Memory.wf s.mem = true) : Memory.wf t.mem = true := by
  unfold takeBuffer at e
  by_cases g : Buffer.wf { capacity := c, length := l, cells := cells, tag := s.draws } = true
  · simp only [g, if_true] at e
    cases e
    exact Memory.wf_append h g
  · simp only [g] at e
    cases e

/-- Everything a host's change can do: one buffer of the same capacity, canonical again, takes the place of the old (R30, R31). -/
theorem changeBuffer_next {id : BufId} {l : Nat} {cells : List Host.Cell} {s t : State}
    (e : changeBuffer id l cells s = .next t) :
    ∃ b b', s.buf? id = some b ∧ b'.capacity = b.capacity ∧ b'.length = l ∧ b'.wf = true ∧ t = s.putBuf id b' := by
  unfold changeBuffer at e
  split at e
  · cases e
  · rename_i b hb
    by_cases g : Buffer.wf { b with length := l, cells := cellPutAll b.cells cells } = true
    · simp only [g, if_true] at e
      cases e
      exact ⟨b, { b with length := l, cells := cellPutAll b.cells cells }, hb, rfl, rfl, g, rfl⟩
    · simp only [g] at e
      cases e

/-- A host's change keeps the canonical form. -/
theorem changeBuffer_wf {id : BufId} {l : Nat} {cells : List Host.Cell} {s t : State}
    (e : changeBuffer id l cells s = .next t) (h : Memory.wf s.mem = true) : Memory.wf t.mem = true := by
  obtain ⟨b, b', _, _, _, hw, rfl⟩ := changeBuffer_next e
  exact Memory.wf_set h hw

/-- The pair copy keeps the canonical form, the capacity and the logical length. -/
theorem copyForward_keeps (offset n dst : Nat) (b : Buffer) :
    (copyForward offset n dst b).1.capacity = b.capacity ∧ (copyForward offset n dst b).1.length = b.length ∧
    (b.wf = true → (copyForward offset n dst b).1.wf = true) := by
  induction n generalizing dst b with
  | zero => simp [copyForward]
  | succ n ih =>
    unfold copyForward
    split
    · simp
    · rename_i v _
      split
      · simp
      · rename_i b' hw
        obtain ⟨h1, h2, h3⟩ := ih (dst + 1) b'
        obtain ⟨_, hc, hl, _⟩ := Buffer.memWrite_some hw
        exact ⟨h1.trans hc, h2.trans hl, fun hb => h3 (Buffer.memWrite_wf hw hb)⟩

end Sys2Proof.Machine
end

