-- ==== Sys2Proof/Laws/Bits.lean ====
section
/-! SUPPORT. The laws of bit fields: how long a field is, what its value is, and that taking a field back from a stream gives
it (R76, R150, R152). -/

namespace Sys2Proof

@[simp] theorem fieldBits_length (v n : Nat) : (fieldBits v n).length = n := by
  induction n with
  | zero => rfl
  | succ n ih => simp [fieldBits, ih]

/-- Only the low `n` bits of the value are in the field (R150). -/
theorem fieldBits_congr {v w n : Nat} (h : ∀ i, i < n → v.testBit i = w.testBit i) : fieldBits v n = fieldBits w n := by
  induction n with
  | zero => rfl
  | succ n ih =>
    rw [fieldBits, fieldBits, h n (Nat.lt_succ_self n), ih fun i hi => h i (Nat.lt_succ_of_lt hi)]

theorem fieldBits_mod (v n : Nat) : fieldBits (v % 2 ^ n) n = fieldBits v n :=
  fieldBits_congr fun i hi => by simp [Nat.testBit_mod_two_pow, hi]

/-- The bit appended last is the lowest. -/
theorem fieldBits_shiftIn (v n : Nat) (x : Bool) : fieldBits (shiftIn v x) (n + 1) = fieldBits v n ++ [x] := by
  induction n with
  | zero =>
    cases x <;> simp [fieldBits, shiftIn, Nat.testBit_zero]
  | succ n ih =>
    rw [fieldBits, ih, fieldBits, List.cons_append]
    congr 1
    cases x <;> simp [shiftIn, Nat.testBit_succ, Nat.mul_add_div]

theorem foldl_shiftIn (l : List Bool) (r : Nat) : l.foldl shiftIn r = r * 2 ^ l.length + bitsValue l := by
  induction l generalizing r with
  | nil => simp [bitsValue]
  | cons x xs ih =>
    have h0 : bitsValue (x :: xs) = xs.foldl shiftIn (shiftIn 0 x) := rfl
    rw [List.foldl_cons, ih, h0, ih, List.length_cons, Nat.pow_succ]
    simp only [shiftIn]
    ring

theorem bitsValue_cons (x : Bool) (xs : List Bool) : bitsValue (x :: xs) = x.toNat * 2 ^ xs.length + bitsValue xs := by
  have h : bitsValue (x :: xs) = xs.foldl shiftIn (shiftIn 0 x) := rfl
  rw [h, foldl_shiftIn]
  simp [shiftIn]

theorem bitsValue_append (xs ys : List Bool) : bitsValue (xs ++ ys) = bitsValue xs * 2 ^ ys.length + bitsValue ys := by
  rw [bitsValue, List.foldl_append, foldl_shiftIn]
  rfl

theorem bitsValue_lt (l : List Bool) : bitsValue l < 2 ^ l.length := by
  induction l with
  | nil => simp [bitsValue]
  | cons x xs ih =>
    rw [bitsValue_cons, List.length_cons, Nat.pow_succ]
    cases x <;> simp <;> omega

/-- A field of `n` bits holds the value mod `2^n` (R150). -/
theorem bitsValue_fieldBits (v n : Nat) : bitsValue (fieldBits v n) = v % 2 ^ n := by
  induction n with
  | zero => simp [fieldBits, bitsValue, Nat.mod_one]
  | succ n ih =>
    rw [fieldBits, bitsValue_cons, ih, fieldBits_length, Nat.mod_pow_succ]
    rw [Nat.add_comm, Nat.testBit_eq_decide_div_mod_eq]
    rcases Nat.mod_two_eq_zero_or_one (v / 2 ^ n) with h | h <;> simp [h]

theorem fieldBits_bitsValue (l : List Bool) : fieldBits (bitsValue l) l.length = l := by
  induction l using List.reverseRecOn with
  | nil => rfl
  | append_singleton xs x ih =>
    have h : bitsValue (xs ++ [x]) = shiftIn (bitsValue xs) x := by
      rw [bitsValue_append]; cases x <;> simp [bitsValue, shiftIn] <;> ring
    rw [h, List.length_append, List.length_singleton, fieldBits_shiftIn, ih]

/-! ### Taking a field from a stream -/

theorem takeBits_append (xs rest : List Bool) : takeBits xs.length (xs ++ rest) = some (xs, rest) := by
  induction xs with
  | nil => rfl
  | cons x xs ih => simp [takeBits, ih]

theorem takeBits_append_of_length {n : Nat} {xs : List Bool} (h : xs.length = n) (rest : List Bool) :
    takeBits n (xs ++ rest) = some (xs, rest) := h ▸ takeBits_append xs rest

/-- What taking `n` bits can do. -/
theorem takeBits_cases (n : Nat) (l : List Bool) :
    (l.length < n ∧ takeBits n l = none) ∨
    ∃ xs rest, l = xs ++ rest ∧ xs.length = n ∧ takeBits n l = some (xs, rest) := by
  by_cases h : l.length < n
  · refine .inl ⟨h, ?_⟩
    induction n generalizing l with
    | zero => omega
    | succ n ih =>
      cases l with
      | nil => rfl
      | cons x xs => simp [takeBits, ih xs (by simpa using h)]
  · have hl : (l.take n).length = n := by simp; omega
    refine .inr ⟨l.take n, l.drop n, (List.take_append_drop n l).symm, hl, ?_⟩
    conv_lhs => rw [← List.take_append_drop n l]
    exact takeBits_append_of_length hl _

theorem takeBits_fieldBits (v n : Nat) (rest : List Bool) :
    takeBits n (fieldBits v n ++ rest) = some (fieldBits v n, rest) :=
  takeBits_append_of_length (fieldBits_length v n) rest

/-! ### Groups -/

@[simp] theorem groupBits_nil : groupBits [] = [] := rfl

@[simp] theorem groupBits_cons (g : Byte) (gs : List Byte) : groupBits (g :: gs) = fieldBits g.toNat 8 ++ groupBits gs := rfl

theorem byte_of_fieldBits (g : Byte) : BitVec.ofNat 8 (bitsValue (fieldBits g.toNat 8)) = g := by
  rw [bitsValue_fieldBits]
  apply BitVec.eq_of_toNat_eq
  simpa using g.isLt

end Sys2Proof
end

