-- ==== Sys2Proof/Laws/Stream.lean ====
section
/-! SUPPORT. What the bit operations do, said once in terms of the bits a stream has written or has left; the provers cite these
instead of unfolding `pushBit` and `pullBit`. -/

namespace Sys2Proof.Machine

/-! ### Bits of bytes -/

@[simp] theorem bitsFrom_length (b : Buffer) (n a : Nat) : (bitsFrom b n a).length = 8 * n := by
  induction n generalizing a with
  | zero => rfl
  | succ n ih => simp [bitsFrom, ih]; omega

theorem bitsFrom_congr {b b' : Buffer} {n a : Nat} (h : ∀ j, a ≤ j → j < a + n → b.byteAt j = b'.byteAt j) :
    bitsFrom b n a = bitsFrom b' n a := by
  induction n generalizing a with
  | zero => rfl
  | succ n ih =>
    rw [bitsFrom, bitsFrom, h a (Nat.le_refl a) (by omega), ih fun j h1 h2 => h j (by omega) (by omega)]

theorem bitsFrom_append (b : Buffer) (m n a : Nat) : bitsFrom b (m + n) a = bitsFrom b m a ++ bitsFrom b n (a + m) := by
  induction m generalizing a with
  | zero => simp [bitsFrom]
  | succ m ih =>
    rw [Nat.add_right_comm, bitsFrom, bitsFrom, ih, List.append_assoc, Nat.add_right_comm a 1 m]
    rfl

theorem bitsFrom_snoc (b : Buffer) (n a : Nat) :
    bitsFrom b (n + 1) a = bitsFrom b n a ++ fieldBits (b.byteAt (a + n)).toNat 8 := by
  rw [bitsFrom_append]; simp [bitsFrom]

/-! ### Reading -/

/-- Everything one `read_bit` can do (R145, R146): it takes the first unread bit, or there is none and nothing changes. -/
theorem pullBit_cases (bs : BitStream) (b : Buffer) :
    (unreadBits bs b = [] ∧ bs.bitCount = 0 ∧ b.capacity ≤ bs.position ∧ pullBit bs b = .raised bs) ∨
    ∃ x bs', pullBit bs b = .ok bs' x ∧ unreadBits bs b = x :: unreadBits bs' b ∧ bs'.buf = bs.buf ∧ bs'.dir = bs.dir ∧
      bs'.dead = bs.dead ∧ (bs.bitCount ≤ 8 → bs'.bitCount ≤ 7) ∧ bs.position ≤ bs'.position ∧
      (bs.position ≤ b.capacity → bs'.position ≤ b.capacity) := by
  unfold pullBit
  by_cases h0 : bs.bitCount = 0
  · rw [if_pos h0, Buffer.memRead_nat]
    by_cases hp : bs.position < b.capacity
    · refine .inr ⟨(b.byteAt bs.position).getLsbD 7,
        { bs with byteBuffer := b.byteAt bs.position, position := bs.position + 1, bitCount := 7 }, by rw [if_pos hp], ?_, rfl,
        rfl, rfl, fun _ => Nat.le_refl _, Nat.le_succ _, fun _ => hp⟩
      obtain ⟨k, hk⟩ : ∃ k, b.capacity - bs.position = k + 1 := ⟨b.capacity - bs.position - 1, by omega⟩
      have hk' : b.capacity - (bs.position + 1) = k := by omega
      simp [unreadBits, h0, hk, hk', bitsFrom, fieldBits, BitVec.testBit_toNat]
    · refine .inl ⟨?_, h0, by omega, by rw [if_neg hp]⟩
      have : b.capacity - bs.position = 0 := by omega
      simp [unreadBits, h0, this, fieldBits, bitsFrom]
  · refine .inr ⟨bs.byteBuffer.getLsbD (bs.bitCount - 1), { bs with bitCount := bs.bitCount - 1 }, by rw [if_neg h0], ?_, rfl,
      rfl, rfl, fun _ => by simp only; omega, Nat.le_refl _, id⟩
    obtain ⟨k, hk⟩ : ∃ k, bs.bitCount = k + 1 := ⟨bs.bitCount - 1, by omega⟩
    simp [unreadBits, hk, fieldBits, BitVec.testBit_toNat]

/-- Everything reading `n` bits can do (R151, R152): the first `n` unread bits, or fewer are left and all of them are consumed. -/
theorem pullBits_cases (n : Nat) (bs : BitStream) (b : Buffer) :
    (∃ bs', (unreadBits bs b).length < n ∧ pullBits n bs b = .raised bs' ∧ bs'.buf = bs.buf ∧ bs'.dir = bs.dir ∧
      bs'.dead = bs.dead ∧ (bs.position ≤ b.capacity → bs'.position ≤ b.capacity)) ∨
    ∃ xs bs', pullBits n bs b = .ok bs' xs ∧ xs.length = n ∧ unreadBits bs b = xs ++ unreadBits bs' b ∧ bs'.buf = bs.buf ∧
      bs'.dir = bs.dir ∧ bs'.dead = bs.dead ∧ (bs.bitCount ≤ 7 → bs'.bitCount ≤ 7) ∧
      (bs.position ≤ b.capacity → bs'.position ≤ b.capacity) := by
  induction n generalizing bs with
  | zero => exact .inr ⟨[], bs, rfl, rfl, rfl, rfl, rfl, rfl, id, id⟩
  | succ n ih =>
    rcases pullBit_cases bs b with ⟨hu, -, -, e⟩ | ⟨x, b1, e, hu, hb, hd, hk, hc, -, hp⟩
    · exact .inl ⟨bs, by simp [hu], by simp [pullBits, e], rfl, rfl, rfl, id⟩
    · rcases ih b1 with ⟨b2, hl, e2, hb2, hd2, hk2, hp2⟩ | ⟨xs, b2, e2, hl, hu2, hb2, hd2, hk2, hc2, hp2⟩
      · exact .inl ⟨b2, by simp [hu]; omega, by simp [pullBits, e, e2], hb2.trans hb, hd2.trans hd, hk2.trans hk,
          fun h => hp2 (hp h)⟩
      · exact .inr ⟨x :: xs, b2, by simp [pullBits, e, e2], by simp [hl], by simp [hu, hu2], hb2.trans hb, hd2.trans hd,
          hk2.trans hk, fun h => hc2 (hc (Nat.le_succ_of_le h)), fun h => hp2 (hp h)⟩

/-! ### Writing -/

/-- The byte a full accumulator holds. -/
theorem pushed_fieldBits (acc : Byte) (x : Bool) {n : Nat} (hn : n < 8) :
    fieldBits ((acc <<< 1) ||| BitVec.ofNat 8 x.toNat).toNat (n + 1) = fieldBits acc.toNat n ++ [x] := by
  rw [← fieldBits_shiftIn]
  refine fieldBits_congr fun i hi => ?_
  have h8 : i < 8 := by omega
  rw [BitVec.testBit_toNat, BitVec.getLsbD_or, BitVec.getLsbD_shiftLeft]
  cases i with
  | zero => cases x <;> simp [shiftIn, Nat.testBit_zero]
  | succ i =>
    have h : (shiftIn acc.toNat x).testBit (i + 1) = acc.toNat.testBit i := by
      cases x <;> simp [shiftIn, Nat.testBit_succ, Nat.mul_add_div]
    rw [h, BitVec.testBit_toNat]
    cases x <;> simp [h8]

/-- Everything one `write_bit` can do (R142, R143): the bit is appended, with one byte stored if it is the eighth; or it is the
eighth, there is no room, and nothing changes. -/
theorem pushBit_cases (bs : BitStream) (b : Buffer) (x : Bool) (hc : bs.bitCount ≤ 7) :
    (bs.bitCount = 7 ∧ b.capacity ≤ bs.position ∧ pushBit bs b x = .raised bs b) ∨
    ∃ bs' b', pushBit bs b x = .ok bs' b' ∧ writtenBits bs' b' = writtenBits bs b ++ [x] ∧ bs'.buf = bs.buf ∧
      bs'.dir = bs.dir ∧ bs'.dead = bs.dead ∧ bs'.bitCount ≤ 7 ∧
      8 * bs'.position + bs'.bitCount = 8 * bs.position + bs.bitCount + 1 ∧
      (bs.position ≤ b.capacity → bs'.position ≤ b.capacity) ∧
      (bs.byteBuffer.toNat < 2 ^ bs.bitCount → bs'.byteBuffer.toNat < 2 ^ bs'.bitCount) ∧
      b'.capacity = b.capacity ∧ b'.length = b.length ∧ (b.wf = true → b'.wf = true) ∧
      (∀ j, j < bs.position ∨ bs'.position ≤ j → b'.byteAt j = b.byteAt j) := by
  unfold pushBit
  by_cases h7 : bs.bitCount + 1 = 8
  · simp only [if_pos h7]
    cases e : b.memWrite bs.position ((bs.byteBuffer <<< 1) ||| BitVec.ofNat 8 x.toNat) with
    | none => exact .inl ⟨by omega, Buffer.memWrite_eq_none.mp e, rfl⟩
    | some b' =>
      obtain ⟨hp, hcap, hlen, _, hv, ho⟩ := Buffer.memWrite_some e
      refine .inr ⟨{ bs with position := bs.position + 1, byteBuffer := 0#8, bitCount := 0 }, b', rfl, ?_, rfl, rfl, rfl,
        Nat.zero_le _, by simp only; omega, fun _ => hp, fun _ => by simp, hcap, hlen, fun hw => Buffer.memWrite_wf e hw,
        fun j hj => ho j (by simp only at hj; omega)⟩
      have h7' : bs.bitCount = 7 := by omega
      simp only [writtenBits, bitsFrom_snoc, Nat.zero_add, hv, fieldBits, List.append_nil, h7']
      rw [bitsFrom_congr (b' := b) fun j _ hj => ho j (by omega), List.append_assoc]
      congr 1
      exact pushed_fieldBits bs.byteBuffer x (n := 7) (by omega)
  · simp only [if_neg h7]
    refine .inr ⟨{ bs with byteBuffer := (bs.byteBuffer <<< 1) ||| BitVec.ofNat 8 x.toNat, bitCount := bs.bitCount + 1 }, b,
      rfl, ?_, rfl, rfl, rfl, by simp only; omega, by simp only; omega, id, ?_, rfl, rfl, id, fun j _ => rfl⟩
    · simp only [writtenBits, List.append_assoc]
      rw [pushed_fieldBits bs.byteBuffer x (by omega)]
    · intro h
      simp only [BitVec.toNat_or, BitVec.toNat_shiftLeft, Nat.shiftLeft_eq, BitVec.toNat_ofNat]
      refine Nat.or_lt_two_pow (n := bs.bitCount + 1) ?_ ?_
      · exact Nat.lt_of_le_of_lt (Nat.mod_le _ _) (by rw [Nat.pow_succ]; omega)
      · have : x.toNat ≤ 1 := by cases x <;> decide
        have hpos : 0 < 2 ^ bs.bitCount := Nat.two_pow_pos _
        exact Nat.lt_of_le_of_lt (Nat.mod_le _ _) (by rw [Nat.pow_succ]; omega)

/-- Everything writing bits can do: all are appended, or the room runs out before the last flush (R149). -/
theorem pushBits_cases (xs : List Bool) (bs : BitStream) (b : Buffer) (hc : bs.bitCount ≤ 7) :
    ∃ bs' b', (pushBits bs b xs = .ok bs' b' ∧ writtenBits bs' b' = writtenBits bs b ++ xs ∧ bs'.bitCount ≤ 7 ∧
        8 * bs'.position + bs'.bitCount = 8 * bs.position + bs.bitCount + xs.length ∨
      pushBits bs b xs = .raised bs' b' ∧ b.capacity ≤ bs'.position ∧
        8 * bs'.position + 8 ≤ 8 * bs.position + bs.bitCount + xs.length) ∧
      bs'.buf = bs.buf ∧ bs'.dir = bs.dir ∧ bs'.dead = bs.dead ∧ bs.position ≤ bs'.position ∧
      (bs.position ≤ b.capacity → bs'.position ≤ b.capacity) ∧
      (bs.byteBuffer.toNat < 2 ^ bs.bitCount → bs'.byteBuffer.toNat < 2 ^ bs'.bitCount) ∧
      b'.capacity = b.capacity ∧ b'.length = b.length ∧ (b.wf = true → b'.wf = true) ∧
      (∀ j, j < bs.position ∨ bs'.position ≤ j → b'.byteAt j = b.byteAt j) := by
  induction xs generalizing bs b with
  | nil => exact ⟨bs, b, .inl ⟨rfl, by simp, hc, rfl⟩, rfl, rfl, rfl, Nat.le_refl _, id, id, rfl, rfl, id, fun _ _ => rfl⟩
  | cons x xs ih =>
    rcases pushBit_cases bs b x hc with ⟨h7, hp, e⟩ | ⟨b1, m1, e, hw, hb, hd, hk, hc1, hn, hp, hi, hcap, hlen, hwf, hj⟩
    · refine ⟨bs, b, .inr ⟨by simp [pushBits, e], hp, by simp [h7]; omega⟩, rfl, rfl, rfl, Nat.le_refl _, id, id, rfl, rfl, id,
        fun _ _ => rfl⟩
    · obtain ⟨b2, m2, h, hb2, hd2, hk2, hq2, hp2, hi2, hcap2, hlen2, hwf2, hj2⟩ := ih b1 m1 hc1
      have hle : bs.position ≤ b1.position := by omega
      refine ⟨b2, m2, ?_, hb2.trans hb, hd2.trans hd, hk2.trans hk, Nat.le_trans hle hq2,
        fun h => hcap ▸ hp2 (hcap ▸ hp h), fun h => hi2 (hi h), hcap2.trans hcap, hlen2.trans hlen, fun h => hwf2 (hwf h),
        fun j hjj => (hj2 j (by omega)).trans (hj j (by omega))⟩
      rcases h with ⟨e2, hw2, hc2, hn2⟩ | ⟨e2, hp2', hn2⟩
      · exact .inl ⟨by simp [pushBits, e, e2], by simp [hw2, hw], hc2, by simp; omega⟩
      · exact .inr ⟨by simp [pushBits, e, e2], by omega, by simp; omega⟩

/-- Everything `flush_partial` can do (R154, R155): nothing, or the padded byte is stored, or there is no room. -/
theorem flushBits_cases (bs : BitStream) (b : Buffer) (hc : bs.bitCount ≤ 7) :
    (bs.bitCount = 0 ∧ flushBits bs b = .ok bs b) ∨
    (0 < bs.bitCount ∧ b.capacity ≤ bs.position ∧ flushBits bs b = .raised bs b) ∨
    ∃ b', 0 < bs.bitCount ∧ bs.position < b.capacity ∧
      flushBits bs b = .ok { bs with position := bs.position + 1, byteBuffer := 0#8, bitCount := 0 } b' ∧
      bitsFrom b' (bs.position + 1) 0 = writtenBits bs b ++ List.replicate (8 - bs.bitCount) false ∧
      b'.capacity = b.capacity ∧ b'.length = b.length ∧ (b.wf = true → b'.wf = true) ∧
      (∀ j, j ≠ bs.position → b'.byteAt j = b.byteAt j) := by
  unfold flushBits
  by_cases h0 : 0 < bs.bitCount
  · simp only [if_pos h0]
    cases e : b.memWrite bs.position (bs.byteBuffer <<< (8 - bs.bitCount)) with
    | none => exact .inr (.inl ⟨h0, Buffer.memWrite_eq_none.mp e, rfl⟩)
    | some b' =>
      obtain ⟨hp, hcap, hlen, _, hv, ho⟩ := Buffer.memWrite_some e
      refine .inr (.inr ⟨b', h0, hp, rfl, ?_, hcap, hlen, fun hw => Buffer.memWrite_wf e hw, ho⟩)
      rw [bitsFrom_snoc, Nat.zero_add, hv, bitsFrom_congr (b' := b) fun j _ hj => ho j (by omega), writtenBits,
        List.append_assoc]
      congr 1
      generalize bs.byteBuffer = acc
      have key : ∀ k n, n + k ≤ 8 →
          fieldBits (acc <<< k).toNat (n + k) = fieldBits acc.toNat n ++ List.replicate k false := by
        intro k
        induction k with
        | zero => intro n _; simp
        | succ k ih =>
          intro n hn
          rw [List.replicate_succ', ← List.append_assoc, ← ih n (by omega), ← Nat.add_assoc,
            ← pushed_fieldBits (acc <<< k) false (by omega)]
          simp [BitVec.shiftLeft_add]
      have h := key (8 - bs.bitCount) bs.bitCount (by omega)
      rwa [show bs.bitCount + (8 - bs.bitCount) = 8 by omega] at h
  · exact .inl ⟨by omega, by rw [if_neg h0]⟩

end Sys2Proof.Machine
end

