-- ==== Sys2Proof/Laws/Ops.lean ====
section
/-! SUPPORT. One lemma for each shared operation of the machine, saying everything it can do: the stream lifts, the error entry,
the allocation, the ends of an operation, one step. -/

namespace Sys2Proof.Machine

/-! ### Results one after another -/

@[simp] theorem Res.bind_ok {α β : Type} (s : State) (v : α) (f : State → α → Res β) : (Res.ok s v).bind f = f s v := rfl
@[simp] theorem Res.bind_raised {α β : Type} (k : Status) (s : State) (f : State → α → Res β) :
    (Res.raised k s).bind f = .raised k s := rfl
@[simp] theorem Res.bind_refused {α β : Type} (r : Refusal) (f : State → α → Res β) : (Res.refused r).bind f = .refused r := rfl
@[simp] theorem Res.bind_stuck {α β : Type} (e : Fault) (f : State → α → Res β) : (Res.stuck e).bind f = .stuck e := rfl

/-- A sequence that ends well had a first part that ended well. -/
theorem Res.bind_eq_ok {α β : Type} {x : Res α} {f : State → α → Res β} {t : State} {v : β} (h : x.bind f = .ok t v) :
    ∃ s a, x = .ok s a ∧ f s a = .ok t v := by
  cases x with
  | ok s a => exact ⟨s, a, rfl, h⟩
  | raised k s => cases h
  | refused r => cases h
  | stuck e => cases h

/-- A sequence that raises did so in its first part or after it. -/
theorem Res.bind_eq_raised {α β : Type} {x : Res α} {f : State → α → Res β} {k : Status} {t : State}
    (h : x.bind f = .raised k t) : x = .raised k t ∨ ∃ s a, x = .ok s a ∧ f s a = .raised k t := by
  cases x with
  | ok s a => exact .inr ⟨s, a, rfl, h⟩
  | raised k' s => exact .inl (by cases h; rfl)
  | refused r => cases h
  | stuck e => cases h

/-- A sequence is stuck only if one of its parts is. -/
theorem Res.bind_eq_stuck {α β : Type} {x : Res α} {f : State → α → Res β} {e : Fault} (h : x.bind f = .stuck e) :
    x = .stuck e ∨ ∃ s a, x = .ok s a ∧ f s a = .stuck e := by
  cases x with
  | ok s a => exact .inr ⟨s, a, rfl, h⟩
  | raised k s => cases h
  | refused r => cases h
  | stuck e' => exact .inl (by cases h; rfl)

/-! ### The stream lifts -/

theorem withStream_live {α : Type} {s : State} {d : Dir} {bs : BitStream} {b : Buffer} (h : s.Live d bs b)
    (k : BitStream → Buffer → Res α) : withStream s d k = k bs b := by
  obtain ⟨h1, h2, h3, h4⟩ := h
  simp [withStream, withBuffer, h1, h2, h3, h4]

/-- An operation on the stream is refused, or the stream is live in its direction (R37, R38, R157, R158). -/
theorem withStream_cases {α : Type} (s : State) (d : Dir) (k : BitStream → Buffer → Res α) :
    (∃ r, withStream s d k = .refused r) ∨ ∃ bs b, s.Live d bs b ∧ withStream s d k = k bs b := by
  unfold withStream
  cases h1 : s.bs with
  | none => exact .inl ⟨_, rfl⟩
  | some bs =>
    simp only
    cases h2 : bs.dead with
    | true => exact .inl ⟨_, rfl⟩
    | false =>
      by_cases h3 : bs.dir = d
      · cases h4 : s.buf? bs.buf with
        | none => exact .inl ⟨.noBuffer, by simp [h3, withBuffer, h4]⟩
        | some b => exact .inr ⟨bs, b, ⟨h1, h2, h3, h4⟩, by simp [h3, withBuffer, h4]⟩
      · exact .inl ⟨.wrongDirection, by simp [h3]⟩

theorem withStream_dead {α : Type} {s : State} {d : Dir} {bs : BitStream} (h : s.bs = some bs) (hd : bs.dead = true)
    (k : BitStream → Buffer → Res α) : withStream s d k = .refused .deadStream := by
  simp [withStream, h, hd]

theorem withStream_wrongDirection {α : Type} {s : State} {d : Dir} {bs : BitStream} (h : s.bs = some bs)
    (hk : bs.dead = false) (hd : bs.dir ≠ d) (k : BitStream → Buffer → Res α) :
    withStream s d k = .refused .wrongDirection := by
  simp [withStream, h, hk, hd]

theorem writeStream_live {s : State} {bs : BitStream} {b : Buffer} (h : s.Live .W bs b)
    (f : BitStream → Buffer → Written) :
    writeStream s f =
      match f bs b with
      | .ok bs' b' => .ok ((s.putBuf bs.buf b').putStream (some bs')) ()
      | .raised bs' b' => .raised .bufferOutOfBounds ((s.putBuf bs.buf b').putStream (some bs')) :=
  withStream_live h _

theorem readStream_live {α : Type} {s : State} {bs : BitStream} {b : Buffer} (h : s.Live .R bs b)
    (f : BitStream → Buffer → Taken α) :
    readStream s f =
      match f bs b with
      | .ok bs' v => .ok (s.putStream (some bs')) v
      | .raised bs' => .raised .bufferOutOfBounds (s.putStream (some bs')) :=
  withStream_live h _

/-! ### Taking an error -/

@[simp] theorem takeError_status (k : Status) (s : State) : (takeError k s).status = k := by
  unfold takeError; split <;> rfl
@[simp] theorem takeError_result (k : Status) (s : State) : (takeError k s).result = .none := by
  unfold takeError; split <;> rfl
@[simp] theorem takeError_mem (k : Status) (s : State) : (takeError k s).mem = s.outAfterError k := by
  unfold takeError; split <;> rfl
@[simp] theorem takeError_cfg (k : Status) (s : State) : (takeError k s).cfg = s.cfg := by
  unfold takeError; split <;> rfl
@[simp] theorem takeError_index (k : Status) (s : State) : (takeError k s).index = s.index := by
  unfold takeError; split <;> rfl
@[simp] theorem takeError_declared (k : Status) (s : State) : (takeError k s).declared = s.declared := by
  unfold takeError; split <;> rfl
@[simp] theorem takeError_mtch (k : Status) (s : State) : (takeError k s).mtch = s.mtch := by
  unfold takeError; split <;> rfl
@[simp] theorem takeError_requests (k : Status) (s : State) : (takeError k s).requests = s.requests := by
  unfold takeError; split <;> rfl
@[simp] theorem takeError_grants (k : Status) (s : State) : (takeError k s).grants = s.grants := by
  unfold takeError; split <;> rfl
@[simp] theorem takeError_draws (k : Status) (s : State) : (takeError k s).draws = s.draws + 1 := by
  unfold takeError; split <;> rfl
@[simp] theorem takeError_phase (k : Status) (s : State) : (takeError k s).phase = .idle := by
  unfold takeError; split <;> simp_all

theorem takeError_bs_idle {k : Status} {s : State} (h : s.phase = .idle) :
    (takeError k s).bs = s.bs.map fun bs => bs.kill s.draws := by simp [takeError, h]

theorem takeError_bs_call {k : Status} {s : State} (h : s.phase ≠ .idle) : (takeError k s).bs = none := by
  unfold takeError; split
  · contradiction
  · rfl

theorem outAfterError_idle {k : Status} {s : State} (h : s.phase = .idle) : s.outAfterError k = s.mem := by
  unfold State.outAfterError
  split
  · rfl
  · split
    · rfl
    · simp [h]

/-- An error other than `BufferOutOfBounds` leaves the buffers of a decode call alone (R257, R296). -/
theorem outAfterError_decode {k : Status} {s : State} (hk : k ≠ .bufferOutOfBounds)
    (hp : s.phase = .decGroups ∨ s.phase = .decHeader ∨ s.phase = .decBody ∨ s.phase = .decTail) :
    s.outAfterError k = s.mem := by
  unfold State.outAfterError
  split
  · rfl
  · split
    · rfl
    · rcases hp with h | h | h | h <;> simp [h, hk]

/-! ### The ends of an operation -/

/-- An operation of the host answers a next state exactly when it ended well or raised. -/
theorem settle_cases (r : Res Ret) :
    (∃ s v, r = .ok s v ∧ settle r = .next { s with status := .ok, result := v }) ∨
    (∃ k s, r = .raised k s ∧ settle r = .next (takeError k s)) ∨
    (∃ e, r = .refused e ∧ settle r = .refused e) ∨ (∃ f, r = .stuck f ∧ settle r = .fault f) := by
  cases r with
  | ok s v => exact .inl ⟨s, v, rfl, rfl⟩
  | raised k s => exact .inr (.inl ⟨k, s, rfl, rfl⟩)
  | refused e => exact .inr (.inr (.inl ⟨e, rfl, rfl⟩))
  | stuck f => exact .inr (.inr (.inr ⟨f, rfl, rfl⟩))

theorem settleUnit_cases (r : Res Unit) :
    (∃ s, r = .ok s () ∧ settleUnit r = .next s) ∨ (∃ k s, r = .raised k s ∧ settleUnit r = .next (takeError k s)) ∨
    (∃ e, r = .refused e ∧ settleUnit r = .refused e) ∨ (∃ f, r = .stuck f ∧ settleUnit r = .fault f) := by
  cases r with
  | ok s v => exact .inl ⟨s, rfl, rfl⟩
  | raised k s => exact .inr (.inl ⟨k, s, rfl, rfl⟩)
  | refused e => exact .inr (.inr (.inl ⟨e, rfl, rfl⟩))
  | stuck f => exact .inr (.inr (.inr ⟨f, rfl, rfl⟩))

theorem settleCall_cases (r : Res Ret) :
    (∃ s v, r = .ok s v ∧ settleCall r = .next (s.endCall v)) ∨
    (∃ k s, r = .raised k s ∧ settleCall r = .next (takeError k s)) ∨
    (∃ e, r = .refused e ∧ settleCall r = .refused e) ∨ (∃ f, r = .stuck f ∧ settleCall r = .fault f) := by
  cases r with
  | ok s v => exact .inl ⟨s, v, rfl, rfl⟩
  | raised k s => exact .inr (.inl ⟨k, s, rfl, rfl⟩)
  | refused e => exact .inr (.inr (.inl ⟨e, rfl, rfl⟩))
  | stuck f => exact .inr (.inr (.inr ⟨f, rfl, rfl⟩))

/-! ### Allocation -/

/-- Everything an allocation can do (R214). -/
theorem hostAlloc_cases (n : Nat) (s : State) :
    (s.nextGrant = true ∧ hostAlloc n s =
      .ok { s with
        grants := s.grants.tail, draws := s.draws + 1
        mem := s.mem ++ [{ capacity := n, length := 0, cells := [], tag := s.draws }] } s.mem.length) ∨
    (s.nextGrant = false ∧ hostAlloc n s =
      .raised .couldNotAllocate { s with grants := s.grants.tail, draws := s.draws + 1 }) := by
  unfold hostAlloc
  cases h : s.nextGrant <;> simp

/-! ### The rows of the format -/

/-- A unit of the format executed by the machine is its unit of the call, settled. -/
theorem exec_unit {i : Instr} (h : i.slot ≠ .command) (s : State) : exec i s = settleUnit (runUnit i s) := by
  cases i <;> first | rfl | exact absurd rfl h

/-! ### One step -/

/-- Everything a step can do: nothing, a request, or a unit of the call in progress. -/
theorem step_cases (s : State) :
    (s.phase = .idle ∧ s.requests = [] ∧ step s = .next s) ∨
    (∃ r rest, s.phase = .idle ∧ s.requests = r :: rest ∧ step s = takeRequest r { s with requests := rest }) ∨
    (s.phase ≠ .idle ∧ step s = stepUnit s) := by
  by_cases h : s.phase = .idle
  · cases hr : s.requests with
    | nil => exact .inl ⟨h, rfl, by simp [step, stepIdle, h, hr]⟩
    | cons r rest => exact .inr (.inl ⟨r, rest, h, rfl, by simp [step, stepIdle, h, hr]⟩)
  · exact .inr (.inr ⟨h, by simp [step, h]⟩)

end Sys2Proof.Machine
end

