-- ==== Sys2Proof/Laws/Frames.lean ====
section
/-! SUPPORT. The same operations at the level of a state, in the shape frames are stated in: what a replaced buffer leaves alone,
the error entry as one equation, a write with room and without, a read with enough bits and without. -/

namespace Sys2Proof.Machine

/-! ### A replaced buffer -/

/-- Replacing a buffer by one of the same capacity and length that differs only from `lo` up to `hi`. -/
theorem putBuf_frame {s : State} {id : BufId} {b b' : Buffer} {lo hi : Nat} (h : s.buf? id = some b)
    (hc : b'.capacity = b.capacity) (hl : b'.length = b.length)
    (hb : ∀ j, ¬ (lo ≤ j ∧ j < hi) → b'.byteAt j = b.byteAt j) :
    (s.putBuf id b').sizes = s.sizes ∧ SameBytesBut s (s.putBuf id b') id lo hi := by
  constructor
  · refine List.ext_getElem? fun j => ?_
    simp only [State.sizes, State.putBuf_mem, List.getElem?_map, List.getElem?_set]
    simp only [State.buf?] at h
    by_cases hj : id = j
    · subst hj
      have hlt := (List.getElem?_eq_some_iff.mp h).1
      rw [h]
      simp [hlt, hc, hl]
    · simp [hj]
  · intro j a hja
    by_cases hj : j = id
    · subst hj
      have hn : ¬ (lo ≤ a ∧ a < hi) := fun hh => hja ⟨rfl, hh.1, hh.2⟩
      simp only [State.byte?, State.buf?_putBuf_same h, h, Option.bind_some, Buffer.memRead_nat, hc, hb a hn]
    · simp only [State.byte?, State.buf?_putBuf_other (Ne.symm hj)]

theorem byte?_putBuf_same {s : State} {id : BufId} {b b' : Buffer} (h : s.buf? id = some b) (a : Nat) :
    (s.putBuf id b').byte? id a = b'.memRead a := by
  simp [State.byte?, State.buf?_putBuf_same h]

theorem putBuf_self {s : State} {id : BufId} {b : Buffer} (h : s.buf? id = some b) : s.putBuf id b = s := by
  have : s.mem.set id b = s.mem := by
    refine List.ext_getElem? fun j => ?_
    simp only [List.getElem?_set]
    simp only [State.buf?] at h
    by_cases hj : id = j
    · subst hj
      obtain ⟨hlt, he⟩ := List.getElem?_eq_some_iff.mp h
      simp [hlt, he]
    · simp [hj]
  simp [State.putBuf, this]

theorem putBuf_putBuf (s : State) (id : BufId) (b b' : Buffer) : (s.putBuf id b).putBuf id b' = s.putBuf id b' := by
  simp [State.putBuf]

/-! ### The error entry as one equation (R291) -/

theorem takeError_idle {k : Status} {s : State} (h : s.phase = .idle) :
    takeError k s =
      { s with
        status := k, result := .none, bs := s.bs.map fun bs => bs.kill s.draws, draws := s.draws + 1 } := by
  simp [takeError, h, outAfterError_idle h]

theorem takeError_call {k : Status} {s : State} (h : s.phase ≠ .idle) :
    takeError k s =
      { s with
        status := k, result := .none, mem := s.outAfterError k, bs := none, phase := .idle, inBuf := none
        outBuf := none, vlq := ⟨0#32, 0, false⟩, draws := s.draws + 1 } := by
  unfold takeError
  split
  · contradiction
  · rfl

/-- OUT after an error of an encode call (R221). -/
theorem outAfterError_encode {k : Status} {s : State} {o : BufId} {b : Buffer}
    (hp : s.phase = .encHeader ∨ s.phase = .encBody ∨ s.phase = .encTail) (ho : s.outBuf = some o)
    (hb : s.buf? o = some b) : s.outAfterError k = s.mem.set o (b.afterFailedEncode s.draws) := by
  unfold State.outAfterError
  rcases hp with h | h | h <;> simp [ho, hb, h]

/-- OUT after `BufferOutOfBounds` in a decode call (R257). -/
theorem outAfterError_outOfBounds {s : State} {o : BufId} {b : Buffer}
    (hp : s.phase = .decGroups ∨ s.phase = .decHeader ∨ s.phase = .decBody ∨ s.phase = .decTail) (ho : s.outBuf = some o)
    (hb : s.buf? o = some b) :
    s.outAfterError .bufferOutOfBounds = s.mem.set o (b.afterFailedDecode s.draws) := by
  unfold State.outAfterError
  rcases hp with h | h | h | h <;> simp [ho, hb, h]

/-- Only OUT can change when an error is taken. -/
theorem outAfterError_other (k : Status) (s : State) {j : BufId} (h : s.outBuf ≠ some j) :
    (s.outAfterError k)[j]? = s.mem[j]? := by
  unfold State.outAfterError
  split
  · rfl
  · rename_i o ho
    have hoj : o ≠ j := by rintro rfl; exact h ho
    split
    · rfl
    · split <;> (try split) <;> simp [hoj]

/-- An error keeps every capacity (R30). -/
theorem outAfterError_capacity (k : Status) (s : State) :
    (s.outAfterError k).map Buffer.capacity = s.mem.map Buffer.capacity := by
  have set_same : ∀ {o : BufId} {b b' : Buffer}, s.buf? o = some b → b'.capacity = b.capacity →
      (s.mem.set o b').map Buffer.capacity = s.mem.map Buffer.capacity := by
    intro o b b' hb hc
    refine List.ext_getElem? fun j => ?_
    simp only [List.getElem?_map, List.getElem?_set]
    by_cases h : o = j
    · subst h
      simp only [State.buf?] at hb
      obtain ⟨hlt, hget⟩ := List.getElem?_eq_some_iff.mp hb
      simp [hlt, hget, hc]
    · simp [h]
  unfold State.outAfterError
  split
  · rfl
  · split
    · rfl
    · rename_i b hb
      split <;> (try split) <;> first | rfl | exact set_same hb rfl

/-! ### A unit by the direction of the stream -/

theorem byDirection_read {s : State} {bs : BitStream} {b : Buffer} (h : s.Live .R bs b) (r w : Res Unit) :
    byDirection s r w = r := by
  obtain ⟨h1, h2, h3, _⟩ := h
  simp [byDirection, h1, h2, h3]

theorem byDirection_write {s : State} {bs : BitStream} {b : Buffer} (h : s.Live .W bs b) (r w : Res Unit) :
    byDirection s r w = w := by
  obtain ⟨h1, h2, h3, _⟩ := h
  simp [byDirection, h1, h2, h3]

theorem withOutput_some {s : State} {o : BufId} {b : Buffer} (ho : s.outBuf = some o) (hb : s.buf? o = some b)
    (k : BufId → Buffer → Res Unit) : withOutput s k = k o b := by
  simp [withOutput, withBuffer, ho, hb]

/-! ### Fresh streams -/

theorem unreadBits_fresh (id : BufId) (b : Buffer) : unreadBits (BitStream.fresh id .R) b = b.bits := by
  simp [unreadBits, Buffer.bits, fieldBits]

theorem writtenBits_fresh (id : BufId) (d : Dir) (b : Buffer) : writtenBits (BitStream.fresh id d) b = [] := by
  simp [writtenBits, fieldBits, bitsFrom]

theorem fresh_inv (id : BufId) (d : Dir) (b : Buffer) : (BitStream.fresh id d).Inv b := by
  simp [BitStream.Inv]

/-! ### Writing -/

/-- Bits appended where there is room for every byte they fill (R142, R148). -/
theorem pushBits_room {xs : List Bool} {bs : BitStream} {b : Buffer} (hi : bs.Inv b) (hd : bs.dead = false)
    (hw : bs.dir = .W) (h : bs.position + (bs.bitCount + xs.length) / 8 ≤ b.capacity) :
    ∃ bs' b', pushBits bs b xs = .ok bs' b' ∧ writtenBits bs' b' = writtenBits bs b ++ xs ∧ bs'.buf = bs.buf ∧
      bs'.dir = .W ∧ bs'.dead = false ∧ bs'.Inv b' ∧ bs'.position = bs.position + (bs.bitCount + xs.length) / 8 ∧
      bs'.bitCount = (bs.bitCount + xs.length) % 8 ∧ b'.capacity = b.capacity ∧ b'.length = b.length ∧
      (b.wf = true → b'.wf = true) ∧
      ∀ j, ¬ (bs.position ≤ j ∧ j < bs.position + (bs.bitCount + xs.length) / 8) → b'.byteAt j = b.byteAt j := by
  obtain ⟨hp, hin⟩ := hi
  obtain ⟨h7, hacc⟩ := hin hd
  obtain ⟨bs', b', hr, hb, hd', hk, hq, hp', ha, hcap, hlen, hwf, hj⟩ := pushBits_cases xs bs b h7
  rcases hr with ⟨e, hwr, h7', hn⟩ | ⟨e, hfull, hn⟩
  · have e1 : bs'.position = bs.position + (bs.bitCount + xs.length) / 8 := by omega
    have e2 : bs'.bitCount = (bs.bitCount + xs.length) % 8 := by omega
    refine ⟨bs', b', e, hwr, hb, hd'.trans hw, hk.trans hd, ?_, e1, e2, hcap, hlen, hwf, fun j hj' => hj j (by omega)⟩
    exact ⟨hcap ▸ hp' hp, fun _ => ⟨h7', fun _ => ha (hacc hw)⟩⟩
  · omega

/-- Writing one list of bits after another. -/
theorem pushBits_append (xs ys : List Bool) (bs : BitStream) (b : Buffer) :
    pushBits bs b (xs ++ ys) =
      match pushBits bs b xs with
      | .ok bs' b' => pushBits bs' b' ys
      | .raised bs' b' => .raised bs' b' := by
  induction xs generalizing bs b with
  | nil => rfl
  | cons x xs ih =>
    simp only [List.cons_append, pushBits]
    cases pushBit bs b x with
    | ok bs' b' => exact ih bs' b'
    | raised bs' b' => rfl

/-- Bits appended where the room runs out: the bytes filled before stay written and `position` counts them (R143, R149). -/
theorem pushBits_noRoom {xs : List Bool} {bs : BitStream} {b : Buffer} (hi : bs.Inv b) (hd : bs.dead = false)
    (hw : bs.dir = .W) (h : b.capacity < bs.position + (bs.bitCount + xs.length) / 8) :
    ∃ bs' b', pushBits bs b xs = .raised bs' b' ∧ bs'.buf = bs.buf ∧ bs'.dir = .W ∧ bs'.position = b.capacity ∧
      bitsFrom b' b.capacity 0 = (writtenBits bs b ++ xs).take (8 * b.capacity) ∧
      b'.capacity = b.capacity ∧ b'.length = b.length ∧ (b.wf = true → b'.wf = true) ∧
      ∀ j, ¬ (bs.position ≤ j ∧ j < b.capacity) → b'.byteAt j = b.byteAt j := by
  have hp := hi.1
  have h7 := (hi.2 hd).1
  obtain ⟨n, hn⟩ : ∃ n, n = 8 * (b.capacity - bs.position) + 7 - bs.bitCount := ⟨_, rfl⟩
  have hlen : n < xs.length := by omega
  have hl : (xs.take n).length = n := by simp; omega
  obtain ⟨bs', b', e, hwr, hb, hdir, _, hi', hq, hc, hcap, hl', hwf, hj⟩ :=
    pushBits_room (xs := xs.take n) hi hd hw (by rw [hl]; omega)
  rw [hl] at hq hc hj
  have hq' : bs'.position = b.capacity := by omega
  have hc' : bs'.bitCount = 7 := by omega
  refine ⟨bs', b', ?_, hb, hdir, hq', ?_, hcap, hl', hwf, fun j hj' => hj j (by omega)⟩
  · obtain ⟨x, zs, hz⟩ : ∃ x zs, xs.drop n = x :: zs := by
      cases hz : xs.drop n with
      | nil => have := List.length_drop (i := n) (l := xs); rw [hz] at this; simp at this; omega
      | cons x zs => exact ⟨x, zs, rfl⟩
    rw [← List.take_append_drop n xs, pushBits_append, e, hz]
    have : pushBit bs' b' x = .raised bs' b' := by
      rcases pushBit_cases bs' b' x (by omega) with ⟨_, _, e⟩ | ⟨b1, m1, _, _, _, _, _, h1, h2, h3, _, h4, _⟩
      · exact e
      · have := h3 (by omega)
        omega
    simp [pushBits, this]
  · have hsplit : writtenBits bs b ++ xs = (writtenBits bs' b') ++ xs.drop n := by
      rw [hwr, List.append_assoc, List.take_append_drop]
    rw [hsplit, writtenBits, hq', List.append_assoc, List.take_left' (by simp)]

/-! ### Reading -/

/-- Bits taken where enough are left (R151). -/
theorem pullBits_enough {n : Nat} {bs : BitStream} {b : Buffer} (hi : bs.Inv b) (hd : bs.dead = false)
    (h : n ≤ (unreadBits bs b).length) :
    ∃ bs', pullBits n bs b = .ok bs' ((unreadBits bs b).take n) ∧ unreadBits bs' b = (unreadBits bs b).drop n ∧
      bs'.buf = bs.buf ∧ bs'.dir = bs.dir ∧ bs'.dead = false ∧ (bs.dir = .R → bs'.Inv b) := by
  obtain ⟨hp, hin⟩ := hi
  obtain ⟨h7, _⟩ := hin hd
  rcases pullBits_cases n bs b with ⟨bs', hlt, _⟩ | ⟨xs, bs', e, hl, hu, hb, hdir, hk, h7', hp'⟩
  · omega
  · refine ⟨bs', ?_, ?_, hb, hdir, hk.trans hd, fun hr => ⟨hp' hp, fun _ => ⟨h7' h7, fun hw => ?_⟩⟩⟩
    · rw [e, hu, ← hl, List.take_left]
    · rw [hu, ← hl, List.drop_left]
    · rw [hdir, hr] at hw; cases hw

/-- Bits taken where too few are left: all are consumed (R152). -/
theorem pullBits_short {n : Nat} {bs : BitStream} {b : Buffer} (hp : bs.position ≤ b.capacity)
    (h : (unreadBits bs b).length < n) :
    ∃ bs', pullBits n bs b = .raised bs' ∧ bs'.buf = bs.buf ∧ bs'.dir = bs.dir ∧ bs'.dead = bs.dead ∧
      bs'.position = b.capacity := by
  induction n generalizing bs with
  | zero => omega
  | succ n ih =>
    rcases pullBit_cases bs b with ⟨_, _, hc, e⟩ | ⟨x, b1, e, hu, hb, hd, hk, _, _, hp1⟩
    · exact ⟨bs, by simp [pullBits, e], rfl, rfl, rfl, by omega⟩
    · rw [hu, List.length_cons] at h
      obtain ⟨b2, e2, hb2, hd2, hk2, hp2⟩ := ih (hp1 hp) (by omega)
      exact ⟨b2, by simp [pullBits, e, e2], hb2.trans hb, hd2.trans hd, hk2.trans hk, hp2⟩

/-- The read direction of the cursor: it only moves forward (R33). -/
theorem pullBits_position (n : Nat) (bs : BitStream) (b : Buffer) :
    match pullBits n bs b with
    | .ok bs' _ => bs.position ≤ bs'.position
    | .raised bs' => bs.position ≤ bs'.position := by
  induction n generalizing bs with
  | zero => exact Nat.le_refl _
  | succ n ih =>
    rcases pullBit_cases bs b with ⟨_, _, _, e⟩ | ⟨x, b1, e, _, _, _, _, _, hle, _⟩
    · simp [pullBits, e]
    · have := ih b1
      simp only [pullBits, e]
      cases h : pullBits n b1 b with
      | ok b2 xs => simp only [h] at this ⊢; exact Nat.le_trans hle this
      | raised b2 => simp only [h] at this ⊢; exact Nat.le_trans hle this

/-- Reading one run of bits after another. -/
theorem pullBits_add (m n : Nat) (bs : BitStream) (b : Buffer) :
    pullBits (m + n) bs b =
      match pullBits m bs b with
      | .raised bs' => .raised bs'
      | .ok bs' xs =>
        match pullBits n bs' b with
        | .raised bs'' => .raised bs''
        | .ok bs'' ys => .ok bs'' (xs ++ ys) := by
  induction m generalizing bs with
  | zero =>
    simp only [Nat.zero_add, pullBits]
    cases pullBits n bs b <;> rfl
  | succ m ih =>
    rw [Nat.add_right_comm]
    simp only [pullBits]
    cases h : pullBit bs b with
    | raised b1 => rfl
    | ok b1 x =>
      simp only [ih b1]
      cases pullBits m b1 b with
      | raised b2 => rfl
      | ok b2 xs => dsimp only; cases pullBits n b2 b <;> rfl

end Sys2Proof.Machine
end

