-- ==== Sys2Proof/Laws/Groups.lean ====
section
/-! SUPPORT. The VLQ reader and writer in terms of groups: what the reader takes and the value it makes of it (R102, R174, R176),
and the groups the writer makes (R170). -/

namespace Sys2Proof.Machine

/-! ### The reader -/

/-- `IsReadVlq` with `f` groups still allowed. -/
def IsReadRest (f : Nat) (gs : List Byte) : Prop :=
  gs ≠ [] ∧ gs.length ≤ f ∧ (∀ k, k + 1 < gs.length → contFlag (gs.getD k 0#8) = true) ∧
  (gs.length < f → contFlag (gs.getD (gs.length - 1) 0#8) = false)

theorem isReadRest_five (gs : List Byte) : IsReadRest 5 gs ↔ IsReadVlq gs := Iff.rfl

theorem isReadRest_single {f : Nat} (g : Byte) (h : contFlag g = false ∨ f = 0) : IsReadRest (f + 1) [g] := by
  refine ⟨by simp, by simp, by intro k hk; simp at hk, fun hf => ?_⟩
  rcases h with h | h
  · simpa using h
  · subst h; simp at hf

theorem isReadRest_cons {f : Nat} {g : Byte} {gs : List Byte} (hg : contFlag g = true) (h : IsReadRest f gs) :
    IsReadRest (f + 1) (g :: gs) := by
  obtain ⟨h1, h2, h3, h4⟩ := h
  obtain ⟨a, as, rfl⟩ := List.exists_cons_of_ne_nil h1
  refine ⟨by simp, by simpa using h2, fun k hk => ?_, fun hf => ?_⟩
  · cases k with
    | zero => simpa using hg
    | succ k => simpa using h3 k (by simp at hk ⊢; omega)
  · simpa using h4 (by simp at hf ⊢; omega)

theorem isReadRest_inv {f : Nat} {g : Byte} {gs : List Byte} (h : IsReadRest (f + 1) (g :: gs)) :
    (gs = [] ∧ (contFlag g = false ∨ f = 0)) ∨ (contFlag g = true ∧ IsReadRest f gs) := by
  obtain ⟨h1, h2, h3, h4⟩ := h
  cases gs with
  | nil =>
    refine .inl ⟨rfl, ?_⟩
    cases f with
    | zero => exact .inr rfl
    | succ f => exact .inl (by simpa using h4 (by simp))
  | cons a as =>
    refine .inr ⟨by simpa using h3 0 (by simp), by simp, by simpa using h2, fun k hk => ?_, fun hf => ?_⟩
    · simpa using h3 (k + 1) (by simp at hk ⊢; omega)
    · simpa using h4 (by simp at hf ⊢; omega)

/-- Everything the group reader can do: it takes one VLQ and no more, or the bits end inside one. -/
theorem pullGroups_cases (f : Nat) (hf : f ≤ 5) (bs : BitStream) (b : Buffer) (hi : bs.Inv b) (hd : bs.dead = false)
    (hr : bs.dir = .R) (h0 : f ≠ 0) :
    (∃ gs bs', pullGroups f (7 * (5 - f)) bs b = .ok bs' gs ∧ IsReadRest f gs ∧
      unreadBits bs b = groupBits gs ++ unreadBits bs' b ∧ bs'.buf = bs.buf ∧ bs'.dir = .R ∧ bs'.dead = false ∧
      bs'.Inv b ∧ bs.position ≤ bs'.position) ∨
    (∃ bs', pullGroups f (7 * (5 - f)) bs b = .raised bs' ∧ bs'.buf = bs.buf ∧ bs'.dir = .R ∧ bs'.dead = false ∧
      bs'.position = b.capacity ∧
      ¬ ∃ gs rest, IsReadRest f gs ∧ unreadBits bs b = groupBits gs ++ rest) := by
  induction f generalizing bs with
  | zero => exact absurd rfl h0
  | succ f ih =>
    obtain ⟨sh, hsh0⟩ : ∃ sh, sh = 7 * (5 - (f + 1)) := ⟨_, rfl⟩
    rw [← hsh0]
    by_cases hlen : 8 ≤ (unreadBits bs b).length
    · obtain ⟨b1, e, hu, hb, hdir, hk, hi1⟩ := pullBits_enough hi hd hlen
      have hi1 := hi1 hr
      have hdir1 : b1.dir = .R := hdir.trans hr
      have hq : bs.position ≤ b1.position := by have := pullBits_position 8 bs b; simpa [e] using this
      obtain ⟨g, hg⟩ : ∃ g : Byte, g = BitVec.ofNat 8 (bitsValue ((unreadBits bs b).take 8)) := ⟨_, rfl⟩
      have htake : (unreadBits bs b).take 8 = fieldBits g.toNat 8 := by
        have h8 : ((unreadBits bs b).take 8).length = 8 := by simp [hlen]
        have hlt := bitsValue_lt ((unreadBits bs b).take 8)
        rw [h8] at hlt
        have : g.toNat = bitsValue ((unreadBits bs b).take 8) := by rw [hg]; simpa using hlt
        rw [this]
        have hfb := fieldBits_bitsValue ((unreadBits bs b).take 8)
        rw [h8] at hfb
        exact hfb.symm
      have hsplit : unreadBits bs b = fieldBits g.toNat 8 ++ unreadBits b1 b := by
        rw [← htake, hu, List.take_append_drop]
      have ef : pullField 8 bs b = .ok b1 (bitsValue ((unreadBits bs b).take 8)) := by simp [pullField, e]
      have hstop : vlqStop g (sh + 7) = (!contFlag g || decide (f = 0)) := by
        unfold vlqStop
        congr 1
        exact decide_eq_decide.mpr (by omega)
      have hsh : sh + 7 = 7 * (5 - f) := by omega
      by_cases hs : contFlag g = false ∨ f = 0
      · refine .inl ⟨[g], b1, ?_, isReadRest_single g hs, by simpa using hsplit, hb, hdir1, hk, hi1, hq⟩
        have : vlqStop g (sh + 7) = true := by rw [hstop]; rcases hs with h | h <;> simp [h]
        simp [pullGroups, ef, ← hg, this]
      · have hc : contFlag g = true := by simpa using fun h => hs (.inl h)
        have hf0 : f ≠ 0 := fun h => hs (.inr h)
        have hns : vlqStop g (sh + 7) = false := by rw [hstop]; simp [hc, hf0]
        rcases ih (by omega) b1 hi1 hk hdir1 hf0 with ⟨gs, b2, e2, hg2, hu2, hb2, hd2, hk2, hi2, hq2⟩ |
          ⟨b2, e2, hb2, hd2, hk2, hp2, hno⟩
        · refine .inl ⟨g :: gs, b2, ?_, isReadRest_cons hc hg2, ?_, hb2.trans hb, hd2, hk2, hi2, Nat.le_trans hq hq2⟩
          · rw [← hsh] at e2
            simp [pullGroups, ef, ← hg, hns, e2]
          · rw [hsplit, hu2, groupBits_cons, List.append_assoc]
        · refine .inr ⟨b2, ?_, hb2.trans hb, hd2, hk2, hp2, ?_⟩
          · rw [← hsh] at e2
            simp [pullGroups, ef, ← hg, hns, e2]
          · rintro ⟨gs, rest, hgs, hur⟩
            obtain ⟨a, as, rfl⟩ := List.exists_cons_of_ne_nil hgs.1
            rw [hsplit, groupBits_cons, List.append_assoc] at hur
            obtain ⟨hh, hrest⟩ := List.append_inj hur (by simp)
            have hag : a = g := by
              rw [← byte_of_fieldBits a, ← byte_of_fieldBits g, hh]
            subst hag
            rcases isReadRest_inv hgs with ⟨_, h⟩ | ⟨_, h⟩
            · exact hs h
            · exact hno ⟨as, rest, h, hrest⟩
    · obtain ⟨b1, e, hb, hdir, hk, hp⟩ := pullBits_short (n := 8) hi.1 (by omega)
      refine .inr ⟨b1, by simp [pullGroups, pullField, e], hb, hdir.trans hr, hk.trans hd, hp, ?_⟩
      rintro ⟨gs, rest, hgs, hur⟩
      obtain ⟨a, as, rfl⟩ := List.exists_cons_of_ne_nil hgs.1
      rw [hur] at hlen
      simp at hlen

/-! ### The value of groups (R102, R174) -/

theorem contFlag_toNat (g : Byte) : contFlag g = decide (128 ≤ g.toNat) := by
  revert g; decide

/-- One group added above a value that has no bit there yet. -/
theorem vlqAdd_toNat (r : Word) (sh : Nat) (g : Byte) (h : r.toNat < 2 ^ sh) :
    (vlqAdd r sh g).toNat = (r.toNat + 2 ^ sh * (g.toNat % 128)) % 2 ^ 32 := by
  have hm : (g &&& 0x7F#8).toNat = g.toNat % 128 := by
    rw [BitVec.toNat_and]; exact Nat.and_two_pow_sub_one_eq_mod g.toNat 7
  have hr : r.toNat < 2 ^ 32 := r.isLt
  simp only [vlqAdd, BitVec.toNat_or, BitVec.toNat_shiftLeft, BitVec.toNat_setWidth, hm]
  have h1 : g.toNat % 128 % 2 ^ 32 = g.toNat % 128 := by
    apply Nat.mod_eq_of_lt; omega
  rw [h1, Nat.shiftLeft_eq]
  have h2 : r.toNat = r.toNat % 2 ^ 32 := (Nat.mod_eq_of_lt hr).symm
  conv_lhs => rw [h2]
  rw [← Nat.or_mod_two_pow]
  congr 1
  rw [Nat.mul_comm (2 ^ sh), Nat.or_comm, Nat.add_comm]
  have := Nat.shiftLeft_add_eq_or_of_lt h (g.toNat % 128)
  rw [Nat.shiftLeft_eq] at this
  exact this.symm

/-- The value of groups, the first at `sh` (R102). -/
theorem vlqValue_toNat (gs : List Byte) (r : Word) (sh : Nat) (h : r.toNat < 2 ^ sh) :
    (vlqValue r sh gs).toNat = (r.toNat + 2 ^ sh * groupSum gs) % 2 ^ 32 := by
  induction gs generalizing r sh with
  | nil => simp [vlqValue, groupSum, Nat.mod_eq_of_lt r.isLt]
  | cons g gs ih =>
    have hadd := vlqAdd_toNat r sh g h
    have hlt : (vlqAdd r sh g).toNat < 2 ^ (sh + 7) := by
      rw [hadd]
      refine Nat.lt_of_le_of_lt (Nat.mod_le _ _) ?_
      have h128 : g.toNat % 128 ≤ 127 := by omega
      have := Nat.mul_le_mul_left (2 ^ sh) h128
      have hp : 2 ^ (sh + 7) = 2 ^ sh * 128 := Nat.pow_add 2 sh 7
      omega
    rw [vlqValue, ih _ _ hlt, hadd, groupSum, Nat.pow_add]
    rw [Nat.mod_add_mod]
    congr 1
    ring

theorem vlqValue_groups (gs : List Byte) : (vlqValue 0#32 0 gs).toNat = groupSum gs % 2 ^ 32 := by
  simpa using vlqValue_toNat gs 0#32 0 (by simp)

/-- Everything `read_7bit_uint32` can do on a live stream (R174, R175). -/
theorem pullVlq_cases (bs : BitStream) (b : Buffer) (hi : bs.Inv b) (hd : bs.dead = false) (hr : bs.dir = .R) :
    (∃ gs bs' w, pullVlq bs b = .ok bs' w ∧ IsReadVlq gs ∧ w.toNat = groupSum gs % 2 ^ 32 ∧
      unreadBits bs b = groupBits gs ++ unreadBits bs' b ∧ bs'.buf = bs.buf ∧ bs'.dir = .R ∧ bs'.dead = false ∧
      bs'.Inv b ∧ bs.position ≤ bs'.position) ∨
    (∃ bs', pullVlq bs b = .raised bs' ∧ bs'.buf = bs.buf ∧ bs'.dir = .R ∧ bs'.dead = false ∧ bs'.position = b.capacity ∧
      ¬ ∃ gs rest, IsReadVlq gs ∧ unreadBits bs b = groupBits gs ++ rest) := by
  rcases pullGroups_cases 5 (Nat.le_refl 5) bs b hi hd hr (by decide) with ⟨gs, bs', e, h⟩ | ⟨bs', e, h⟩
  · exact .inl ⟨gs, bs', vlqValue 0#32 0 gs, by simp only [pullVlq]; rw [e], h.1, vlqValue_groups gs, h.2⟩
  · exact .inr ⟨bs', by simp only [pullVlq]; rw [e], h⟩

/-- A stream starts with at most one VLQ. -/
theorem isReadRest_unique {f : Nat} {gs hs : List Byte} {r r' : List Bool} (hg : IsReadRest f gs) (hh : IsReadRest f hs)
    (h : groupBits gs ++ r = groupBits hs ++ r') : gs = hs ∧ r = r' := by
  induction f generalizing gs hs with
  | zero => exact absurd (List.length_eq_zero_iff.mp (Nat.le_zero.mp hg.2.1)) hg.1
  | succ f ih =>
    obtain ⟨a, as, rfl⟩ := List.exists_cons_of_ne_nil hg.1
    obtain ⟨c, cs, rfl⟩ := List.exists_cons_of_ne_nil hh.1
    rw [groupBits_cons, groupBits_cons, List.append_assoc, List.append_assoc] at h
    obtain ⟨h1, h2⟩ := List.append_inj h (by simp)
    have hac : a = c := by rw [← byte_of_fieldBits a, ← byte_of_fieldBits c, h1]
    subst hac
    rcases isReadRest_inv hg with ⟨rfl, h3⟩ | ⟨h3, h4⟩ <;> rcases isReadRest_inv hh with ⟨rfl, h5⟩ | ⟨h5, h6⟩
    · simpa using h2
    · exfalso
      rcases h3 with h3 | h3
      · simp [h3] at h5
      · subst h3; exact absurd (List.length_eq_zero_iff.mp (Nat.le_zero.mp h6.2.1)) h6.1
    · exfalso
      rcases h5 with h5 | h5
      · simp [h5] at h3
      · subst h5; exact absurd (List.length_eq_zero_iff.mp (Nat.le_zero.mp h4.2.1)) h4.1
    · obtain ⟨e1, e2⟩ := ih h4 h6 h2
      exact ⟨by rw [e1], e2⟩

/-! ### The writer (R170) -/

/-- The groups the writer makes: the value's VLQ, accepted by the reader, with the value as the sum of its payloads. -/
theorem vlqGroups_spec (f v : Nat) (h : v < 2 ^ (7 * f)) (h0 : f ≠ 0) :
    IsVlqOf v (vlqGroups f v) ∧ IsReadRest f (vlqGroups f v) ∧ groupSum (vlqGroups f v) = v := by
  induction f generalizing v with
  | zero => exact absurd rfl h0
  | succ f ih =>
    have hsh : v >>> 7 = v / 128 := Nat.shiftRight_eq_div_pow v 7
    have hm : v &&& 0x7F = v % 128 := Nat.and_two_pow_sub_one_eq_mod v 7
    by_cases hz : v / 128 = 0
    · have hlt : v < 128 := by omega
      have hb : (BitVec.ofNat 8 (v % 128)).toNat = v := by simp; omega
      simp only [vlqGroups, hsh, hz, if_true, hm]
      refine ⟨⟨hlt, hb⟩, isReadRest_single _ (.inl ?_), ?_⟩
      · rw [contFlag_toNat, hb]; simp; omega
      · simp only [groupSum, hb]; omega
    · have hf : f ≠ 0 := by rintro rfl; simp at h; omega
      obtain ⟨i1, i2, i3⟩ := ih (v / 128) (by rw [show 7 * (f + 1) = 7 * f + 7 by omega, Nat.pow_add] at h; omega) hf
      have hor : (v % 128 ||| 128) = v % 128 + 128 := by
        have := Nat.shiftLeft_add_eq_or_of_lt (show v % 128 < 2 ^ 7 by omega) 1
        simp at this
        rw [Nat.or_comm]
        omega
      have hb : (BitVec.ofNat 8 (v % 128 ||| 128)).toNat = v % 128 + 128 := by rw [hor]; simp; omega
      simp only [vlqGroups, hsh, if_neg hz, hm]
      obtain ⟨a, as, ha⟩ := List.exists_cons_of_ne_nil i2.1
      rw [ha] at i1 i2 i3 ⊢
      refine ⟨⟨by omega, hb, i1⟩, isReadRest_cons ?_ i2, ?_⟩
      · rw [contFlag_toNat, hb]; simp
      · rw [groupSum, hb, i3]; omega

/-- A value has one VLQ. -/
theorem isVlqOf_unique {v : Nat} {gs hs : List Byte} (h : IsVlqOf v gs) (h' : IsVlqOf v hs) : gs = hs := by
  induction gs generalizing v hs with
  | nil => exact h.elim
  | cons g gs ih =>
    cases hs with
    | nil => exact h'.elim
    | cons k hs =>
      cases gs with
      | nil =>
        cases hs with
        | nil => congr 1; exact BitVec.eq_of_toNat_eq (h.2.trans h'.2.symm)
        | cons a as => exact absurd h'.1 (by have := h.1; omega)
      | cons a as =>
        cases hs with
        | nil => exact absurd h.1 (by have := h'.1; omega)
        | cons c cs =>
          rw [ih h.2.2 h'.2.2]
          congr 1
          exact BitVec.eq_of_toNat_eq (h.2.1.trans h'.2.1.symm)

/-- The VLQ of a 32-bit value: five groups are enough (R172). -/
theorem vlqGroups_word (v : Word) :
    IsVlqOf v.toNat (vlqGroups 5 v.toNat) ∧ IsReadVlq (vlqGroups 5 v.toNat) ∧ groupSum (vlqGroups 5 v.toNat) = v.toNat :=
  vlqGroups_spec 5 v.toNat (by have := v.isLt; omega) (by decide)

end Sys2Proof.Machine
end

