-- ==== Sys2Proof/Laws/Tokens.lean ====
section
/-! SUPPORT. What the pair copy and the match search do, said once (R87, R191 to R195, R250 to R254). -/

namespace Sys2Proof.Machine

/-! ### The pair copy -/

/-- A copy that stays inside OUT repeats the `offset` bytes before it (R250). -/
theorem copyForward_inside {offset n dst : Nat} {b : Buffer} (h1 : 1 ≤ offset) (h2 : offset ≤ dst)
    (h3 : dst + n ≤ b.capacity) :
    (copyForward offset n dst b).2 = true ∧
    (∀ k, k < n → (copyForward offset n dst b).1.byteAt (dst + k) = b.byteAt (dst - offset + k % offset)) ∧
    ∀ j, ¬ (dst ≤ j ∧ j < dst + n) → (copyForward offset n dst b).1.byteAt j = b.byteAt j := by
  induction n generalizing dst b with
  | zero => exact ⟨rfl, fun k hk => absurd hk (Nat.not_lt_zero k), fun _ _ => rfl⟩
  | succ n ih =>
    have hr : b.memRead ((dst : Int) - offset) = some (b.byteAt (dst - offset)) := by
      have : ((dst : Int) - offset) = ((dst - offset : Nat) : Int) := by omega
      rw [this, Buffer.memRead_nat, if_pos (by omega)]
    rcases b.memWrite_cases dst (b.byteAt (dst - offset)) with ⟨hle, _⟩ | ⟨_, hw⟩
    · omega
    · obtain ⟨_, hcap, _, _, hv, ho⟩ := Buffer.memWrite_some hw
      obtain ⟨i1, i2, i3⟩ := ih (dst := dst + 1) (b := { b with cells := cellPut b.cells dst (b.byteAt (dst - offset)) })
        (by omega) (by rw [hcap]; omega)
      simp only [copyForward, hr, hw]
      refine ⟨i1, fun k hk => ?_, fun j hj => ?_⟩
      · cases k with
        | zero => simp only [Nat.add_zero, Nat.zero_mod]; rw [i3 dst (by omega), hv]
        | succ k =>
          rw [show dst + (k + 1) = dst + 1 + k by omega, i2 k (by omega)]
          have hm : k % offset < offset := Nat.mod_lt _ h1
          by_cases hlast : k % offset = offset - 1
          · have h0 : (k + 1) % offset = 0 := by
              rw [Nat.add_mod, hlast]
              by_cases ho1 : offset = 1
              · subst ho1; simp
              · rw [Nat.mod_eq_of_lt (show 1 < offset by omega), Nat.sub_add_cancel h1, Nat.mod_self]
            rw [h0, hlast, show dst + 1 - offset + (offset - 1) = dst by omega, hv, Nat.add_zero]
          · have h0 : (k + 1) % offset = k % offset + 1 := by
              rw [Nat.add_mod, Nat.mod_eq_of_lt (show 1 < offset by omega), Nat.mod_eq_of_lt (by omega)]
            rw [h0, ho _ (by omega), show dst + 1 - offset + k % offset = dst - offset + (k % offset + 1) by omega]
      · rw [i3 j (by omega), ho j (by omega)]

/-- A copy from offset 0 writes each byte back onto itself (R254). -/
theorem copyForward_zero {n dst : Nat} {b : Buffer} (h : dst + n ≤ b.capacity) :
    (copyForward 0 n dst b).2 = true ∧ ∀ j, (copyForward 0 n dst b).1.byteAt j = b.byteAt j := by
  induction n generalizing dst b with
  | zero => exact ⟨rfl, fun _ => rfl⟩
  | succ n ih =>
    have hr : b.memRead ((dst : Int) - (0 : Nat)) = some (b.byteAt dst) := by
      rw [Int.natCast_zero, Int.sub_zero, Buffer.memRead_nat, if_pos (by omega)]
    rcases b.memWrite_cases dst (b.byteAt dst) with ⟨hle, _⟩ | ⟨_, hw⟩
    · omega
    · obtain ⟨_, hcap, _, _, hv, ho⟩ := Buffer.memWrite_some hw
      obtain ⟨i1, i2⟩ := ih (dst := dst + 1) (b := { b with cells := cellPut b.cells dst (b.byteAt dst) })
        (by rw [hcap]; omega)
      simp only [copyForward, hr, hw]
      refine ⟨i1, fun j => ?_⟩
      rw [i2 j]
      by_cases hj : j = dst
      · rw [hj, hv]
      · exact ho j hj

/-- A copy that leaves OUT on either side fails (R252, R253). -/
theorem copyForward_outside {offset n dst : Nat} {b : Buffer} (hn : 0 < n) (h : dst < offset ∨ b.capacity < dst + n) :
    (copyForward offset n dst b).2 = false := by
  induction n generalizing dst b with
  | zero => omega
  | succ n ih =>
    rcases h with h | h
    · have : b.memRead ((dst : Int) - offset) = none := Buffer.memRead_negative _ (by omega)
      simp [copyForward, this]
    · simp only [copyForward]
      cases hr : b.memRead ((dst : Int) - offset) with
      | none => rfl
      | some v =>
        rcases b.memWrite_cases dst v with ⟨_, hw⟩ | ⟨hlt, hw⟩
        · simp only [hw]
        · obtain ⟨_, hcap, _⟩ := Buffer.memWrite_some hw
          simp only [hw]
          exact ih (by omega) (.inr (by rw [hcap]; omega))

/-! ### The match search -/

/-- The run of a candidate is what R193 says it is. -/
theorem runLength_isRun (b : Buffer) (cand index : Nat) (h : index ≤ b.length) :
    IsRun b index cand (runLength b (b.length - index) cand index) := by
  obtain ⟨room, hroom⟩ : ∃ room, room = b.length - index := ⟨_, rfl⟩
  rw [← hroom]
  induction room generalizing cand index with
  | zero => exact ⟨by simp [runLength, h], fun j hj => absurd hj (by simp [runLength]), fun hlt => by simp [runLength] at hlt; omega⟩
  | succ room ih =>
    by_cases he : b.byteAt cand = b.byteAt index
    · obtain ⟨i1, i2, i3⟩ := ih (cand + 1) (index + 1) (by omega) (by omega)
      simp only [runLength, he, if_true]
      refine ⟨by omega, fun j hj => ?_, fun hlt => ?_⟩
      · cases j with
        | zero => exact he
        | succ j =>
          have := i2 j (by omega)
          rwa [show cand + 1 + j = cand + (j + 1) by omega, show index + 1 + j = index + (j + 1) by omega] at this
      · have := i3 (by omega)
        rwa [show ∀ r, cand + 1 + r = cand + (r + 1) by omega, show ∀ r, index + 1 + r = index + (r + 1) by omega] at this
    · simp only [runLength, he, if_false]
      exact ⟨by omega, fun j hj => absurd hj (Nat.not_lt_zero j), fun _ => he⟩

/-- A candidate has one run. -/
theorem isRun_unique {b : Buffer} {index cand r r' : Nat} (h : IsRun b index cand r) (h' : IsRun b index cand r') : r = r' := by
  obtain ⟨a1, a2, a3⟩ := h
  obtain ⟨b1, b2, b3⟩ := h'
  rcases Nat.lt_trichotomy r r' with hlt | heq | hgt
  · exact absurd (b2 r hlt) (a3 (by omega))
  · exact heq
  · exact absurd (a2 r' hgt) (b3 (by omega))

/-- What a best candidate is, among those from `start` up to `stop`. -/
def IsBest (b : Buffer) (index start stop : Nat) (best : Best) : Prop :=
  (start = stop ∧ best = (0, none)) ∨
  ∃ cand, best.2 = some cand ∧ start ≤ cand ∧ cand < stop ∧
    best.1 = runLength b (b.length - index) cand index ∧
    ∀ c, start ≤ c → c < stop →
      runLength b (b.length - index) c index < best.1 ∨ (runLength b (b.length - index) c index = best.1 ∧ c ≤ cand)

/-- One more candidate keeps the best the best (R194). -/
theorem betterOf_isBest {b : Buffer} {index start stop : Nat} {best : Best} (h : IsBest b index start stop best)
    (hs : start ≤ stop) :
    IsBest b index start (stop + 1) (betterOf best stop (runLength b (b.length - index) stop index)) := by
  unfold betterOf
  rcases h with ⟨rfl, rfl⟩ | ⟨cand, h1, h2, h3, h4, h5⟩
  · refine .inr ⟨start, by simp, Nat.le_refl _, Nat.lt_succ_self _, by simp, fun c hc hc' => ?_⟩
    obtain rfl : c = start := by omega
    exact .inr ⟨by simp, Nat.le_refl _⟩
  · by_cases hb : best.1 ≤ runLength b (b.length - index) stop index
    · rw [if_pos hb]
      refine .inr ⟨stop, rfl, hs, Nat.lt_succ_self _, rfl, fun c hc hc' => ?_⟩
      by_cases hcs : c = stop
      · subst hcs; exact .inr ⟨rfl, Nat.le_refl _⟩
      · rcases h5 c hc (by omega) with h | ⟨h, _⟩
        · exact .inl (Nat.lt_of_lt_of_le h hb)
        · simp only
          omega
    · rw [if_neg hb]
      refine .inr ⟨cand, h1, h2, by omega, h4, fun c hc hc' => ?_⟩
      by_cases hcs : c = stop
      · subst hcs; exact .inl (by omega)
      · exact h5 c hc (by omega)

theorem scanFrom_isBest {b : Buffer} {index start : Nat} (count stop : Nat) {best : Best}
    (h : IsBest b index start stop best) (hs : start ≤ stop) :
    IsBest b index start (stop + count) (scanFrom b index count stop best) := by
  induction count generalizing stop best with
  | zero => exact h
  | succ count ih =>
    rw [scanFrom, show stop + (count + 1) = stop + 1 + count by omega]
    exact ih (stop + 1) (betterOf_isBest h hs) (by omega)

/-- The kept candidate is one, with one run (R194). -/
theorem isKept_unique {b : Buffer} {index cand cand' r r' : Nat} {c : Cfg} (h : IsKept b index c cand r)
    (h' : IsKept b index c cand' r') : cand = cand' ∧ r = r' := by
  have e1 := h.2.2.2 cand' r' h'.1 h'.2.1 h'.2.2.1
  have e2 := h'.2.2.2 cand r h.1 h.2.1 h.2.2.1
  omega

/-- Everything the search can answer (R191 to R195). -/
theorem findMatch_cases (b : Buffer) (index : Nat) (c : Cfg) (free : Nat) :
    (findMatch b index c free = ⟨free, 0⟩ ∧ (b.length ≤ index + c.minimumLength ∨
      ∀ cand r, IsKept b index c cand r → min r (2 ^ c.lengthBits - 1) = 0)) ∨
    ∃ cand r, IsKept b index c cand r ∧ index + c.minimumLength < b.length ∧ 0 < min r (2 ^ c.lengthBits - 1) ∧
      findMatch b index c free = ⟨index - cand, min r (2 ^ c.lengthBits - 1)⟩ := by
  by_cases hg : b.length ≤ index + c.minimumLength
  · exact .inl ⟨by simp [findMatch, hg], .inl hg⟩
  · have hbest := scanFrom_isBest (b := b) (index := index) (start := index - maxOffset c)
      (index - (index - maxOffset c)) (index - maxOffset c) (.inl ⟨rfl, rfl⟩) (Nat.le_refl _)
    have hstop : index - maxOffset c + (index - (index - maxOffset c)) = index := by omega
    rw [hstop] at hbest
    simp only [findMatch, if_neg hg]
    generalize scanFrom b index (index - (index - maxOffset c)) (index - maxOffset c) (0, none) = best at hbest ⊢
    rcases hbest with ⟨hs, rfl⟩ | ⟨cand, h1, h2, h3, h4, h5⟩
    · refine .inl ⟨by simp [foundPair], .inr fun cand r hk => ?_⟩
      have k1 := hk.1
      have k2 := hk.2.1
      simp only [maxOffset] at hs
      omega
    · have hkept : IsKept b index c cand best.1 := by
        refine ⟨h2, h3, ?_, fun cand' r' hc hc' hr' => ?_⟩
        · rw [h4]; exact runLength_isRun b cand index (by omega)
        · rw [isRun_unique hr' (runLength_isRun b cand' index (by omega))]
          exact h5 cand' hc hc'
      by_cases h0 : min best.1 (maxLength c) = 0
      · refine .inl ⟨by simp [foundPair, h1, h0], .inr fun cand' r' hk => ?_⟩
        rw [← (isKept_unique hkept hk).2]
        exact h0
      · have hf : foundPair index (maxLength c) best = (index - cand, min best.1 (maxLength c)) := by simp [foundPair, h1]
        refine .inr ⟨cand, best.1, hkept, by omega, Nat.pos_of_ne_zero h0, ?_⟩
        rw [hf]; simp only [h0, if_false]; rfl

/-- The offset of a search with a match does not depend on the free value. -/
theorem findMatch_free (b : Buffer) (index : Nat) (c : Cfg) (f g : Nat) :
    (findMatch b index c f).length = (findMatch b index c g).length ∧
    (0 < (findMatch b index c f).length → findMatch b index c f = findMatch b index c g) := by
  unfold findMatch
  split
  · simp
  · dsimp only
    split <;> simp

/-! ### The operations as one write or one copy -/

theorem pushBits_single (bs : BitStream) (b : Buffer) (x : Bool) : pushBits bs b [x] = pushBit bs b x := by
  simp only [pushBits]
  cases pushBit bs b x <;> rfl

theorem writeStream_ok {s : State} {bs bs' : BitStream} {b b' : Buffer} {f : BitStream → Buffer → Written}
    (h : s.Live .W bs b) (e : f bs b = .ok bs' b') :
    writeStream s f = .ok ((s.putBuf bs.buf b').putStream (some bs')) () := by rw [writeStream_live h, e]

theorem writeStream_raised {s : State} {bs bs' : BitStream} {b b' : Buffer} {f : BitStream → Buffer → Written}
    (h : s.Live .W bs b) (e : f bs b = .raised bs' b') :
    writeStream s f = .raised .bufferOutOfBounds ((s.putBuf bs.buf b').putStream (some bs')) := by
  rw [writeStream_live h, e]

theorem readStream_ok {α : Type} {s : State} {bs bs' : BitStream} {b : Buffer} {f : BitStream → Buffer → Taken α} {v : α}
    (h : s.Live .R bs b) (e : f bs b = .ok bs' v) : readStream s f = .ok (s.putStream (some bs')) v := by
  rw [readStream_live h, e]

theorem readStream_raised {α : Type} {s : State} {bs bs' : BitStream} {b : Buffer} {f : BitStream → Buffer → Taken α}
    (h : s.Live .R bs b) (e : f bs b = .raised bs') :
    readStream s f = .raised .bufferOutOfBounds (s.putStream (some bs')) := by rw [readStream_live h, e]

/-- A stream consumed up to another place is still live (R32, R37). -/
theorem live_putStream {s : State} {d : Dir} {bs bs' : BitStream} {b : Buffer} (h : s.Live d bs b) (hb : bs'.buf = bs.buf)
    (hd : bs'.dir = d) (hk : bs'.dead = false) : (s.putStream (some bs')).Live d bs' b :=
  ⟨rfl, hk, hd, by rw [State.buf?_putStream, hb]; exact h.2.2.2⟩

/-- A write operation is one list of bits appended (R142, R148, R170). -/
theorem exec_appended {i : Instr} {xs : List Bool} (h : appended i = some xs) (s : State) :
    exec i s = settle (writeStream s fun bs b => pushBits bs b xs).noValue := by
  cases i <;> simp only [appended, Option.some.injEq, reduceCtorEq] at h
  · subst h; simp only [exec, execWriteBit, pushBits_single]
  · split at h
    · rename_i hn
      cases h
      simp only [exec, execWriteUint32, withWidth, if_neg (Nat.not_lt.mpr hn)]
    · cases h
  · subst h; rfl

theorem lastGroup_bits (p : BitVec 7) : fieldBits (lastGroup p).toNat 8 = false :: fieldBits p.toNat 7 := by
  revert p; decide

theorem contGroup_bits (p : BitVec 7) : fieldBits (contGroup p).toNat 8 = true :: fieldBits p.toNat 7 := by
  revert p; decide

/-- A unit written by the encoder is its encoding appended, and the scan cursor moved (R170, R215, R217, R218). -/
theorem runUnit_write {i : Instr} {c : Cfg} {xs : List Bool} {s : State} {bs : BitStream} {b : Buffer}
    (h : s.Live .W bs b) (hc : s.cfg = some c) (hs : i.slot ≠ .padding) (he : encode c i = .stream xs) :
    runUnit i s =
      (writeStream s fun bs b => pushBits bs b xs).bind fun t _ => .ok { t with index := indexAfter i t.index } () := by
  cases i <;> simp only [encode, Encoded.stream.injEq, reduceCtorEq] at he <;> (try subst he)
  · simp only [runUnit, runGroup, byDirection_write h, lastGroup_bits, indexAfter]
    cases writeStream s _ <;> rfl
  · simp only [runUnit, runGroup, byDirection_write h, contGroup_bits, indexAfter]
    cases writeStream s _ <;> rfl
  · simp only [runUnit, runHdr, byDirection_write h, writeHdr, indexAfter]
  · simp only [runUnit, runLiteral, byDirection_write h, writeLiteral, indexAfter]
  · simp only [runUnit, runPair, byDirection_write h, writePair, indexAfter, hc]
  · simp only [runUnit, runPairDemo, byDirection_write h, writePair, indexAfter]
  · exact absurd rfl hs

/-- A pair token read by the decoder is one forward copy (R250). -/
theorem readPair_eq {s : State} {o : BufId} {bo : Buffer} (h1 : s.outBuf = some o) (h2 : s.buf? o = some bo)
    (offset length : Nat) :
    readPair offset length s =
      if (copyForward offset length s.index bo).2 then
        .ok { s.putBuf o (copyForward offset length s.index bo).1 with index := s.index + length } ()
      else .raised .bufferOutOfBounds (s.putBuf o (copyForward offset length s.index bo).1) := by
  simp only [readPair, withOutput_some h1 h2]

/-- A literal token read by the decoder is one byte stored (R248). -/
theorem readLiteral_inside {s : State} {o : BufId} {bo : Buffer} (h1 : s.outBuf = some o) (h2 : s.buf? o = some bo)
    (byte : Byte) (h : s.index < bo.capacity) :
    readLiteral byte s =
      .ok { s.putBuf o { bo with cells := cellPut bo.cells s.index byte } with index := s.index + 1 } () := by
  rcases bo.memWrite_cases s.index byte with ⟨hle, _⟩ | ⟨_, hw⟩
  · omega
  · simp only [readLiteral, withOutput_some h1 h2, hw]

end Sys2Proof.Machine
end

