-- ==== Sys2Proof/Laws/Decoder.lean ====
section
/-! SUPPORT. The decoder's units: what fetching one takes from the stream and answers (R104, R109, R174, R243). -/

namespace Sys2Proof.Machine

/-! ### Tokens -/

theorem takeBits_of_le {n : Nat} {l : List Bool} (h : n ≤ l.length) : takeBits n l = some (l.take n, l.drop n) := by
  conv_lhs => rw [← List.take_append_drop n l]
  exact takeBits_append_of_length (by simp [h]) _

theorem takeBits_of_lt {n : Nat} {l : List Bool} (h : l.length < n) : takeBits n l = none := by
  rcases takeBits_cases n l with ⟨_, e⟩ | ⟨xs, rest, e, hl, _⟩
  · exact e
  · rw [e, List.length_append] at h; omega

/-- How many bits follow a token's flag (R109). -/
def tokenWidth (c : Cfg) (flag : Bool) : Nat := if flag then c.offsetBits + c.lengthBits else 8

/-- A token needs its flag and the fields it announces, and no more (R104, R109). -/
theorem decodeToken_enough {c : Cfg} {x : Bool} {l : List Bool} (h : tokenWidth c x ≤ l.length) :
    ∃ i, decodeToken c (x :: l) = .ok (i, l.drop (tokenWidth c x)) ∧
      decodeToken c (x :: l.take (tokenWidth c x)) = .ok (i, []) := by
  cases x with
  | false =>
    simp only [tokenWidth, Bool.false_eq_true, if_false] at h ⊢
    refine ⟨.literal (BitVec.ofNat 8 (bitsValue (l.take 8))), ?_, ?_⟩
    · simp [decodeToken, takeBits_of_le h]
    · have : (l.take 8).length = 8 := by simp [h]
      simp [decodeToken, takeBits_of_le (Nat.le_of_eq this.symm), List.take_take]
  | true =>
    simp only [tokenWidth, if_true] at h ⊢
    have h1 : c.offsetBits ≤ l.length := by omega
    have h2 : c.lengthBits ≤ (l.drop c.offsetBits).length := by simp; omega
    have h3 : c.offsetBits ≤ (l.take (c.offsetBits + c.lengthBits)).length := by simp; omega
    have e1 : (l.take (c.offsetBits + c.lengthBits)).take c.offsetBits = l.take c.offsetBits := by
      simp [List.take_take]
    have e2 : (l.take (c.offsetBits + c.lengthBits)).drop c.offsetBits = (l.drop c.offsetBits).take c.lengthBits := by
      rw [List.drop_take]; congr 1; omega
    refine ⟨mkPair c (bitsValue (l.take c.offsetBits)) (bitsValue ((l.drop c.offsetBits).take c.lengthBits)), ?_, ?_⟩
    · simp [decodeToken, takeBits_of_le h1, takeBits_of_le h2, List.drop_drop]
    · have hl : ((l.drop c.offsetBits).take c.lengthBits).length = c.lengthBits := by rw [List.length_take]; omega
      have h5 := takeBits_append_of_length hl []
      rw [List.append_nil] at h5
      simp only [decodeToken, takeBits_of_le h3, e1, e2, h5]

theorem decodeToken_short {c : Cfg} {x : Bool} {l : List Bool} (h : l.length < tokenWidth c x) :
    ∃ e, decodeToken c (x :: l) = .error e := by
  cases x with
  | false => exact ⟨.tokenCut, by simp [decodeToken, takeBits_of_lt (show l.length < 8 from h)]⟩
  | true =>
    simp only [tokenWidth, if_true] at h
    by_cases h1 : l.length < c.offsetBits
    · exact ⟨.tokenCut, by simp [decodeToken, takeBits_of_lt h1]⟩
    · refine ⟨.tokenCut, ?_⟩
      have h2 : (l.drop c.offsetBits).length < c.lengthBits := by simp; omega
      simp [decodeToken, takeBits_of_le (Nat.not_lt.mp h1), takeBits_of_lt h2]

/-- Everything fetching a token's bits can do. -/
theorem pullToken_cases (c : Cfg) (bs : BitStream) (b : Buffer) (hi : bs.Inv b) (hd : bs.dead = false) (hr : bs.dir = .R) :
    (∃ i bs' xs, pullToken c bs b = .ok bs' xs ∧ decodeToken c xs = .ok (i, []) ∧
      decodeToken c (unreadBits bs b) = .ok (i, unreadBits bs' b) ∧
      (unreadBits bs' b).length < (unreadBits bs b).length ∧
      bs'.buf = bs.buf ∧ bs'.dir = .R ∧ bs'.dead = false ∧ bs'.Inv b) ∨
    (∃ e bs', pullToken c bs b = .raised bs' ∧ decodeToken c (unreadBits bs b) = .error e ∧
      bs'.buf = bs.buf ∧ bs'.dir = .R ∧ bs'.dead = false) := by
  obtain ⟨h7, _⟩ := hi.2 hd
  rcases pullBit_cases bs b with ⟨hu, _, _, e⟩ | ⟨x, b1, e, hu, hb, hdir, hk, hc, _, hp⟩
  · exact .inr ⟨.tokenCut, bs, by simp [pullToken, e], by simp [hu, decodeToken], rfl, hr, hd⟩
  · have hi1 : b1.Inv b :=
      ⟨hp hi.1, fun _ => ⟨hc (by omega), fun hw => by rw [hdir, hr] at hw; cases hw⟩⟩
    have hd1 : b1.dead = false := hk.trans hd
    by_cases hl : tokenWidth c x ≤ (unreadBits b1 b).length
    · obtain ⟨b2, e2, hu2, hb2, hdir2, hk2, hi2⟩ := pullBits_enough hi1 hd1 hl
      obtain ⟨i, d1, d2⟩ := decodeToken_enough (c := c) (x := x) hl
      refine .inl ⟨i, b2, x :: (unreadBits b1 b).take (tokenWidth c x), ?_, d2, ?_, ?_, hb2.trans hb,
        hdir2.trans (hdir.trans hr), hk2, hi2 (hdir.trans hr)⟩
      · simp only [tokenWidth] at e2 ⊢
        simp only [pullToken, e, e2]
      · rw [hu, d1, hu2]
      · rw [hu, hu2]; simp
    · obtain ⟨b2, e2, hb2, hdir2, hk2, _⟩ := pullBits_short (n := tokenWidth c x) hi1.1 (by omega)
      obtain ⟨er, d1⟩ := decodeToken_short (c := c) (x := x) (l := unreadBits b1 b) (by omega)
      refine .inr ⟨er, b2, ?_, by rw [hu, d1], hb2.trans hb, hdir2.trans (hdir.trans hr), hk2.trans hd1⟩
      simp only [tokenWidth] at e2
      simp only [pullToken, e, e2]

/-- Everything fetching a token can do (R104, R109, R249, R256). -/
theorem fetchToken_cases {s : State} {c : Cfg} {bs : BitStream} {b : Buffer} (hc : s.cfg = some c) (h : s.Live .R bs b)
    (hi : bs.Inv b) :
    (∃ i bs', fetchToken s = .ok (s.putStream (some bs')) i ∧
      decodeToken c (unreadBits bs b) = .ok (i, unreadBits bs' b) ∧
      (unreadBits bs' b).length < (unreadBits bs b).length ∧
      bs'.buf = bs.buf ∧ bs'.dir = .R ∧ bs'.dead = false ∧ bs'.Inv b) ∨
    (∃ e bs', fetchToken s = .raised .bufferOutOfBounds (s.putStream (some bs')) ∧
      decodeToken c (unreadBits bs b) = .error e) := by
  rcases pullToken_cases c bs b hi h.2.1 h.2.2.1 with ⟨i, bs', xs, e, d, hu, rest⟩ | ⟨er, bs', e, d, _⟩
  · refine .inl ⟨i, bs', ?_, hu, rest⟩
    simp only [fetchToken, withCallConfig, hc, readStream_ok h e, Res.bind_ok, decoded, d]
  · refine .inr ⟨er, bs', ?_, d⟩
    simp only [fetchToken, withCallConfig, hc, readStream_raised h e, Res.bind_raised]

/-! ### The header -/

theorem vlqTake_groups {f : Nat} {gs : List Byte} (h : IsReadRest f gs) (hf : f ≤ 5) (result : Word) (rest : List Bool) :
    vlqTake f result (7 * (5 - f)) (groupBits gs ++ rest) = some (vlqValue result (7 * (5 - f)) gs, rest) := by
  induction f generalizing gs result with
  | zero => exact absurd (List.length_eq_zero_iff.mp (Nat.le_zero.mp h.2.1)) h.1
  | succ f ih =>
    obtain ⟨sh, hsh⟩ : ∃ sh, sh = 7 * (5 - (f + 1)) := ⟨_, rfl⟩
    rw [← hsh]
    have hsh' : sh + 7 = 7 * (5 - f) := by omega
    obtain ⟨g, as, rfl⟩ := List.exists_cons_of_ne_nil h.1
    have hstop : vlqStop g (sh + 7) = (!contFlag g || decide (f = 0)) := by
      unfold vlqStop
      congr 1
      exact decide_eq_decide.mpr (by omega)
    rw [groupBits_cons, List.append_assoc]
    simp only [vlqTake, takeBits_fieldBits, byte_of_fieldBits]
    rcases isReadRest_inv h with ⟨rfl, hs⟩ | ⟨hc, hr⟩
    · have : vlqStop g (sh + 7) = true := by rw [hstop]; rcases hs with h | h <;> simp [h]
      simp [this, vlqValue]
    · have hf0 : f ≠ 0 := by
        rintro rfl
        exact absurd (List.length_eq_zero_iff.mp (Nat.le_zero.mp hr.2.1)) hr.1
      have : vlqStop g (sh + 7) = false := by rw [hstop]; simp [hc, hf0]
      simp only [this, Bool.false_eq_true, if_false, vlqValue]
      rw [hsh']
      exact ih hr (by omega) _

/-- The header decoder reads exactly the groups of one VLQ (R103, R176, R177). -/
theorem decodeHeader_groups {gs : List Byte} (h : IsReadVlq gs) (rest : List Bool) :
    decodeHeader (groupBits gs ++ rest) = .ok (.hdr (vlqValue 0#32 0 gs), rest) := by
  have := vlqTake_groups (f := 5) h (Nat.le_refl 5) 0#32 rest
  simp only [Nat.sub_self, Nat.mul_zero] at this
  simp only [decodeHeader, this]

/-- The header decoder answers an instruction only on the groups of a VLQ (R103, R174, R176). -/
theorem vlqTake_some {f : Nat} (h0 : f ≠ 0) (hf : f ≤ 5) {result v : Word} {l rest : List Bool}
    (e : vlqTake f result (7 * (5 - f)) l = some (v, rest)) : ∃ gs, IsReadRest f gs ∧ l = groupBits gs ++ rest := by
  induction f generalizing result l with
  | zero => exact absurd rfl h0
  | succ f ih =>
    have hsh : 7 * (5 - (f + 1)) + 7 = 7 * (5 - f) := by omega
    simp only [vlqTake] at e
    rcases takeBits_cases 8 l with ⟨_, ht⟩ | ⟨xs, l', hl, hx, ht⟩
    · simp [ht] at e
    · obtain ⟨g, hg⟩ : ∃ g : Byte, g = BitVec.ofNat 8 (bitsValue xs) := ⟨_, rfl⟩
      have hxs : fieldBits g.toNat 8 = xs := by
        have hlt := bitsValue_lt xs
        have hfb := fieldBits_bitsValue xs
        rw [hx] at hlt hfb
        rw [hg, BitVec.toNat_ofNat, Nat.mod_eq_of_lt hlt, hfb]
      simp only [ht, ← hg, hsh] at e
      by_cases hs : vlqStop g (7 * (5 - f)) = true
      · simp only [hs, if_true, Option.some.injEq, Prod.mk.injEq] at e
        refine ⟨[g], isReadRest_single g ?_, by rw [hl, ← e.2, ← hxs]; simp [groupBits]⟩
        simp only [vlqStop, Bool.or_eq_true, Bool.not_eq_true', decide_eq_true_eq] at hs
        rcases hs with hs | hs
        · exact .inl hs
        · exact .inr (by omega)
      · simp only [hs, Bool.false_eq_true, if_false] at e
        simp only [vlqStop, Bool.or_eq_true, Bool.not_eq_true', decide_eq_true_eq, not_or, Bool.not_eq_false] at hs
        obtain ⟨gs, h1, h2⟩ := ih (by omega) (by omega) e
        exact ⟨g :: gs, isReadRest_cons hs.1 h1, by rw [hl, h2, ← hxs]; simp [groupBits]⟩

/-- Without a whole VLQ the header is cut (R175, R241). -/
theorem decodeHeader_cut {l : List Bool} (h : ¬ ∃ gs rest, IsReadVlq gs ∧ l = groupBits gs ++ rest) :
    decodeHeader l = .error .headerCut := by
  unfold decodeHeader
  split
  · rfl
  · rename_i v rest e
    obtain ⟨gs, h1, h2⟩ := vlqTake_some (f := 5) (by decide) (by decide) e
    exact absurd ⟨gs, rest, h1, h2⟩ h

/-- Everything fetching the header can do, when it has not been read group by group (R243, R258). -/
theorem fetchHeader_cases {s : State} {bs : BitStream} {b : Buffer} (hv : s.vlq.stopped = false) (h : s.Live .R bs b)
    (hi : bs.Inv b) :
    (∃ gs bs', fetchHeader s = .ok (s.putStream (some bs')) (.hdr (vlqValue 0#32 0 gs)) ∧ IsReadVlq gs ∧
      unreadBits bs b = groupBits gs ++ unreadBits bs' b ∧
      bs'.buf = bs.buf ∧ bs'.dir = .R ∧ bs'.dead = false ∧ bs'.Inv b) ∨
    (∃ bs', fetchHeader s = .raised .bufferOutOfBounds (s.putStream (some bs')) ∧
      ¬ ∃ gs rest, IsReadVlq gs ∧ unreadBits bs b = groupBits gs ++ rest) := by
  rcases pullGroups_cases 5 (Nat.le_refl 5) bs b hi h.2.1 h.2.2.1 (by decide) with
    ⟨gs, bs', e, hg, hu, h1, h2, h3, h4, _⟩ | ⟨bs', e, _, _, _, _, hno⟩
  · refine .inl ⟨gs, bs', ?_, hg, hu, h1, h2, h3, h4⟩
    have hd := decodeHeader_groups hg []
    rw [List.append_nil] at hd
    simp only [fetchHeader, hv, Bool.false_eq_true, if_false]
    rw [readStream_ok h (f := pullGroups 5 0) e]
    simp only [Res.bind_ok, decoded, hd]
  · refine .inr ⟨bs', ?_, hno⟩
    simp only [fetchHeader, hv, Bool.false_eq_true, if_false]
    rw [readStream_raised h (f := pullGroups 5 0) e]
    rfl

/-! ### A step inside a call -/

/-- A unit that cannot be fetched ends the call with its error (R256, R290). -/
theorem step_raised_of {s t : State} {k : Status} (hp : s.phase ≠ .idle) (h : nextUnit s = .raised k t) :
    step s = .next (takeError k t) := by
  simp only [step, if_neg hp, stepUnit, h]

/-- The step of a unit that is fetched or chosen: its execution, then the next place. -/
theorem step_unit_of {s t : State} {i : Instr} (hp : s.phase ≠ .idle) (h : nextUnit s = .ok t i) :
    step s = thenPlace (exec i t) := by
  simp only [step, if_neg hp, stepUnit, h]
  rfl

/-! ### Tokens and their encodings -/

theorem decodeToken_literalBits (c : Cfg) (b : Byte) (rest : List Bool) :
    decodeToken c (literalBits b ++ rest) = .ok (.literal b, rest) := by
  simp only [literalBits, List.cons_append, decodeToken, takeBits_fieldBits, byte_of_fieldBits]

theorem decodeToken_pairBits {c : Cfg} {o l : Nat} (ho : o < 2 ^ c.offsetBits) (hl : l < 2 ^ c.lengthBits)
    (rest : List Bool) :
    decodeToken c (pairBits c.offsetBits c.lengthBits o l ++ rest) = .ok (mkPair c o l, rest) := by
  simp only [pairBits, List.cons_append, List.append_assoc, decodeToken, takeBits_fieldBits, bitsValue_fieldBits,
    Nat.mod_eq_of_lt ho, Nat.mod_eq_of_lt hl]

/-- A well-formed token at the head of the unread bits is the one decoded (R104 to R107). -/
theorem decodeToken_encoded {c : Cfg} {i : Instr} {bits : List Bool} (hs : i.slot = .token) (hw : i.WellFormed c = true)
    (he : encode c i = .stream bits) (rest : List Bool) : decodeToken c (bits ++ rest) = .ok (i, rest) := by
  cases i <;> simp only [Instr.slot, reduceCtorEq] at hs
  · cases he; exact decodeToken_literalBits c _ rest
  · rename_i o l
    cases he
    simp only [Instr.WellFormed, Bool.and_eq_true, decide_eq_true_eq, Bool.not_eq_true'] at hw
    rw [decodeToken_pairBits hw.1.2 hw.2]
    simp [mkPair, hw.1.1]
  · rename_i o l
    cases he
    have hd : c.offsetBits = 10 ∧ c.lengthBits = 6 := by simpa [Instr.WellFormed, Cfg.DemoWidths] using hw
    have := decodeToken_pairBits (c := c) (o := o.toNat) (l := l.toNat) (by rw [hd.1]; exact o.isLt)
      (by rw [hd.2]; exact l.isLt) rest
    rw [hd.1, hd.2] at this
    rw [this]
    have hw' : c.DemoWidths = true := hw
    simp [mkPair, hw']

end Sys2Proof.Machine
end

