-- ==== Sys2Proof/Laws/DecodeLoop.lean ====
section
/-! SUPPORT. The decoder's scan over a token stream: executing the machine's tokens on OUT is expanding them on a list of bytes
(R243, R246, R248, R250). -/

namespace Sys2Proof.Machine

/-! ### The reference meaning of tokens -/

theorem copyBack_length (offset n : Nat) (out : List Byte) : (copyBack offset n out).length = out.length + n := by
  induction n generalizing out with
  | zero => rfl
  | succ n ih => simp [copyBack, ih]; omega

theorem copyBack_prefix (offset n : Nat) (out : List Byte) : out <+: copyBack offset n out := by
  induction n generalizing out with
  | zero => exact List.prefix_refl _
  | succ n ih => exact List.IsPrefix.trans (List.prefix_append _ _) (ih _)

theorem getD_append_left {l m : List Byte} {j : Nat} (h : j < l.length) : (l ++ m).getD j 0#8 = l.getD j 0#8 := by
  simp [List.getD_eq_getElem?_getD, List.getElem?_append_left h]

theorem getD_append_last (l : List Byte) (x : Byte) : (l ++ [x]).getD l.length 0#8 = x := by
  simp [List.getD_eq_getElem?_getD]

/-- Byte `k` of a copy is byte `k mod offset` of the `offset` bytes before it (R250). -/
theorem copyBack_getD {offset n : Nat} {out : List Byte} (h1 : 1 ≤ offset) (h2 : offset ≤ out.length) :
    (∀ j, j < out.length → (copyBack offset n out).getD j 0#8 = out.getD j 0#8) ∧
    ∀ k, k < n → (copyBack offset n out).getD (out.length + k) 0#8 = out.getD (out.length - offset + k % offset) 0#8 := by
  induction n generalizing out with
  | zero => exact ⟨fun _ _ => rfl, fun k hk => absurd hk (Nat.not_lt_zero k)⟩
  | succ n ih =>
    obtain ⟨x, hx⟩ : ∃ x, x = out.getD (out.length - offset) 0#8 := ⟨_, rfl⟩
    have hl : (out ++ [x]).length = out.length + 1 := by simp
    obtain ⟨i1, i2⟩ := ih (out := out ++ [x]) (by rw [hl]; omega)
    rw [hl] at i1 i2
    simp only [copyBack, ← hx]
    refine ⟨fun j hj => by rw [i1 j (by omega), getD_append_left hj], fun k hk => ?_⟩
    cases k with
    | zero =>
      simp only [Nat.add_zero, Nat.zero_mod]
      rw [i1 _ (by omega), getD_append_last, hx]
    | succ k =>
      rw [show out.length + (k + 1) = out.length + 1 + k by omega, i2 k (by omega)]
      have hm : k % offset < offset := Nat.mod_lt _ h1
      by_cases hlast : k % offset = offset - 1
      · have h0 : (k + 1) % offset = 0 := by
          rw [Nat.add_mod, hlast]
          by_cases ho1 : offset = 1
          · subst ho1; simp
          · rw [Nat.mod_eq_of_lt (show 1 < offset by omega), Nat.sub_add_cancel h1, Nat.mod_self]
        rw [h0, hlast, show out.length + 1 - offset + (offset - 1) = out.length by omega, getD_append_last, hx,
          Nat.add_zero]
      · have h0 : (k + 1) % offset = k % offset + 1 := by
          rw [Nat.add_mod, Nat.mod_eq_of_lt (show 1 < offset by omega), Nat.mod_eq_of_lt (by omega)]
        rw [h0, getD_append_left (by omega),
          show out.length + 1 - offset + k % offset = out.length - offset + (k % offset + 1) by omega]

theorem expandToken_prefix {out out' : List Byte} {i : Instr} (h : expandToken out i = some out') : out <+: out' := by
  cases i <;> simp only [expandToken, reduceCtorEq, Option.some.injEq] at h
  · subst h; exact List.prefix_append _ _
  · split at h
    · cases h; exact copyBack_prefix _ _ _
    · cases h
  · split at h
    · cases h; exact copyBack_prefix _ _ _
    · cases h

theorem expandTokens_prefix {toks : List Instr} {out out' : List Byte} (h : expandTokens out toks = some out') :
    out <+: out' := by
  induction toks generalizing out with
  | nil => cases h; exact List.prefix_refl _
  | cons i toks ih =>
    simp only [expandTokens] at h
    cases e : expandToken out i with
    | none => rw [e] at h; cases h
    | some out1 => rw [e] at h; exact (expandToken_prefix e).trans (ih h)

/-- Only tokens expand. -/
theorem expandToken_slot {out out' : List Byte} {i : Instr} (h : expandToken out i = some out') : i.slot = .token := by
  cases i <;> simp only [expandToken, reduceCtorEq] at h <;> rfl

/-! ### One token -/

/-- OUT holds the bytes rebuilt so far. -/
def Rebuilt (b : Buffer) (out : List Byte) : Prop := ∀ j, j < out.length → b.byteAt j = out.getD j 0#8

theorem rebuilt_copy {offset length : Nat} {out : List Byte} {bo : Buffer} (h : length = 0 ∨ (1 ≤ offset ∧ offset ≤ out.length))
    (hr : Rebuilt bo out) (hc : out.length + length ≤ bo.capacity) :
    (copyForward offset length out.length bo).2 = true ∧
    Rebuilt (copyForward offset length out.length bo).1 (copyBack offset length out) := by
  rcases h with rfl | ⟨h1, h2⟩
  · exact ⟨rfl, hr⟩
  · obtain ⟨c1, c2, c3⟩ := copyForward_inside h1 h2 hc
    obtain ⟨d1, d2⟩ := copyBack_getD (n := length) h1 h2
    refine ⟨c1, fun j hj => ?_⟩
    rw [copyBack_length] at hj
    by_cases hjl : j < out.length
    · rw [c3 j (by omega), d1 j hjl, hr j hjl]
    · obtain ⟨k, rfl⟩ : ∃ k, j = out.length + k := ⟨j - out.length, by omega⟩
      have hm : k % offset < offset := Nat.mod_lt _ h1
      rw [c2 k (by omega), d2 k (by omega), hr _ (by omega)]

/-- A token executed by the decoder does to OUT what it does to the bytes rebuilt so far. -/
theorem runUnit_expand {s : State} {bs : BitStream} {b bo : Buffer} {o : BufId} {i : Instr} {out out' : List Byte}
    (h : s.Live .R bs b) (h1 : s.outBuf = some o) (h2 : s.buf? o = some bo) (hi : s.index = out.length)
    (hr : Rebuilt bo out) (he : expandToken out i = some out') (hc : out'.length ≤ bo.capacity) :
    ∃ bo', runUnit i s = .ok { s.putBuf o bo' with index := out'.length } () ∧ bo'.capacity = bo.capacity ∧
      bo'.length = bo.length ∧ Rebuilt bo' out' := by
  have pair : ∀ offset length, (length = 0 ∨ (1 ≤ offset ∧ offset ≤ out.length)) → out' = copyBack offset length out →
      ∃ bo', readPair offset length s = .ok { s.putBuf o bo' with index := out'.length } () ∧ bo'.capacity = bo.capacity ∧
        bo'.length = bo.length ∧ Rebuilt bo' out' := by
    rintro offset length hcond rfl
    rw [copyBack_length] at hc
    obtain ⟨r1, r2⟩ := rebuilt_copy hcond hr hc
    obtain ⟨k1, k2, _⟩ := copyForward_keeps offset length out.length bo
    refine ⟨(copyForward offset length out.length bo).1, ?_, k1, k2, r2⟩
    rw [readPair_eq h1 h2, hi, if_pos r1, copyBack_length]
  cases i <;> simp only [expandToken, reduceCtorEq, Option.some.injEq] at he
  · rename_i byte
    subst he
    simp only [List.length_append, List.length_singleton] at hc ⊢
    refine ⟨{ bo with cells := cellPut bo.cells out.length byte }, ?_, rfl, rfl, fun j hj => ?_⟩
    · simp only [runUnit, runLiteral, byDirection_read h, readLiteral_inside h1 h2 byte (by omega), hi]
    · rcases bo.memWrite_cases out.length byte with ⟨hle, _⟩ | ⟨_, hw⟩
      · omega
      · obtain ⟨_, _, _, _, hv, ho⟩ := Buffer.memWrite_some hw
        simp only [List.length_append, List.length_singleton] at hj
        by_cases hjl : j = out.length
        · rw [hjl, hv, getD_append_last]
        · rw [ho j hjl, getD_append_left (by omega), hr j (by omega)]
  · rename_i offset length
    split at he
    · rename_i hcond
      cases he
      simpa only [runUnit, runPair, byDirection_read h] using pair offset length hcond rfl
    · cases he
  · rename_i offset length
    split at he
    · rename_i hcond
      cases he
      simpa only [runUnit, runPairDemo, byDirection_read h] using pair offset.toNat length.toNat hcond rfl
    · cases he

/-! ### The scan -/

theorem unitBits_cons {c : Cfg} {i : Instr} {bits : List Bool} (he : encode c i = .stream bits) (rest : List Instr) :
    unitBits c (i :: rest) = bits ++ unitBits c rest := by simp only [unitBits, he]

theorem token_encoding {i : Instr} (h : i.slot = .token) (c : Cfg) : ∃ bits, encode c i = .stream bits := by
  cases i <;> simp only [Instr.slot, reduceCtorEq] at h <;> exact ⟨_, rfl⟩

/-- The scan over a stream that starts with well-formed tokens rebuilds the bytes they stand for (R243, R246). -/
theorem scanDecode_expand (f : Nat) (toks : List Instr) {s : State} {c : Cfg} {bs : BitStream} {b bo : Buffer} {o : BufId}
    {out out' : List Byte} {rest : List Bool} (hc : s.cfg = some c) (h : s.Live .R bs b) (hi : bs.Inv b)
    (h1 : s.outBuf = some o) (h2 : s.buf? o = some bo) (hne : bs.buf ≠ o) (hx : s.index = out.length)
    (hd : s.declared.toNat = out'.length) (hcap : bo.capacity = out'.length) (hr : Rebuilt bo out)
    (hw : ∀ i ∈ toks, i.WellFormed c = true) (hu : unreadBits bs b = unitBits c toks ++ rest)
    (he : expandTokens out toks = some out') (hf : (unreadBits bs b).length < f) :
    ∃ bs' bo',
      scanDecode f s = .ok { (s.putBuf o bo').putStream (some bs') with index := out'.length } () ∧
      bo'.capacity = bo.capacity ∧ bo'.length = bo.length ∧ Rebuilt bo' out' := by
  induction f generalizing toks s bs bo out with
  | zero => omega
  | succ f ih =>
    by_cases hdone : s.index = s.declared.toNat
    · have hpre := expandTokens_prefix he
      have heq : out = out' := hpre.eq_of_length (by omega)
      subst heq
      refine ⟨bs, bo, ?_, rfl, rfl, hr⟩
      simp only [scanDecode, if_pos hdone, putBuf_self h2]
      have hb := h.1
      cases s
      simp only [State.putStream] at hb hx ⊢
      subst hb hx
      rfl
    · cases toks with
      | nil =>
        simp only [expandTokens, Option.some.injEq] at he
        subst he
        omega
      | cons i toks =>
        simp only [expandTokens] at he
        cases e1 : expandToken out i with
        | none => rw [e1] at he; cases he
        | some out1 =>
          rw [e1] at he
          have hslot := expandToken_slot e1
          obtain ⟨bits, henc⟩ := token_encoding hslot c
          have hwi : i.WellFormed c = true := hw i (by simp)
          have hle : out1.length ≤ out'.length := (expandTokens_prefix he).length_le
          rw [unitBits_cons henc, List.append_assoc] at hu
          have hdec := decodeToken_encoded hslot hwi henc (unitBits c toks ++ rest)
          rcases fetchToken_cases hc h hi with ⟨i', bs1, ef, hd1, hlt, hb1, hdir1, hk1, hi1⟩ | ⟨er, bs1, _, hd1⟩
          · rw [hu, hdec] at hd1
            simp only [Except.ok.injEq, Prod.mk.injEq] at hd1
            obtain ⟨rfl, hu1⟩ := hd1
            have hlive : (s.putStream (some bs1)).Live .R bs1 b := live_putStream h hb1 hdir1 hk1
            obtain ⟨bo1, er, hc1, hl1, hr1⟩ := runUnit_expand hlive (o := o) (bo := bo) h1 h2 hx hr e1 (by omega)
            obtain ⟨t, ht⟩ : ∃ t : State, t = { (s.putStream (some bs1)).putBuf o bo1 with index := out1.length } := ⟨_, rfl⟩
            have hbuf : t.buf? o = some bo1 := by
              rw [ht]; exact State.buf?_putBuf_same (s := s.putStream (some bs1)) h2
            have hlive1 : t.Live .R bs1 b := by
              rw [ht]
              refine ⟨rfl, hk1, hdir1, ?_⟩
              show ((s.putStream (some bs1)).putBuf o bo1).buf? bs1.buf = some b
              rw [State.buf?_putBuf_other (by rw [hb1]; exact Ne.symm hne), State.buf?_putStream, hb1]
              exact h.2.2.2
            obtain ⟨bs', bo', es, hc', hl', hr'⟩ := ih toks (s := t) (bs := bs1) (bo := bo1) (out := out1)
              (by rw [ht]; exact hc) hlive1 hi1 (by rw [ht]; exact h1) hbuf (by rw [hb1]; exact hne) (by rw [ht])
              (by rw [ht]; exact hd) (hc1.trans hcap) hr1 (fun j hj => hw j (by simp [hj])) hu1.symm he (by omega)
            refine ⟨bs', bo', ?_, hc'.trans hc1, hl'.trans hl1, hr'⟩
            simp only [scanDecode, if_neg hdone, ef, Res.bind_ok, er]
            rw [← ht, es, ht]
            simp [State.putBuf, State.putStream]
          · rw [hu, hdec] at hd1
            cases hd1

theorem rebuilt_bytes {b : Buffer} {out : List Byte} (h : Rebuilt b out) (hl : b.length = out.length) : b.bytes = out := by
  refine List.ext_getElem (by simp [Buffer.bytes, hl]) fun j hj hj' => ?_
  simp only [Buffer.bytes, List.getElem_map, List.getElem_range]
  rw [h j hj', List.getD_eq_getElem?_getD, List.getElem?_eq_getElem hj']
  rfl

/-! ### The scan, whatever the stream -/

/-- What a token decodes to (R104). -/
theorem decodeToken_slot {c : Cfg} {l rest : List Bool} {i : Instr} (h : decodeToken c l = .ok (i, rest)) :
    (∃ byte, i = .literal byte) ∨ (∃ o n, i = .pair o n) ∨ ∃ o n, i = .pairDemo o n := by
  unfold decodeToken at h
  split at h
  · cases h
  · split at h
    · cases h
    · cases h; exact .inl ⟨_, rfl⟩
  · split at h
    · cases h
    · split at h
      · cases h
      · simp only [Except.ok.injEq, Prod.mk.injEq, mkPair] at h
        obtain ⟨h, _⟩ := h
        split at h <;> subst h
        · exact .inr (.inr ⟨_, _, rfl⟩)
        · exact .inr (.inl ⟨_, _, rfl⟩)

/-- Everything a token can do on the decoder's side: OUT and `index` change, or the call's error, OUT keeping its capacity (R248,
R250, R252, R253). -/
theorem runUnit_token_cases {s : State} {c : Cfg} {bs : BitStream} {b bo : Buffer} {o : BufId} {i : Instr} {l rest : List Bool}
    (h : s.Live .R bs b) (h1 : s.outBuf = some o) (h2 : s.buf? o = some bo) (hd : decodeToken c l = .ok (i, rest)) :
    ∃ bo' k, bo'.capacity = bo.capacity ∧
      (runUnit i s = .ok { s.putBuf o bo' with index := k } () ∨
        runUnit i s = .raised .bufferOutOfBounds (s.putBuf o bo')) := by
  have pair : ∀ offset length, ∃ bo' k, bo'.capacity = bo.capacity ∧
      (readPair offset length s = .ok { s.putBuf o bo' with index := k } () ∨
        readPair offset length s = .raised .bufferOutOfBounds (s.putBuf o bo')) := by
    intro offset length
    refine ⟨_, s.index + length, (copyForward_keeps offset length s.index bo).1, ?_⟩
    rw [readPair_eq h1 h2]
    split
    · exact .inl rfl
    · exact .inr rfl
  rcases decodeToken_slot hd with ⟨byte, rfl⟩ | ⟨p, n, rfl⟩ | ⟨p, n, rfl⟩
  · simp only [runUnit, runLiteral, byDirection_read h, readLiteral, withOutput_some h1 h2]
    cases hw : bo.memWrite s.index byte with
    | none => exact ⟨bo, 0, rfl, .inr (by rw [putBuf_self h2])⟩
    | some bo' => exact ⟨bo', s.index + 1, (Buffer.memWrite_some hw).2.1, .inl rfl⟩
  · simpa only [runUnit, runPair, byDirection_read h] using pair p n
  · simpa only [runUnit, runPairDemo, byDirection_read h] using pair p.toNat n.toNat

/-- Everything the decoder's scan can do: it ends, or the call's error; the budget is enough (R20, R246, R256). -/
theorem scanDecode_cases (f : Nat) {s : State} {c : Cfg} {bs : BitStream} {b bo : Buffer} {o : BufId}
    (hc : s.cfg = some c) (h : s.Live .R bs b) (hi : bs.Inv b) (h1 : s.outBuf = some o) (h2 : s.buf? o = some bo)
    (hne : bs.buf ≠ o) (hf : (unreadBits bs b).length < f) :
    ∃ bs' bo' k, bo'.capacity = bo.capacity ∧
      ((scanDecode f s = .ok { (s.putBuf o bo').putStream (some bs') with index := k } () ∧ k = s.declared.toNat) ∨
        scanDecode f s = .raised .bufferOutOfBounds { (s.putBuf o bo').putStream (some bs') with index := k }) := by
  induction f generalizing s bs bo with
  | zero => omega
  | succ f ih =>
    by_cases hdone : s.index = s.declared.toNat
    · refine ⟨bs, bo, s.index, rfl, .inl ⟨?_, hdone⟩⟩
      simp only [scanDecode, if_pos hdone, putBuf_self h2]
      have hb := h.1
      cases s
      simp only [State.putStream] at hb ⊢
      subst hb
      rfl
    · rcases fetchToken_cases hc h hi with ⟨i, bs1, ef, hd1, hlt, hb1, hdir1, hk1, hi1⟩ | ⟨er, bs1, ef, _⟩
      · have hlive : (s.putStream (some bs1)).Live .R bs1 b := live_putStream h hb1 hdir1 hk1
        obtain ⟨bo1, k1, hc1, er | er⟩ := runUnit_token_cases hlive (o := o) (bo := bo) h1 h2 hd1
        · obtain ⟨t, ht⟩ : ∃ t : State, t = { (s.putStream (some bs1)).putBuf o bo1 with index := k1 } := ⟨_, rfl⟩
          have hbuf : t.buf? o = some bo1 := by
            rw [ht]; exact State.buf?_putBuf_same (s := s.putStream (some bs1)) h2
          have hlive1 : t.Live .R bs1 b := by
            rw [ht]
            refine ⟨rfl, hk1, hdir1, ?_⟩
            show ((s.putStream (some bs1)).putBuf o bo1).buf? bs1.buf = some b
            rw [State.buf?_putBuf_other (by rw [hb1]; exact Ne.symm hne), State.buf?_putStream, hb1]
            exact h.2.2.2
          obtain ⟨bs', bo', k, hc', es⟩ := ih (s := t) (bs := bs1) (bo := bo1) (by rw [ht]; exact hc) hlive1 hi1
            (by rw [ht]; exact h1) hbuf (by rw [hb1]; exact hne) (by omega)
          refine ⟨bs', bo', k, hc'.trans hc1, ?_⟩
          simp only [scanDecode, if_neg hdone, ef, Res.bind_ok, er]
          rw [← ht]
          rcases es with ⟨es, hk⟩ | es
          · exact .inl ⟨by rw [es, ht]; simp [State.putBuf, State.putStream], by rw [hk, ht]; rfl⟩
          · exact .inr (by rw [es, ht]; simp [State.putBuf, State.putStream])
        · refine ⟨bs1, bo1, s.index, hc1, .inr ?_⟩
          simp only [scanDecode, if_neg hdone, ef, Res.bind_ok, er, Res.bind_raised]
          rfl
      · refine ⟨bs1, bo, s.index, rfl, .inr ?_⟩
        simp only [scanDecode, if_neg hdone, ef, Res.bind_raised, putBuf_self h2]
        rfl

end Sys2Proof.Machine
end

