-- ==== Sys2Proof/Laws/EncodeLoop.lean ====
section
/-! SUPPORT. The encoder's scan: the tokens it chooses, the bits it writes for them, how many they are, and that they stand for the
input's bytes (R213, R215 to R219, R225). -/

namespace Sys2Proof.Machine

/-! ### The chosen tokens -/

/-- Everything the encoder can choose at a position (R195, R216). -/
theorem found_pair {b : Buffer} {index : Nat} {c : Cfg} {free : Nat} (hm : 1 ≤ c.minimumLength)
    (h : c.minimumLength ≤ (findMatch b index c free).length) :
    1 ≤ (findMatch b index c free).offset ∧ (findMatch b index c free).offset ≤ index ∧
    (findMatch b index c free).offset < 2 ^ c.offsetBits ∧ (findMatch b index c free).length < 2 ^ c.lengthBits ∧
    index + (findMatch b index c free).length ≤ b.length ∧
    ∀ j, j < (findMatch b index c free).length →
      b.byteAt (index - (findMatch b index c free).offset + j) = b.byteAt (index + j) := by
  rcases findMatch_cases b index c free with ⟨e, _⟩ | ⟨cand, r, ⟨k1, k2, ⟨r1, r2, _⟩, _⟩, _, h0, e⟩
  · rw [e] at h; simp at h; omega
  · rw [e]; simp only
    have hmin : min r (2 ^ c.lengthBits - 1) ≤ r := Nat.min_le_left _ _
    have hmin2 : min r (2 ^ c.lengthBits - 1) ≤ 2 ^ c.lengthBits - 1 := Nat.min_le_right _ _
    have hp1 : 0 < 2 ^ c.offsetBits := Nat.two_pow_pos _
    have hp2 : 0 < 2 ^ c.lengthBits := Nat.two_pow_pos _
    refine ⟨by omega, by omega, by omega, by omega, by omega, fun j hj => ?_⟩
    rw [show index - (index - cand) + j = cand + j by omega]
    exact r2 j (by omega)

theorem mkPair_slot (c : Cfg) (o l : Nat) : (mkPair c o l).slot = .token := by
  unfold mkPair; split <;> rfl

/-- A pair within the Config's ranges is well formed, has the pair encoding, and advances the cursor by its length. -/
theorem mkPair_spec {c : Cfg} {o l : Nat} (ho : o < 2 ^ c.offsetBits) (hl : l < 2 ^ c.lengthBits) :
    (mkPair c o l).WellFormed c = true ∧ encode c (mkPair c o l) = .stream (pairBits c.offsetBits c.lengthBits o l) ∧
    (∀ index, indexAfter (mkPair c o l) index = index + l) ∧
    ∀ out, expandToken out (mkPair c o l) =
      if l = 0 ∨ (1 ≤ o ∧ o ≤ out.length) then some (copyBack o l out) else none := by
  unfold mkPair
  cases hd : c.DemoWidths with
  | false =>
    simp only [Bool.false_eq_true, if_false]
    exact ⟨by simp [Instr.WellFormed, hd, ho, hl], rfl, fun _ => rfl, fun _ => rfl⟩
  | true =>
    simp only [if_true]
    have hd' : c.offsetBits = 10 ∧ c.lengthBits = 6 := by simpa [Cfg.DemoWidths] using hd
    rw [hd'.1] at ho
    rw [hd'.2] at hl
    have e1 : (BitVec.ofNat 10 o).toNat = o := by simp; omega
    have e2 : (BitVec.ofNat 6 l).toNat = l := by simp; omega
    refine ⟨hd, ?_, fun index => ?_, fun out => ?_⟩
    · simp only [encode, e1, e2, hd'.1, hd'.2]
    · simp only [indexAfter, e2]
    · simp only [expandToken, e1, e2]

/-- The token chosen at a position, with `free` for the offset of a search without a match. -/
def chosen (b : Buffer) (c : Cfg) (free index : Nat) : Instr :=
  if c.minimumLength ≤ (findMatch b index c free).length then
    mkPair c (findMatch b index c free).offset (findMatch b index c free).length
  else .literal (b.byteAt index)

/-- How far the chosen token advances the cursor. -/
def chosenLength (b : Buffer) (c : Cfg) (free index : Nat) : Nat :=
  if c.minimumLength ≤ (findMatch b index c free).length then (findMatch b index c free).length else 1

theorem greedyTokens_step {b : Buffer} {c : Cfg} {free f index : Nat} (h : index < b.length) :
    greedyTokens b c free (f + 1) index =
      chosen b c free index :: greedyTokens b c free f (index + chosenLength b c free index) := by
  simp only [greedyTokens, if_pos h, chosen, chosenLength]
  split <;> rfl

theorem greedyTokens_end {b : Buffer} {c : Cfg} {free index : Nat} (f : Nat) (h : b.length ≤ index) :
    greedyTokens b c free f index = [] := by
  cases f with
  | zero => rfl
  | succ f => simp only [greedyTokens, if_neg (Nat.not_lt.mpr h)]

/-- The choice does not depend on the free offset. -/
theorem chosen_free {b : Buffer} {c : Cfg} {index : Nat} (hm : 1 ≤ c.minimumLength) (f g : Nat) :
    chosen b c f index = chosen b c g index ∧ chosenLength b c f index = chosenLength b c g index := by
  obtain ⟨h1, h2⟩ := findMatch_free b index c f g
  unfold chosen chosenLength
  by_cases h : c.minimumLength ≤ (findMatch b index c f).length
  · have e := h2 (by omega)
    rw [e] at h ⊢
    simp
  · rw [if_neg h, if_neg (h1 ▸ h), if_neg h, if_neg (h1 ▸ h)]
    exact ⟨rfl, rfl⟩

/-- What a chosen token is (R195, R216 to R219). -/
theorem chosen_spec {b : Buffer} {c : Cfg} {free index : Nat} (hm : 1 ≤ c.minimumLength) (h : index < b.length) :
    (chosen b c free index).slot = .token ∧ (chosen b c free index).WellFormed c = true ∧
    (∀ k, indexAfter (chosen b c free index) k = k + chosenLength b c free index) ∧
    1 ≤ chosenLength b c free index ∧ index + chosenLength b c free index ≤ b.length ∧
    (∃ bits, encode c (chosen b c free index) = .stream bits ∧
      (1 + c.offsetBits + c.lengthBits ≤ 9 * c.minimumLength → bits.length ≤ 9 * chosenLength b c free index)) ∧
    expandToken ((List.range index).map b.byteAt) (chosen b c free index) =
      some ((List.range (index + chosenLength b c free index)).map b.byteAt) := by
  have hcopy : ∀ (off n idx : Nat), 1 ≤ off → off ≤ idx → (∀ j, j < n → b.byteAt (idx - off + j) = b.byteAt (idx + j)) →
      copyBack off n ((List.range idx).map b.byteAt) = (List.range (idx + n)).map b.byteAt := by
    intro off n
    induction n with
    | zero => intro idx _ _ _; rfl
    | succ n ih =>
      intro idx h1 h2 h3
      have hget : ((List.range idx).map b.byteAt).getD (idx - off) 0#8 = b.byteAt idx := by
        have h0 := h3 0 (by omega)
        simp only [Nat.add_zero] at h0
        rw [← h0]
        have hlt : idx - off < idx := by omega
        simp [List.getD_eq_getElem?_getD, hlt]
      have hstep : (List.range idx).map b.byteAt ++ [b.byteAt idx] = (List.range (idx + 1)).map b.byteAt := by
        rw [List.range_succ]; simp
      simp only [copyBack, List.length_map, List.length_range, hget, hstep]
      rw [ih (idx + 1) h1 (by omega) fun j hj => ?_, show idx + 1 + n = idx + (n + 1) by omega]
      have := h3 (j + 1) (by omega)
      rwa [show idx + 1 - off + j = idx - off + (j + 1) by omega, show idx + 1 + j = idx + (j + 1) by omega]
  unfold chosen chosenLength
  by_cases hp : c.minimumLength ≤ (findMatch b index c free).length
  · simp only [if_pos hp]
    obtain ⟨p1, p2, p3, p4, p5, p6⟩ := found_pair hm hp
    obtain ⟨m1, m2, m3, m4⟩ := mkPair_spec p3 p4
    refine ⟨mkPair_slot _ _ _, m1, m3, by omega, p5, ⟨_, m2, fun hb => ?_⟩, ?_⟩
    · simp only [pairBits, List.length_cons, List.length_append, fieldBits_length]
      have := Nat.mul_le_mul_left 9 hp
      omega
    · rw [m4, if_pos (.inr ⟨p1, by simpa using p2⟩), hcopy _ _ _ p1 p2 p6]
  · simp only [if_neg hp]
    refine ⟨rfl, rfl, fun _ => rfl, Nat.le_refl _, h, ⟨_, rfl, fun _ => by simp [literalBits]⟩, ?_⟩
    simp only [expandToken]
    rw [List.range_succ]
    simp

/-- The greedy tokens are well formed, are not too many bits, and stand for the input's bytes (R213, R225). -/
theorem greedyTokens_spec (f : Nat) {b : Buffer} {c : Cfg} {free index : Nat} (hm : 1 ≤ c.minimumLength)
    (hi : index ≤ b.length) (hf : b.length ≤ index + f) :
    (∀ i ∈ greedyTokens b c free f index, i.WellFormed c = true) ∧
    (1 + c.offsetBits + c.lengthBits ≤ 9 * c.minimumLength →
      (unitBits c (greedyTokens b c free f index)).length ≤ 9 * (b.length - index)) ∧
    expandTokens ((List.range index).map b.byteAt) (greedyTokens b c free f index) = some b.bytes := by
  induction f generalizing index with
  | zero =>
    obtain rfl : index = b.length := by omega
    exact ⟨by simp [greedyTokens], fun _ => by simp [greedyTokens, unitBits], rfl⟩
  | succ f ih =>
    by_cases hlt : index < b.length
    · obtain ⟨_, s2, _, s4, s5, ⟨bits, s6, s7⟩, s8⟩ := chosen_spec (free := free) hm hlt
      obtain ⟨i1, i2, i3⟩ := ih (index := index + chosenLength b c free index) s5 (by omega)
      rw [greedyTokens_step hlt]
      refine ⟨?_, fun hb => ?_, ?_⟩
      · intro i hi'
        rcases List.mem_cons.mp hi' with rfl | h
        · exact s2
        · exact i1 i h
      · rw [unitBits_cons s6, List.length_append]
        have := s7 hb
        have := i2 hb
        omega
      · simp only [expandTokens, s8, i3]
    · obtain rfl : index = b.length := by omega
      rw [greedyTokens_end _ (Nat.le_refl _)]
      exact ⟨by simp, fun _ => by simp [unitBits], rfl⟩

/-- Enough fuel is enough. -/
theorem greedyTokens_fuel {b : Buffer} {c : Cfg} {free : Nat} (hm : 1 ≤ c.minimumLength) (f g : Nat) {index : Nat}
    (hf : b.length ≤ index + f) (hg : b.length ≤ index + g) (hi : index ≤ b.length) :
    greedyTokens b c free f index = greedyTokens b c free g index := by
  induction f generalizing g index with
  | zero => rw [greedyTokens_end 0 (by omega), greedyTokens_end g (by omega)]
  | succ f ih =>
    by_cases hl : index < b.length
    · obtain ⟨g', rfl⟩ : ∃ g', g = g' + 1 := ⟨g - 1, by omega⟩
      obtain ⟨_, _, _, h1, h2, _, _⟩ := chosen_spec (c := c) (free := free) hm hl
      rw [greedyTokens_step hl, greedyTokens_step hl, ih g' (by omega) (by omega) h2]
    · rw [greedyTokens_end _ (by omega), greedyTokens_end _ (by omega)]

/-! ### The scan -/

/-- One round of the scan is the chosen token's bits appended, or the round raises `BufferOutOfBounds` for want of room. -/
theorem chooseToken_run {s : State} {c : Cfg} {bs : BitStream} {o b : Buffer} {i : BufId} (free : Nat)
    (hc : s.cfg = some c) (hm : 1 ≤ c.minimumLength) (h : s.Live .W bs o) (hin : s.inBuf = some i) (hb : s.buf? i = some b)
    (hcap : b.length ≤ b.capacity) (hx : s.index < b.length) :
    ∃ m bits, encode c (chosen b c free s.index) = .stream bits ∧
      (chooseToken s).bind (fun t j => runUnit j t) =
        (writeStream { s with mtch := m, draws := s.draws + 1 } fun bs b => pushBits bs b bits).bind fun t _ =>
          .ok { t with index := t.index + chosenLength b c free s.index } () := by
  obtain ⟨s1, _, s3, _, _, ⟨bits, s6, _⟩, _⟩ := chosen_spec (c := c) (free := free) hm hx
  obtain ⟨e1, _⟩ := chosen_free (b := b) (c := c) (index := s.index) hm free (Config.freeOffset s.draws).toNat
  refine ⟨findMatch b s.index c (Config.freeOffset s.draws).toNat, bits, s6, ?_⟩
  have hch : chooseToken s = .ok (searchAt b s.index c s) (chosen b c free s.index) := by
    rw [e1]
    simp only [chooseToken, withCallConfig, hc, withInput, hin, withBuffer, hb, searchAt, chosen]
    split
    · rfl
    · rw [Buffer.memRead_nat, if_pos (by omega)]
  rw [hch, Res.bind_ok, runUnit_write (s := searchAt b s.index c s) h hc (by rw [s1]; decide) s6]
  simp only [s3]
  rfl

/-- The whole scan is the greedy tokens' bits appended, or it raises `BufferOutOfBounds` for want of room (R215, R219, R221). -/
theorem scanEncode_writes (f free : Nat) {s : State} {c : Cfg} {bs : BitStream} {o b : Buffer} {i : BufId}
    (hc : s.cfg = some c) (hm : 1 ≤ c.minimumLength) (h : s.Live .W bs o) (hin : s.inBuf = some i) (hb : s.buf? i = some b)
    (hcap : b.length ≤ b.capacity) (hne : bs.buf ≠ i) (hx : s.index ≤ b.length) (hf : b.length < s.index + f)
    (hi : bs.Inv o) :
    ∃ m d,
      match pushBits bs o (unitBits c (greedyTokens b c free (b.length - s.index) s.index)) with
      | .ok bs' o' =>
        scanEncode f s =
          .ok { (s.putBuf bs.buf o').putStream (some bs') with index := b.length, mtch := m, draws := d } ()
      | .raised bs' o' =>
        ∃ k, scanEncode f s =
          .raised .bufferOutOfBounds
            { (s.putBuf bs.buf o').putStream (some bs') with index := k, mtch := m, draws := d } := by
  induction f generalizing s bs o with
  | zero => omega
  | succ f ih =>
    have hlen : s.inputLength = b.length := by simp [State.inputLength, hin, hb]
    by_cases hlt : s.index < b.length
    · obtain ⟨m, bits, henc, hrun⟩ := chooseToken_run free hc hm h hin hb hcap hlt
      obtain ⟨_, _, _, s4, s5, _, _⟩ := chosen_spec (c := c) (free := free) hm hlt
      obtain ⟨k, hk⟩ : ∃ k, b.length - s.index = k + 1 := ⟨b.length - s.index - 1, by omega⟩
      rw [hk, greedyTokens_step hlt, unitBits_cons henc, pushBits_append]
      simp only [scanEncode, hlen, if_pos hlt, hrun]
      cases e1 : pushBits bs o bits with
      | raised bs1 o1 =>
        refine ⟨m, s.draws + 1, s.index, ?_⟩
        rw [writeStream_raised (s := { s with mtch := m, draws := s.draws + 1 }) h (f := fun bs b => pushBits bs b bits) e1]
        rfl
      | ok bs1 o1 =>
        rw [writeStream_ok (s := { s with mtch := m, draws := s.draws + 1 }) h (f := fun bs b => pushBits bs b bits) e1]
        simp only [Res.bind_ok]
        obtain ⟨t, ht⟩ : ∃ t : State, t =
            { (({ s with mtch := m, draws := s.draws + 1 } : State).putBuf bs.buf o1).putStream (some bs1) with
              index := s.index + chosenLength b c free s.index } := ⟨_, rfl⟩
        have hroom : bs.position + (bs.bitCount + bits.length) / 8 ≤ o.capacity := by
          by_contra hno
          obtain ⟨_, _, e2, _⟩ := pushBits_noRoom (xs := bits) hi h.2.1 h.2.2.1 (by omega)
          rw [e1] at e2; cases e2
        obtain ⟨bs2, o2, e2, _, hb2, hd2, hk2, hi2, _⟩ := pushBits_room (xs := bits) hi h.2.1 h.2.2.1 hroom
        rw [e1] at e2
        cases e2
        have hbuf1 : t.buf? bs1.buf = some o1 := by
          rw [ht, hb2]
          exact State.buf?_putBuf_same (s := { s with mtch := m, draws := s.draws + 1 }) h.2.2.2
        have hbufi : t.buf? i = some b := by
          rw [ht]
          exact (State.buf?_putBuf_other (s := { s with mtch := m, draws := s.draws + 1 }) hne).trans hb
        obtain ⟨m', d, hrec⟩ := ih (s := t) (bs := bs1) (o := o1) (by rw [ht]; exact hc) ⟨by rw [ht]; rfl, hk2, hd2, hbuf1⟩
          (by rw [ht]; exact hin) hbufi (by rw [hb2]; exact hne) (by rw [ht]; exact s5) (by rw [ht]; dsimp only; omega) hi2
        have htx : t.index = s.index + chosenLength b c free s.index := by rw [ht]
        rw [htx, greedyTokens_fuel hm (b.length - (s.index + chosenLength b c free s.index)) k (by omega) (by omega) s5] at hrec
        refine ⟨m', d, ?_⟩
        cases e3 : pushBits bs1 o1 (unitBits c (greedyTokens b c free k (s.index + chosenLength b c free s.index))) with
        | ok bs3 o3 =>
          rw [e3] at hrec
          simp only at hrec ⊢
          rw [show ({ (({ s with mtch := m, draws := s.draws + 1 } : State).putBuf bs.buf o1).putStream (some bs1) with
              index := ((({ s with mtch := m, draws := s.draws + 1 } : State).putBuf bs.buf o1).putStream (some bs1)).index +
                chosenLength b c free s.index } : State) = t from by rw [ht]; rfl, hrec, ht, hb2]
          simp [State.putBuf, State.putStream]
        | raised bs3 o3 =>
          rw [e3] at hrec
          obtain ⟨k', hrec⟩ := hrec
          refine ⟨k', ?_⟩
          rw [show ({ (({ s with mtch := m, draws := s.draws + 1 } : State).putBuf bs.buf o1).putStream (some bs1) with
              index := ((({ s with mtch := m, draws := s.draws + 1 } : State).putBuf bs.buf o1).putStream (some bs1)).index +
                chosenLength b c free s.index } : State) = t from by rw [ht]; rfl, hrec, ht, hb2]
          simp [State.putBuf, State.putStream]
    · have hxe : s.index = b.length := by omega
      rw [greedyTokens_end _ (by omega)]
      refine ⟨s.mtch, s.draws, ?_⟩
      simp only [unitBits, pushBits, scanEncode, hlen, if_neg hlt, putBuf_self h.2.2.2]
      have hbs := h.1
      cases s
      simp only [State.putStream] at hbs hxe ⊢
      subst hbs hxe
      rfl

/-! ### The whole of `encode` after its opening -/

/-- The bits of a compressed buffer before the padding (R100). -/
def codedBits (b : Buffer) (c : Cfg) (free : Nat) : List Bool :=
  vlqBits (BitVec.ofNat 32 b.length) ++ unitBits c (greedyTokens b c free b.length 0)

/-- Steps 3 to 6 of `encode`: all the bits appended and flushed, or `BufferOutOfBounds` (R215, R220, R221). -/
theorem bodyEncode_writes (free : Nat) {s : State} {c : Cfg} {bs : BitStream} {o b : Buffer} {i : BufId}
    (hc : s.cfg = some c) (hm : 1 ≤ c.minimumLength) (h : s.Live .W bs o) (hin : s.inBuf = some i) (hb : s.buf? i = some b)
    (hcap : b.length ≤ b.capacity) (hne : bs.buf ≠ i) (hi : bs.Inv o) :
    (∃ m d bs1 o1 bs2 o2, pushBits bs o (codedBits b c free) = .ok bs1 o1 ∧ flushBits bs1 o1 = .ok bs2 o2 ∧
      bodyEncode s =
        .ok { (s.putBuf bs.buf { o2 with length := bs2.position }).putStream (some bs2) with
          index := b.length, mtch := m, draws := d } ()) ∨
    (∃ m d k bs' o', o'.capacity = o.capacity ∧
      ((∃ bs1 o1, pushBits bs o (codedBits b c free) = .raised bs1 o1) ∨
        ∃ bs1 o1 bs2 o2, pushBits bs o (codedBits b c free) = .ok bs1 o1 ∧ flushBits bs1 o1 = .raised bs2 o2) ∧
      bodyEncode s =
        .raised .bufferOutOfBounds
          { (s.putBuf bs.buf o').putStream (some bs') with index := k, mtch := m, draws := d }) := by
  have hhead : chooseHeader s = .ok s (.hdr (BitVec.ofNat 32 b.length)) := by
    simp only [chooseHeader, withInput, hin, withBuffer, hb]
  have hrun : runUnit (.hdr (BitVec.ofNat 32 b.length)) s = writeHdr (BitVec.ofNat 32 b.length) s := by
    simp only [runUnit, runHdr, byDirection_write h]
  simp only [codedBits, pushBits_append]
  by_cases hroom : bs.position + (bs.bitCount + (vlqBits (BitVec.ofNat 32 b.length)).length) / 8 ≤ o.capacity
  · obtain ⟨bs1, o1, e1, _, hb1, hd1, hk1, hi1, _, _, hc1, _⟩ := pushBits_room hi h.2.1 h.2.2.1 hroom
    obtain ⟨t, ht⟩ : ∃ t : State, t = { (s.putBuf bs.buf o1).putStream (some bs1) with index := 0 } := ⟨_, rfl⟩
    have hw : writeHdr (BitVec.ofNat 32 b.length) s = .ok t () := by
      rw [writeHdr, writeStream_ok h (f := fun bs b => pushBits bs b (vlqBits (BitVec.ofNat 32 _))) e1, ht]; rfl
    have hto : t.buf? bs1.buf = some o1 := by rw [ht, hb1]; exact State.buf?_putBuf_same h.2.2.2
    have hti : t.buf? i = some b := by rw [ht]; exact (State.buf?_putBuf_other hne).trans hb
    have htl : t.inputLength = b.length := by
      have : t.inBuf = some i := by rw [ht]; exact hin
      simp [State.inputLength, this, hti]
    have hti0 : t.index = 0 := by rw [ht]
    obtain ⟨m, d, hs⟩ := scanEncode_writes (b.length + 1) free (s := t) (c := c) (bs := bs1) (o := o1) (b := b) (i := i)
      (by rw [ht]; exact hc) hm ⟨by rw [ht]; rfl, hk1, hd1, hto⟩ (by rw [ht]; exact hin) hti hcap (by rw [hb1]; exact hne)
      (by omega) (by omega) hi1
    rw [hti0, Nat.sub_zero] at hs
    simp only [e1]
    cases e2 : pushBits bs1 o1 (unitBits c (greedyTokens b c free b.length 0)) with
    | raised bs2 o2 =>
      rw [e2] at hs
      obtain ⟨k, hs⟩ := hs
      have hno : ¬ bs1.position + (bs1.bitCount + (unitBits c (greedyTokens b c free b.length 0)).length) / 8 ≤ o1.capacity := by
        intro hr
        obtain ⟨_, _, e3, _⟩ := pushBits_room hi1 hk1 hd1 hr
        rw [e2] at e3; cases e3
      obtain ⟨_, _, e3, _, _, _, _, hc3, _⟩ := pushBits_noRoom hi1 hk1 hd1 (Nat.lt_of_not_le hno)
      rw [e2] at e3
      cases e3
      refine .inr ⟨m, d, k, bs2, o2, hc3.trans hc1, .inl ⟨bs2, o2, rfl⟩, ?_⟩
      simp only [bodyEncode, hhead, Res.bind_ok, hrun, hw, htl, hs, Res.bind_raised]
      rw [ht, hb1]
      simp [State.putBuf, State.putStream]
    | ok bs2 o2 =>
      rw [e2] at hs
      have hr : bs1.position + (bs1.bitCount + (unitBits c (greedyTokens b c free b.length 0)).length) / 8 ≤ o1.capacity := by
        by_contra hno
        obtain ⟨_, _, e3, _⟩ := pushBits_noRoom hi1 hk1 hd1 (Nat.lt_of_not_le hno)
        rw [e2] at e3; cases e3
      obtain ⟨_, _, e3, _, hb2, hd2, hk2, hi2, _, _, hc2, _⟩ := pushBits_room hi1 hk1 hd1 hr
      rw [e2] at e3
      cases e3
      obtain ⟨u, hu⟩ : ∃ u : State, u =
          { (t.putBuf bs1.buf o2).putStream (some bs2) with index := b.length, mtch := m, draws := d } := ⟨_, rfl⟩
      have huo : u.buf? bs2.buf = some o2 := by rw [hu, hb2]; exact State.buf?_putBuf_same (s := t) hto
      have hlive : u.Live .W bs2 o2 := ⟨by rw [hu]; rfl, hk2, hd2, huo⟩
      have hpad : runPad u = writeStream u flushBits := by rw [runPad, byDirection_write hlive]
      have h7 := (hi2.2 hk2).1
      cases e4 : flushBits bs2 o2 with
      | ok bs3 o3 =>
        have hbuf : bs3.buf = bs2.buf := by
          rcases flushBits_cases bs2 o2 h7 with ⟨_, e⟩ | ⟨_, _, e⟩ | ⟨b', _, _, e, _⟩ <;> rw [e] at e4 <;> cases e4 <;> rfl
        have hk3 : bs3.dead = false ∧ bs3.dir = .W := by
          rcases flushBits_cases bs2 o2 h7 with ⟨_, e⟩ | ⟨_, _, e⟩ | ⟨b', _, _, e, _⟩ <;> rw [e] at e4 <;> cases e4 <;>
            exact ⟨hk2, hd2⟩
        refine .inl ⟨m, d, bs2, o2, bs3, o3, rfl, e4, ?_⟩
        obtain ⟨w, hw'⟩ : ∃ w : State, w = (u.putBuf bs2.buf o3).putStream (some bs3) := ⟨_, rfl⟩
        have hwlive : w.Live .W bs3 o3 :=
          ⟨by rw [hw']; rfl, hk3.1, hk3.2, by rw [hw', hbuf]; exact State.buf?_putBuf_same huo⟩
        simp only [bodyEncode, hhead, Res.bind_ok, hrun, hw, htl, hs]
        rw [← hu, hpad, writeStream_ok hlive e4, Res.bind_ok, ← hw', encodeDone, withStream_live hwlive, hw', hu, ht, hbuf, hb2,
          hb1]
        simp [State.putBuf, State.putStream]
      | raised bs3 o3 =>
        have ho3 : o3 = o2 := by
          rcases flushBits_cases bs2 o2 h7 with ⟨_, e⟩ | ⟨_, _, e⟩ | ⟨b', _, _, e, _⟩ <;> rw [e] at e4 <;> cases e4
          rfl
        refine .inr ⟨m, d, b.length, bs3, o3, by rw [ho3, hc2, hc1], .inr ⟨bs2, o2, bs3, o3, rfl, e4⟩, ?_⟩
        simp only [bodyEncode, hhead, Res.bind_ok, hrun, hw, htl, hs]
        rw [← hu, hpad, writeStream_raised hlive e4, Res.bind_raised, hu, ht, hb2, hb1]
        simp [State.putBuf, State.putStream]
  · obtain ⟨bs1, o1, e1, _, _, _, _, hc1, _⟩ := pushBits_noRoom hi h.2.1 h.2.2.1 (Nat.lt_of_not_le hroom)
    refine .inr ⟨s.mtch, s.draws, s.index, bs1, o1, hc1, .inl ⟨bs1, o1, by rw [e1]⟩, ?_⟩
    simp only [bodyEncode, hhead, Res.bind_ok, hrun, writeHdr]
    rw [writeStream_raised h (f := fun bs b => pushBits bs b (vlqBits (BitVec.ofNat 32 _))) e1]
    rfl

end Sys2Proof.Machine
end

