-- ==== Sys2Proof/Laws/PerInstr.lean ====
section
/-! SUPPORT. Statements made once for each instruction. `EncodedWidth`: how long an encoding is (R101, R103, R105, R106, R108,
R109), and that a command travels as its code and its operands (R115). -/

namespace Sys2Proof.Laws.EncodedWidth

/-- The number of stream bits of an instruction of the format; 0 for a command. -/
def width (c : Cfg) : Instr → Nat
  | .vlqLast _ | .vlqCont _ => 8
  | .hdr v => 8 * (vlqGroups 5 v.toNat).length
  | .literal _ => 9
  | .pair _ _ => 1 + c.offsetBits + c.lengthBits
  | .pairDemo _ _ => 17
  | .pad k => k
  | .bsCreate _ _ | .writeBit _ | .readBit | .writeUint32 _ _ | .readUint32 _ | .flushPartial
  | .write7bitUint32 _ | .read7bitUint32 | .findBestMatch _ _ _ | .codecInit _ _ _ | .upperBound _
  | .encode _ _ | .peekOriginalLength _ | .decodeInto _ _ _ | .decode _ _ => 0

/-- The encoding has the width the format gives the instruction, or is a command with its operands. -/
def Statement (i : Instr) : Prop :=
  ∀ c, (∃ bits, encode c i = .stream bits ∧ bits.length = width c i ∧ i.slot ≠ .command) ∨
    (∃ code args, encode c i = .command code args ∧ i.slot = .command)

theorem groupBits_length (gs : List Byte) : (groupBits gs).length = 8 * gs.length := by
  induction gs with
  | nil => rfl
  | cons g gs ih => simp [ih]; omega

theorem vlqLast (p : BitVec 7) : Statement (.vlqLast p) := fun _ => .inl ⟨_, rfl, by simp [width], by simp [Instr.slot]⟩
theorem vlqCont (p : BitVec 7) : Statement (.vlqCont p) := fun _ => .inl ⟨_, rfl, by simp [width], by simp [Instr.slot]⟩
theorem hdr (v : Word) : Statement (.hdr v) := fun _ => .inl ⟨_, rfl, groupBits_length _, by simp [Instr.slot]⟩
theorem literal (b : Byte) : Statement (.literal b) := fun _ =>
  .inl ⟨_, rfl, by simp [width, literalBits], by simp [Instr.slot]⟩
theorem pair (o l : Nat) : Statement (.pair o l) := fun _ =>
  .inl ⟨_, rfl, by simp [width, pairBits]; omega, by simp [Instr.slot]⟩
theorem pairDemo (o : BitVec 10) (l : BitVec 6) : Statement (.pairDemo o l) := fun _ =>
  .inl ⟨_, rfl, by simp [width, pairBits], by simp [Instr.slot]⟩
theorem pad (k : Nat) : Statement (.pad k) := fun _ => .inl ⟨_, rfl, by simp [width], by simp [Instr.slot]⟩
theorem bsCreate (b : BufId) (d : Dir) : Statement (.bsCreate b d) := fun _ => .inr ⟨_, _, rfl, rfl⟩
theorem writeBit (v : Word) : Statement (.writeBit v) := fun _ => .inr ⟨_, _, rfl, rfl⟩
theorem readBit : Statement .readBit := fun _ => .inr ⟨_, _, rfl, rfl⟩
theorem writeUint32 (v : Word) (n : Nat) : Statement (.writeUint32 v n) := fun _ => .inr ⟨_, _, rfl, rfl⟩
theorem readUint32 (n : Nat) : Statement (.readUint32 n) := fun _ => .inr ⟨_, _, rfl, rfl⟩
theorem flushPartial : Statement .flushPartial := fun _ => .inr ⟨_, _, rfl, rfl⟩
theorem write7bitUint32 (v : Word) : Statement (.write7bitUint32 v) := fun _ => .inr ⟨_, _, rfl, rfl⟩
theorem read7bitUint32 : Statement .read7bitUint32 := fun _ => .inr ⟨_, _, rfl, rfl⟩
theorem findBestMatch (b : BufId) (i : Nat) (g : Cfg) : Statement (.findBestMatch b i g) := fun _ => .inr ⟨_, _, rfl, rfl⟩
theorem codecInit (ob lb ml : Nat) : Statement (.codecInit ob lb ml) := fun _ => .inr ⟨_, _, rfl, rfl⟩
theorem upperBound (n : Nat) : Statement (.upperBound n) := fun _ => .inr ⟨_, _, rfl, rfl⟩
theorem encode (g : Cfg) (b : BufId) : Statement (.encode g b) := fun _ => .inr ⟨_, _, rfl, rfl⟩
theorem peekOriginalLength (b : BufId) : Statement (.peekOriginalLength b) := fun _ => .inr ⟨_, _, rfl, rfl⟩
theorem decodeInto (g : Cfg) (i o : BufId) : Statement (.decodeInto g i o) := fun _ => .inr ⟨_, _, rfl, rfl⟩
theorem decode (g : Cfg) (b : BufId) : Statement (.decode g b) := fun _ => .inr ⟨_, _, rfl, rfl⟩

end Sys2Proof.Laws.EncodedWidth
end

