-- ==== Sys2Proof/Laws/Calls.lean ====
section
/-! SUPPORT. Whole calls: what `decode_into` does after its opening on a stream of tokens, what `encode` does after its opening,
and which inputs `encode` accepts. -/

namespace Sys2Proof.Machine

theorem bits_length (b : Buffer) : b.bits.length = 8 * b.capacity := by simp [Buffer.bits]

/-- Everything `decode_into` can do after its opening (R243 steps 2 to 4, R245, R256 to R259). -/
theorem bodyDecode_cases {s : State} {c : Cfg} {bi bo : Buffer} {input o : BufId} (hc : s.cfg = some c)
    (hin : s.inBuf = some input) (h : s.Live .R (BitStream.fresh input .R) bi) (h1 : s.outBuf = some o)
    (h2 : s.buf? o = some bo) (hne : input ≠ o) (hv : s.vlq.stopped = false) :
    ∃ bs' bo' k d, bo'.capacity = bo.capacity ∧
      (bodyDecode s = .ok { (s.putBuf o bo').putStream (some bs') with index := k, declared := d } () ∨
        bodyDecode s =
          .raised .bufferOutOfBounds { (s.putBuf o bo').putStream (some bs') with index := k, declared := d } ∨
        bodyDecode s = .raised .wrongOutputSize { s.putStream (some bs') with declared := d }) := by
  rcases fetchHeader_cases hv h (fresh_inv input .R bi) with ⟨gs, bs1, e, _, hu, hb1, hd1, hk1, hi1⟩ | ⟨bs1, e, _⟩
  · obtain ⟨d, hd⟩ : ∃ d, d = vlqValue 0#32 0 gs := ⟨_, rfl⟩
    rw [← hd] at e
    have hlive : (s.putStream (some bs1)).Live .R bs1 bi := live_putStream h hb1 hd1 hk1
    by_cases hsz : d.toNat = bo.capacity
    · obtain ⟨t, ht⟩ : ∃ t : State, t = { s.putStream (some bs1) with declared := d, index := 0 } := ⟨_, rfl⟩
      have hrun : runUnit (.hdr d) (s.putStream (some bs1)) = .ok t () := by
        simp only [runUnit, runHdr, byDirection_read hlive, readHdr, withOutput_some (s := s.putStream (some bs1)) h1 h2, hsz,
          ne_eq, not_true, if_false, ht]
      have hcapi : t.inputCapacity = bi.capacity := by
        have hbi : s.buf? input = some bi := h.2.2.2
        simp only [State.buf?] at hbi
        rw [ht]
        simp [State.inputCapacity, State.putStream, hin, State.buf?, hbi]
      obtain ⟨bs', bo', k, c1, es⟩ := scanDecode_cases (8 * t.inputCapacity + 2) (s := t) (c := c) (bs := bs1) (b := bi) (bo := bo)
        (o := o) (by rw [ht]; exact hc) (by rw [ht]; exact hlive) hi1 (by rw [ht]; exact h1) (by rw [ht]; exact h2)
        (by rw [hb1]; exact hne)
        (by
          have h3 := bits_length bi
          rw [← unreadBits_fresh input bi, hu, List.length_append] at h3
          rw [hcapi]; omega)
      rcases es with ⟨es, _⟩ | es
      · refine ⟨bs', { bo' with length := d.toNat }, k, d, c1, .inl ?_⟩
        simp only [bodyDecode, e, Res.bind_ok, hrun, es]
        have h2' := List.getElem?_eq_some_iff.mp h2
        simp [decodeDone, withOutput, State.putStream, State.putBuf, ht, h1, withBuffer, State.buf?, h2'.1]
      · refine ⟨bs', bo', k, d, c1, .inr (.inl ?_)⟩
        simp only [bodyDecode, e, Res.bind_ok, hrun, es, Res.bind_raised]
        rw [ht]
        simp [State.putStream, State.putBuf]
    · refine ⟨bs1, bo, s.index, d, rfl, .inr (.inr ?_)⟩
      have hrun : runUnit (.hdr d) (s.putStream (some bs1)) =
          .raised .wrongOutputSize { s.putStream (some bs1) with declared := d } := by
        simp only [runUnit, runHdr, byDirection_read hlive, readHdr, withOutput_some (s := s.putStream (some bs1)) h1 h2, hsz,
          ne_eq, not_false_eq_true, if_true]
      simp only [bodyDecode, e, Res.bind_ok, hrun, Res.bind_raised]
  · refine ⟨bs1, bo, s.index, s.declared, rfl, .inr (.inl ?_)⟩
    simp only [bodyDecode, e, Res.bind_raised, putBuf_self h2]
    rfl
/-- R243 steps 2 to 4 on a header and well-formed tokens, whatever comes after them. -/
theorem bodyDecode_tokens {s : State} {c : Cfg} {bi bo : Buffer} {input o : BufId} {gs : List Byte} {toks : List Instr}
    {rest : List Bool} {out : List Byte}
    (hc : s.cfg = some c) (hin : s.inBuf = some input) (h : s.Live .R (BitStream.fresh input .R) bi) (h1 : s.outBuf = some o)
    (h2 : s.buf? o = some bo) (hne : input ≠ o) (hv : s.vlq.stopped = false)
    (hg : IsReadVlq gs) (hw : ∀ i ∈ toks, i.WellFormed c = true) (hu : bi.bits = groupBits gs ++ (unitBits c toks ++ rest))
    (he : expandTokens [] toks = some out) (hl : out.length = groupSum gs % 2 ^ 32) (hcap : bo.capacity = out.length) :
    ∃ bs' bo',
      bodyDecode s =
        .ok { (s.putBuf o bo').putStream (some bs') with
          index := out.length, declared := BitVec.ofNat 32 out.length } () ∧
      bo'.capacity = bo.capacity ∧ bo'.length = out.length ∧ bo'.bytes = out := by
  have hi := fresh_inv input .R bi
  have hu0 : unreadBits (BitStream.fresh input .R) bi = bi.bits := unreadBits_fresh input bi
  rcases fetchHeader_cases hv h hi with ⟨gs', bs1, e, hg', hu1, hb1, hd1, hk1, hi1⟩ | ⟨bs1, e, hno⟩
  · rw [hu0, hu] at hu1
    obtain ⟨rfl, hu2⟩ := isReadRest_unique hg hg' hu1
    have hval : (vlqValue 0#32 0 gs) = BitVec.ofNat 32 out.length := by
      apply BitVec.eq_of_toNat_eq
      rw [vlqValue_groups, hl]; simp
    have hvn : (BitVec.ofNat 32 out.length).toNat = out.length := by rw [← hval, vlqValue_groups, hl]
    have hlive : (s.putStream (some bs1)).Live .R bs1 bi := live_putStream h hb1 hd1 hk1
    obtain ⟨t, ht⟩ : ∃ t : State, t = { s.putStream (some bs1) with declared := BitVec.ofNat 32 out.length, index := 0 } := ⟨_, rfl⟩
    have hrun : runUnit (.hdr (BitVec.ofNat 32 out.length)) (s.putStream (some bs1)) = .ok t () := by
      simp only [runUnit, runHdr, byDirection_read hlive, readHdr, withOutput_some (s := s.putStream (some bs1)) h1 h2, hvn, hcap,
        ne_eq, not_true, if_false, ht]
    obtain ⟨bs', bo', es, c1, c2, c3⟩ := scanDecode_expand (8 * t.inputCapacity + 2) toks (s := t) (c := c) (bs := bs1) (b := bi)
      (bo := bo) (o := o) (out := []) (out' := out) (rest := rest)
      (by rw [ht]; exact hc) (by rw [ht]; exact hlive) hi1 (by rw [ht]; exact h1) (by rw [ht]; exact h2) (by rw [hb1]; exact hne)
      (by rw [ht]; rfl) (by rw [ht]; exact hvn) hcap (fun j hj => absurd hj (Nat.not_lt_zero j)) hw hu2.symm he
      (by
        have : t.inputCapacity = bi.capacity := by
          rw [ht]; simp only [State.inputCapacity]
          have : s.buf? input = some bi := h.2.2.2
          simp only [State.putStream, hin, State.buf?] at this ⊢; rw [this]; rfl
        rw [this]
        have h3 := bits_length bi
        rw [hu, hu2, List.length_append] at h3
        omega)
    refine ⟨bs', { bo' with length := out.length }, ?_, c1, rfl, rebuilt_bytes (b := { bo' with length := out.length }) c3 rfl⟩
    simp only [bodyDecode, e, Res.bind_ok, hval, hrun, es]
    have hb' : (((t.putBuf o bo').putStream (some bs')).buf? o) = some bo' := by
      rw [State.buf?_putStream]; rw [ht]; exact State.buf?_putBuf_same (s := s.putStream (some bs1)) h2
    simp only [decodeDone, withOutput, State.putStream, State.putBuf, ht, h1, withBuffer, State.buf?]
    have h2' := List.getElem?_eq_some_iff.mp h2
    simp [h2'.1, hvn]
  · exact absurd ⟨gs, _, hg, by rw [hu0, hu]⟩ hno

/-- The oldest answer of the host is the one taken (R214, log 5). -/
theorem nextGrant_of {s : State} {g : Bool} (h : s.grants.head? = some g) : s.nextGrant = g := by
  cases hh : s.grants with
  | nil => rw [hh] at h; simp at h
  | cons a as => rw [hh] at h; simp [State.nextGrant, hh] at h ⊢; exact h

/-- The state after the opening of `encode`, when the host grants the allocation (R215 steps 1 and 2). -/
def opened (s : State) (c : Cfg) (input : BufId) (n : Nat) : State :=
  { s.beginCall .encHeader (some input) none with
    cfg := some c, outBuf := some s.mem.length, bs := some (BitStream.fresh s.mem.length .W), grants := s.grants.tail
    draws := s.draws + 2
    mem := s.mem ++ [{ capacity := upperBoundBytes n, length := 0, cells := [], tag := s.draws + 1 }] }

theorem beginCall_nextGrant (s : State) (c : Cfg) (input : BufId) :
    ({ s.beginCall .encHeader (some input) none with cfg := some c } : State).nextGrant =
      (match s.grants with | [] => Config.allocGranted (s.draws + 1) | g :: _ => g) := rfl

/-- R215, R222: past the tests on the input, `encode` is its body on the opened state, or the refused allocation. -/
theorem exec_encode_cases {s : State} {c : Cfg} {input : BufId} {b : Buffer} (hw : c.WellFormed = true)
    (hb : s.buf? input = some b) (h0 : 1 ≤ b.length) (hn : b.length ≤ 4294967295) :
    (({ s.beginCall .encHeader (some input) none with cfg := some c } : State).nextGrant = true ∧
      exec (.encode c input) s =
        settleCall ((bodyEncode (opened s c input b.length)).bind fun u _ => .ok u ((u.outBuf.map Ret.buf).getD .none))) ∨
    (({ s.beginCall .encHeader (some input) none with cfg := some c } : State).nextGrant = false ∧
      exec (.encode c input) s =
        .next (takeError .couldNotAllocate
          { s.beginCall .encHeader (some input) none with
            cfg := some c, grants := s.grants.tail, draws := s.draws + 2 })) := by
  have hcl : configLegal c = true := hw
  have h00 : b.length ≠ 0 := by omega
  have h1 : ¬ Config.nMax < b.length := by simp [Config.nMax]; omega
  obtain ⟨t0, ht0⟩ : ∃ t : State, t = { s.beginCall .encHeader (some input) none with cfg := some c } := ⟨_, rfl⟩
  rcases hostAlloc_cases (upperBoundBytes b.length) t0 with ⟨h, e⟩ | ⟨h, e⟩
  · refine .inl ⟨by rw [← ht0]; exact h, ?_⟩
    simp only [exec, execEncode, openEncode, withConfig, hcl, if_true, withBuffer, hb, h00, if_false, h1, ← ht0, e,
      Res.bind_ok]
    rw [ht0]; rfl
  · refine .inr ⟨by rw [← ht0]; exact h, ?_⟩
    simp only [exec, execEncode, openEncode, withConfig, hcl, if_true, withBuffer, hb, h00, if_false, h1, ← ht0, e,
      Res.bind_raised]
    rw [ht0]; rfl

/-- The stream, the output and the input of the opened call. -/
theorem opened_facts {s : State} {c : Cfg} {input : BufId} {b : Buffer} (hb : s.buf? input = some b) :
    ∃ o, o = { capacity := upperBoundBytes b.length, length := 0, cells := [], tag := s.draws + 1 } ∧
      (opened s c input b.length).Live .W (BitStream.fresh s.mem.length .W) o ∧
      (opened s c input b.length).buf? input = some b ∧ s.mem.length ≠ input := by
  have hlt : input < s.mem.length := (List.getElem?_eq_some_iff.mp hb).1
  refine ⟨_, rfl, ⟨rfl, rfl, rfl, ?_⟩, ?_, (Nat.ne_of_lt hlt).symm⟩
  · simp [State.buf?, opened]
  · simp only [State.buf?, opened]; rw [List.getElem?_append_left hlt]; exact hb

/-- R213: the bits of a token stream under a Config whose pairs are no longer than the literals they replace. -/
theorem codedBits_length {b : Buffer} {c : Cfg} {free : Nat} (hm : 1 ≤ c.minimumLength) (hn : b.length < 2 ^ 28)
    (hb : 1 + c.offsetBits + c.lengthBits ≤ 9 * c.minimumLength) : (codedBits b c free).length ≤ 32 + 9 * b.length := by
  have h1 : (vlqBits (BitVec.ofNat 32 b.length)).length ≤ 32 := by
    have : (vlqBits (BitVec.ofNat 32 b.length)).length = 8 * (vlqGroups 5 (BitVec.ofNat 32 b.length).toNat).length :=
      Laws.EncodedWidth.groupBits_length _
    rw [this]
    have hv : (BitVec.ofNat 32 b.length).toNat = b.length := by simp; omega
    rw [hv]
    have h4 := vlqGroups_spec 4 b.length (by omega) (by decide)
    have h5 := vlqGroups_spec 5 b.length (by omega) (by decide)
    rw [isVlqOf_unique h5.1 h4.1]
    have := h4.2.1.2.1
    omega
  have h2 := (greedyTokens_spec (b := b) (c := c) (free := free) (index := 0) b.length hm (by omega) (by omega)).2.1 hb
  simp only [codedBits, List.length_append]; omega

/-- R210, R215: a call of `encode` that is not refused has a legal Config and an input the header can say. -/
theorem exec_encode_pre {s t : State} {c : Cfg} {input : BufId} {b : Buffer} (hb : s.buf? input = some b)
    (h : exec (.encode c input) s = .next t) : c.WellFormed = true ∧ b.length ≤ 4294967295 := by
  have hcl : configLegal c = true := by
    by_contra hc; simp [exec, execEncode, openEncode, withConfig, hc, settleCall] at h
  refine ⟨hcl, ?_⟩
  by_contra hn
  have h0 : b.length ≠ 0 := by omega
  have h1 : Config.nMax < b.length := by simp [Config.nMax]; omega
  simp [exec, execEncode, openEncode, withConfig, hcl, withBuffer, hb, h0, h1, settleCall] at h

end Sys2Proof.Machine
end

