-- ==== Sys2Proof/Tests/Slice0.lean ====
section
/-! SUPPORT. Tests: each expected result is a vector of spec/95_test_vectors.md (named in the docstring) or a word written out from
an encoding rule. Then, for each statement with hypotheses, a state and operands that meet them all together. -/

namespace Sys2Proof.Tests

open Sys2Proof.Machine

/-! ### Helpers -/

/-- A stream of bits as the spec writes it. -/
def bits (l : List Nat) : List Bool := l.map fun n => n == 1

/-- A machine with the given buffers, full of the given bytes, whose host grants two allocations. -/
def mk (bufs : List (List Byte)) : State :=
  { State.reset with mem := bufs.map fun l => bufferOf l 7, grants := [true, true] }

/-- A machine with one more buffer, empty, of the given capacity. -/
def withRoom (s : State) (capacity : Nat) : State :=
  { s with mem := s.mem ++ [{ capacity := capacity, length := 0, cells := [], tag := 9 }] }

/-- A live stream over buffer 0. -/
def withBs (s : State) (d : Dir) (position : Nat) (acc : Byte) (count : Nat) : State :=
  { s with bs := some { buf := 0, position := position, byteBuffer := acc, bitCount := count, dir := d, dead := false } }

/-- A `W` stream over a buffer of four zero bytes. -/
def writer (position : Nat) (acc : Byte) (count : Nat) : State := withBs (mk [[0, 0, 0, 0]]) .W position acc count

/-- An `R` stream over a buffer with the given bytes. -/
def reader (l : List Byte) (position : Nat) (acc : Byte) (count : Nat) : State := withBs (mk [l]) .R position acc count

/-- A property of the next state, if there is one. -/
def nextHas (o : Host.Outcome State Fault Refusal) (p : State → Bool) : Bool :=
  match o with
  | .next t => p t
  | .fault _ => false
  | .refused _ => false

theorem nextHas_spec {o : Host.Outcome State Fault Refusal} {p : State → Bool} (h : nextHas o p = true) :
    ∃ t, o = .next t ∧ p t = true := by
  cases o with
  | next t => exact ⟨t, rfl, h⟩
  | fault _ => cases h
  | refused _ => cases h

/-- The refusal, if the outcome is one. -/
def refusal (o : Host.Outcome State Fault Refusal) : Option Refusal :=
  match o with
  | .next _ => none
  | .fault _ => none
  | .refused r => some r

/-- The stream registers in the order of the vectors: position, byte_buffer, bit_count. -/
def regs (s : State) : Option (Nat × Byte × Nat) := s.bs.map fun b => (b.position, b.byteBuffer, b.bitCount)

/-- The written bytes of a buffer. -/
def cells (s : State) (id : Nat) : Option (List Host.Cell) := (s.buf? id).map Buffer.cells

/-- STATUS and the returned value. -/
def answers (status : Status) (result : Ret) (s : State) : Bool := s.status == status && s.result == result

/-- The demonstration Config of R10. -/
def demo : Cfg := ⟨10, 6, 2⟩

/-- V-ENC-5: ten bytes 41. -/
def tenA : List Byte := List.replicate 10 0x41#8

/-- V-ENC-5: their compressed form. -/
def tenAPacked : List Byte := [0x0A#8, 0x20#8, 0xC0#8, 0x12#8, 0x40#8]

/-! ### Well-formedness: one ill-formed term for each check -/

theorem test_wf_pair_offset : (Instr.pair 16 1).WellFormed ⟨4, 2, 2⟩ = false := by decide
theorem test_wf_pair_length : (Instr.pair 1 4).WellFormed ⟨4, 2, 2⟩ = false := by decide
theorem test_wf_pair_widths : (Instr.pair 1 1).WellFormed demo = false := by decide
theorem test_wf_pairDemo : (Instr.pairDemo 1#10 1#6).WellFormed ⟨4, 2, 2⟩ = false := by decide
theorem test_wf_pad : (Instr.pad 8).WellFormed demo = false := by decide
theorem test_wf_writeUint32 : (Instr.writeUint32 0#32 33).WellFormed demo = false := by decide
theorem test_wf_readUint32 : (Instr.readUint32 33).WellFormed demo = false := by decide
theorem test_wf_findBestMatch : (Instr.findBestMatch 0 0 ⟨16, 16, 2⟩).WellFormed demo = false := by decide
/-- V-CFG-1. -/
theorem test_wf_codecInit_sum : (Instr.codecInit 16 16 2).WellFormed demo = false := by decide
/-- V-CFG-1. -/
theorem test_wf_codecInit_minimum : (Instr.codecInit 10 6 0).WellFormed demo = false := by decide
theorem test_wf_encode : (Instr.encode ⟨10, 6, 0⟩ 0).WellFormed demo = false := by decide
theorem test_wf_decodeInto_config : (Instr.decodeInto ⟨32, 0, 1⟩ 0 1).WellFormed demo = false := by decide
theorem test_wf_decodeInto_alias : (Instr.decodeInto demo 0 0).WellFormed demo = false := by decide
theorem test_wf_decode : (Instr.decode ⟨31, 1, 1⟩ 0).WellFormed demo = false := by decide

/-! ### Decoding: words written out bit by bit -/

/-- R101: `cont = 0`, payload 1111111. -/
theorem test_decode_vlqLast : decodeGroup (bits [0, 1, 1, 1, 1, 1, 1, 1]) = .ok (.vlqLast 127#7, []) := by decide
/-- R101: `cont = 1`, payload 0000001, and one bit that follows. -/
theorem test_decode_vlqCont : decodeGroup (bits [1, 0, 0, 0, 0, 0, 0, 1, 1]) = .ok (.vlqCont 1#7, bits [1]) := by decide
/-- V-VLQ-1: 300 is `AC 02`. -/
theorem test_decode_hdr :
    decodeHeader (bits [1, 0, 1, 0, 1, 1, 0, 0, 0, 0, 0, 0, 0, 0, 1, 0]) = .ok (.hdr 300#32, []) := by decide
/-- V-VLQ-5: `80 80 80 80 1F` reads F0000000. -/
theorem test_decode_hdr_overflow :
    decodeHeader (bits [1, 0, 0, 0, 0, 0, 0, 0, 1, 0, 0, 0, 0, 0, 0, 0, 1, 0, 0, 0, 0, 0, 0, 0, 1, 0, 0, 0, 0, 0, 0, 0, 0, 0, 0, 1,
      1, 1, 1, 1]) = .ok (.hdr 0xF0000000#32, []) := by decide
/-- V-DEC-5: a header cut by the end of the input. -/
theorem test_decode_hdr_cut : decodeHeader (bits [1, 0, 0, 0, 0, 0, 0, 0]) = .error .headerCut := by decide
/-- R105: `0 01000001` is `L(41)`. -/
theorem test_decode_literal : decodeToken demo (bits [0, 0, 1, 0, 0, 0, 0, 0, 1]) = .ok (.literal 0x41#8, []) := by decide
/-- V-ENC-15: `1 0001 11` is `P(1,3)` under (4, 2, 2). -/
theorem test_decode_pair : decodeToken ⟨4, 2, 2⟩ (bits [1, 0, 0, 0, 1, 1, 1]) = .ok (.pair 1 3, []) := by decide
/-- V-ENC-10: `1 0000000110 001011` is `P(6,11)` under (10, 6, 2). -/
theorem test_decode_pairDemo :
    decodeToken demo (bits [1, 0, 0, 0, 0, 0, 0, 0, 1, 1, 0, 0, 0, 1, 0, 1, 1]) = .ok (.pairDemo 6#10 11#6, []) := by decide
/-- V-DEC-12: `1 000000000100 1001` is `P(4,9)` under (12, 4, 2). -/
theorem test_decode_pair_wide :
    decodeToken ⟨12, 4, 2⟩ (bits [1, 0, 0, 0, 0, 0, 0, 0, 0, 0, 1, 0, 0, 1, 0, 0, 1]) = .ok (.pair 4 9, []) := by decide
/-- R109: a pair cut inside its length. -/
theorem test_decode_pair_cut : decodeToken ⟨4, 2, 2⟩ (bits [1, 0, 0, 0, 1, 1]) = .error .tokenCut := by decide
/-- R108: the bits of the padding do not matter. -/
theorem test_decode_pad : decodePad (bits [1, 1, 1, 1, 1, 1]) = .ok (.pad 6, []) := by decide
theorem test_decode_pad_long : decodePad (bits [0, 0, 0, 0, 0, 0, 0, 0]) = .error .paddingTooLong := by decide
/-- R115: the fifteen codes. -/
theorem test_decode_bsCreate : decodeCommand 0#4 [.buf 3, .dir .R] = .ok (.bsCreate 3 .R) := by decide
theorem test_decode_writeBit : decodeCommand 1#4 [.word 1] = .ok (.writeBit 1) := by decide
theorem test_decode_readBit : decodeCommand 2#4 [] = .ok .readBit := by decide
theorem test_decode_writeUint32 : decodeCommand 3#4 [.word 5, .nat 3] = .ok (.writeUint32 5 3) := by decide
theorem test_decode_readUint32 : decodeCommand 4#4 [.nat 3] = .ok (.readUint32 3) := by decide
theorem test_decode_flushPartial : decodeCommand 5#4 [] = .ok .flushPartial := by decide
theorem test_decode_write7bitUint32 : decodeCommand 6#4 [.word 300] = .ok (.write7bitUint32 300) := by decide
theorem test_decode_read7bitUint32 : decodeCommand 7#4 [] = .ok .read7bitUint32 := by decide
theorem test_decode_findBestMatch : decodeCommand 8#4 [.buf 1, .nat 4, .cfg demo] = .ok (.findBestMatch 1 4 demo) := by decide
theorem test_decode_codecInit : decodeCommand 9#4 [.nat 10, .nat 6, .nat 2] = .ok (.codecInit 10 6 2) := by decide
theorem test_decode_upperBound : decodeCommand 10#4 [.nat 10] = .ok (.upperBound 10) := by decide
theorem test_decode_encode : decodeCommand 11#4 [.cfg demo, .buf 2] = .ok (.encode demo 2) := by decide
theorem test_decode_peek : decodeCommand 12#4 [.buf 2] = .ok (.peekOriginalLength 2) := by decide
theorem test_decode_decodeInto : decodeCommand 13#4 [.cfg demo, .buf 2, .buf 1] = .ok (.decodeInto demo 2 1) := by decide
theorem test_decode_decode : decodeCommand 14#4 [.cfg demo, .buf 2] = .ok (.decode demo 2) := by decide
theorem test_decode_unassigned : decodeCommand 15#4 [.nat 1] = .error .unassignedCommand := by decide
theorem test_decode_operands : decodeCommand 3#4 [.word 5] = .error .operandShape := by decide

/-! ### Encoding -/

/-- V-VLQ-1: 4294967295 is `FF FF FF FF 0F`, 16384 is `80 80 01`, 0 is `00`. -/
theorem test_encode_vlq :
    vlqGroups 5 4294967295 = [0xFF#8, 0xFF#8, 0xFF#8, 0xFF#8, 0x0F#8] ∧ vlqGroups 5 16384 = [0x80#8, 0x80#8, 0x01#8] ∧
      vlqGroups 5 0 = [0x00#8] := by decide
/-- V-DEC-6: `P(5,2)` is `1 0000000101 000010`. -/
theorem test_encode_pairDemo :
    encode demo (.pairDemo 5#10 2#6) = .stream (bits [1, 0, 0, 0, 0, 0, 0, 0, 1, 0, 1, 0, 0, 0, 0, 1, 0]) := by decide
/-- V-DEC-10: `L(5A)` is `0 01011010`. -/
theorem test_encode_literal : encode demo (.literal 0x5A#8) = .stream (bits [0, 0, 1, 0, 1, 1, 0, 1, 0]) := by decide
/-- The rows of the opcode table: each command code, a group, a literal and a pair word give their row's instruction. -/
theorem test_table_words :
    decodeTableWord 8 0x80 = some (.vlqCont 0#7) ∧ decodeTableWord 8 0x41 = some (.vlqLast 0x41#7) ∧
      decodeTableWord 16 0x41 = some (.literal 0x41#8) ∧ decodeTableWord 24 0x10049 = some (.pairDemo 1#10 9#6) ∧
      decodeTableWord 8 0x5 = some .flushPartial ∧ decodeTableWord 8 0xF = none := by decide

/-! ### Bits and fields -/

/-- V-BF-1: after 1 and 0, `write_bit(1)` gives (0, 05, 3), the buffer untouched. -/
theorem test_writeBit :
    nextHas (exec (.writeBit 1#32) (writer 0 2#8 2)) fun t =>
      regs t == some (0, 5#8, 3) && cells t 0 == cells (writer 0 2#8 2) 0 && answers .ok .none t := by decide
/-- V-BF-2 and V-BF-3: the eighth bit flushes `A0`; only bit 0 of the operand counts. -/
theorem test_writeBit_flush :
    nextHas (exec (.writeBit 0xFFFFFFFE#32) (writer 0 0x50#8 7)) fun t =>
      regs t == some (1, 0#8, 0) && t.byte? 0 0 == some 0xA0#8 && t.byte? 0 1 == some 0#8 := by decide
/-- V-BF-5: with no room the eighth bit raises, and the stream is dead. -/
theorem test_writeBit_full :
    nextHas (exec (.writeBit 1#32) (writer 4 0#8 7)) fun t =>
      answers .bufferOutOfBounds .none t && t.bs.map BitStream.dead == some true := by decide
/-- V-BF-6: the first bit of `A0`. -/
theorem test_readBit :
    nextHas (exec .readBit (reader [0xA0#8] 0 0#8 0)) fun t =>
      regs t == some (1, 0xA0#8, 7) && answers .ok (.bit true) t := by decide
/-- V-BF-6: the ninth read. -/
theorem test_readBit_end :
    nextHas (exec .readBit (reader [0xA0#8] 1 0xA0#8 0)) fun t => answers .bufferOutOfBounds .none t := by decide
/-- V-BF-7: the 10-bit field 141 after `101`. -/
theorem test_writeUint32 :
    nextHas (exec (.writeUint32 0x141#32 10) (writer 0 5#8 3)) fun t =>
      regs t == some (1, 0x01#8, 5) && t.byte? 0 0 == some 0xAA#8 := by decide
/-- V-BF-9: the bits of the value above the field are dropped. -/
theorem test_writeUint32_wide :
    nextHas (exec (.writeUint32 0xABC#32 8) (writer 0 0#8 0)) fun t =>
      regs t == some (1, 0#8, 0) && t.byte? 0 0 == some 0xBC#8 := by decide
/-- V-BF-11: zero extension. -/
theorem test_readUint32 :
    nextHas (exec (.readUint32 6) (reader [0xFC#8] 0 0#8 0)) fun t => answers .ok (.word 63#32) t := by decide
/-- V-BF-12: a field cut by the end of the buffer. -/
theorem test_readUint32_cut :
    nextHas (exec (.readUint32 10) (reader [0x50#8] 0 0#8 0)) fun t =>
      answers .bufferOutOfBounds .none t && t.bs.map BitStream.position == some 1 := by decide
/-- V-BF-4. -/
theorem test_flushPartial :
    nextHas (exec .flushPartial (writer 0 5#8 3)) fun t =>
      regs t == some (1, 0#8, 0) && t.byte? 0 0 == some 0xA0#8 := by decide
/-- V-BF-5: with no room and bits pending the flush raises. -/
theorem test_flushPartial_full :
    nextHas (exec .flushPartial (writer 4 5#8 3)) fun t => answers .bufferOutOfBounds .none t := by decide
/-- V-BF-1. -/
theorem test_bsCreate :
    nextHas (exec (.bsCreate 0 .W) (mk [[]])) fun t => regs t == some (0, 0#8, 0) && answers .ok .none t := by decide

/-! ### The VLQ coder -/

/-- V-VLQ-9: 300 behind one bit 1 gives `D6 01` and seven bits 0. -/
theorem test_write7bitUint32 :
    nextHas (exec (.write7bitUint32 300#32) (writer 0 1#8 1)) fun t =>
      regs t == some (2, 0#8, 1) && t.byte? 0 0 == some 0xD6#8 && t.byte? 0 1 == some 0x01#8 := by decide
/-- V-VLQ-8: into one byte of room. -/
theorem test_write7bitUint32_full :
    nextHas (exec (.write7bitUint32 128#32) (writer 3 0#8 0)) fun t =>
      answers .bufferOutOfBounds .none t && t.byte? 0 3 == some 0x80#8 := by decide
/-- V-VLQ-6: the fifth group ends the loop whatever its flag. -/
theorem test_read7bitUint32 :
    nextHas (exec .read7bitUint32 (reader [0xFF#8, 0xFF#8, 0xFF#8, 0xFF#8, 0xFF#8, 0x01#8] 0 0#8 0)) fun t =>
      answers .ok (.word 0xFFFFFFFF#32) t && t.bs.map BitStream.position == some 5 := by decide
/-- V-VLQ-7. -/
theorem test_read7bitUint32_cut :
    nextHas (exec .read7bitUint32 (reader [0xFF#8, 0xFF#8] 0 0#8 0)) fun t => answers .bufferOutOfBounds .none t := by decide
/-- V-VLQ-3: `AC` read as a group gives `result = 2C`, `shift = 7`, and the loop goes on. -/
theorem test_vlqCont :
    nextHas (exec (.vlqCont 0x2C#7) (reader [] 0 0#8 0)) fun t => t.vlq == ⟨0x2C#32, 7, false⟩ := by decide
/-- V-VLQ-3: then `02` gives 300, and the loop ends. -/
theorem test_vlqLast :
    nextHas (exec (.vlqLast 2#7) { reader [] 0 0#8 0 with vlq := ⟨0x2C#32, 7, false⟩ }) fun t =>
      t.vlq == ⟨300#32, 14, true⟩ := by decide

/-! ### The MatchFinder -/

/-- V-MF-2: a tie goes to the nearer. -/
theorem test_findBestMatch_tie :
    nextHas (exec (.findBestMatch 0 8 demo)
      (mk [[0x61#8, 0x62#8, 0x63#8, 0x58#8, 0x61#8, 0x62#8, 0x63#8, 0x59#8, 0x61#8, 0x62#8, 0x63#8, 0x5A#8]])) fun t =>
      answers .ok (.mtch ⟨4, 3⟩) t := by decide
/-- V-MF-6: the cap acts on the result only. -/
theorem test_findBestMatch_cap :
    nextHas (exec (.findBestMatch 0 10 ⟨4, 2, 2⟩)
      (mk [[0x61#8, 0x62#8, 0x63#8, 0x64#8, 0x65#8, 0x61#8, 0x62#8, 0x63#8, 0x64#8, 0x58#8, 0x61#8, 0x62#8, 0x63#8, 0x64#8, 0x65#8,
        0x51#8, 0x51#8]])) fun t => answers .ok (.mtch ⟨10, 3⟩) t := by decide

/-! ### The Codec -/

/-- V-CFG-1. -/
theorem test_codecInit :
    nextHas (exec (.codecInit 16 15 1) State.reset) fun t => t.cfg == some ⟨16, 15, 1⟩ && answers .ok (.cfg ⟨16, 15, 1⟩) t := by
  decide
theorem test_codecInit_refused : refusal (exec (.codecInit 16 16 2) State.reset) = some .invalidConfig := by decide
/-- V-ENC-14: `upper_bound(200)` is 229. -/
theorem test_upperBound : nextHas (exec (.upperBound 200) State.reset) fun t => answers .ok (.nat 229) t := by decide
/-- V-ENC-5. -/
theorem test_encode :
    nextHas (exec (.encode demo 0) (mk [tenA])) fun t =>
      answers .ok (.buf 1) t && cells t 1 == some (cellsFrom 0 tenAPacked) &&
        (t.buf? 1).map Buffer.capacity == some 16 && (t.buf? 1).map Buffer.length == some 5 := by decide
/-- V-ENC-E3: the sizing overflow. -/
theorem test_encode_full :
    nextHas (exec (.encode ⟨16, 15, 1⟩ 0) (mk [[0x41#8, 0x41#8, 0x42#8, 0x41#8, 0x41#8]])) fun t =>
      answers .bufferOutOfBounds .none t && (t.buf? 1).map Buffer.length == some 0 := by decide
/-- V-DEC-11: an over-long header is accepted. -/
theorem test_peek :
    nextHas (exec (.peekOriginalLength 0) (mk [[0x8A#8, 0x00#8, 0x20#8]])) fun t => answers .ok (.word 10#32) t := by decide
/-- V-DEC-5. -/
theorem test_peek_cut :
    nextHas (exec (.peekOriginalLength 0) (mk [[0x80#8]])) fun t => answers .bufferOutOfBounds .none t := by decide
/-- V-DEC-3: the padding bits are ignored. -/
theorem test_decodeInto :
    nextHas (exec (.decodeInto demo 0 1) (withRoom (mk [[0x0A#8, 0x20#8, 0xC0#8, 0x12#8, 0x7F#8]]) 10)) fun t =>
      answers .ok .none t && cells t 1 == some (cellsFrom 0 tenA) && (t.buf? 1).map Buffer.length == some 10 := by decide
/-- V-DEC-14. -/
theorem test_decodeInto_size :
    nextHas (exec (.decodeInto demo 0 1) (withRoom (mk [tenAPacked]) 9)) fun t =>
      answers .wrongOutputSize .none t && t.mem == (withRoom (mk [tenAPacked]) 9).mem := by decide
/-- V-DEC-1. -/
theorem test_decode :
    nextHas (exec (.decode demo 0) (mk [tenAPacked])) fun t =>
      answers .ok (.buf 1) t && cells t 1 == some (cellsFrom 0 tenA) := by decide
/-- V-DEC-17. -/
theorem test_decode_zero : nextHas (exec (.decode demo 0) (mk [[0x00#8]])) fun t => answers .noOp .none t := by decide

/-! ### The tokens inside a call -/

/-- A decode call at its body: OUT has capacity 4 and holds `41 42` so far. -/
def inBody : State :=
  { reader [0x04#8] 1 0#8 0 with
    mem := [bufferOf [0x04#8] 7, { capacity := 4, length := 0, cells := [(0, 0x41#8), (1, 0x42#8)], tag := 9 }]
    cfg := some ⟨4, 3, 2⟩, inBuf := some 0, outBuf := some 1, index := 2, declared := 4#32, phase := .decBody }

/-- An encode call at its body: IN is `41 42 43`, OUT has capacity 3. -/
def inScan (p : Phase) (position : Nat) (acc : Byte) (count : Nat) : State :=
  { State.reset with
    mem := [bufferOf [0, 0, 0] 8, bufferOf [0x41#8, 0x42#8, 0x43#8] 7]
    bs := some { buf := 0, position := position, byteBuffer := acc, bitCount := count, dir := .W, dead := false }
    cfg := some ⟨4, 3, 2⟩, inBuf := some 1, outBuf := some 0, index := 1, phase := p }

/-- R243, R245. -/
theorem test_hdr : nextHas (exec (.hdr 4#32) inBody) fun t => t.index == 0 && t.declared == 4#32 && t.phase == .decBody := by decide
/-- R245. -/
theorem test_hdr_size :
    nextHas (exec (.hdr 5#32) inBody) fun t => answers .wrongOutputSize .none t && t.phase == .idle && t.bs == none := by decide
/-- R248. -/
theorem test_literal : nextHas (exec (.literal 0x58#8) inBody) fun t => t.index == 3 && t.byte? 1 2 == some 0x58#8 := by decide
/-- R218: on the encoder's side the literal is `0 01000010`. -/
theorem test_literal_write :
    nextHas (exec (.literal 0x42#8) (inScan .encBody 0 0#8 0)) fun t =>
      t.index == 2 && t.byte? 0 0 == some 0x21#8 && regs t == some (1, 0#8, 1) := by decide
/-- R250: `P(2,2)` on `41 42`. -/
theorem test_pair : nextHas (exec (.pair 2 2) inBody) fun t => t.index == 4 && t.byte? 1 3 == some 0x42#8 := by decide
/-- V-DEC-7: a copy past the capacity. -/
theorem test_pair_bounds :
    nextHas (exec (.pair 1 3) inBody) fun t => answers .bufferOutOfBounds .none t && t.phase == .idle := by decide
/-- R250: `P(1,2)` copies the byte it has just written. -/
theorem test_pairDemo :
    nextHas (exec (.pairDemo 1#10 2#6) inBody) fun t => t.byte? 1 2 == some 0x42#8 && t.byte? 1 3 == some 0x42#8 := by decide
/-- V-DEC-6: a source before OUT. -/
theorem test_pairDemo_bounds :
    nextHas (exec (.pairDemo 3#10 2#6) inBody) fun t => answers .bufferOutOfBounds .none t := by decide
/-- R108: the decoder ignores the padding. -/
theorem test_pad : nextHas (exec (.pad 6) inBody) fun t => t == inBody := by decide
/-- R221, R222: the final flush without room. -/
theorem test_pad_full :
    nextHas (exec (.pad 5) (inScan .encTail 3 5#8 3)) fun t =>
      answers .bufferOutOfBounds .none t && t.phase == .idle && (t.buf? 0).map Buffer.length == some 0 := by decide
/-- R154: the encoder's padding of `1 0 1` is the byte A0. -/
theorem test_pad_write :
    nextHas (exec (.pad 5) (inScan .encTail 1 5#8 3)) fun t => t.byte? 0 1 == some 0xA0#8 && regs t == some (2, 0#8, 0) := by decide

/-! ### STATUS, the step, the placing of a table word -/

/-- R281. -/
theorem test_status_numbers :
    [Status.ok, .noOp, .bufferOutOfBounds, .couldNotAllocate, .wrongOutputSize].map Status.code = [0#3, 1#3, 2#3, 3#3, 4#3] := by
  decide
/-- R55: the host changes a byte that the stream has pulled; the stream still holds the old one. -/
theorem test_change :
    nextHas (step { reader [0xA0#8] 1 0xA0#8 7 with requests := [.change 0 1 [(0, 0x55#8)]] }) fun t =>
      t.byte? 0 0 == some 0x55#8 && regs t == some (1, 0xA0#8, 7) && t.requests == [] := by decide
/-- R31: a logical length above the capacity is refused. -/
theorem test_change_length :
    refusal (step { reader [0xA0#8] 1 0xA0#8 7 with requests := [.change 0 2 []] }) = some .badBuffer := by decide
/-- A placed command runs as the first instruction after reset. -/
theorem test_place_command :
    nextHas (step (State.reset.withFetchWord 8 7)) fun t => answers .ok (.word 0#32) t && t.requests == [] := by decide
/-- A placed literal runs in a decode call. -/
theorem test_place_literal :
    nextHas (step (State.reset.withFetchWord 16 0x41)) fun t => t.index == 1 && t.byte? 1 0 == some 0x41#8 := by decide
/-- A placed pair: its copy starts before OUT, which is the error of R252. -/
theorem test_place_pair :
    nextHas (step (State.reset.withFetchWord 24 0x10041)) fun t => answers .bufferOutOfBounds .none t := by decide
/-- A placed group enters the loop registers. -/
theorem test_place_group :
    nextHas (step (State.reset.withFetchWord 8 0x81)) fun t => t.vlq == ⟨1#32, 7, false⟩ && t.phase == .decGroups := by decide
/-- A number that is no instruction is refused. -/
theorem test_place_none :
    refusal (step (State.reset.withFetchWord 8 15)) = some (.undecodable .unassignedCommand) := by decide

/-! ### Witnesses: for each statement with hypotheses, a state and operands that meet them all, clause by clause -/

/-- The state a placed stream of bits gives: a decode call at a slot, under the demonstration Config. -/
def call (slot : Slot) (l : List Bool) : State := State.reset.withStreamBits demo slot l

/-- The stream of such a state, at its start. -/
def callBs : BitStream := BitStream.fresh 0 .R

/-- The stream of `writer` and of `reader`. -/
def streamOf (s : State) : BitStream := s.bs.getD callBs

/-- The buffer of a stream over buffer 0. -/
def bufOf (s : State) : Buffer := s.mem.getD 0 standIn

theorem witness_IdleBlockWaitsForACall : State.reset.phase = .idle ∧ State.reset.requests = [] := by decide

theorem witness_StepRunsTheRequestedCommand :
    (decodeCommand 10#4 [.nat 5] = .ok (.upperBound 5)) ∧ (decodeCommand 15#4 [] = .error .unassignedCommand) ∧
      { State.reset with requests := [.call 10#4 [.nat 5]] }.phase = .idle := by decide

/-- A group, a header and a token at the start of IN. -/
theorem witness_StepRunsTheDecodedUnit_units :
    (∀ p ∈ [(Slot.group, bits [1, 0, 0, 0, 0, 0, 0, 1]), (Slot.header, bits [0, 0, 0, 0, 1, 0, 1, 0]),
        (Slot.token, bits [0, 0, 1, 0, 0, 0, 0, 0])],
      (call p.1 p.2).cfg = some demo ∧ (call p.1 p.2).bs = some callBs ∧ (call p.1 p.2).phase = slotPhase p.1) ∧
    (call .group (bits [1, 0, 0, 0, 0, 0, 0, 1])).Live .R callBs (bufOf (call .group (bits [1, 0, 0, 0, 0, 0, 0, 1]))) ∧
    callBs.Inv (bufOf (call .group (bits [1, 0, 0, 0, 0, 0, 0, 1]))) ∧
    decodeAt demo .group
        (.stream (unreadBits callBs (bufOf (call .group (bits [1, 0, 0, 0, 0, 0, 0, 1]))))) = .ok (.vlqCont 1#7, []) ∧
    decodeAt demo .header
        (.stream (unreadBits callBs (bufOf (call .header (bits [0, 0, 0, 0, 1, 0, 1, 0]))))) = .ok (.hdr 10#32, []) ∧
    (call .header (bits [0, 0, 0, 0, 1, 0, 1, 0])).vlq.stopped = false ∧
    decodeAt demo .token
        (.stream (unreadBits callBs (bufOf (call .token (bits [0, 0, 1, 0, 0, 0, 0, 0, 1, 0, 0, 0, 0, 0, 0, 0]))))) =
      .ok (.literal 0x41#8, bits [0, 0, 0, 0, 0, 0, 0]) := by
  refine ⟨by decide, ⟨rfl, rfl, rfl, rfl⟩, ⟨by decide, fun _ => ⟨by decide, fun h => by cases h⟩⟩, ?_, ?_, ?_, ?_⟩ <;> decide

/-- Seven bits left where a group, a header or a token should stand. -/
theorem witness_StepRunsTheDecodedUnit_cut :
    (∀ p ∈ [(Phase.decGroups, Slot.group), (Phase.decHeader, Slot.header), (Phase.decBody, Slot.token)],
      (decodedInstr (decodeAt demo p.2 (.stream (bits [0, 0, 0, 0, 0, 0, 0]))) = none) ∧
      nextHas (step { withBs (call p.2 (bits [0, 0, 0, 0, 0, 0, 0, 0])) .R 1 0#8 7 with phase := p.1 })
        fun t => answers .bufferOutOfBounds .none t && t.phase == .idle && t.bs == none) ∧
      (withBs (call .token (bits [0, 0, 0, 0, 0, 0, 0, 0])) .R 1 0#8 7).cfg = some demo ∧
      (withBs (call .token (bits [0, 0, 0, 0, 0, 0, 0, 0])) .R 1 0#8 7).vlq.stopped = false ∧
      unreadBits (streamOf (withBs (call .token (bits [0, 0, 0, 0, 0, 0, 0, 0])) .R 1 0#8 7))
        (bufOf (call .token (bits [0, 0, 0, 0, 0, 0, 0, 0]))) = bits [0, 0, 0, 0, 0, 0, 0] := by
  decide

/-- A header already read by groups, and the end of a decode call. -/
theorem witness_StepRunsTheDecodedUnit_ends :
    ({ call .header [] with vlq := ⟨10#32, 7, true⟩ } : State).phase = .decHeader ∧
      ({ call .header [] with vlq := ⟨10#32, 7, true⟩ } : State).vlq.stopped = true ∧
      (call .padding (bits [0])).phase = .decTail ∧
      (call .padding (bits [0])).Live .R callBs (bufOf (call .padding (bits [0]))) :=
  ⟨rfl, rfl, rfl, rfl, rfl, rfl, rfl⟩

/-- An encode call at its header, its scan and its end; at index 1 of `41 42 43` no pair is chosen, at index 1 of `41 x10` one is. -/
theorem witness_StepRunsTheChosenUnit :
    (∀ p ∈ [Phase.encHeader, .encBody, .encTail],
      (inScan p 0 0#8 0).cfg = some ⟨4, 3, 2⟩ ∧ (inScan p 0 0#8 0).inBuf = some 1 ∧
      (inScan p 0 0#8 0).buf? 1 = some (bufferOf [0x41#8, 0x42#8, 0x43#8] 7) ∧ (inScan p 0 0#8 0).phase = p ∧
      (inScan p 0 0#8 0).index < (bufferOf [0x41#8, 0x42#8, 0x43#8] 7).length) ∧
    (inScan .encTail 0 0#8 0).Live .W (streamOf (inScan .encTail 0 0#8 0)) (bufferOf [0, 0, 0] 8) ∧
    (findMatch (bufferOf [0x41#8, 0x42#8, 0x43#8] 7) 1 ⟨4, 3, 2⟩ 0).length = 0 ∧
    findMatch (bufferOf tenA 7) 1 demo 0 = ⟨1, 9⟩ := by
  refine ⟨by decide, ⟨rfl, rfl, rfl, rfl⟩, by decide, by decide⟩

theorem witness_PlacesFollowTheScan :
    inBody.phase = .decBody ∧ (inScan .encBody 0 0#8 0).phase = .encBody ∧ (inScan .encBody 0 0#8 0).inBuf = some 1 ∧
      (inScan .encBody 0 0#8 0).buf? 1 = some (bufferOf [0x41#8, 0x42#8, 0x43#8] 7) ∧
      { inBody with phase := .decTail }.outBuf = some 1 ∧ (inBody.buf? 1).isSome = true ∧
      (inScan .encTail 0 0#8 0).outBuf = some (streamOf (inScan .encTail 0 0#8 0)).buf ∧
      (inScan .encTail 0 0#8 0).Live .W (streamOf (inScan .encTail 0 0#8 0)) (bufferOf [0, 0, 0] 8) := by
  refine ⟨rfl, rfl, rfl, rfl, rfl, rfl, rfl, ⟨rfl, rfl, rfl, rfl⟩⟩

/-- A command, the padding, and both pair rows at the ends of their ranges. -/
theorem witness_DecodeOfEncode :
    (Instr.upperBound 0).WellFormed demo = true ∧ (Instr.pad 7).WellFormed demo = true ∧
      (Instr.pair 15 7).WellFormed ⟨4, 3, 2⟩ = true ∧ (Instr.pair 0 0).WellFormed ⟨0, 0, 1⟩ = true ∧
      (Instr.pairDemo 1023#10 63#6).WellFormed demo = true ∧ (Instr.hdr 4294967295#32).WellFormed demo = true := by decide

theorem witness_EncodeOfDecode :
    decodeToken ⟨4, 2, 2⟩ (bits [1, 0, 0, 0, 1, 1, 1, 0]) = .ok (.pair 1 3, bits [0]) ∧
      decodeGroup (bits [1, 0, 0, 0, 0, 0, 0, 1]) = .ok (.vlqCont 1#7, []) ∧
      decodeCommand 14#4 [.cfg demo, .buf 2] = .ok (.decode demo 2) := by decide

/-- At the values where the number of groups changes. -/
theorem witness_VlqIsTheShortestForm :
    (vlqGroups 5 (0#32).toNat).getLast? = some 0#8 ∧ (vlqGroups 5 (127#32).toNat).getLast? = some 127#8 ∧
      (vlqGroups 5 (128#32).toNat).getLast? = some 1#8 ∧ (vlqGroups 5 (4294967295#32).toNat).getLast? = some 15#8 := by decide

theorem witness_BsCreateMakesAFreshStream : (mk [[]]).buf? 0 = some (bufferOf [] 7) := rfl

/-- The stream of `writer` is at an operation boundary when its accumulator fits its count. -/
theorem writer_inv {position count : Nat} {acc : Byte} (h1 : position ≤ 4) (h2 : count ≤ 7) (h3 : acc.toNat < 2 ^ count) :
    (streamOf (writer position acc count)).Inv (bufOf (writer position acc count)) :=
  ⟨h1, fun _ => ⟨h2, fun _ => h3⟩⟩

theorem writer_live (position count : Nat) (acc : Byte) :
    (writer position acc count).Live .W (streamOf (writer position acc count)) (bufOf (writer position acc count)) :=
  ⟨rfl, rfl, rfl, rfl⟩

theorem reader_live (l : List Byte) (position count : Nat) (acc : Byte) :
    (reader l position acc count).Live .R (streamOf (reader l position acc count)) (bufOf (reader l position acc count)) :=
  ⟨rfl, rfl, rfl, rfl⟩

theorem reader_inv {l : List Byte} {position count : Nat} {acc : Byte} (h1 : position ≤ l.length) (h2 : count ≤ 7) :
    (streamOf (reader l position acc count)).Inv (bufOf (reader l position acc count)) :=
  ⟨h1, fun _ => ⟨h2, fun h => by cases h⟩⟩

/-- Six bits pending; seven bits pending and the last byte of the buffer free; seven bits pending on a full buffer. -/
theorem witness_WriteBitShiftsIn :
    ((writer 4 63#8 6).Live .W (streamOf (writer 4 63#8 6)) (bufOf (writer 4 63#8 6)) ∧
      (streamOf (writer 4 63#8 6)).Inv (bufOf (writer 4 63#8 6)) ∧ (streamOf (writer 4 63#8 6)).bitCount < 7) ∧
    ((writer 3 127#8 7).Live .W (streamOf (writer 3 127#8 7)) (bufOf (writer 3 127#8 7)) ∧
      (streamOf (writer 3 127#8 7)).Inv (bufOf (writer 3 127#8 7)) ∧ (streamOf (writer 3 127#8 7)).bitCount = 7 ∧
      (streamOf (writer 3 127#8 7)).position < (bufOf (writer 3 127#8 7)).capacity) ∧
    ((writer 4 0#8 7).Live .W (streamOf (writer 4 0#8 7)) (bufOf (writer 4 0#8 7)) ∧
      (streamOf (writer 4 0#8 7)).Inv (bufOf (writer 4 0#8 7)) ∧ (streamOf (writer 4 0#8 7)).bitCount = 7 ∧
      (bufOf (writer 4 0#8 7)).capacity ≤ (streamOf (writer 4 0#8 7)).position ∧ (writer 4 0#8 7).phase = .idle) :=
  ⟨⟨writer_live _ _ _, writer_inv (by decide) (by decide) (by decide), by decide⟩,
    ⟨writer_live _ _ _, writer_inv (by decide) (by decide) (by decide), by decide, by decide⟩,
    ⟨writer_live _ _ _, writer_inv (by decide) (by decide) (by decide), by decide, by decide, rfl⟩⟩

/-- A field of 32 bits that fills the buffer. -/
theorem witness_WriteFieldAppendsMsbFirst :
    (writer 0 0#8 0).Live .W (streamOf (writer 0 0#8 0)) (bufOf (writer 0 0#8 0)) ∧
      (streamOf (writer 0 0#8 0)).Inv (bufOf (writer 0 0#8 0)) ∧
      (streamOf (writer 0 0#8 0)).position + ((streamOf (writer 0 0#8 0)).bitCount + 32) / 8 ≤
        (bufOf (writer 0 0#8 0)).capacity :=
  ⟨writer_live _ _ _, writer_inv (by decide) (by decide) (by decide), by decide⟩

theorem witness_WriteVlqAppendsGroups :
    (writer 1 7#8 3).Live .W (streamOf (writer 1 7#8 3)) (bufOf (writer 1 7#8 3)) ∧
      (streamOf (writer 1 7#8 3)).Inv (bufOf (writer 1 7#8 3)) ∧ IsVlqOf (300#32).toNat [0xAC#8, 0x02#8] ∧
      (streamOf (writer 1 7#8 3)).position + ((streamOf (writer 1 7#8 3)).bitCount + 8 * [0xAC#8, 0x02#8].length) / 8 ≤
        (bufOf (writer 1 7#8 3)).capacity :=
  ⟨writer_live _ _ _, writer_inv (by decide) (by decide) (by decide), ⟨by decide, by decide, by decide, by decide⟩, by decide⟩

/-- Both ends: room for the field, and none for its last byte. -/
theorem witness_WritesFailExactlyWithoutRoom :
    (∀ n ∈ [3, 4], (writer n 7#8 3).phase = .idle ∧ (appended (.writeUint32 5#32 8)).isSome = true) ∧
      (writer 3 7#8 3).Live .W (streamOf (writer 3 7#8 3)) (bufOf (writer 3 7#8 3)) ∧
      (streamOf (writer 3 7#8 3)).Inv (bufOf (writer 3 7#8 3)) ∧
      (writer 4 7#8 3).Live .W (streamOf (writer 4 7#8 3)) (bufOf (writer 4 7#8 3)) ∧
      (streamOf (writer 4 7#8 3)).Inv (bufOf (writer 4 7#8 3)) ∧
      nextHas (exec (.writeUint32 5#32 8) (writer 3 7#8 3)) (answers .ok .none) = true ∧
      nextHas (exec (.writeUint32 5#32 8) (writer 4 7#8 3)) (answers .bufferOutOfBounds .none) = true :=
  ⟨by decide, writer_live _ _ _, writer_inv (by decide) (by decide) (by decide), writer_live _ _ _,
    writer_inv (by decide) (by decide) (by decide), by decide, by decide⟩

/-- A bit left in the accumulator; the last byte to pull; nothing left. -/
theorem witness_ReadBitTakesTheNextBit :
    (reader [0xA0#8] 1 0xA0#8 1).Live .R (streamOf (reader [0xA0#8] 1 0xA0#8 1)) (bufOf (reader [0xA0#8] 1 0xA0#8 1)) ∧
      (streamOf (reader [0xA0#8] 1 0xA0#8 1)).bitCount ≠ 0 ∧
      (reader [0xA0#8] 0 0#8 0).Live .R (streamOf (reader [0xA0#8] 0 0#8 0)) (bufOf (reader [0xA0#8] 0 0#8 0)) ∧
      (streamOf (reader [0xA0#8] 0 0#8 0)).position < (bufOf (reader [0xA0#8] 0 0#8 0)).capacity ∧
      (reader [0xA0#8] 1 0xA0#8 0).Live .R (streamOf (reader [0xA0#8] 1 0xA0#8 0)) (bufOf (reader [0xA0#8] 1 0xA0#8 0)) ∧
      (bufOf (reader [0xA0#8] 1 0xA0#8 0)).capacity ≤ (streamOf (reader [0xA0#8] 1 0xA0#8 0)).position ∧
      (reader [0xA0#8] 1 0xA0#8 0).phase = .idle :=
  ⟨reader_live _ _ _ _, by decide, reader_live _ _ _ _, by decide, reader_live _ _ _ _, by decide, rfl⟩

/-- V-BF-12: eight bits are left; a field of 8 is taken, a field of 9 is cut. -/
theorem witness_ReadFieldTakesMsbFirst :
    (reader [0x50#8] 0 0#8 0).Live .R (streamOf (reader [0x50#8] 0 0#8 0)) (bufOf (reader [0x50#8] 0 0#8 0)) ∧
      (streamOf (reader [0x50#8] 0 0#8 0)).Inv (bufOf (reader [0x50#8] 0 0#8 0)) ∧
      (unreadBits (streamOf (reader [0x50#8] 0 0#8 0)) (bufOf (reader [0x50#8] 0 0#8 0))).length = 8 ∧
      (reader [0x50#8] 0 0#8 0).phase = .idle :=
  ⟨reader_live _ _ _ _, reader_inv (by decide) (by decide), by decide, rfl⟩

/-- Nothing pending on a full buffer; bits pending with the last byte free; bits pending on a full buffer; an `R` stream. -/
theorem witness_FlushPadsWithZeros :
    ((writer 4 0#8 0).Live .W (streamOf (writer 4 0#8 0)) (bufOf (writer 4 0#8 0)) ∧
      (streamOf (writer 4 0#8 0)).Inv (bufOf (writer 4 0#8 0)) ∧ (streamOf (writer 4 0#8 0)).bitCount = 0) ∧
    ((writer 3 5#8 3).Live .W (streamOf (writer 3 5#8 3)) (bufOf (writer 3 5#8 3)) ∧
      (streamOf (writer 3 5#8 3)).Inv (bufOf (writer 3 5#8 3)) ∧ 0 < (streamOf (writer 3 5#8 3)).bitCount ∧
      (streamOf (writer 3 5#8 3)).position < (bufOf (writer 3 5#8 3)).capacity) ∧
    ((writer 4 5#8 3).Live .W (streamOf (writer 4 5#8 3)) (bufOf (writer 4 5#8 3)) ∧
      (streamOf (writer 4 5#8 3)).Inv (bufOf (writer 4 5#8 3)) ∧ 0 < (streamOf (writer 4 5#8 3)).bitCount ∧
      (bufOf (writer 4 5#8 3)).capacity ≤ (streamOf (writer 4 5#8 3)).position ∧ (writer 4 5#8 3).phase = .idle) ∧
    ((reader [] 0 0#8 0).Live .R (streamOf (reader [] 0 0#8 0)) (bufOf (reader [] 0 0#8 0)) ∧
      (streamOf (reader [] 0 0#8 0)).Inv (bufOf (reader [] 0 0#8 0))) :=
  ⟨⟨writer_live _ _ _, writer_inv (by decide) (by decide) (by decide), by decide⟩,
    ⟨writer_live _ _ _, writer_inv (by decide) (by decide) (by decide), by decide, by decide⟩,
    ⟨writer_live _ _ _, writer_inv (by decide) (by decide) (by decide), by decide, by decide, rfl⟩,
    ⟨reader_live _ _ _ _, reader_inv (by decide) (by decide)⟩⟩

/-- V-BF-7: its fields, in a buffer of six bytes. -/
theorem witness_FieldsRoundTrip :
    (mk [[0, 0, 0, 0, 0, 0]]).buf? 0 = some (bufferOf [0, 0, 0, 0, 0, 0] 7) ∧
      (∀ f ∈ [((5 : Word), 3), (0x141, 10), (0xFFFFFFFF, 32), (0, 1)], f.2 ≤ 32 ∧ f.1.toNat < 2 ^ f.2) ∧
      ([((5 : Word), 3), (0x141, 10), (0xFFFFFFFF, 32), (0, 1)].map Prod.snd).sum ≤ 8 * 6 := by
  refine ⟨rfl, by decide, by decide⟩

theorem witness_ProducedByteCount :
    (mk [[0, 0]]).buf? 0 = some (bufferOf [0, 0] 7) ∧
      (∀ p ∈ [(Instr.writeBit 1#32, bits [1]), (.writeUint32 5#32 8, bits [0, 0, 0, 0, 0, 1, 0, 1])], appended p.1 = some p.2) ∧
      byteCount ([(Instr.writeBit 1#32, bits [1]), (.writeUint32 5#32 8, bits [0, 0, 0, 0, 0, 1, 0, 1])].flatMap
        Prod.snd).length ≤ 2 := by
  refine ⟨rfl, by decide, by decide⟩

/-- A read and a write that raise, and a dead stream. -/
theorem witness_ErrorsKillTheStream :
    (∃ t, exec .readBit (reader [] 0 0#8 0) = .next t ∧ (t.status != .ok) = true) ∧
      (∃ t, exec (.writeBit 0#32) (writer 4 0#8 7) = .next t ∧ (t.status != .ok) = true) ∧
      (BitStream.kill callBs 0).dead = true ∧ (Instr.readUint32 32).WellFormed demo = true :=
  ⟨nextHas_spec (p := fun t => t.status != .ok) (by decide), nextHas_spec (p := fun t => t.status != .ok) (by decide), rfl,
    by decide⟩

theorem witness_DirectionIsChecked :
    (reader [] 0 0#8 0).Live .R (streamOf (reader [] 0 0#8 0)) (bufOf (reader [] 0 0#8 0)) ∧
      (writer 0 0#8 0).Live .W (streamOf (writer 0 0#8 0)) (bufOf (writer 0 0#8 0)) ∧
      (Instr.writeUint32 0#32 32).WellFormed demo = true ∧ (Instr.readUint32 32).WellFormed demo = true :=
  ⟨reader_live _ _ _ _, writer_live _ _ _, by decide, by decide⟩

theorem witness_StreamOperationsFrame :
    (∃ t, exec (.bsCreate 0 .W) (mk [[]]) = .next t ∧ (t.status == .ok) = true) ∧
    (writer 3 5#8 3).bs = some (streamOf (writer 3 5#8 3)) ∧
      (writer 3 5#8 3).buf? (streamOf (writer 3 5#8 3)).buf = some (bufOf (writer 3 5#8 3)) ∧
      (streamOf (writer 3 5#8 3)).Inv (bufOf (writer 3 5#8 3)) ∧ (writer 3 5#8 3).phase = .idle ∧
      (∃ t, exec (.write7bitUint32 300#32) (writer 3 5#8 3) = .next t ∧ (t.status == .bufferOutOfBounds) = true) ∧
      (∃ t, exec .flushPartial (writer 3 5#8 3) = .next t ∧ (t.status == .ok) = true) :=
  ⟨nextHas_spec (p := fun t => t.status == .ok) (by decide), rfl, rfl,
    writer_inv (by decide) (by decide) (by decide), rfl, nextHas_spec (p := fun t => t.status == .bufferOutOfBounds) (by decide),
    nextHas_spec (p := fun t => t.status == .ok) (by decide)⟩

/-- V-VLQ-6: five groups, the fifth with its continuation flag set, and a byte after them. -/
def fiveGroups : List Byte := [0xFF#8, 0xFF#8, 0xFF#8, 0xFF#8, 0xFF#8]

theorem fiveGroups_read : IsReadVlq fiveGroups :=
  ⟨by decide, by decide, by
    intro k hk
    have h : k = 0 ∨ k = 1 ∨ k = 2 ∨ k = 3 := by simp [fiveGroups] at hk; omega
    rcases h with rfl | rfl | rfl | rfl <;> decide, fun h => absurd h (by decide)⟩

/-- A one-group VLQ. -/
theorem oneGroup_read {g : Byte} (h : contFlag g = false) : IsReadVlq [g] :=
  ⟨by simp, by simp, fun k hk => by simp at hk, fun _ => h⟩

theorem witness_ReadVlqAssemblesGroups :
    (reader (fiveGroups ++ [1#8]) 0 0#8 0).Live .R (streamOf (reader (fiveGroups ++ [1#8]) 0 0#8 0))
        (bufOf (reader (fiveGroups ++ [1#8]) 0 0#8 0)) ∧
      (streamOf (reader (fiveGroups ++ [1#8]) 0 0#8 0)).Inv (bufOf (reader (fiveGroups ++ [1#8]) 0 0#8 0)) ∧
      IsReadVlq fiveGroups ∧
      unreadBits (streamOf (reader (fiveGroups ++ [1#8]) 0 0#8 0)) (bufOf (reader (fiveGroups ++ [1#8]) 0 0#8 0)) =
        fiveGroups.flatMap (fun g => fieldBits g.toNat 8) ++ bits [0, 0, 0, 0, 0, 0, 0, 1] :=
  ⟨reader_live _ _ _ _, reader_inv (by decide) (by decide), fiveGroups_read, by decide⟩

/-- V-VLQ-7: the bits end after one group that says more follow; and the other side, a whole VLQ. -/
theorem witness_ReadVlqFailsExactlyAtTheEnd :
    ((reader [0x80#8] 0 0#8 0).Live .R (streamOf (reader [0x80#8] 0 0#8 0)) (bufOf (reader [0x80#8] 0 0#8 0)) ∧
      (streamOf (reader [0x80#8] 0 0#8 0)).Inv (bufOf (reader [0x80#8] 0 0#8 0)) ∧ (reader [0x80#8] 0 0#8 0).phase = .idle) ∧
    nextHas (exec .read7bitUint32 (reader [0x80#8] 0 0#8 0)) (answers .bufferOutOfBounds .none) = true ∧
    nextHas (exec .read7bitUint32 (reader [0x7F#8] 0 0#8 0)) (answers .ok (.word 127#32)) = true :=
  ⟨⟨reader_live _ _ _ _, reader_inv (by decide) (by decide), rfl⟩, by decide, by decide⟩

/-- V-VLQ-9: 300 behind one bit, in three bytes; and with nothing in front, in two. -/
theorem witness_VlqRoundTrip :
    (mk [[0, 0, 0]]).buf? 0 = some (bufferOf [0, 0, 0] 7) ∧ (∀ f ∈ [((1 : Word), 1)], f.2 ≤ 32 ∧ f.1.toNat < 2 ^ f.2) ∧
      byteCount (([((1 : Word), 1)].map Prod.snd).sum + 8 * (vlqGroups 5 (300#32).toNat).length) ≤
        (bufferOf [0, 0, 0] 7).capacity ∧
      byteCount (0 + 8 * (vlqGroups 5 (300#32).toNat).length) ≤ (bufferOf [0, 0] 7).capacity := by
  refine ⟨rfl, by decide, by decide, by decide⟩

/-- V-MF-4: in `41 41 41 41` at index 1 the kept candidate is 0 with run 3; in `41 42 43 44` no candidate has a run. -/
theorem witness_FindBestMatchKeepsTheLastLongestRun :
    demo.WellFormed = true ∧ (mk [List.replicate 4 0x41#8]).buf? 0 = some (bufferOf (List.replicate 4 0x41#8) 7) ∧
      1 + demo.minimumLength < (bufferOf (List.replicate 4 0x41#8) 7).length ∧
      (bufferOf (List.replicate 3 0x41#8) 7).length ≤ 1 + demo.minimumLength ∧
      IsKept (bufferOf (List.replicate 4 0x41#8) 7) 1 demo 0 3 ∧
      (∀ cand, 1 - (2 ^ demo.offsetBits - 1) ≤ cand → cand < 1 →
        IsRun (bufferOf [0x41#8, 0x42#8, 0x43#8, 0x44#8] 7) 1 cand 0) := by
  have run : IsRun (bufferOf (List.replicate 4 0x41#8) 7) 1 0 3 := by
    refine ⟨by decide, ?_, fun h => absurd h (by decide)⟩
    intro j hj
    have h : j = 0 ∨ j = 1 ∨ j = 2 := by omega
    rcases h with rfl | rfl | rfl <;> decide
  refine ⟨by decide, rfl, by decide, by decide, ⟨by decide, by decide, run, ?_⟩, ?_⟩
  · intro cand' r' _ h2 h3
    have h4 : 1 + r' ≤ 4 := h3.1
    omega
  · intro cand _ h2
    have h : cand = 0 := by omega
    subst h
    exact ⟨by decide, fun j hj => absurd hj (Nat.not_lt_zero j), fun _ => by decide⟩

theorem witness_FoundMatchIsAReference :
    (mk [tenA]).buf? 0 = some (bufferOf tenA 7) ∧
      ∃ t, exec (.findBestMatch 0 7 demo) (mk [tenA]) = .next t ∧ (0 < t.mtch.length : Bool) = true :=
  ⟨rfl, nextHas_spec (p := fun t => decide (0 < t.mtch.length)) (by decide)⟩

/-- Each limit of R210 from both sides. -/
theorem witness_CodecInitMakesTheConfig :
    (16 + 15 ≤ 31 ∧ 1 ≤ 1) ∧ 31 < 16 + 16 ∧ 0 < 1 := by decide

/-- An empty input, one of 2^32 bytes, and one of a byte whose allocation is refused. -/
theorem witness_EncodeStopsInOrder :
    demo.WellFormed = true ∧ (mk [[]]).buf? 0 = some (bufferOf [] 7) ∧ (bufferOf [] 7).length = 0 ∧
      ({ State.reset with mem := [{ capacity := 2 ^ 32, length := 2 ^ 32, cells := [], tag := 0 }] }.buf? 0).map
        Buffer.length = some (2 ^ 32) ∧
      ({ mk [[0x41#8]] with grants := [false] } : State).grants.head? = some false ∧ 1 ≤ (bufferOf [0x41#8] 7).length := by
  decide

/-- V-ENC-5, V-ENC-E1 and V-ENC-E3: the three ways `encode` ends. -/
theorem witness_EncodeFrame :
    (mk [tenA]).buf? 0 = some (bufferOf tenA 7) ∧ (bufferOf tenA 7).length ≤ (bufferOf tenA 7).capacity ∧
      (∃ t, exec (.encode demo 0) (mk [tenA]) = .next t ∧ (t.status == .ok) = true) ∧
      (∃ t, exec (.encode demo 0) (mk [[]]) = .next t ∧ (t.status == .noOp) = true) ∧
      (∃ t, exec (.encode ⟨16, 15, 1⟩ 0) (mk [[0x41#8, 0x41#8, 0x42#8, 0x41#8, 0x41#8]]) = .next t ∧
        (t.status == .bufferOutOfBounds) = true) :=
  ⟨rfl, by decide, nextHas_spec (p := fun t => t.status == .ok) (by decide),
    nextHas_spec (p := fun t => t.status == .noOp) (by decide),
    nextHas_spec (p := fun t => t.status == .bufferOutOfBounds) (by decide)⟩

/-- R213: (10, 6, 2) meets the condition, and (4, 4, 1) with equality (V-CFG-2). -/
theorem witness_EncodeFitsItsUpperBound :
    demo.WellFormed = true ∧ (bufferOf tenA 7).length ≤ (bufferOf tenA 7).capacity ∧ 1 ≤ (bufferOf tenA 7).length ∧
      (bufferOf tenA 7).length < 2 ^ 28 ∧ 1 + demo.offsetBits + demo.lengthBits ≤ 9 * demo.minimumLength ∧
      1 + 4 + 4 ≤ 9 * 1 ∧ (mk [tenA]).grants.head? = some true := by decide

theorem witness_EncodeWritesTheGreedyTokens :
    (mk [tenA]).buf? 0 = some (bufferOf tenA 7) ∧ (bufferOf tenA 7).length ≤ (bufferOf tenA 7).capacity ∧
      ∃ t, exec (.encode demo 0) (mk [tenA]) = .next t ∧ (t.status == .ok) = true :=
  ⟨rfl, by decide, nextHas_spec (p := fun t => t.status == .ok) (by decide)⟩

theorem witness_DecodeInvertsEncode :
    (mk [tenA]).buf? 0 = some (bufferOf tenA 7) ∧ (bufferOf tenA 7).length ≤ (bufferOf tenA 7).capacity ∧
      ∃ t, exec (.encode demo 0) (mk [tenA]) = .next t ∧ (t.status == .ok && t.grants.head? == some true) = true :=
  ⟨rfl, by decide, nextHas_spec (p := fun t => t.status == .ok && t.grants.head? == some true) (by decide)⟩

/-- An empty input, a header, a cut header. -/
theorem witness_PeekReadsTheHeader :
    (mk [[]]).buf? 0 = some (bufferOf [] 7) ∧ (bufferOf [] 7).length = 0 ∧
      (mk [[0x0A#8]]).buf? 0 = some (bufferOf [0x0A#8] 7) ∧ (bufferOf [0x0A#8] 7).length ≠ 0 ∧ IsReadVlq [0x0A#8] ∧
      (bufferOf [0x0A#8] 7).bits = [0x0A#8].flatMap (fun g => fieldBits g.toNat 8) ++ [] ∧
      nextHas (exec (.peekOriginalLength 0) (mk [[0x80#8]])) (answers .bufferOutOfBounds .none) = true :=
  ⟨rfl, rfl, rfl, by decide, oneGroup_read (by decide), by decide, by decide⟩

/-- The tokens of V-ENC-5. -/
def tenATokens : List Instr := [.literal 0x41#8, .pairDemo 1#10 9#6]

theorem tenA_stream :
    demo.WellFormed = true ∧ IsReadVlq [0x0A#8] ∧ (∀ i ∈ tenATokens, i.WellFormed demo = true) ∧
      (bufferOf tenAPacked 7).bits =
        [0x0A#8].flatMap (fun g => fieldBits g.toNat 8) ++ (unitBits demo tenATokens ++ bits [0, 0, 0, 0, 0, 0]) ∧
      expandTokens [] tenATokens = some tenA ∧ tenA.length = groupSum [0x0A#8] % 2 ^ 32 ∧ tenA ≠ [] :=
  ⟨by decide, oneGroup_read (by decide), by decide, by decide, by decide, by decide, by decide⟩

theorem witness_DecodeIntoExecutesTheTokens :
    (withRoom (mk [tenAPacked]) 10).buf? 0 = some (bufferOf tenAPacked 7) ∧
      (withRoom (mk [tenAPacked]) 10).buf? 1 = some { capacity := 10, length := 0, cells := [], tag := 9 } ∧
      (bufferOf tenAPacked 7).length ≠ 0 ∧ 10 = tenA.length ∧ expandTokens [] tenATokens = some tenA :=
  ⟨rfl, rfl, by decide, by decide, tenA_stream.2.2.2.2.1⟩

/-- V-DEC-14, V-DEC-15, V-DEC-16, V-DEC-5: each test of the order, and the one just past it. -/
theorem witness_DecodeIntoStopsBeforeWriting :
    demo.WellFormed = true ∧ (withRoom (mk [[]]) 10).buf? 0 = some (bufferOf [] 7) ∧
      (withRoom (mk [tenAPacked]) 0).buf? 1 = some { capacity := 0, length := 0, cells := [], tag := 9 } ∧
      (IsReadVlq [0x0A#8] ∧ groupSum [0x0A#8] % 2 ^ 32 ≠ 9 ∧ groupSum [0x0A#8] % 2 ^ 32 ≠ 11) ∧
      nextHas (exec (.decodeInto demo 0 1) (withRoom (mk [[0x80#8]]) 10)) (answers .bufferOutOfBounds .none) = true :=
  ⟨by decide, rfl, rfl, ⟨oneGroup_read (by decide), by decide, by decide⟩, by decide⟩

theorem witness_DecodeAllocatesTheDeclaredLength :
    (mk [tenAPacked]).buf? 0 = some (bufferOf tenAPacked 7) ∧ (bufferOf tenAPacked 7).length ≠ 0 ∧
      (mk [tenAPacked]).grants.head? = some true ∧ expandTokens [] tenATokens = some tenA :=
  ⟨rfl, by decide, rfl, tenA_stream.2.2.2.2.1⟩

/-- An empty input; a cut header; a header 0; a header 10 whose allocation is refused. -/
theorem witness_DecodeStopsInOrder :
    demo.WellFormed = true ∧ (bufferOf [] 7).length = 0 ∧
      nextHas (exec (.decode demo 0) (mk [[0x80#8]])) (answers .bufferOutOfBounds .none) = true ∧
      (IsReadVlq [0x00#8] ∧ groupSum [0x00#8] % 2 ^ 32 = 0) ∧
      (IsReadVlq [0x0A#8] ∧ groupSum [0x0A#8] % 2 ^ 32 ≠ 0) ∧
      ({ mk [tenAPacked] with grants := [false] } : State).grants.head? = some false :=
  ⟨by decide, by decide, by decide, ⟨oneGroup_read (by decide), by decide⟩, ⟨oneGroup_read (by decide), by decide⟩, rfl⟩

/-- V-DEC-12, last row: the Config (10, 6, 5). -/
theorem witness_MinimumLengthIsNotRead :
    1 ≤ 5 ∧ ∃ t, exec (.decodeInto ⟨10, 6, 2⟩ 0 1) (withRoom (mk [tenAPacked]) 10) = .next t ∧ (t.status == .ok) = true :=
  ⟨by decide, nextHas_spec (p := fun t => t.status == .ok) (by decide)⟩

/-- Each of the four calls gives a next state somewhere. -/
theorem witness_InputIsNeverWritten :
    (∃ t, exec (.encode demo 0) (mk [tenA]) = .next t ∧ (t.status == .ok) = true) ∧
      (∃ t, exec (.peekOriginalLength 0) (mk [tenAPacked]) = .next t ∧ (t.status == .ok) = true) ∧
      (∃ t, exec (.decodeInto demo 0 1) (withRoom (mk [tenAPacked]) 10) = .next t ∧ (t.status == .ok) = true) ∧
      (∃ t, exec (.decode demo 0) (mk [tenAPacked]) = .next t ∧ (t.status == .ok) = true) :=
  ⟨nextHas_spec (p := fun t => t.status == .ok) (by decide), nextHas_spec (p := fun t => t.status == .ok) (by decide),
    nextHas_spec (p := fun t => t.status == .ok) (by decide), nextHas_spec (p := fun t => t.status == .ok) (by decide)⟩

/-- The stream and OUT of `inBody`. -/
theorem inBody_call :
    inBody.Live .R { callBs with position := 1 } (bufferOf [0x04#8] 7) ∧ inBody.outBuf = some 1 ∧
      inBody.buf? 1 = some { capacity := 4, length := 0, cells := [(0, 0x41#8), (1, 0x42#8)], tag := 9 } :=
  ⟨⟨rfl, rfl, rfl, rfl⟩, rfl, rfl⟩

/-- OUT has capacity 4: the header values 4, and 3 and 5. -/
theorem witness_HdrChecksTheOutputSize :
    ({ inBody with phase := .decHeader } : State).Live .R { callBs with position := 1 } (bufferOf [0x04#8] 7) ∧
      ({ inBody with phase := .decHeader } : State).outBuf = some 1 ∧ (4#32).toNat = 4 ∧ (3#32).toNat ≠ 4 ∧ (5#32).toNat ≠ 4 :=
  ⟨⟨rfl, rfl, rfl, rfl⟩, rfl, by decide, by decide, by decide⟩

/-- The last byte of OUT is free. -/
theorem witness_LiteralStoresItsByte :
    ({ inBody with index := 3 } : State).Live .R { callBs with position := 1 } (bufferOf [0x04#8] 7) ∧
      ({ inBody with index := 3 } : State).outBuf = some 1 ∧ ({ inBody with index := 3 } : State).index < 4 :=
  ⟨⟨rfl, rfl, rfl, rfl⟩, rfl, by decide⟩

/-- Both limits at once: the offset reaches back to the first byte, the copy reaches the last one. -/
theorem witness_PairCopiesForward :
    inBody.Live .R { callBs with position := 1 } (bufferOf [0x04#8] 7) ∧ inBody.outBuf = some 1 ∧
      1 ≤ 2 ∧ 2 ≤ inBody.index ∧ inBody.index + 2 ≤ 4 ∧ (2#10).toNat = 2 ∧ (2#6).toNat = 2 :=
  ⟨inBody_call.1, rfl, by decide, by decide, by decide, by decide, by decide⟩

/-- Just past each limit. -/
theorem witness_PairOutOfBoundsEndsTheCall :
    inBody.Live .R { callBs with position := 1 } (bufferOf [0x04#8] 7) ∧ inBody.outBuf = some 1 ∧ inBody.phase = .decBody ∧
      0 < 1 ∧ inBody.index < 3 ∧ 4 < inBody.index + 3 ∧ (3#10).toNat = 3 ∧ (1#6).toNat = 1 :=
  ⟨inBody_call.1, rfl, rfl, by decide, by decide, by decide, by decide, by decide⟩

theorem witness_IrregularPairsRun :
    inBody.Live .R { callBs with position := 1 } (bufferOf [0x04#8] 7) ∧ inBody.outBuf = some 1 ∧
      inBody.index + 2 ≤ 4 ∧ (0#10).toNat = 0 ∧ (0#6).toNat = 0 :=
  ⟨inBody_call.1, rfl, by decide, by decide, by decide⟩

theorem witness_GroupsFillTheVlqRegisters :
    (reader [] 0 0#8 0).Live .R (streamOf (reader [] 0 0#8 0)) (bufOf (reader [] 0 0#8 0)) := reader_live _ _ _ _

theorem witness_PaddingIsIgnoredAndFlushed :
    ((reader [] 0 0#8 0).Live .R (streamOf (reader [] 0 0#8 0)) (bufOf (reader [] 0 0#8 0)) ∧
      (streamOf (reader [] 0 0#8 0)).Inv (bufOf (reader [] 0 0#8 0))) ∧
    ((writer 4 0#8 0).Live .W (streamOf (writer 4 0#8 0)) (bufOf (writer 4 0#8 0)) ∧
      (streamOf (writer 4 0#8 0)).Inv (bufOf (writer 4 0#8 0)) ∧ (streamOf (writer 4 0#8 0)).bitCount = 0) ∧
    ((writer 3 1#8 1).Live .W (streamOf (writer 3 1#8 1)) (bufOf (writer 3 1#8 1)) ∧
      (streamOf (writer 3 1#8 1)).Inv (bufOf (writer 3 1#8 1)) ∧ 0 < (streamOf (writer 3 1#8 1)).bitCount ∧
      (streamOf (writer 3 1#8 1)).position < (bufOf (writer 3 1#8 1)).capacity) :=
  ⟨⟨reader_live _ _ _ _, reader_inv (by decide) (by decide)⟩,
    ⟨writer_live _ _ _, writer_inv (by decide) (by decide) (by decide), by decide⟩,
    ⟨writer_live _ _ _, writer_inv (by decide) (by decide) (by decide), by decide, by decide⟩⟩

/-- The stream of `inScan`. -/
theorem inScan_stream {p : Phase} {position count : Nat} {acc : Byte} (h1 : position ≤ 3) (h2 : count ≤ 7)
    (h3 : acc.toNat < 2 ^ count) :
    (inScan p position acc count).Live .W (streamOf (inScan p position acc count)) (bufferOf [0, 0, 0] 8) ∧
      (streamOf (inScan p position acc count)).Inv (bufferOf [0, 0, 0] 8) :=
  ⟨⟨rfl, rfl, rfl, rfl⟩, h1, fun _ => ⟨h2, fun _ => h3⟩⟩

/-- A group, the header, a literal and a pair that fill OUT to its last bit. -/
theorem witness_TokensAppendTheirEncoding :
    ((inScan .encBody 1 127#8 7).Live .W (streamOf (inScan .encBody 1 127#8 7)) (bufferOf [0, 0, 0] 8) ∧
      (streamOf (inScan .encBody 1 127#8 7)).Inv (bufferOf [0, 0, 0] 8)) ∧
    (inScan .encBody 1 127#8 7).cfg = some ⟨4, 3, 2⟩ ∧
    (∀ i ∈ [Instr.vlqCont 1#7, .hdr 3#32, .literal 0x41#8, .pair 1 7],
      i.WellFormed ⟨4, 3, 2⟩ = true ∧ i.slot ≠ .padding ∧ decide (encode ⟨4, 3, 2⟩ i = .stream []) = false) ∧
    1 + (7 + 9) / 8 ≤ (bufferOf [0, 0, 0] 8).capacity :=
  ⟨inScan_stream (by decide) (by decide) (by decide), rfl, by decide, by decide⟩

/-- The same literal one byte further on; and at the end the padding of seven bits on a full OUT. -/
theorem witness_TokenWithoutRoomEndsTheCall :
    ((inScan .encBody 2 127#8 7).Live .W (streamOf (inScan .encBody 2 127#8 7)) (bufferOf [0, 0, 0] 8) ∧
      (streamOf (inScan .encBody 2 127#8 7)).Inv (bufferOf [0, 0, 0] 8)) ∧
    (inScan .encBody 2 127#8 7).outBuf = some (streamOf (inScan .encBody 2 127#8 7)).buf ∧
    (Instr.literal 0x41#8).WellFormed ⟨4, 3, 2⟩ = true ∧ (bufferOf [0, 0, 0] 8).capacity < 2 + (7 + 9) / 8 ∧
    ((inScan .encTail 3 127#8 7).Live .W (streamOf (inScan .encTail 3 127#8 7)) (bufferOf [0, 0, 0] 8) ∧
      (streamOf (inScan .encTail 3 127#8 7)).Inv (bufferOf [0, 0, 0] 8)) ∧
    (Instr.pad 1).slot = .padding ∧ 0 < (streamOf (inScan .encTail 3 127#8 7)).bitCount ∧
    (bufferOf [0, 0, 0] 8).capacity ≤ (streamOf (inScan .encTail 3 127#8 7)).position :=
  ⟨inScan_stream (by decide) (by decide) (by decide), rfl, by decide, by decide,
    inScan_stream (by decide) (by decide) (by decide), rfl, by decide, by decide⟩

/-- Outside a call, in a decode call, in an encode call. -/
theorem witness_ErrorEntry :
    State.reset.phase = .idle ∧ inBody.phase ≠ .idle ∧ inBody.outBuf ≠ some 0 ∧
      (inScan .encBody 0 0#8 0).phase ∈ [Phase.encHeader, .encBody, .encTail] ∧
      (inScan .encBody 0 0#8 0).buf? 0 = some (bufferOf [0, 0, 0] 8) ∧
      (takeError .bufferOutOfBounds (reader [] 0 0#8 0)).bs.map BitStream.dead = some true := by
  refine ⟨rfl, by decide, by decide, by decide, rfl, by decide⟩

theorem witness_StatusIsNeverRead : (Instr.decode demo 0).slot = .command := rfl

/-- The invariant holds in the middle of a decode call and of an encode call. -/
theorem inBody_inv : inBody.Inv where
  memory := by decide
  config := by intro c h; cases h; decide
  stream := by
    intro bs h
    cases h
    exact ⟨_, rfl, by decide, fun _ => ⟨by decide, fun h => by cases h⟩⟩
  call := ⟨_, _, ⟨0, 1, ⟨4, 3, 2⟩, _, rfl, rfl, by decide, rfl, ⟨rfl, rfl, rfl, rfl⟩, rfl, rfl⟩, by decide, by decide⟩

theorem inScan_inv : (inScan .encBody 1 0#8 0).Inv where
  memory := by decide
  config := by intro c h; cases h; decide
  stream := by
    intro bs h
    cases h
    exact ⟨_, rfl, by decide, fun _ => ⟨by decide, fun _ => by decide⟩⟩
  call := ⟨3, ⟨1, 0, ⟨4, 3, 2⟩, _, _, _, rfl, rfl, by decide, rfl, rfl, rfl, by decide, by decide, ⟨rfl, rfl, rfl, rfl⟩, rfl⟩,
    by decide⟩

/-- A step of a decode call that goes on, and one of an encode call. -/
theorem witness_StepKeepsTheInvariant :
    (inScan .encBody 1 0#8 0).Inv ∧ inBody.Inv ∧
      ∃ t, step (inScan .encBody 1 0#8 0) = .next t ∧ (t.phase == .encBody && t.index == 2) = true :=
  ⟨inScan_inv, inBody_inv, nextHas_spec (p := fun t => t.phase == .encBody && t.index == 2) (by decide)⟩

theorem witness_EveryCallReturns : inBody.Inv ∧ inBody.phase ≠ .idle := ⟨inBody_inv, by decide⟩

theorem witness_CallKeepsConfigAndInput :
    (inScan .encBody 1 0#8 0).Inv ∧ (inScan .encBody 1 0#8 0).phase ≠ .idle ∧
      ∃ t, step (inScan .encBody 1 0#8 0) = .next t ∧ (t.cfg == some ⟨4, 3, 2⟩) = true :=
  ⟨inScan_inv, by decide, nextHas_spec (p := fun t => t.cfg == some ⟨4, 3, 2⟩) (by decide)⟩

theorem witness_StepwiseDecodeIsDecodeInto :
    ({ withRoom (mk [tenAPacked]) 10 with requests := [.decodeStepwise true demo 0 1] } : State).phase = .idle ∧
      ∃ u, exec (.decodeInto demo 0 1) { withRoom (mk [tenAPacked]) 10 with requests := [] } = .next u ∧
        (u.status == .ok) = true :=
  ⟨rfl, nextHas_spec (p := fun t => t.status == .ok) (by decide)⟩

theorem witness_StepwiseEncodeIsEncode :
    ({ mk [tenA] with requests := [.encodeStepwise demo 0] } : State).phase = .idle ∧
      ∃ u, exec (.encode demo 0) { mk [tenA] with requests := [] } = .next u ∧ (u.status == .ok) = true :=
  ⟨rfl, nextHas_spec (p := fun t => t.status == .ok) (by decide)⟩

end Sys2Proof.Tests
end

section
/-! What a call in progress can do, one unit of the format at a time: what a unit leaves alone, that none is refused, and how
much of the call is left after it. -/

namespace Sys2Proof.Machine

/-! ### Frames -/

/-- What a step inside a call leaves alone, whether the call goes on or ends (R10, R18, R84). -/
structure CallFrame (s t : State) : Prop where
  cfg : t.cfg = s.cfg
  requests : t.requests = s.requests
  grants : t.grants = s.grants
  count : t.mem.length = s.mem.length
  others : ∀ j, s.outBuf ≠ some j → t.mem[j]? = s.mem[j]?

/-- What a unit of the format leaves alone inside a call: the frame of a step, the operands of the call and its place. -/
structure UnitFrame (s t : State) : Prop extends CallFrame s t where
  inBuf : t.inBuf = s.inBuf
  outBuf : t.outBuf = s.outBuf
  phase : t.phase = s.phase

theorem UnitFrame.refl (s : State) : UnitFrame s s := ⟨⟨rfl, rfl, rfl, rfl, fun _ _ => rfl⟩, rfl, rfl, rfl⟩

theorem UnitFrame.trans {s t u : State} (h : UnitFrame s t) (g : UnitFrame t u) : UnitFrame s u where
  cfg := g.cfg.trans h.cfg
  requests := g.requests.trans h.requests
  grants := g.grants.trans h.grants
  count := g.count.trans h.count
  others j hj := (g.others j (h.outBuf.symm ▸ hj)).trans (h.others j hj)
  inBuf := g.inBuf.trans h.inBuf
  outBuf := g.outBuf.trans h.outBuf
  phase := g.phase.trans h.phase

theorem UnitFrame.putStream (s : State) (x : Option BitStream) : UnitFrame s (s.putStream x) :=
  ⟨⟨rfl, rfl, rfl, rfl, fun _ _ => rfl⟩, rfl, rfl, rfl⟩

theorem UnitFrame.putOut {s : State} {o : BufId} (h : s.outBuf = some o) (b : Buffer) : UnitFrame s (s.putBuf o b) where
  cfg := rfl
  requests := rfl
  grants := rfl
  count := by simp
  others j hj := by
    have : o ≠ j := by rintro rfl; exact hj h
    simp [this]
  inBuf := rfl
  outBuf := rfl
  phase := rfl

/-- A unit may set the registers of the scan. -/
theorem UnitFrame.setScan {s t : State} (h : UnitFrame s t) (m : Match) (k : Nat) (d : Word) (v : VlqRegs) (n : Nat) :
    UnitFrame s { t with mtch := m, index := k, declared := d, vlq := v, draws := n } :=
  ⟨⟨h.cfg, h.requests, h.grants, h.count, h.others⟩, h.inBuf, h.outBuf, h.phase⟩

theorem outAfterError_length (k : Status) (s : State) : (s.outAfterError k).length = s.mem.length := by
  simpa using congrArg List.length (outAfterError_capacity k s)

/-- An error of a unit keeps the frame of the step (R291). -/
theorem UnitFrame.takeError {s t : State} (h : UnitFrame s t) (k : Status) : CallFrame s (takeError k t) where
  cfg := by simp [h.cfg]
  requests := by simp [h.requests]
  grants := by simp [h.grants]
  count := by simp [outAfterError_length, h.count]
  others j hj := by
    rw [takeError_mem, outAfterError_other k t (h.outBuf.symm ▸ hj)]
    exact h.others j hj

theorem UnitFrame.endCall {s t : State} (h : UnitFrame s t) (v : Ret) : CallFrame s (t.endCall v) :=
  ⟨h.cfg, h.requests, h.grants, h.count, h.others⟩

theorem UnitFrame.setPhase {s t : State} (h : UnitFrame s t) (p : Phase) : CallFrame s { t with phase := p } :=
  ⟨h.cfg, h.requests, h.grants, h.count, h.others⟩

/-! ### One unit -/

/-- One unit of a call: fetched or chosen, then executed. -/
def unitOf (get : State → Res Instr) (s : State) : Res Unit := (get s).bind fun t i => runUnit i t

/-- How a unit run in `s` ends: well, in a state with `P`, or with an error of the call; either way it keeps its frame. -/
def UnitEnds (s : State) (r : Res Unit) (P : State → Prop) : Prop :=
  (∃ t, r = .ok t () ∧ UnitFrame s t ∧ P t) ∨ ∃ k t, r = .raised k t ∧ UnitFrame s t

theorem UnitEnds.bind {s : State} {r : Res Unit} {P Q : State → Prop} (h : UnitEnds s r P) {g : State → State}
    (hg : ∀ t, UnitFrame s t → P t → UnitFrame s (g t) ∧ Q (g t)) : UnitEnds s (r.bind fun t _ => .ok (g t) ()) Q := by
  rcases h with ⟨t, rfl, hf, hp⟩ | ⟨k, t, rfl, hf⟩
  · exact .inl ⟨g t, rfl, hg t hf hp⟩
  · exact .inr ⟨k, t, rfl, hf⟩

theorem UnitEnds.of_frame {s t : State} {r : Res Unit} {P : State → Prop} (hf : UnitFrame s t) (h : UnitEnds t r P) :
    UnitEnds s r P := by
  rcases h with ⟨u, e, hu, hp⟩ | ⟨k, u, e, hu⟩
  · exact .inl ⟨u, e, hf.trans hu, hp⟩
  · exact .inr ⟨k, u, e, hf.trans hu⟩

/-! ### What stands at a place of a call (R109) -/

theorem decoded_slot {s t : State} {i : Instr} {r : Except DecodeError (Instr × List Bool)} (h : decoded s r = .ok t i) :
    ∃ rest, r = .ok (i, rest) := by
  unfold decoded at h
  split at h
  · cases h; exact ⟨_, rfl⟩
  · cases h

theorem fetchGroup_slot {s t : State} {i : Instr} (h : fetchGroup s = .ok t i) : i.slot = .group := by
  obtain ⟨u, xs, _, h⟩ := Res.bind_eq_ok h
  obtain ⟨rest, h⟩ := decoded_slot h
  unfold decodeGroup at h
  split at h
  · cases h
  · simp only [Except.ok.injEq, Prod.mk.injEq] at h
    obtain ⟨rfl, _⟩ := h
    split <;> rfl

theorem fetchHeader_slot {s t : State} {i : Instr} (h : fetchHeader s = .ok t i) : i.slot = .header := by
  unfold fetchHeader at h
  split at h
  · cases h; rfl
  · obtain ⟨u, gs, _, h⟩ := Res.bind_eq_ok h
    obtain ⟨rest, h⟩ := decoded_slot h
    unfold decodeHeader at h
    split at h <;> cases h
    rfl

theorem fetchToken_slot {s t : State} {i : Instr} (h : fetchToken s = .ok t i) : i.slot = .token := by
  unfold fetchToken withCallConfig at h
  split at h
  · cases h
  · obtain ⟨u, xs, _, h⟩ := Res.bind_eq_ok h
    obtain ⟨rest, h⟩ := decoded_slot h
    rcases decodeToken_slot h with ⟨_, rfl⟩ | ⟨_, _, rfl⟩ | ⟨_, _, rfl⟩ <;> rfl

theorem withStream_eq_ok {α : Type} {s t : State} {d : Dir} {k : BitStream → Buffer → Res α} {v : α}
    (h : withStream s d k = .ok t v) : ∃ bs b, s.Live d bs b ∧ k bs b = .ok t v := by
  rcases withStream_cases s d k with ⟨r, e⟩ | ⟨bs, b, hl, e⟩
  · rw [e] at h; cases h
  · exact ⟨bs, b, hl, e ▸ h⟩

theorem withInput_eq_ok {α : Type} {s t : State} {k : Buffer → Res α} {v : α} (h : withInput s k = .ok t v) :
    ∃ i b, s.inBuf = some i ∧ s.buf? i = some b ∧ k b = .ok t v := by
  unfold withInput withBuffer at h
  split at h
  · cases h
  · split at h
    · cases h
    · exact ⟨_, _, ‹_›, ‹_›, h⟩

theorem chooseToken_slot {s t : State} {i : Instr} (h : chooseToken s = .ok t i) : i.slot = .token := by
  unfold chooseToken withCallConfig at h
  split at h
  · cases h
  · obtain ⟨j, b, _, _, h⟩ := withInput_eq_ok h
    dsimp only at h
    split at h
    · cases h; exact mkPair_slot _ _ _
    · split at h <;> cases h
      rfl

/-- The unit at a place of a call is a row of the format (R109). -/
theorem nextUnit_slot {s t : State} {i : Instr} (h : nextUnit s = .ok t i) : i.slot ≠ .command := by
  unfold nextUnit at h
  split at h
  · cases h
  · rw [fetchGroup_slot h]; decide
  · rw [fetchHeader_slot h]; decide
  · rw [fetchToken_slot h]; decide
  · obtain ⟨_, _, _, h⟩ := withStream_eq_ok h; cases h; simp [Instr.slot]
  · obtain ⟨_, _, _, _, h⟩ := withInput_eq_ok h; cases h; simp [Instr.slot]
  · rw [chooseToken_slot h]; decide
  · obtain ⟨_, _, _, h⟩ := withStream_eq_ok h; cases h; simp [Instr.slot]

/-- No unit follows where no call is in progress. -/
theorem afterUnit_idle {s : State} (h : s.phase = .idle) : afterUnit s = .next s := by
  simp [afterUnit, State.advance, h]

/-- A step inside a call is its next unit, settled, and then the next place. -/
theorem step_call {s : State} (h : s.phase ≠ .idle) : step s = thenPlace (settleUnit (unitOf nextUnit s)) := by
  cases e : nextUnit s with
  | ok t i => rw [step_unit_of h e, exec_unit (nextUnit_slot e), unitOf, e, Res.bind_ok]
  | raised k t =>
    rw [step_raised_of h e, unitOf, e]
    exact (afterUnit_idle (takeError_phase k t)).symm
  | refused r => simp [step, h, stepUnit, unitOf, e, settleUnit, thenPlace]
  | stuck f => simp [step, h, stepUnit, unitOf, e, settleUnit, thenPlace]

theorem step_of_ok {s t : State} (h : s.phase ≠ .idle) (e : unitOf nextUnit s = .ok t ()) : step s = afterUnit t := by
  rw [step_call h, e]; rfl

theorem step_of_raised {s t : State} {k : Status} (h : s.phase ≠ .idle) (e : unitOf nextUnit s = .raised k t) :
    step s = .next (takeError k t) := by
  rw [step_call h, e]
  exact afterUnit_idle (takeError_phase k t)

/-- The step of a unit that is not refused: what follows the unit, or the end of the call. -/
theorem UnitEnds.step {s : State} {P : State → Prop} (h : UnitEnds s (unitOf nextUnit s) P) (hp : s.phase ≠ .idle) :
    (∃ t, Machine.step s = afterUnit t ∧ UnitFrame s t ∧ P t) ∨
    ∃ t, Machine.step s = .next t ∧ CallFrame s t ∧ t.phase = .idle := by
  rcases h with ⟨t, e, hf, ht⟩ | ⟨k, t, e, hf⟩
  · exact .inl ⟨t, step_of_ok hp e, hf, ht⟩
  · exact .inr ⟨_, step_of_raised hp e, hf.takeError k, takeError_phase k t⟩

/-! ### A decode call in progress -/

/-- A decode call in progress with its parts named: `State.DecodeCall`, its stream at an operation boundary. -/
structure DecodingWith (s : State) (c : Cfg) (i o : BufId) (bs : BitStream) (b bo : Buffer) : Prop where
  input : s.inBuf = some i
  output : s.outBuf = some o
  ne : i ≠ o
  config : s.cfg = some c
  live : s.Live .R bs b
  wraps : bs.buf = i
  dest : s.buf? o = some bo
  inv : bs.Inv b

/-- A decode call in progress that has `n` bits of its input left. -/
def State.Decoding (s : State) (n : Nat) : Prop :=
  ∃ c i o bs b bo, DecodingWith s c i o bs b bo ∧ (unreadBits bs b).length = n

theorem State.DecodeCall.decoding {s : State} {bs : BitStream} {bo : Buffer} (h : s.DecodeCall bs bo) (hs : s.StreamInv) :
    ∃ n, s.Decoding n := by
  obtain ⟨i, o, c, b, hi, ho, hne, hc, hl, hb, hd⟩ := h
  obtain ⟨b', hb', hinv⟩ := hs bs hl.1
  obtain rfl : b = b' := Option.some.inj (hl.2.2.2.symm.trans hb')
  exact ⟨_, c, i, o, bs, b, bo, ⟨hi, ho, hne, hc, hl, hb, hd, hinv⟩, rfl⟩

section
variable {s : State} {c : Cfg} {i o : BufId} {bs bs' : BitStream} {b bo : Buffer}

/-- The call goes on with its stream moved on. -/
theorem DecodingWith.putStream (h : DecodingWith s c i o bs b bo) (hb : bs'.buf = bs.buf) (hd : bs'.dir = .R)
    (hk : bs'.dead = false) (hi : bs'.Inv b) : DecodingWith (s.putStream (some bs')) c i o bs' b bo :=
  { h with live := live_putStream h.live hb hd hk, wraps := hb.trans h.wraps, inv := hi }

/-- The call goes on with OUT replaced. -/
theorem DecodingWith.putOut (h : DecodingWith s c i o bs b bo) (bo' : Buffer) :
    DecodingWith (s.putBuf o bo') c i o bs b bo' where
  input := h.input
  output := h.output
  ne := h.ne
  config := h.config
  live := by
    obtain ⟨h1, h2, h3, h4⟩ := h.live
    exact ⟨h1, h2, h3, (State.buf?_putBuf_other (by rw [h.wraps]; exact h.ne.symm)).trans h4⟩
  wraps := h.wraps
  dest := State.buf?_putBuf_same h.dest
  inv := h.inv

/-- The call goes on whatever the scan registers and the place. -/
theorem DecodingWith.setScan (h : DecodingWith s c i o bs b bo) (k : Nat) (d : Word) (v : VlqRegs) (p : Phase) :
    DecodingWith { s with index := k, declared := d, vlq := v, phase := p } c i o bs b bo :=
  ⟨h.input, h.output, h.ne, h.config, h.live, h.wraps, h.dest, h.inv⟩

theorem State.Decoding.setPhase {n : Nat} (h : s.Decoding n) (p : Phase) : ({ s with phase := p } : State).Decoding n := by
  obtain ⟨c, i, o, bs, b, bo, h, hn⟩ := h
  exact ⟨c, i, o, bs, b, bo, h.setScan s.index s.declared s.vlq p, hn⟩

/-- A header executed by the decoder: OUT's capacity is checked, the scan starts (R243, R245). -/
theorem DecodingWith.header (h : DecodingWith s c i o bs b bo) (v : Word) :
    UnitEnds s (runUnit (.hdr v) s) fun t => t.Decoding (unreadBits bs b).length := by
  have e : runUnit (.hdr v) s = readHdr v s := by simp only [runUnit, runHdr, byDirection_read h.live]
  rw [e, readHdr, withOutput_some h.output h.dest]
  split
  · exact .inr ⟨_, _, rfl, (UnitFrame.refl s).setScan s.mtch s.index v s.vlq s.draws⟩
  · exact .inl ⟨_, rfl, (UnitFrame.refl s).setScan s.mtch 0 v s.vlq s.draws,
      c, i, o, bs, b, bo, h.setScan 0 v s.vlq s.phase, rfl⟩

end

/-- A token executed by the decoder, fetched from the stream: it takes at least one bit (R20, R248 to R256). -/
theorem State.Decoding.token {s : State} {n : Nat} (h : s.Decoding n) :
    UnitEnds s (unitOf fetchToken s) fun t => t.declared = s.declared ∧ ∃ m < n, t.Decoding m := by
  obtain ⟨c, i, o, bs, b, bo, h, rfl⟩ := h
  rcases fetchToken_cases h.config h.live h.inv with ⟨tok, bs', e, hd, hlt, hb, hdir, hk, hi⟩ | ⟨_, bs', e, _⟩
  · have h' := h.putStream hb hdir hk hi
    have hf := UnitFrame.putStream s (some bs')
    rw [unitOf, e, Res.bind_ok]
    obtain ⟨bo', k, _, e | e⟩ := runUnit_token_cases h'.live h'.output h'.dest hd
    · exact .inl ⟨_, e, (hf.trans (.putOut h'.output bo')).setScan s.mtch k s.declared s.vlq s.draws, rfl,
        _, hlt, c, i, o, bs', b, bo', (h'.putOut bo').setScan k s.declared s.vlq s.phase, rfl⟩
    · exact .inr ⟨_, _, e, hf.trans (.putOut h'.output bo')⟩
  · exact .inr ⟨_, _, by rw [unitOf, e]; rfl, .putStream s _⟩

/-- The header, whole or already read group by group (R243). -/
theorem State.Decoding.header {s : State} {n : Nat} (h : s.Decoding n) :
    UnitEnds s (unitOf fetchHeader s) fun t => ∃ m ≤ n, t.Decoding m := by
  obtain ⟨c, i, o, bs, b, bo, h, rfl⟩ := h
  cases hv : s.vlq.stopped with
  | true =>
    have e : fetchHeader s = .ok s (.hdr s.vlq.result) := by simp [fetchHeader, hv]
    rw [unitOf, e, Res.bind_ok]
    rcases h.header s.vlq.result with ⟨t, e, hf, ht⟩ | ⟨k, t, e, hf⟩
    · exact .inl ⟨t, e, hf, _, Nat.le_refl _, ht⟩
    · exact .inr ⟨k, t, e, hf⟩
  | false =>
    rcases fetchHeader_cases hv h.live h.inv with ⟨gs, bs', e, _, hu, hb, hdir, hk, hi⟩ | ⟨bs', e, _⟩
    · rw [unitOf, e, Res.bind_ok]
      have hle : (unreadBits bs' b).length ≤ (unreadBits bs b).length := by simp [hu]
      refine .of_frame (.putStream s (some bs')) ?_
      rcases (h.putStream hb hdir hk hi).header (vlqValue 0#32 0 gs) with ⟨t, e, hf, ht⟩ | ⟨k, t, e, hf⟩
      · exact .inl ⟨t, e, hf, _, hle, ht⟩
      · exact .inr ⟨k, t, e, hf⟩
    · exact .inr ⟨_, _, by rw [unitOf, e]; rfl, .putStream s _⟩

/-! ### A group of the header -/

theorem groups_of_byte (g : Byte) :
    (contFlag g = true → contGroup (g.setWidth 7) = g) ∧ (contFlag g = false → lastGroup (g.setWidth 7) = g) := by
  revert g; decide

/-- Eight bits decode to the group they hold (R101). -/
theorem decodeGroup_byte {xs : List Bool} (h : xs.length = 8) :
    ∃ i rest, decodeGroup xs = .ok (i, rest) ∧ ∀ s, runUnit i s = runGroup (BitVec.ofNat 8 (bitsValue xs)) s := by
  obtain ⟨h1, h2⟩ := groups_of_byte (BitVec.ofNat 8 (bitsValue xs))
  have e := takeBits_append_of_length h []
  rw [List.append_nil] at e
  refine ⟨_, _, by rw [decodeGroup, e], fun s => ?_⟩
  split
  · rename_i hc; simp only [runUnit, h1 hc]
  · rename_i hc; simp only [runUnit, h2 (by simpa using hc)]

/-- Reading one group in a decode call: its byte enters the loop registers (R174), or the bits end inside it. -/
theorem unitOf_fetchGroup {s : State} {bs : BitStream} {b : Buffer} (h : s.Live .R bs b) :
    (∀ bs', pullField 8 bs b = .raised bs' →
      unitOf fetchGroup s = .raised .bufferOutOfBounds (s.putStream (some bs'))) ∧
    ∀ bs' v, pullField 8 bs b = .ok bs' v →
      unitOf fetchGroup s =
        .ok { s.putStream (some bs') with vlq := vlqAfter s.vlq (BitVec.ofNat 8 v) } () := by
  rcases pullBits_cases 8 bs b with ⟨bs1, _, e, _⟩ | ⟨xs, bs1, e, hl, _, hb, hd, hk, _⟩
  · have ef : pullField 8 bs b = .raised bs1 := by simp [pullField, e]
    refine ⟨fun bs' e' => ?_, fun bs' v e' => by rw [ef] at e'; cases e'⟩
    rw [ef] at e'
    cases e'
    rw [unitOf, fetchGroup, readStream_raised h e]
    rfl
  · have ef : pullField 8 bs b = .ok bs1 (bitsValue xs) := by simp [pullField, e]
    refine ⟨fun bs' e' => (by rw [ef] at e'; cases e'), fun bs' v e' => ?_⟩
    rw [ef] at e'
    cases e'
    have hlive : (s.putStream (some bs1)).Live .R bs1 b := live_putStream h hb (hd.trans h.2.2.1) (hk.trans h.2.1)
    obtain ⟨i, rest, ei, hrun⟩ := decodeGroup_byte hl
    rw [unitOf, fetchGroup, readStream_ok h e]
    simp only [Res.bind_ok, decoded, ei, hrun, runGroup, byDirection_read hlive, State.putStream_vlq]

/-- A group fetched from the stream takes eight bits (R101). -/
theorem State.Decoding.group {s : State} {n : Nat} (h : s.Decoding n) :
    UnitEnds s (unitOf fetchGroup s) fun t => ∃ m < n, t.Decoding m := by
  obtain ⟨c, i, o, bs, b, bo, h, rfl⟩ := h
  obtain ⟨h1, h2⟩ := unitOf_fetchGroup h.live
  obtain ⟨_, hdead, hdir, _⟩ := h.live
  obtain ⟨hpos, hin⟩ := h.inv
  rcases pullBits_cases 8 bs b with ⟨bs1, _, e, _⟩ | ⟨xs, bs1, e, hl, hu, hb, hd, hk, hc, hp⟩
  · exact .inr ⟨_, _, h1 bs1 (by simp [pullField, e]), .putStream s _⟩
  · have hi : bs1.Inv b :=
      ⟨hp hpos, fun _ => ⟨hc (hin hdead).1, fun hw => by rw [hd, hdir] at hw; cases hw⟩⟩
    have h' := h.putStream hb (hd.trans hdir) (hk.trans hdead) hi
    refine .inl ⟨_, h2 bs1 (bitsValue xs) (by simp [pullField, e]),
      (UnitFrame.putStream s _).setScan s.mtch s.index s.declared _ s.draws,
      (unreadBits bs1 b).length, by simp [hu, hl], c, i, o, bs1, b, bo, h'.setScan s.index s.declared _ s.phase, rfl⟩

/-! ### The end of a decode call -/

theorem DecodingWith.pad {s : State} {c : Cfg} {i o : BufId} {bs : BitStream} {b bo : Buffer}
    (h : DecodingWith s c i o bs b bo) : unitOf fetchPad s = .ok s () := by
  rw [unitOf, fetchPad, withStream_live h.live, Res.bind_ok]
  simp only [runUnit, runPad, byDirection_read h.live]

theorem State.Decoding.pad {s : State} {n : Nat} (h : s.Decoding n) :
    UnitEnds s (unitOf fetchPad s) fun t => t.Decoding n := by
  obtain ⟨c, i, o, bs, b, bo, h, hn⟩ := h
  exact .inl ⟨s, h.pad, .refl s, c, i, o, bs, b, bo, h, hn⟩

theorem DecodingWith.done {s : State} {c : Cfg} {i o : BufId} {bs : BitStream} {b bo : Buffer}
    (h : DecodingWith s c i o bs b bo) : decodeDone s = .ok (s.putBuf o { bo with length := s.declared.toNat }) () := by
  rw [decodeDone, withOutput_some h.output h.dest]

/-! ### An encode call in progress -/

/-- An encode call in progress with its parts named: `State.EncodeCall`, its stream at an operation boundary. -/
structure EncodingWith (s : State) (c : Cfg) (i o : BufId) (bs : BitStream) (b bo : Buffer) : Prop where
  input : s.inBuf = some i
  output : s.outBuf = some o
  ne : i ≠ o
  config : s.cfg = some c
  minimum : 1 ≤ c.minimumLength
  source : s.buf? i = some b
  live : s.Live .W bs bo
  wraps : bs.buf = o
  inv : bs.Inv bo

/-- An encode call in progress with an input of `n` bytes. -/
def State.Encoding (s : State) (n : Nat) : Prop :=
  ∃ c i o bs b bo, EncodingWith s c i o bs b bo ∧ b.length = n

theorem Cfg.minimum_of_wellFormed {c : Cfg} (h : c.WellFormed = true) : 1 ≤ c.minimumLength := by
  simp only [Cfg.WellFormed, Bool.and_eq_true, decide_eq_true_eq] at h
  exact h.2

theorem State.EncodeCall.encoding {s : State} {n : Nat} (h : s.EncodeCall n) (hs : s.StreamInv)
    (hc : ∀ c, s.cfg = some c → c.WellFormed = true) : s.Encoding n := by
  obtain ⟨i, o, c, b, bs, bo, hi, ho, hne, hcfg, hb, hn, _, _, hl, hbuf⟩ := h
  obtain ⟨b', hb', hinv⟩ := hs bs hl.1
  obtain rfl : bo = b' := Option.some.inj (hl.2.2.2.symm.trans hb')
  exact ⟨c, i, o, bs, b, bo, ⟨hi, ho, hne, hcfg, Cfg.minimum_of_wellFormed (hc c hcfg), hb, hl, hbuf, hinv⟩, hn⟩

section
variable {s : State} {c : Cfg} {i o : BufId} {bs bs' : BitStream} {b bo bo' : Buffer}

theorem EncodingWith.setScan (h : EncodingWith s c i o bs b bo) (m : Match) (k n : Nat) (p : Phase) :
    EncodingWith { s with mtch := m, index := k, draws := n, phase := p } c i o bs b bo :=
  ⟨h.input, h.output, h.ne, h.config, h.minimum, h.source, h.live, h.wraps, h.inv⟩

theorem State.Encoding.setScan {n : Nat} (h : s.Encoding n) (m : Match) (k d : Nat) (p : Phase) :
    ({ s with mtch := m, index := k, draws := d, phase := p } : State).Encoding n := by
  obtain ⟨c, i, o, bs, b, bo, h, hn⟩ := h
  exact ⟨c, i, o, bs, b, bo, h.setScan m k d p, hn⟩

theorem State.Encoding.inputLength {n : Nat} (h : s.Encoding n) : s.inputLength = n := by
  obtain ⟨c, i, o, bs, b, bo, h, rfl⟩ := h
  simp [State.inputLength, h.input, h.source]

/-- The call goes on with its stream and OUT moved on. -/
theorem EncodingWith.written (h : EncodingWith s c i o bs b bo) (hb : bs'.buf = bs.buf) (hd : bs'.dir = bs.dir)
    (hk : bs'.dead = bs.dead) (hi : bs'.Inv bo') :
    EncodingWith ((s.putBuf bs.buf bo').putStream (some bs')) c i o bs' b bo' where
  input := h.input
  output := h.output
  ne := h.ne
  config := h.config
  minimum := h.minimum
  source := (State.buf?_putBuf_other (by rw [h.wraps]; exact h.ne.symm)).trans h.source
  live := by
    obtain ⟨_, h2, h3, h4⟩ := h.live
    exact ⟨rfl, hk.trans h2, hd.trans h3, by rw [hb]; exact State.buf?_putBuf_same h4⟩
  wraps := hb.trans h.wraps
  inv := hi

theorem EncodingWith.frame (h : EncodingWith s c i o bs b bo) (bo' : Buffer) (x : Option BitStream) :
    UnitFrame s ((s.putBuf bs.buf bo').putStream x) := by
  rw [h.wraps]
  exact (UnitFrame.putOut h.output bo').trans (.putStream _ x)

/-- Bits written in an encode call (R142, R149): the call goes on, or there is no room. -/
theorem EncodingWith.push (h : EncodingWith s c i o bs b bo) (xs : List Bool) :
    UnitEnds s (writeStream s fun bs b => pushBits bs b xs) fun t => t.Encoding b.length ∧ t.index = s.index := by
  obtain ⟨_, hdead, hdir, _⟩ := h.live
  obtain ⟨hpos, hin⟩ := h.inv
  obtain ⟨h7, hacc⟩ := hin hdead
  obtain ⟨bs', bo', ⟨e, _, h7', _⟩ | ⟨e, _⟩, hb, hd, hk, _, hp, ha, hcap, _⟩ := pushBits_cases xs bs bo h7
  · have hi : bs'.Inv bo' := ⟨hcap ▸ hp hpos, fun _ => ⟨h7', fun _ => ha (hacc hdir)⟩⟩
    exact .inl ⟨_, writeStream_ok h.live e, h.frame bo' _, ⟨c, i, o, bs', b, bo', h.written hb hd hk hi, rfl⟩, rfl⟩
  · exact .inr ⟨_, _, writeStream_raised h.live e, h.frame bo' _⟩

/-- The flush at the end of an encode call (R154, R155). -/
theorem EncodingWith.flush (h : EncodingWith s c i o bs b bo) :
    UnitEnds s (runPad s) fun t => t.Encoding b.length := by
  obtain ⟨_, hdead, _, _⟩ := h.live
  obtain ⟨hpos, hin⟩ := h.inv
  rw [runPad, byDirection_write h.live]
  rcases flushBits_cases bs bo (hin hdead).1 with ⟨_, e⟩ | ⟨_, _, e⟩ | ⟨bo', _, hlt, e, _, hcap, _⟩
  · exact .inl ⟨_, writeStream_ok h.live e, h.frame bo _, c, i, o, bs, b, bo, h.written rfl rfl rfl h.inv, rfl⟩
  · exact .inr ⟨_, _, writeStream_raised h.live e, h.frame bo _⟩
  · refine .inl ⟨_, writeStream_ok h.live e, h.frame bo' _, c, i, o, _, b, bo', h.written rfl rfl rfl ?_, rfl⟩
    exact ⟨hcap ▸ hlt, fun _ => ⟨Nat.zero_le _, fun _ => by simp⟩⟩

end

/-- The header the encoder writes: the scan starts (R215). -/
theorem State.Encoding.header {s : State} {n : Nat} (h : s.Encoding n) :
    UnitEnds s (unitOf chooseHeader s) fun t => t.Encoding n ∧ t.index = 0 := by
  obtain ⟨c, i, o, bs, b, bo, h, rfl⟩ := h
  have e : chooseHeader s = .ok s (.hdr (BitVec.ofNat 32 b.length)) := by
    simp only [chooseHeader, withInput, h.input, withBuffer, h.source]
  rw [unitOf, e, Res.bind_ok]
  simp only [runUnit, runHdr, byDirection_write h.live, writeHdr]
  exact (h.push _).bind fun t hf ⟨ht, _⟩ =>
    ⟨hf.setScan t.mtch 0 t.declared t.vlq t.draws, ht.setScan t.mtch 0 t.draws t.phase, rfl⟩

/-- The token chosen by the encoder, or an input whose logical length passes its capacity. -/
theorem chooseToken_cases {s : State} {c : Cfg} {i : BufId} {b : Buffer} (hc : s.cfg = some c) (hi : s.inBuf = some i)
    (hb : s.buf? i = some b) :
    chooseToken s =
        .ok (searchAt b s.index c s) (chosen b c (Config.freeOffset s.draws).toNat s.index) ∨
      chooseToken s = .raised .bufferOutOfBounds (searchAt b s.index c s) := by
  simp only [chooseToken, withCallConfig, hc, withInput, hi, withBuffer, hb, chosen, Buffer.memRead_nat]
  by_cases hm : c.minimumLength ≤ (searchAt b s.index c s).mtch.length
  · exact .inl (by rw [if_pos hm, if_pos (show c.minimumLength ≤ (findMatch b s.index c _).length from hm)]; rfl)
  · by_cases hr : s.index < b.capacity
    · exact .inl (by
        rw [if_neg hm, if_pos hr, if_neg (show ¬ c.minimumLength ≤ (findMatch b s.index c _).length from hm)])
    · exact .inr (by rw [if_neg hm, if_neg hr])

/-- A token the encoder writes advances the cursor (R20, R216 to R219). -/
theorem State.Encoding.token {s : State} {n : Nat} (h : s.Encoding n) (hx : s.index < n) :
    UnitEnds s (unitOf chooseToken s) fun t => t.Encoding n ∧ s.index < t.index := by
  obtain ⟨c, i, o, bs, b, bo, h, rfl⟩ := h
  have hf : UnitFrame s (searchAt b s.index c s) := (UnitFrame.refl s).setScan _ s.index s.declared s.vlq _
  have h' : EncodingWith (searchAt b s.index c s) c i o bs b bo := h.setScan _ s.index _ s.phase
  rcases chooseToken_cases h.config h.input h.source with e | e
  · obtain ⟨hslot, _, hadv, hpos, _, ⟨bits, henc, _⟩, _⟩ :=
      chosen_spec (free := (Config.freeOffset s.draws).toNat) h.minimum hx
    rw [unitOf, e, Res.bind_ok, runUnit_write h'.live h'.config (by rw [hslot]; decide) henc]
    refine .of_frame hf ((h'.push bits).bind fun t hf ⟨ht, hi⟩ => ?_)
    refine ⟨hf.setScan t.mtch _ t.declared t.vlq t.draws, ht.setScan t.mtch _ t.draws t.phase, ?_⟩
    have : t.index = s.index := hi
    simp only [hadv]
    omega
  · exact .inr ⟨_, _, by rw [unitOf, e]; rfl, hf⟩

/-- The padding the encoder writes (R154, R215). -/
theorem State.Encoding.pad {s : State} {n : Nat} (h : s.Encoding n) :
    UnitEnds s (unitOf choosePad s) fun t => t.Encoding n := by
  obtain ⟨c, i, o, bs, b, bo, h, rfl⟩ := h
  rw [unitOf, choosePad, withStream_live h.live, Res.bind_ok]
  exact h.flush

theorem EncodingWith.done {s : State} {c : Cfg} {i o : BufId} {bs : BitStream} {b bo : Buffer}
    (h : EncodingWith s c i o bs b bo) : encodeDone s = .ok (s.putBuf o { bo with length := bs.position }) () := by
  rw [encodeDone, withStream_live h.live, h.wraps]

end Sys2Proof.Machine
end

section
/-! Every step of a call in progress: it is not refused, it keeps the frame of the call, and it brings the return nearer
(R20). -/

namespace Sys2Proof.Machine

/-! ### What is left of a call -/

/-- A call in progress of which at most `m` steps are left: on the decoder's side no more than the bits that are left and the
places still to come, on the encoder's side no more than the bytes that are left and the places still to come. -/
inductive State.Running (s : State) : Nat → Prop where
  | groups {n : Nat} (hp : s.phase = .decGroups) (h : s.Decoding n) : s.Running (n + 3)
  | header {n : Nat} (hp : s.phase = .decHeader) (h : s.Decoding n) : s.Running (n + 2)
  | body {n : Nat} (hp : s.phase = .decBody) (h : s.Decoding n) : s.Running (n + 1)
  | tail {n : Nat} (hp : s.phase = .decTail) (h : s.Decoding n) : s.Running n
  | encHeader {n : Nat} (hp : s.phase = .encHeader) (h : s.Encoding n) : s.Running (n + 2)
  | encBody {n : Nat} (hp : s.phase = .encBody) (h : s.Encoding n) (hx : s.index < n) : s.Running (n - s.index + 1)
  | encTail {n : Nat} (hp : s.phase = .encTail) (h : s.Encoding n) : s.Running 0

/-- The invariant of the machine says so of every call in progress. -/
theorem State.Inv.running {s : State} (h : s.Inv) (hp : s.phase ≠ .idle) : ∃ m, s.Running m := by
  have hc := h.call
  unfold State.CallInv at hc
  split at hc
  case h_1 hi => exact absurd hi hp
  case h_2 hp =>
    obtain ⟨bs, o, hd, _⟩ := hc
    obtain ⟨n, hd⟩ := hd.decoding h.stream
    exact ⟨_, .groups hp hd⟩
  case h_3 hp =>
    obtain ⟨bs, o, hd⟩ := hc
    obtain ⟨n, hd⟩ := hd.decoding h.stream
    exact ⟨_, .header hp hd⟩
  case h_4 hp =>
    obtain ⟨bs, o, hd, _⟩ := hc
    obtain ⟨n, hd⟩ := hd.decoding h.stream
    exact ⟨_, .body hp hd⟩
  case h_5 hp =>
    obtain ⟨bs, o, hd, _⟩ := hc
    obtain ⟨n, hd⟩ := hd.decoding h.stream
    exact ⟨_, .tail hp hd⟩
  case h_6 hp =>
    obtain ⟨n, he⟩ := hc
    exact ⟨_, .encHeader hp (he.encoding h.stream h.config)⟩
  case h_7 hp =>
    obtain ⟨n, he, hx⟩ := hc
    exact ⟨_, .encBody hp (he.encoding h.stream h.config) hx⟩
  case h_8 hp =>
    obtain ⟨n, he, _⟩ := hc
    exact ⟨_, .encTail hp (he.encoding h.stream h.config)⟩

/-! ### One step -/

/-- The step of `s` answers a next state in the frame of the call, in which the call is over or has less than `m` steps left. -/
def StepsOn (s : State) (m : Nat) : Prop :=
  ∃ t, step s = .next t ∧ CallFrame s t ∧ (t.phase = .idle ∨ ∃ m' < m, t.Running m')

/-- A unit that is followed by another place of the call. -/
theorem UnitEnds.stepsOn {s : State} {m : Nat} {P : State → Prop} (h : UnitEnds s (unitOf nextUnit s) P)
    (hp : s.phase ≠ .idle) (next : State → Phase)
    (hn : ∀ t, UnitFrame s t → P t →
      afterUnit t = .next { t with phase := next t } ∧ ∃ m' < m, ({ t with phase := next t } : State).Running m') :
    StepsOn s m := by
  rcases h.step hp with ⟨t, e, hf, ht⟩ | ⟨t, e, hf, hi⟩
  · obtain ⟨ea, hr⟩ := hn t hf ht
    exact ⟨_, e.trans ea, hf.setPhase _, .inr hr⟩
  · exact ⟨t, e, hf, .inl hi⟩

/-- A unit after which the call returns. -/
theorem UnitEnds.stepsOut {s : State} {m : Nat} {P : State → Prop} (h : UnitEnds s (unitOf nextUnit s) P)
    (hp : s.phase ≠ .idle) (hn : ∀ t, UnitFrame s t → P t → ∃ u v, afterUnit t = .next (u.endCall v) ∧ UnitFrame s u) :
    StepsOn s m := by
  rcases h.step hp with ⟨t, e, hf, ht⟩ | ⟨t, e, hf, hi⟩
  · obtain ⟨u, v, ea, hu⟩ := hn t hf ht
    exact ⟨_, e.trans ea, hu.endCall v, .inl rfl⟩
  · exact ⟨t, e, hf, .inl hi⟩

/-- The place after the header or a token of the decoder (R246). -/
def State.decPlace (s : State) : Phase := if s.index = s.declared.toNat then .decTail else .decBody

/-- The place after the header or a token of the encoder (R219). -/
def State.encPlace (s : State) : Phase := if s.index < s.inputLength then .encBody else .encTail

theorem afterUnit_dec {s : State} (h : s.phase = .decHeader ∨ s.phase = .decBody) :
    afterUnit s = .next { s with phase := s.decPlace } := by
  rcases h with h | h <;> simp only [afterUnit, State.advance, h] <;> rfl

theorem afterUnit_enc {s : State} (h : s.phase = .encHeader ∨ s.phase = .encBody) :
    afterUnit s = .next { s with phase := s.encPlace } := by
  rcases h with h | h <;> simp only [afterUnit, State.advance, h] <;> rfl

theorem afterUnit_groups {s : State} (h : s.phase = .decGroups) :
    afterUnit s = .next { s with phase := if s.vlq.stopped then .decHeader else .decGroups } := by
  simp only [afterUnit, State.advance, h]
  split
  · rfl
  · rw [← h]

/-- At the place the decoder reaches after a header or a token, the bits that are left bound the steps. -/
theorem State.Decoding.running_decPlace {s : State} {n : Nat} (h : s.Decoding n) :
    ∃ m ≤ n + 1, ({ s with phase := s.decPlace } : State).Running m := by
  by_cases hd : s.index = s.declared.toNat
  · exact ⟨n, Nat.le_succ n, .tail (if_pos hd) (h.setPhase _)⟩
  · exact ⟨n + 1, Nat.le_refl _, .body (if_neg hd) (h.setPhase _)⟩

/-- At the place the encoder reaches after a header or a token, the bytes that are left bound the steps. -/
theorem State.Encoding.running_encPlace {s : State} {n : Nat} (h : s.Encoding n) :
    ∃ m ≤ n - s.index + 1, ({ s with phase := s.encPlace } : State).Running m := by
  have h' := h.setScan s.mtch s.index s.draws s.encPlace
  by_cases hd : s.index < s.inputLength
  · exact ⟨_, Nat.le_refl _, .encBody (n := n) (if_pos hd) h' (h.inputLength ▸ hd)⟩
  · exact ⟨0, Nat.zero_le _, .encTail (if_neg hd) h'⟩

/-- The decoder's last step returns (R243 step 4, R259). -/
theorem State.Decoding.afterUnit_ends {s : State} {n : Nat} (h : s.Decoding n) (hp : s.phase = .decTail) :
    ∃ u, afterUnit s = .next (u.endCall .none) ∧ UnitFrame s u := by
  obtain ⟨c, i, o, bs, b, bo, h, _⟩ := h
  exact ⟨_, by simp only [afterUnit, hp, h.done]; rfl, .putOut h.output _⟩

/-- The encoder's last step returns (R215 step 6, R220). -/
theorem State.Encoding.afterUnit_ends {s : State} {n : Nat} (h : s.Encoding n) (hp : s.phase = .encTail) :
    ∃ u v, afterUnit s = .next (u.endCall v) ∧ UnitFrame s u := by
  obtain ⟨c, i, o, bs, b, bo, h, _⟩ := h
  exact ⟨_, _, by simp only [afterUnit, hp, h.done]; rfl, .putOut h.output _⟩

/-! ### The unit at each place -/

section
variable {s : State}

theorem unitOf_decGroups (hp : s.phase = .decGroups) : unitOf nextUnit s = unitOf fetchGroup s := by
  simp only [unitOf, nextUnit, hp]
theorem unitOf_decHeader (hp : s.phase = .decHeader) : unitOf nextUnit s = unitOf fetchHeader s := by
  simp only [unitOf, nextUnit, hp]
theorem unitOf_decBody (hp : s.phase = .decBody) : unitOf nextUnit s = unitOf fetchToken s := by
  simp only [unitOf, nextUnit, hp]
theorem unitOf_decTail (hp : s.phase = .decTail) : unitOf nextUnit s = unitOf fetchPad s := by
  simp only [unitOf, nextUnit, hp]
theorem unitOf_encHeader (hp : s.phase = .encHeader) : unitOf nextUnit s = unitOf chooseHeader s := by
  simp only [unitOf, nextUnit, hp]
theorem unitOf_encBody (hp : s.phase = .encBody) : unitOf nextUnit s = unitOf chooseToken s := by
  simp only [unitOf, nextUnit, hp]
theorem unitOf_encTail (hp : s.phase = .encTail) : unitOf nextUnit s = unitOf choosePad s := by
  simp only [unitOf, nextUnit, hp]

end

/-- No step inside a call is refused; it keeps the call's frame and brings the return nearer (R20). -/
theorem State.Running.step {s : State} {m : Nat} (h : s.Running m) : StepsOn s m := by
  cases h with
  | @groups n hp h =>
    refine UnitEnds.stepsOn (unitOf_decGroups hp ▸ h.group) (by simp [hp])
      (fun t => if t.vlq.stopped then .decHeader else .decGroups) fun t hf ⟨k, hk, ht⟩ => ?_
    refine ⟨afterUnit_groups (hf.phase.trans hp), ?_⟩
    cases hs : t.vlq.stopped with
    | true => exact ⟨k + 2, by omega, .header rfl (ht.setPhase _)⟩
    | false => exact ⟨k + 3, by omega, .groups rfl (ht.setPhase _)⟩
  | @header n hp h =>
    refine UnitEnds.stepsOn (unitOf_decHeader hp ▸ h.header) (by simp [hp]) State.decPlace fun t hf ⟨k, hk, ht⟩ => ?_
    obtain ⟨m, hm, hr⟩ := ht.running_decPlace
    exact ⟨afterUnit_dec (.inl (hf.phase.trans hp)), m, by omega, hr⟩
  | @body n hp h =>
    refine UnitEnds.stepsOn (unitOf_decBody hp ▸ h.token) (by simp [hp]) State.decPlace fun t hf ⟨_, k, hk, ht⟩ => ?_
    obtain ⟨m, hm, hr⟩ := ht.running_decPlace
    exact ⟨afterUnit_dec (.inr (hf.phase.trans hp)), m, by omega, hr⟩
  | @tail _ hp h =>
    refine UnitEnds.stepsOut (unitOf_decTail hp ▸ h.pad) (by simp [hp]) fun t hf ht => ?_
    obtain ⟨u, e, hu⟩ := ht.afterUnit_ends (hf.phase.trans hp)
    exact ⟨u, _, e, hf.trans hu⟩
  | @encHeader n hp h =>
    refine UnitEnds.stepsOn (unitOf_encHeader hp ▸ h.header) (by simp [hp]) State.encPlace fun t hf ⟨ht, h0⟩ => ?_
    obtain ⟨m, hm, hr⟩ := ht.running_encPlace
    exact ⟨afterUnit_enc (.inl (hf.phase.trans hp)), m, by omega, hr⟩
  | @encBody n hp h hx =>
    refine UnitEnds.stepsOn (unitOf_encBody hp ▸ h.token hx) (by simp [hp]) State.encPlace fun t hf ⟨ht, hlt⟩ => ?_
    obtain ⟨m, hm, hr⟩ := ht.running_encPlace
    exact ⟨afterUnit_enc (.inr (hf.phase.trans hp)), m, by omega, hr⟩
  | @encTail n hp h =>
    refine UnitEnds.stepsOut (unitOf_encTail hp ▸ h.pad) (by simp [hp]) fun t hf ht => ?_
    obtain ⟨u, v, e, hu⟩ := ht.afterUnit_ends (hf.phase.trans hp)
    exact ⟨u, v, e, hf.trans hu⟩

/-! ### The whole call -/

theorem runCall_step {s t : State} (hp : s.phase ≠ .idle) (e : step s = .next t) (n : Nat) :
    runCall (n + 1) s = runCall n t := by
  simp [runCall, hp, e]

/-- A call of which `m` steps are left returns. -/
theorem State.Running.returns {s : State} {m : Nat} (h : s.Running m) : ∃ n t, runCall n s = .next t ∧ t.phase = .idle := by
  induction m using Nat.strong_induction_on generalizing s with
  | _ m ih =>
    by_cases hp : s.phase = .idle
    · exact ⟨0, s, rfl, hp⟩
    · obtain ⟨t, e, _, hi | ⟨m', hlt, hr⟩⟩ := h.step
      · exact ⟨1, t, by rw [runCall_step hp e]; rfl, hi⟩
      · obtain ⟨n, u, eu, hu⟩ := ih m' hlt hr
        exact ⟨n + 1, u, (runCall_step hp e n).trans eu, hu⟩

/-- Settles O57: every step of a call brings its return nearer. -/
theorem everyCallReturns : Obligations.EveryCallReturns := by
  intro s h
  by_cases hp : s.phase = .idle
  · exact ⟨0, s, rfl, hp⟩
  · obtain ⟨m, hr⟩ := h.running hp
    exact hr.returns

/-- Settles O58: the frame of every step inside a call. -/
theorem callKeepsConfigAndInput : Obligations.CallKeepsConfigAndInput := by
  intro s t h hp e
  obtain ⟨m, hr⟩ := h.running hp
  obtain ⟨t', e', hf, _⟩ := hr.step
  obtain rfl : t' = t := Host.Outcome.next.inj (e'.symm.trans e)
  exact ⟨hf.cfg, hf.requests, hf.grants, hf.count, hf.others⟩

end Sys2Proof.Machine
end

section
/-! No operation runs out of a loop budget (R20, log 14): the model loops only in the scans, and each round of a scan takes a bit of
the input or covers a byte of it. -/

namespace Sys2Proof.Machine

/-! ### The openings of the Codec calls -/

theorem withConfig_cases {α : Type} (c : Cfg) (k : Res α) :
    (c.WellFormed = true ∧ withConfig c k = k) ∨ ∃ r, withConfig c k = .refused r := by
  unfold withConfig
  split
  · exact .inl ⟨‹_›, rfl⟩
  · exact .inr ⟨_, rfl⟩

theorem withBuffer_cases {α : Type} (s : State) (id : BufId) (k : Buffer → Res α) :
    (∃ b, s.buf? id = some b ∧ withBuffer s id k = k b) ∨ ∃ r, withBuffer s id k = .refused r := by
  unfold withBuffer
  split
  · exact .inr ⟨_, rfl⟩
  · exact .inl ⟨_, ‹_›, rfl⟩

/-- Everything the opening of a decode call can do (R243, R244): the call is in progress at its header; or `NoOp`; or a
refusal. -/
theorem openDecode_cases (c : Cfg) (input output : BufId) (s : State) :
    (∃ t b bo, openDecode c input output s = .ok t () ∧
      DecodingWith t c input output (BitStream.fresh input .R) b bo ∧ t.phase = .decHeader ∧ t.vlq = ⟨0#32, 0, false⟩) ∨
    (∃ t, openDecode c input output s = .raised .noOp t) ∨ ∃ r, openDecode c input output s = .refused r := by
  unfold openDecode
  rcases withConfig_cases c _ with ⟨_, e⟩ | ⟨r, e⟩ <;> rw [e]
  · rcases withBuffer_cases s input _ with ⟨b, hb, e⟩ | ⟨r, e⟩ <;> rw [e]
    · rcases withBuffer_cases s output _ with ⟨bo, hbo, e⟩ | ⟨r, e⟩ <;> rw [e]
      · split
        · exact .inr (.inr ⟨_, rfl⟩)
        · rename_i hne
          dsimp only
          split
          · exact .inr (.inl ⟨_, rfl⟩)
          · exact .inl ⟨_, b, bo, rfl, ⟨rfl, rfl, hne, rfl, ⟨rfl, rfl, rfl, hb⟩, rfl, hbo, fresh_inv _ _ _⟩, rfl, rfl⟩
      · exact .inr (.inr ⟨_, rfl⟩)
    · exact .inr (.inr ⟨_, rfl⟩)
  · exact .inr (.inr ⟨_, rfl⟩)

/-- Everything the opening of an encode call can do (R215, R222): the call is in progress at its header; or an error; or a
refusal. -/
theorem openEncode_cases (c : Cfg) (input : BufId) (s : State) :
    (∃ t n, openEncode c input s = .ok t () ∧ t.Encoding n ∧ t.phase = .encHeader) ∨
    (∃ k t, openEncode c input s = .raised k t) ∨ ∃ r, openEncode c input s = .refused r := by
  unfold openEncode
  rcases withConfig_cases c _ with ⟨hw, e⟩ | ⟨r, e⟩ <;> rw [e]
  · rcases withBuffer_cases s input _ with ⟨b, hb, e⟩ | ⟨r, e⟩ <;> rw [e]
    · dsimp only
      split
      · exact .inr (.inl ⟨_, _, rfl⟩)
      · split
        · exact .inr (.inr ⟨_, rfl⟩)
        · rcases hostAlloc_cases (upperBoundBytes b.length) { s.beginCall .encHeader (some input) none with cfg := some c } with
            ⟨_, e⟩ | ⟨_, e⟩ <;> rw [e]
          · have hlt : input < s.mem.length := (List.getElem?_eq_some_iff.mp hb).1
            exact .inl ⟨_, b.length, rfl,
              ⟨c, input, s.mem.length, BitStream.fresh s.mem.length .W, b, _,
                ⟨rfl, rfl, Nat.ne_of_lt hlt, rfl, Cfg.minimum_of_wellFormed hw, (List.getElem?_append_left hlt).trans hb,
                  ⟨rfl, rfl, rfl, List.getElem?_concat_length⟩, rfl, fresh_inv _ _ _⟩, rfl⟩, rfl⟩
          · exact .inr (.inl ⟨_, _, rfl⟩)
    · exact .inr (.inr ⟨_, rfl⟩)
  · exact .inr (.inr ⟨_, rfl⟩)

/-! ### Operations that do not run out of a budget -/

/-- The operation does not run out of a loop budget (log 14). -/
def Res.Bounded {α : Type} (r : Res α) : Prop := ∀ f, r ≠ .stuck f

@[simp] theorem Res.bounded_ok {α : Type} (s : State) (v : α) : (Res.ok s v).Bounded := nofun
@[simp] theorem Res.bounded_raised {α : Type} (k : Status) (s : State) : (Res.raised k s : Res α).Bounded := nofun
@[simp] theorem Res.bounded_refused {α : Type} (r : Refusal) : (Res.refused r : Res α).Bounded := nofun

theorem Res.Bounded.bind {α β : Type} {x : Res α} {f : State → α → Res β} (hx : x.Bounded)
    (hf : ∀ s v, x = .ok s v → (f s v).Bounded) : (x.bind f).Bounded := by
  intro e h
  rcases Res.bind_eq_stuck h with h | ⟨s, v, hv, h⟩
  · exact hx e h
  · exact hf s v hv e h

theorem UnitEnds.bounded {s : State} {r : Res Unit} {P : State → Prop} (h : UnitEnds s r P) : r.Bounded := by
  rcases h with ⟨t, rfl, _⟩ | ⟨k, t, rfl, _⟩ <;> simp

theorem UnitEnds.of_ok {s t : State} {P : State → Prop} (h : UnitEnds s (.ok t ()) P) : UnitFrame s t ∧ P t := by
  rcases h with ⟨u, e, hu⟩ | ⟨k, u, e, _⟩ <;> cases e
  exact hu

theorem withConfig_bounded {α : Type} {c : Cfg} {k : Res α} (h : c.WellFormed = true → k.Bounded) :
    (withConfig c k).Bounded := by
  rcases withConfig_cases c k with ⟨hc, e⟩ | ⟨r, e⟩ <;> rw [e]
  · exact h hc
  · simp

theorem withBuffer_bounded {α : Type} {s : State} {id : BufId} {k : Buffer → Res α} (h : ∀ b, (k b).Bounded) :
    (withBuffer s id k).Bounded := by
  rcases withBuffer_cases s id k with ⟨b, _, e⟩ | ⟨r, e⟩ <;> rw [e]
  · exact h b
  · simp

theorem withStream_bounded {α : Type} {s : State} {d : Dir} {k : BitStream → Buffer → Res α}
    (h : ∀ bs b, (k bs b).Bounded) : (withStream s d k).Bounded := by
  rcases withStream_cases s d k with ⟨r, e⟩ | ⟨bs, b, _, e⟩ <;> rw [e]
  · simp
  · exact h bs b

theorem withCallConfig_bounded {α : Type} {s : State} {k : Cfg → Res α} (h : ∀ c, (k c).Bounded) :
    (withCallConfig s k).Bounded := by
  unfold withCallConfig
  split
  · simp
  · exact h _

theorem withInput_bounded {α : Type} {s : State} {k : Buffer → Res α} (h : ∀ b, (k b).Bounded) :
    (withInput s k).Bounded := by
  unfold withInput
  split
  · simp
  · exact withBuffer_bounded h

theorem withOutput_bounded {s : State} {k : BufId → Buffer → Res Unit} (h : ∀ o b, (k o b).Bounded) :
    (withOutput s k).Bounded := by
  unfold withOutput
  split
  · simp
  · exact withBuffer_bounded (h _)

theorem byDirection_bounded {s : State} {r w : Res Unit} (hr : r.Bounded) (hw : w.Bounded) : (byDirection s r w).Bounded := by
  unfold byDirection
  split
  · simp
  · split
    · simp
    · split
      · exact hr
      · exact hw

theorem writeStream_bounded (s : State) (f : BitStream → Buffer → Written) : (writeStream s f).Bounded :=
  withStream_bounded fun bs b => by cases f bs b <;> simp

theorem readStream_bounded {α : Type} (s : State) (f : BitStream → Buffer → Taken α) : (readStream s f).Bounded :=
  withStream_bounded fun bs b => by cases f bs b <;> simp

theorem withWidth_bounded {α : Type} {n : Nat} {k : Res α} (h : k.Bounded) : (withWidth n k).Bounded := by
  unfold withWidth
  split
  · simp
  · exact h

theorem Res.Bounded.noValue {r : Res Unit} (h : r.Bounded) : r.noValue.Bounded := h.bind fun _ _ _ => by simp

theorem hostAlloc_bounded (n : Nat) (s : State) : (hostAlloc n s).Bounded := by
  rcases hostAlloc_cases n s with ⟨_, e⟩ | ⟨_, e⟩ <;> simp [e]

/-! ### The units, in any state -/

theorem runGroup_bounded (g : Byte) (s : State) : (runGroup g s).Bounded :=
  byDirection_bounded (by simp) (writeStream_bounded _ _)

theorem runHdr_bounded (v : Word) (s : State) : (runHdr v s).Bounded :=
  byDirection_bounded (withOutput_bounded fun _ b => by split <;> simp)
    ((writeStream_bounded _ _).bind fun _ _ _ => by simp)

theorem runLiteral_bounded (v : Byte) (s : State) : (runLiteral v s).Bounded :=
  byDirection_bounded (withOutput_bounded fun _ b => by cases b.memWrite s.index v <;> simp)
    ((writeStream_bounded _ _).bind fun _ _ _ => by simp)

theorem readPair_bounded (o l : Nat) (s : State) : (readPair o l s).Bounded :=
  withOutput_bounded fun _ b => by dsimp only; split <;> simp

theorem writePair_bounded (ob lb o l : Nat) (s : State) : (writePair ob lb o l s).Bounded :=
  (writeStream_bounded _ _).bind fun _ _ _ => by simp

theorem runPair_bounded (o l : Nat) (s : State) : (runPair o l s).Bounded :=
  byDirection_bounded (readPair_bounded o l s) (by
    split
    · simp
    · exact writePair_bounded _ _ _ _ _)

theorem runPad_bounded (s : State) : (runPad s).Bounded := byDirection_bounded (by simp) (writeStream_bounded _ _)

theorem runUnit_bounded (i : Instr) (s : State) : (runUnit i s).Bounded := by
  cases i with
  | vlqLast p => exact runGroup_bounded _ s
  | vlqCont p => exact runGroup_bounded _ s
  | hdr v => exact runHdr_bounded v s
  | literal v => exact runLiteral_bounded v s
  | pair o l => exact runPair_bounded o l s
  | pairDemo o l => exact byDirection_bounded (readPair_bounded _ _ s) (writePair_bounded _ _ _ _ s)
  | pad k => exact runPad_bounded s
  | _ => simp [runUnit]

theorem decoded_bounded (s : State) (r : Except DecodeError (Instr × List Bool)) : (decoded s r).Bounded := by
  rcases r with e | ⟨i, rest⟩ <;> simp [decoded]

theorem nextUnit_bounded (s : State) : (nextUnit s).Bounded := by
  unfold nextUnit
  split
  case h_1 => simp
  case h_2 => exact (readStream_bounded _ _).bind fun _ _ _ => decoded_bounded _ _
  case h_3 =>
    unfold fetchHeader
    split
    · simp
    · exact (readStream_bounded _ _).bind fun _ _ _ => decoded_bounded _ _
  case h_4 => exact withCallConfig_bounded fun c => (readStream_bounded _ _).bind fun _ _ _ => decoded_bounded _ _
  case h_5 => exact withStream_bounded fun _ _ => by simp
  case h_6 => exact withInput_bounded fun _ => by simp
  case h_7 =>
    refine withCallConfig_bounded fun c => withInput_bounded fun b => ?_
    dsimp only
    split
    · simp
    · split <;> simp
  case h_8 => exact withStream_bounded fun _ _ => by simp

theorem decodeDone_bounded (s : State) : (decodeDone s).Bounded := withOutput_bounded fun _ _ => by simp

theorem encodeDone_bounded (s : State) : (encodeDone s).Bounded := withStream_bounded fun _ _ => by simp

/-! ### The bodies of the Codec calls -/

/-- The encoder's scan: each round covers at least one byte (R20, R219). -/
theorem scanEncode_bounded (f : Nat) {s : State} {n : Nat} (h : s.Encoding n) (hf : n - s.index < f) :
    (scanEncode f s).Bounded := by
  induction f generalizing s with
  | zero => omega
  | succ f ih =>
    rw [scanEncode, h.inputLength]
    split
    · rename_i hx
      have hu := h.token hx
      refine hu.bounded.bind fun t _ e => ?_
      obtain ⟨_, ht, hlt⟩ := UnitEnds.of_ok (e ▸ hu)
      exact ih ht (by omega)
    · simp

theorem bodyEncode_bounded {s : State} {n : Nat} (h : s.Encoding n) : (bodyEncode s).Bounded := by
  refine Res.Bounded.bind ?_ fun t _ _ => (runPad_bounded t).bind fun u _ _ => encodeDone_bounded u
  refine h.header.bounded.bind fun t _ e => ?_
  obtain ⟨_, ht, h0⟩ := UnitEnds.of_ok (e ▸ h.header)
  exact scanEncode_bounded _ ht (by rw [ht.inputLength]; omega)

/-- The decoder's scan: each round takes at least one bit (R20, R246). -/
theorem bodyDecode_bounded {s : State} {c : Cfg} {i o : BufId} {b bo : Buffer}
    (h : DecodingWith s c i o (BitStream.fresh i .R) b bo) (hv : s.vlq = ⟨0#32, 0, false⟩) : (bodyDecode s).Bounded := by
  obtain ⟨bs', bo', k, d, _, e | e | e⟩ :=
    bodyDecode_cases h.config h.input h.live h.output h.dest h.ne (by rw [hv]) <;> simp [e]

theorem openEncode_bounded (c : Cfg) (input : BufId) (s : State) : (openEncode c input s).Bounded := by
  rcases openEncode_cases c input s with ⟨t, n, e, _⟩ | ⟨k, t, e⟩ | ⟨r, e⟩ <;> simp [e]

theorem openDecode_bounded (c : Cfg) (input output : BufId) (s : State) : (openDecode c input output s).Bounded := by
  rcases openDecode_cases c input output s with ⟨t, b, bo, e, _⟩ | ⟨t, e⟩ | ⟨r, e⟩ <;> simp [e]

/-- A decode call, opened and run to its end. -/
theorem openDecode_bodyDecode_bounded (c : Cfg) (input output : BufId) (s : State) :
    ((openDecode c input output s).bind fun t _ => bodyDecode t).Bounded := by
  refine (openDecode_bounded c input output s).bind fun t _ e => ?_
  rcases openDecode_cases c input output s with ⟨u, b, bo, eu, h, _, hv⟩ | ⟨u, eu⟩ | ⟨r, eu⟩ <;> rw [e] at eu <;> cases eu
  exact bodyDecode_bounded h hv

/-- An encode call, opened and run to its end. -/
theorem openEncode_bodyEncode_bounded (c : Cfg) (input : BufId) (s : State) :
    ((openEncode c input s).bind fun t _ => bodyEncode t).Bounded := by
  refine (openEncode_bounded c input s).bind fun t _ e => ?_
  rcases openEncode_cases c input s with ⟨u, n, eu, h, _⟩ | ⟨k, u, eu⟩ | ⟨r, eu⟩ <;> rw [e] at eu <;> cases eu
  exact bodyEncode_bounded h

theorem peekHeader_bounded (input : BufId) (s : State) : (peekHeader input s).Bounded :=
  (readStream_bounded _ _).bind fun _ _ _ => by simp

/-! ### Every instruction, every step -/

/-- The outcome is not the model's fault. -/
def NoFault (o : Host.Outcome State Fault Refusal) : Prop := ∀ f, o ≠ .fault f

theorem noFault_next (s : State) : NoFault (.next s) := nofun
theorem noFault_refused (r : Refusal) : NoFault (.refused r) := nofun

theorem Res.Bounded.settle {r : Res Ret} (h : r.Bounded) : NoFault (settle r) := by
  cases r with
  | stuck f => exact absurd rfl (h f)
  | _ => exact nofun

theorem Res.Bounded.settleUnit {r : Res Unit} (h : r.Bounded) : NoFault (settleUnit r) := by
  cases r with
  | stuck f => exact absurd rfl (h f)
  | _ => exact nofun

theorem Res.Bounded.settleCall {r : Res Ret} (h : r.Bounded) : NoFault (settleCall r) := by
  cases r with
  | stuck f => exact absurd rfl (h f)
  | _ => exact nofun

theorem execEncode_noFault (c : Cfg) (input : BufId) (s : State) : NoFault (execEncode c input s) := by
  have h : execEncode c input s = settleCall (((openEncode c input s).bind fun t _ => bodyEncode t).bind fun u _ =>
      .ok u ((u.outBuf.map Ret.buf).getD .none)) := by
    rw [execEncode]
    cases openEncode c input s <;> rfl
  rw [h]
  exact ((openEncode_bodyEncode_bounded c input s).bind fun _ _ _ => by simp).settleCall

theorem execPeek_noFault (input : BufId) (s : State) : NoFault (execPeekOriginalLength input s) :=
  Res.Bounded.settleCall <| withBuffer_bounded fun b => by
    dsimp only
    split
    · simp
    · exact (peekHeader_bounded _ _).bind fun _ _ _ => by simp

theorem execDecode_noFault (c : Cfg) (input : BufId) (s : State) : NoFault (execDecode c input s) := by
  refine Res.Bounded.settleCall <| withConfig_bounded fun _ => withBuffer_bounded fun b => ?_
  dsimp only
  split
  · simp
  · refine (peekHeader_bounded _ _).bind fun u d _ => ?_
    split
    · simp
    · refine (hostAlloc_bounded _ _).bind fun v o _ => ?_
      have h : ((openDecode c input o v).bind fun w _ => (bodyDecode w).bind fun x _ => .ok x (.buf o)) =
          ((openDecode c input o v).bind fun w _ => bodyDecode w).bind fun x _ => .ok x (Ret.buf o) := by
        cases openDecode c input o v <;> rfl
      rw [h]
      exact (openDecode_bodyDecode_bounded c input o v).bind fun _ _ _ => by simp

/-- No instruction, in any state, runs out of a loop budget (R20). -/
theorem exec_noFault (i : Instr) (s : State) : NoFault (exec i s) := by
  by_cases hs : i.slot = .command
  · cases i with
    | bsCreate b d => exact (withBuffer_bounded fun _ => by simp).settle
    | writeBit v => exact (writeStream_bounded _ _).noValue.settle
    | readBit => exact ((readStream_bounded _ _).bind fun _ _ _ => by simp).settle
    | writeUint32 v n => exact (withWidth_bounded (writeStream_bounded _ _)).noValue.settle
    | readUint32 n => exact (withWidth_bounded ((readStream_bounded _ _).bind fun _ _ _ => by simp)).settle
    | flushPartial => exact (writeStream_bounded _ _).noValue.settle
    | write7bitUint32 v => exact (writeStream_bounded _ _).noValue.settle
    | read7bitUint32 => exact ((readStream_bounded _ _).bind fun _ _ _ => by simp).settle
    | findBestMatch b k c => exact (withConfig_bounded fun _ => withBuffer_bounded fun _ => by simp).settle
    | codecInit ob lb ml => exact (withConfig_bounded fun _ => by simp).settle
    | upperBound n => exact (Res.bounded_ok _ _).settle
    | encode c input => exact execEncode_noFault c input s
    | peekOriginalLength input => exact execPeek_noFault input s
    | decodeInto c input output => exact (openDecode_bodyDecode_bounded c input output s).noValue.settleCall
    | decode c input => exact execDecode_noFault c input s
    | _ => cases hs
  · rw [exec_unit hs]
    exact (runUnit_bounded i s).settleUnit

theorem takeRequest_noFault (r : Request) (s : State) : NoFault (takeRequest r s) := by
  cases r with
  | call code args =>
    unfold takeRequest
    dsimp only
    split
    · exact noFault_refused _
    · exact exec_noFault _ s
  | decodeStepwise g c input output =>
    exact ((openDecode_bounded c input output s).bind fun _ _ _ => by simp).settleUnit
  | encodeStepwise c input => exact ((openEncode_bounded c input s).bind fun _ _ _ => by simp).settleUnit
  | provide cap len cells =>
    unfold takeRequest takeBuffer
    dsimp only
    split
    · exact noFault_next _
    · exact noFault_refused _
  | change b len cells =>
    unfold takeRequest changeBuffer
    dsimp only
    split
    · exact noFault_refused _
    · split
      · exact noFault_next _
      · exact noFault_refused _

theorem afterUnit_noFault (s : State) : NoFault (afterUnit s) := by
  unfold afterUnit
  split
  · exact (decodeDone_bounded s).noValue.settleCall
  · exact ((encodeDone_bounded s).bind fun _ _ _ => by simp).settleCall
  all_goals exact noFault_next _

theorem thenPlace_noFault {o : Host.Outcome State Fault Refusal} (h : NoFault o) : NoFault (thenPlace o) := by
  cases o with
  | next u => exact afterUnit_noFault u
  | fault f => exact absurd rfl (h f)
  | refused r => exact noFault_refused r

/-- Settles O56: every request and every unit ends within the budget. -/
theorem noStepFaults : Obligations.NoStepFaults := by
  intro s
  rcases step_cases s with ⟨_, _, e⟩ | ⟨r, rest, _, _, e⟩ | ⟨hp, _⟩
  · rw [e]; exact noFault_next s
  · rw [e]; exact takeRequest_noFault r _
  · rw [step_call hp]
    exact thenPlace_noFault ((nextUnit_bounded s).bind fun t i _ => runUnit_bounded i t).settleUnit

end Sys2Proof.Machine
end

section
/-! A call run one unit a step ends as the call in one transition ends (log 8). The two runs differ in the place and in the VLQ
loop registers only, which no unit after the header looks at and which the end of the call resets. -/

namespace Sys2Proof.Machine

/-! ### The place and the loop registers set -/

/-- The same state at another place of the call and with other VLQ loop registers. -/
def State.setPlace (s : State) (p : Phase) (v : VlqRegs) : State := { s with phase := p, vlq := v }

/-- The same result at another place. -/
def Res.setPlace {α : Type} (p : Phase) (v : VlqRegs) : Res α → Res α
  | .ok s a => .ok (s.setPlace p v) a
  | .raised k s => .raised k (s.setPlace p v)
  | .refused r => .refused r
  | .stuck f => .stuck f

section
variable (s : State) (p : Phase) (v : VlqRegs)

@[simp] theorem State.setPlace_mem : (s.setPlace p v).mem = s.mem := rfl
@[simp] theorem State.setPlace_cfg : (s.setPlace p v).cfg = s.cfg := rfl
@[simp] theorem State.setPlace_outBuf : (s.setPlace p v).outBuf = s.outBuf := rfl
@[simp] theorem State.setPlace_mtch : (s.setPlace p v).mtch = s.mtch := rfl
@[simp] theorem State.setPlace_index : (s.setPlace p v).index = s.index := rfl
@[simp] theorem State.setPlace_phase : (s.setPlace p v).phase = p := rfl
@[simp] theorem State.setPlace_vlq : (s.setPlace p v).vlq = v := rfl
@[simp] theorem State.setPlace_draws : (s.setPlace p v).draws = s.draws := rfl
@[simp] theorem State.buf?_setPlace (id : BufId) : (s.setPlace p v).buf? id = s.buf? id := rfl
@[simp] theorem searchAt_setPlace (b : Buffer) (k : Nat) (c : Cfg) :
    searchAt b k c (s.setPlace p v) = (searchAt b k c s).setPlace p v := rfl

end

theorem State.setPlace_self {s : State} {p : Phase} (h : s.phase = p) : s.setPlace p s.vlq = s := by
  subst h; rfl

/-- The operation looks neither at the place of the call nor at the VLQ loop registers, and leaves both as they are. -/
def PlaceFree {α : Type} (f : State → Res α) : Prop := ∀ s p v, f (s.setPlace p v) = (f s).setPlace p v

theorem PlaceFree.bind {α β : Type} {f : State → Res α} {g : State → α → Res β} (hf : PlaceFree f)
    (hg : ∀ a, PlaceFree fun s => g s a) : PlaceFree fun s => (f s).bind g := by
  intro s p v
  dsimp only
  rw [hf s p v]
  cases f s with
  | ok t a => exact hg a t p v
  | raised k t => rfl
  | refused r => rfl
  | stuck e => rfl

theorem placeFree_refused {α : Type} (r : Refusal) : PlaceFree fun _ => (.refused r : Res α) := fun _ _ _ => rfl

theorem placeFree_withStream {α : Type} (d : Dir) {k : State → BitStream → Buffer → Res α}
    (hk : ∀ bs b, PlaceFree fun s => k s bs b) : PlaceFree fun s => withStream s d (k s) := by
  intro s p v
  have e : k (s.setPlace p v) = fun bs b => (k s bs b).setPlace p v := funext fun bs => funext fun b => hk bs b s p v
  show withStream s d (k (s.setPlace p v)) = (withStream s d (k s)).setPlace p v
  rw [e]
  unfold withStream withBuffer
  split
  · rfl
  · split
    · rfl
    · split
      · rfl
      · split <;> rfl

theorem placeFree_withOutput {k : State → BufId → Buffer → Res Unit} (hk : ∀ o b, PlaceFree fun s => k s o b) :
    PlaceFree fun s => withOutput s (k s) := by
  intro s p v
  have e : k (s.setPlace p v) = fun o b => (k s o b).setPlace p v := funext fun o => funext fun b => hk o b s p v
  show withOutput s (k (s.setPlace p v)) = (withOutput s (k s)).setPlace p v
  rw [e]
  unfold withOutput withBuffer
  split
  · rfl
  · split <;> rfl

theorem placeFree_withInput {α : Type} {k : State → Buffer → Res α} (hk : ∀ b, PlaceFree fun s => k s b) :
    PlaceFree fun s => withInput s (k s) := by
  intro s p v
  have e : k (s.setPlace p v) = fun b => (k s b).setPlace p v := funext fun b => hk b s p v
  show withInput s (k (s.setPlace p v)) = (withInput s (k s)).setPlace p v
  rw [e]
  unfold withInput withBuffer
  split
  · rfl
  · split <;> rfl

theorem placeFree_withCallConfig {α : Type} {k : State → Cfg → Res α} (hk : ∀ c, PlaceFree fun s => k s c) :
    PlaceFree fun s => withCallConfig s (k s) := by
  intro s p v
  have e : k (s.setPlace p v) = fun c => (k s c).setPlace p v := funext fun c => hk c s p v
  show withCallConfig s (k (s.setPlace p v)) = (withCallConfig s (k s)).setPlace p v
  rw [e]
  unfold withCallConfig
  split <;> rfl

theorem placeFree_byDirection {r w : State → Res Unit} (hr : PlaceFree r) (hw : PlaceFree w) :
    PlaceFree fun s => byDirection s (r s) (w s) := by
  intro s p v
  show byDirection s (r (s.setPlace p v)) (w (s.setPlace p v)) = (byDirection s (r s) (w s)).setPlace p v
  rw [hr, hw]
  unfold byDirection
  split
  · rfl
  · split
    · rfl
    · split <;> rfl

theorem placeFree_writeStream (f : BitStream → Buffer → Written) : PlaceFree fun s => writeStream s f :=
  placeFree_withStream .W fun bs b s p v => by cases f bs b <;> rfl

theorem placeFree_readStream {α : Type} (f : BitStream → Buffer → Taken α) : PlaceFree fun s => readStream s f :=
  placeFree_withStream .R fun bs b s p v => by cases f bs b <;> rfl

theorem placeFree_decoded (r : Except DecodeError (Instr × List Bool)) : PlaceFree fun s => decoded s r := by
  intro s p v
  cases r <;> rfl

/-! ### The units after the header -/

theorem placeFree_runHdr (v : Word) : PlaceFree (runHdr v) := by
  refine placeFree_byDirection (placeFree_withOutput fun _ b s p w => ?_)
    ((placeFree_writeStream _).bind fun _ _ _ _ => rfl)
  dsimp only
  split <;> rfl

theorem placeFree_runLiteral (v : Byte) : PlaceFree (runLiteral v) := by
  refine placeFree_byDirection (placeFree_withOutput fun o b s p w => ?_)
    ((placeFree_writeStream _).bind fun _ _ _ _ => rfl)
  simp only [State.setPlace_index]
  cases b.memWrite s.index v <;> rfl

theorem placeFree_readPair (o l : Nat) : PlaceFree (readPair o l) := by
  refine placeFree_withOutput fun id b s p w => ?_
  simp only [State.setPlace_index]
  by_cases h : (copyForward o l s.index b).2 = true
  · simp only [h, if_true]; rfl
  · simp only [h]; rfl

theorem placeFree_writePair (ob lb o l : Nat) : PlaceFree (writePair ob lb o l) :=
  (placeFree_writeStream _).bind fun _ _ _ _ => rfl

theorem placeFree_runPair (o l : Nat) : PlaceFree (runPair o l) := by
  refine placeFree_byDirection (placeFree_readPair o l) fun s p v => ?_
  simp only [State.setPlace_cfg]
  cases s.cfg with
  | none => rfl
  | some c => exact placeFree_writePair c.offsetBits c.lengthBits o l s p v

theorem placeFree_runPad : PlaceFree runPad := placeFree_byDirection (fun _ _ _ => rfl) (placeFree_writeStream _)

theorem placeFree_runUnit {i : Instr} (h : i.slot ≠ .group) : PlaceFree (runUnit i) := by
  cases i with
  | vlqLast p => exact absurd rfl h
  | vlqCont p => exact absurd rfl h
  | hdr v => exact placeFree_runHdr v
  | literal v => exact placeFree_runLiteral v
  | pair o l => exact placeFree_runPair o l
  | pairDemo o l => exact placeFree_byDirection (placeFree_readPair _ _) (placeFree_writePair _ _ _ _)
  | pad k => exact placeFree_runPad
  | _ => exact placeFree_refused _

/-- A unit that is no group is the same at every place. -/
theorem placeFree_unitOf {get : State → Res Instr} (hg : PlaceFree get)
    (hs : ∀ s t i, get s = .ok t i → i.slot ≠ .group) : PlaceFree (unitOf get) := by
  intro s p v
  simp only [unitOf, hg s p v]
  cases e : get s with
  | ok t i => exact placeFree_runUnit (hs s t i e) t p v
  | raised k t => rfl
  | refused r => rfl
  | stuck f => rfl

theorem placeFree_token : PlaceFree (unitOf fetchToken) :=
  placeFree_unitOf
    (placeFree_withCallConfig fun _ => (placeFree_readStream _).bind fun _ => placeFree_decoded _)
    fun s t i h => by rw [fetchToken_slot h]; decide

theorem placeFree_chosenToken : PlaceFree (unitOf chooseToken) := by
  refine placeFree_unitOf (placeFree_withCallConfig fun c => placeFree_withInput fun b s p v => ?_)
    fun s t i h => by rw [chooseToken_slot h]; decide
  simp only [searchAt_setPlace, State.setPlace_index, State.setPlace_mtch]
  by_cases h : c.minimumLength ≤ (searchAt b s.index c s).mtch.length
  · simp only [h, if_true]; rfl
  · simp only [h, if_false]
    cases b.memRead s.index <;> rfl

/-! ### The end of the call -/

/-- The side of the format a place belongs to. -/
def Phase.side : Phase → Option Dir
  | .idle => none
  | .decGroups | .decHeader | .decBody | .decTail => some .R
  | .encHeader | .encBody | .encTail => some .W

theorem Phase.ne_idle {p : Phase} {d : Dir} (h : p.side = some d) : p ≠ .idle := by
  rintro rfl; cases h

/-- What an error does to OUT depends on the side of the call only. -/
theorem outAfterError_setPlace {s : State} {p : Phase} (h : p.side = s.phase.side) (k : Status) (v : VlqRegs) :
    (s.setPlace p v).outAfterError k = s.outAfterError k := by
  unfold State.outAfterError
  simp only [State.setPlace_mem, State.setPlace_outBuf, State.setPlace_phase, State.setPlace_draws, State.buf?_setPlace]
  split
  · rfl
  · split
    · rfl
    · generalize s.phase = q at h
      cases p <;> cases q <;> simp only [Phase.side, reduceCtorEq, Option.some.injEq] at h ⊢

/-- An error of the call ends it in the same state, whatever its place (R291). -/
theorem takeError_setPlace {s : State} {p : Phase} {d : Dir} (hp : p.side = some d) (hs : s.phase.side = some d)
    (k : Status) (v : VlqRegs) : takeError k (s.setPlace p v) = takeError k s := by
  rw [takeError_call (s := s.setPlace p v) (Phase.ne_idle hp), takeError_call (Phase.ne_idle hs),
    outAfterError_setPlace (hp.trans hs.symm)]
  rfl

/-! ### Runs -/

/-- Stepping the call in progress leads from `s` to `u`. -/
def Leads (s u : State) : Prop := ∃ n, runCall n s = .next u

theorem Leads.refl (s : State) : Leads s s := ⟨0, rfl⟩

theorem Leads.head {s t u : State} (hp : s.phase ≠ .idle) (e : step s = .next t) (h : Leads t u) : Leads s u := by
  obtain ⟨n, h⟩ := h
  exact ⟨n + 1, (runCall_step hp e n).trans h⟩

theorem Leads.of_step {s u : State} (hp : s.phase ≠ .idle) (e : step s = .next u) : Leads s u := .head hp e (.refl u)

/-! ### The decoder (R243) -/

theorem DecodingWith.setPlace {s : State} {c : Cfg} {i o : BufId} {bs : BitStream} {b bo : Buffer}
    (h : DecodingWith s c i o bs b bo) (p : Phase) (v : VlqRegs) : DecodingWith (s.setPlace p v) c i o bs b bo :=
  h.setScan s.index s.declared v p

theorem afterUnit_setPlace_dec {t : State} {p : Phase} {v : VlqRegs} (hp : p = .decHeader ∨ p = .decBody) :
    afterUnit (t.setPlace p v) = .next (t.setPlace t.decPlace v) := afterUnit_dec hp

/-- The end of a decode call, from its last place (R243 step 4, R246). -/
theorem State.Decoding.leads_tail {s u : State} {n : Nat} (h : s.Decoding n) (v : VlqRegs)
    (e : settleCall (decodeDone s).noValue = .next u) : Leads (s.setPlace .decTail v) u := by
  obtain ⟨c, i, o, bs, b, bo, h, _⟩ := h
  have h' := h.setPlace .decTail v
  rw [h.done] at e
  refine .of_step (by simp) ((step_of_ok (by simp) ((unitOf_decTail rfl).trans h'.pad)).trans (e ▸ ?_))
  simp only [afterUnit, State.setPlace_phase, h'.done]
  rfl

/-- The scan one token a step, from the place it has reached, and the end of the call (R243 steps 3 and 4, R246). -/
theorem State.Decoding.leads_scan (f : Nat) {s u : State} {n : Nat} (h : s.Decoding n) (hs : s.phase.side = some .R)
    (v : VlqRegs) (e : settleCall ((scanDecode f s).bind fun t _ => decodeDone t).noValue = .next u) :
    Leads (s.setPlace s.decPlace v) u := by
  induction f generalizing s n with
  | zero => cases e
  | succ f ih =>
    unfold scanDecode at e
    by_cases hd : s.index = s.declared.toNat
    · rw [if_pos hd] at e
      rw [State.decPlace, if_pos hd]
      exact h.leads_tail v e
    · rw [if_neg hd] at e
      rw [State.decPlace, if_neg hd]
      have eu : unitOf nextUnit (s.setPlace .decBody v) = (unitOf fetchToken s).setPlace .decBody v :=
        (unitOf_decBody rfl).trans (placeFree_token s .decBody v)
      change settleCall (((unitOf fetchToken s).bind fun t _ => scanDecode f t).bind fun t _ => decodeDone t).noValue = _ at e
      rcases h.token with ⟨t, et, hf, _, m, _, ht⟩ | ⟨k, t, et, hf⟩ <;> rw [et] at e eu
      · exact .head (by simp) ((step_of_ok (by simp) eu).trans (afterUnit_setPlace_dec (.inr rfl)))
          (ih ht (hf.phase.symm ▸ hs) e)
      · cases e
        exact .of_step (by simp) ((step_of_raised (by simp) eu).trans
          (by rw [takeError_setPlace (d := .R) rfl (hf.phase.symm ▸ hs)]))

/-- The rest of a decode call in one transition, its header having been fetched. -/
def decodeFrom (value : Word) (s : State) : Res Unit :=
  ((runUnit (.hdr value) s).bind fun t _ => scanDecode (8 * t.inputCapacity + 2) t).bind fun t _ => decodeDone t

theorem bodyDecode_fetched {s t : State} {value : Word} (e : fetchHeader s = .ok t (.hdr value)) :
    bodyDecode s = decodeFrom value t := by
  rw [bodyDecode, e, Res.bind_ok, decodeFrom]

/-- The call one unit a step from the header on: `w` stands at the header and fetches the header `value`, after which it is `s`
but for the place and the loop registers. -/
theorem DecodingWith.leads_header {s w u : State} {c : Cfg} {i o : BufId} {bs : BitStream} {b bo : Buffer} {value : Word}
    {v : VlqRegs} (h : DecodingWith s c i o bs b bo) (hs : s.phase.side = some .R) (hw : w.phase = .decHeader)
    (ew : fetchHeader w = .ok (s.setPlace .decHeader v) (.hdr value))
    (e : settleCall (decodeFrom value s).noValue = .next u) : Leads w u := by
  have hp : w.phase ≠ .idle := by simp [hw]
  have eu : unitOf nextUnit w = (runUnit (.hdr value) s).setPlace .decHeader v := by
    rw [unitOf_decHeader hw, unitOf, ew, Res.bind_ok]
    exact placeFree_runUnit (i := .hdr value) nofun s .decHeader v
  unfold decodeFrom at e
  rcases h.header value with ⟨t, et, hf, ht⟩ | ⟨k, t, et, hf⟩ <;> rw [et] at e eu
  · exact .head hp ((step_of_ok hp eu).trans (afterUnit_setPlace_dec (.inl rfl))) (ht.leads_scan _ (hf.phase.symm ▸ hs) v e)
  · cases e
    exact .of_step hp ((step_of_raised hp eu).trans (by rw [takeError_setPlace (d := .R) rfl (hf.phase.symm ▸ hs)]))

/-- The step of a group whose byte is read: it enters the loop registers, and ends the loop or not (R174). -/
theorem step_group {s : State} {bs bs' : BitStream} {b : Buffer} {r : Word} {sh x : Nat} (h : s.Live .R bs b)
    (e : pullField 8 bs b = .ok bs' x) :
    step (s.setPlace .decGroups ⟨r, sh, false⟩) =
      .next ((s.putStream (some bs')).setPlace
        (if vlqStop (BitVec.ofNat 8 x) (sh + 7) then .decHeader else .decGroups)
        ⟨vlqAdd r sh (BitVec.ofNat 8 x), sh + 7, vlqStop (BitVec.ofNat 8 x) (sh + 7)⟩) := by
  have hw : (s.setPlace .decGroups ⟨r, sh, false⟩).Live .R bs b := h
  exact (step_of_ok (by simp) ((unitOf_decGroups rfl).trans ((unitOf_fetchGroup hw).2 bs' x e))).trans (afterUnit_groups rfl)

/-- The step of a group in which the bits end (R175). -/
theorem step_group_cut {s : State} {bs bs' : BitStream} {b : Buffer} {r : Word} {sh : Nat} (h : s.Live .R bs b)
    (hs : s.phase.side = some .R) (e : pullField 8 bs b = .raised bs') :
    step (s.setPlace .decGroups ⟨r, sh, false⟩) = .next (takeError .bufferOutOfBounds (s.putStream (some bs'))) := by
  have hw : (s.setPlace .decGroups ⟨r, sh, false⟩).Live .R bs b := h
  rw [step_of_raised (by simp) ((unitOf_decGroups rfl).trans ((unitOf_fetchGroup hw).1 bs' e)),
    ← takeError_setPlace (s := s.putStream (some bs')) (p := .decGroups) (d := .R) rfl hs _ ⟨r, sh, false⟩]
  rfl

/-- Where the groups of a header, read one a step from `r` and `sh` on, lead: to the place of the whole header, its value in the
loop registers; or to the error of the call where the bits end (R174, R176). -/
def GroupsLead (s : State) (r : Word) (sh : Nat) : Taken (List Byte) → Prop
  | .ok bs' gs => ∀ u, (∀ k, Leads ((s.putStream (some bs')).setPlace .decHeader ⟨vlqValue r sh gs, k, true⟩) u) →
      Leads (s.setPlace .decGroups ⟨r, sh, false⟩) u
  | .raised bs' => Leads (s.setPlace .decGroups ⟨r, sh, false⟩) (takeError .bufferOutOfBounds (s.putStream (some bs')))

theorem groupsLead (f : Nat) (h0 : f ≠ 0) {s : State} {bs : BitStream} {b : Buffer} (h : s.Live .R bs b)
    (hs : s.phase.side = some .R) (r : Word) {sh : Nat} (hsh : sh + 7 * f = 35) :
    GroupsLead s r sh (pullGroups f sh bs b) := by
  induction f generalizing s bs r sh with
  | zero => exact absurd rfl h0
  | succ f ih =>
    unfold pullGroups
    cases e8 : pullField 8 bs b with
    | raised b1 => exact .of_step (by simp) (step_group_cut h hs e8)
    | ok b1 x =>
      have estep := step_group (r := r) (sh := sh) h e8
      cases hstop : vlqStop (BitVec.ofNat 8 x) (sh + 7) with
      | true =>
        simp only [hstop, if_true] at estep ⊢
        exact fun u hu => .head (by simp) estep (hu (sh + 7))
      | false =>
        simp only [hstop, Bool.false_eq_true, if_false] at estep ⊢
        have hf0 : f ≠ 0 := by
          rintro rfl
          simp only [vlqStop, Bool.or_eq_false_iff, decide_eq_false_iff_not] at hstop
          omega
        have hlive : (s.putStream (some b1)).Live .R b1 b := by
          rcases pullBits_cases 8 bs b with ⟨b2, _, e, hb, hd, hk, _⟩ | ⟨xs, b2, e, _, _, hb, hd, hk, _⟩ <;>
            simp only [pullField, e, reduceCtorEq, Taken.ok.injEq] at e8
          obtain ⟨rfl, _⟩ := e8
          exact live_putStream h hb (hd.trans h.2.2.1) (hk.trans h.2.1)
        have hrec := ih hf0 hlive hs (vlqAdd r sh (BitVec.ofNat 8 x)) (sh := sh + 7) (by omega)
        cases er : pullGroups f (sh + 7) b1 b with
        | ok b2 gs =>
          rw [er] at hrec
          exact fun u hu => .head (by simp) estep (hrec u hu)
        | raised b2 =>
          rw [er] at hrec
          exact .head (by simp) estep hrec

/-- The header fetched as a whole is the groups pulled from the stream (R103, R174). -/
theorem fetchHeader_ok {s : State} {bs bs' : BitStream} {b : Buffer} {gs : List Byte} (hv : s.vlq.stopped = false)
    (h : s.Live .R bs b) (e : pullGroups 5 0 bs b = .ok bs' gs) (hg : IsReadVlq gs) :
    fetchHeader s = .ok (s.putStream (some bs')) (.hdr (vlqValue 0#32 0 gs)) := by
  have hd := decodeHeader_groups hg []
  rw [List.append_nil] at hd
  simp only [fetchHeader, hv, Bool.false_eq_true, if_false, readStream_ok h e, Res.bind_ok, decoded, hd]

theorem fetchHeader_raised {s : State} {bs bs' : BitStream} {b : Buffer} (hv : s.vlq.stopped = false)
    (h : s.Live .R bs b) (e : pullGroups 5 0 bs b = .raised bs') :
    fetchHeader s = .raised .bufferOutOfBounds (s.putStream (some bs')) := by
  simp only [fetchHeader, hv, Bool.false_eq_true, if_false, readStream_raised h e, Res.bind_raised]

/-- The whole call after its opening, one unit a step, the header whole or group by group. -/
theorem DecodingWith.leads_body {s u : State} {c : Cfg} {i o : BufId} {b bo : Buffer} (grouped : Bool)
    (h : DecodingWith s c i o (BitStream.fresh i .R) b bo) (hp : s.phase = .decHeader) (hv : s.vlq = ⟨0#32, 0, false⟩)
    (e : settleCall (bodyDecode s).noValue = .next u) :
    Leads { s with phase := if grouped then .decGroups else .decHeader } u := by
  have hs : s.phase.side = some .R := by rw [hp]; rfl
  have hstop : s.vlq.stopped = false := by rw [hv]
  have hwhole : ({ s with phase := .decHeader } : State) = s := by rw [← hp]
  have hgroups : ({ s with phase := .decGroups } : State) = s.setPlace .decGroups ⟨0#32, 0, false⟩ := by rw [← hv]; rfl
  have hlead := groupsLead 5 (by decide) h.live hs 0#32 (sh := 0) rfl
  rcases pullGroups_cases 5 (Nat.le_refl 5) _ b h.inv rfl rfl (by decide) with
    ⟨gs, bs', eg, hg, _, hb, hd, hk, hi, _⟩ | ⟨bs', eg, _⟩ <;> rw [Nat.sub_self, Nat.mul_zero] at eg <;> rw [eg] at hlead
  · have ef := fetchHeader_ok hstop h.live eg hg
    have h' := h.putStream hb hd hk hi
    rw [bodyDecode_fetched ef] at e
    cases grouped with
    | false =>
      rw [← State.setPlace_self (s := s.putStream (some bs')) hp] at ef
      simp only [Bool.false_eq_true, if_false, hwhole]
      exact h'.leads_header hs hp ef e
    | true =>
      simp only [if_true, hgroups]
      exact hlead u fun k => h'.leads_header (v := ⟨vlqValue 0#32 0 gs, k, true⟩) hs rfl rfl e
  · have ef := fetchHeader_raised hstop h.live eg
    have eu : unitOf fetchHeader s = .raised .bufferOutOfBounds (s.putStream (some bs')) := by rw [unitOf, ef]; rfl
    rw [bodyDecode, ef] at e
    cases e
    cases grouped with
    | false =>
      simp only [Bool.false_eq_true, if_false, hwhole]
      exact .of_step (by simp [hp]) (step_of_raised (by simp [hp]) ((unitOf_decHeader hp).trans eu))
    | true =>
      simp only [if_true, hgroups]
      exact hlead

/-- Settles O59: both runs open the call alike, and then go through the same units. -/
theorem stepwiseDecodeIsDecodeInto : Obligations.StepwiseDecodeIsDecodeInto := by
  intro s u grouped c input output rest hp hr e
  obtain ⟨s0, hs0⟩ : ∃ s0 : State, s0 = { s with requests := rest } := ⟨_, rfl⟩
  have estep : step s = openCall (if grouped then .decGroups else .decHeader) (openDecode c input output s0) := by
    simp only [step, hp, if_true, stepIdle, hr, takeRequest, hs0]
  rw [← hs0] at e
  change settleCall ((openDecode c input output s0).bind fun t _ => bodyDecode t).noValue = .next u at e
  rcases openDecode_cases c input output s0 with ⟨t, b, bo, eo, h, hph, hv⟩ | ⟨t, eo⟩ | ⟨r, eo⟩ <;> rw [eo] at e estep
  · exact ⟨_, (h.leads_body grouped hph hv e).imp fun n hn => ⟨estep, hn⟩⟩
  · exact ⟨u, 0, estep.trans e, rfl⟩
  · cases e

end Sys2Proof.Machine
end

section
/-! The encoder's call one unit a step (R215, log 8). -/

namespace Sys2Proof.Machine

/-- The value `encode` returns. -/
def State.outputRet (s : State) : Ret := (s.outBuf.map Ret.buf).getD .none

/-- The rest of an encode call in one transition after a scan that ended like `r`. -/
def encodeRest (r : Res Unit) : Host.Outcome State Fault Refusal :=
  settleCall ((r.bind fun t _ => (runPad t).bind fun u _ => encodeDone u).bind fun u _ => .ok u u.outputRet)

theorem EncodingWith.setPlace {s : State} {c : Cfg} {i o : BufId} {bs : BitStream} {b bo : Buffer}
    (h : EncodingWith s c i o bs b bo) (p : Phase) (v : VlqRegs) : EncodingWith (s.setPlace p v) c i o bs b bo :=
  ⟨h.input, h.output, h.ne, h.config, h.minimum, h.source, h.live, h.wraps, h.inv⟩

theorem afterUnit_setPlace_enc {t : State} {p : Phase} {v : VlqRegs} (hp : p = .encHeader ∨ p = .encBody) :
    afterUnit (t.setPlace p v) = .next (t.setPlace t.encPlace v) := afterUnit_enc hp

/-- What follows the padding: OUT's length is set and the call returns (R215 step 6, R220). -/
theorem State.Encoding.afterUnit_tail {t : State} {n : Nat} (h : t.Encoding n) (v : VlqRegs) :
    afterUnit (t.setPlace .encTail v) = settleCall ((encodeDone t).bind fun u _ => .ok u u.outputRet) := by
  obtain ⟨c, i, o, bs, b, bo, h, _⟩ := h
  simp only [afterUnit, State.setPlace_phase, (h.setPlace .encTail v).done, h.done]
  rfl

/-- The end of an encode call, from its last place (R215 steps 5 and 6). -/
theorem State.Encoding.leads_tail {s u : State} {n : Nat} (h : s.Encoding n) (hs : s.phase.side = some .W) (v : VlqRegs)
    (e : encodeRest (.ok s ()) = .next u) : Leads (s.setPlace .encTail v) u := by
  obtain ⟨c, i, o, bs, b, bo, h, _⟩ := h
  have eu : unitOf nextUnit (s.setPlace .encTail v) = (runPad s).setPlace .encTail v := by
    rw [unitOf_encTail rfl, unitOf, choosePad, withStream_live (h.setPlace .encTail v).live, Res.bind_ok]
    exact placeFree_runPad s .encTail v
  rw [encodeRest, Res.bind_ok] at e
  rcases h.flush with ⟨t, et, hf, ht⟩ | ⟨k, t, et, hf⟩ <;> rw [et] at e eu
  · exact .of_step (by simp) ((step_of_ok (by simp) eu).trans ((ht.afterUnit_tail v).trans e))
  · cases e
    exact .of_step (by simp) ((step_of_raised (by simp) eu).trans
      (by rw [takeError_setPlace (d := .W) rfl (hf.phase.symm ▸ hs)]))

/-- The scan one token a step, from the place it has reached, and the end of the call (R215 steps 4 to 6, R219). -/
theorem State.Encoding.leads_scan (f : Nat) {s u : State} {n : Nat} (h : s.Encoding n) (hs : s.phase.side = some .W)
    (v : VlqRegs) (e : encodeRest (scanEncode f s) = .next u) : Leads (s.setPlace s.encPlace v) u := by
  induction f generalizing s with
  | zero => cases e
  | succ f ih =>
    unfold scanEncode at e
    by_cases hx : s.index < s.inputLength
    · rw [if_pos hx] at e
      rw [State.encPlace, if_pos hx]
      have eu : unitOf nextUnit (s.setPlace .encBody v) = (unitOf chooseToken s).setPlace .encBody v :=
        (unitOf_encBody rfl).trans (placeFree_chosenToken s .encBody v)
      change encodeRest ((unitOf chooseToken s).bind fun t _ => scanEncode f t) = _ at e
      rcases h.token (h.inputLength ▸ hx) with ⟨t, et, hf, ht, _⟩ | ⟨k, t, et, hf⟩ <;> rw [et] at e eu
      · exact .head (by simp) ((step_of_ok (by simp) eu).trans (afterUnit_setPlace_enc (.inr rfl)))
          (ih ht (hf.phase.symm ▸ hs) e)
      · cases e
        exact .of_step (by simp) ((step_of_raised (by simp) eu).trans
          (by rw [takeError_setPlace (d := .W) rfl (hf.phase.symm ▸ hs)]))
    · rw [if_neg hx] at e
      rw [State.encPlace, if_neg hx]
      exact h.leads_tail hs v e

/-- The whole call after its opening, one unit a step. -/
theorem State.Encoding.leads_body {s u : State} {n : Nat} (h : s.Encoding n) (hp : s.phase = .encHeader)
    (e : settleCall ((bodyEncode s).bind fun u _ => .ok u u.outputRet) = .next u) : Leads s u := by
  have hi : s.phase ≠ .idle := by simp [hp]
  change encodeRest ((unitOf chooseHeader s).bind fun t _ => scanEncode (t.inputLength + 1) t) = _ at e
  rcases h.header with ⟨t, et, hf, ht, _⟩ | ⟨k, t, et, hf⟩ <;> rw [et] at e
  · have hpt : t.phase = .encHeader := hf.phase.trans hp
    have htail := ht.leads_scan (t.inputLength + 1) (by rw [hpt]; rfl) t.vlq e
    exact .head hi ((step_of_ok hi ((unitOf_encHeader hp).trans et)).trans (afterUnit_enc (.inl hpt))) htail
  · cases e
    exact .of_step hi (step_of_raised hi ((unitOf_encHeader hp).trans et))

/-- Settles O60: both runs open the call alike, and then go through the same units. -/
theorem stepwiseEncodeIsEncode : Obligations.StepwiseEncodeIsEncode := by
  intro s u c input rest hp hr e
  obtain ⟨s0, hs0⟩ : ∃ s0 : State, s0 = { s with requests := rest } := ⟨_, rfl⟩
  have estep : step s = openCall .encHeader (openEncode c input s0) := by
    simp only [step, hp, if_true, stepIdle, hr, takeRequest, hs0]
  rw [← hs0] at e
  change settleCall ((openEncode c input s0).bind fun t _ => (bodyEncode t).bind fun u _ => .ok u u.outputRet) = .next u at e
  rcases openEncode_cases c input s0 with ⟨t, n, eo, h, hph⟩ | ⟨k, t, eo⟩ | ⟨r, eo⟩ <;> rw [eo] at e estep
  · have hself : ({ t with phase := .encHeader } : State) = t := by rw [← hph]
    obtain ⟨m, hm⟩ := h.leads_body hph e
    exact ⟨t, m, estep.trans (congrArg _ hself), hm⟩
  · exact ⟨u, 0, estep.trans e, rfl⟩
  · cases e

end Sys2Proof.Machine
end

section
/-! What every operation keeps of the invariant, in a call and between calls: the canonical form of the buffers, the Config's
invariants, the stream at an operation boundary, and the place (R10, R30, R31, R33 to R36). -/

namespace Sys2Proof.Machine

/-! ### The invariant at a place -/

/-- The invariant at the place `p`, but for what a place inside a call promises of the scan. -/
structure State.Sound (s : State) (p : Phase) : Prop where
  memory : Memory.wf s.mem = true
  config : ∀ c, s.cfg = some c → c.WellFormed = true
  stream : s.StreamInv
  place : s.phase = p
  operands : p = .idle → s.inBuf = none ∧ s.outBuf = none

/-- What is asked of a state in which a call ends: the end of the call discards the rest (R39, R18). -/
structure State.Closable (s : State) : Prop where
  memory : Memory.wf s.mem = true
  config : ∀ c, s.cfg = some c → c.WellFormed = true

theorem State.Inv.sound {s : State} (h : s.Inv) : s.Sound s.phase where
  memory := h.memory
  config := h.config
  stream := h.stream
  place := rfl
  operands hp := by simpa only [State.CallInv, hp] using h.call

/-- Between calls nothing more is promised. -/
theorem State.Sound.inv {s : State} (h : s.Sound .idle) : s.Inv where
  memory := h.memory
  config := h.config
  stream := h.stream
  call := by simpa only [State.CallInv, h.place] using h.operands rfl

theorem State.Sound.closable {s : State} {p : Phase} (h : s.Sound p) : s.Closable := ⟨h.memory, h.config⟩

theorem State.Closable.endCall {s : State} (h : s.Closable) (v : Ret) : (s.endCall v).Inv :=
  ⟨h.memory, h.config, nofun, rfl, rfl⟩

/-! ### Taking an error (R291) -/

/-- An error leads to the invariant; if no call is in progress, the stream it leaves is dead and keeps its position (R157). -/
theorem takeError_inv {s : State} (k : Status) (h : s.Closable)
    (hi : s.phase = .idle → s.inBuf = none ∧ s.outBuf = none ∧
      ∀ bs, s.bs = some bs → ∃ b, s.buf? bs.buf = some b ∧ bs.position ≤ b.capacity) : (takeError k s).Inv := by
  by_cases hp : s.phase = .idle
  · obtain ⟨hin, hout, hbs⟩ := hi hp
    rw [takeError_idle hp]
    refine ⟨h.memory, h.config, fun bs' e => ?_, by simp only [State.CallInv, hp]; exact ⟨hin, hout⟩⟩
    obtain ⟨bs, eb, rfl⟩ := Option.map_eq_some_iff.mp e
    obtain ⟨b, hb, hle⟩ := hbs bs eb
    exact ⟨b, hb, hle, nofun⟩
  · rw [takeError_call hp]
    exact ⟨s.outAfterError_wf k h.memory, h.config, nofun, rfl, rfl⟩

theorem State.Sound.takeError {s : State} {p : Phase} (h : s.Sound p) (k : Status) : (takeError k s).Inv := by
  refine takeError_inv k h.closable fun hp => ?_
  obtain ⟨hin, hout⟩ := h.operands (h.place.symm.trans hp)
  refine ⟨hin, hout, fun bs e => ?_⟩
  obtain ⟨b, hb, hle, _⟩ := h.stream bs e
  exact ⟨b, hb, hle⟩

/-! ### How an operation ends -/

/-- The operation ends in a state with `P`, or with an error that leads to the invariant, or has no next state. -/
def Res.Ends {α : Type} (P : State → Prop) : Res α → Prop
  | .ok s _ => P s
  | .raised k s => (takeError k s).Inv
  | .refused _ => True
  | .stuck _ => True

theorem Res.Ends.bind {α β : Type} {P Q : State → Prop} {x : Res α} {f : State → α → Res β} (hx : x.Ends P)
    (hf : ∀ s v, x = .ok s v → P s → (f s v).Ends Q) : (x.bind f).Ends Q := by
  cases x with
  | ok s v => exact hf s v rfl hx
  | raised k s => exact hx
  | refused r => trivial
  | stuck e => trivial

theorem Res.Ends.mono {α : Type} {P Q : State → Prop} {r : Res α} (h : r.Ends P) (hpq : ∀ s, P s → Q s) : r.Ends Q := by
  cases r with
  | ok s v => exact hpq s h
  | _ => exact h

theorem Res.Ends.noValue {P : State → Prop} {r : Res Unit} (h : r.Ends P) : r.noValue.Ends P := h.bind fun _ _ _ hs => hs

theorem settle_inv {r : Res Ret} {t : State} (e : settle r = .next t) (h : r.Ends fun s => s.Sound .idle) : t.Inv := by
  rcases settle_cases r with ⟨s, v, rfl, e'⟩ | ⟨k, s, rfl, e'⟩ | ⟨r, rfl, e'⟩ | ⟨f, rfl, e'⟩ <;> rw [e'] at e <;> cases e
  · exact State.Sound.inv ⟨h.memory, h.config, h.stream, h.place, h.operands⟩
  · exact h

theorem settleUnit_inv {r : Res Unit} {t : State} (e : settleUnit r = .next t) (h : r.Ends State.Inv) : t.Inv := by
  rcases settleUnit_cases r with ⟨s, rfl, e'⟩ | ⟨k, s, rfl, e'⟩ | ⟨r, rfl, e'⟩ | ⟨f, rfl, e'⟩ <;> rw [e'] at e <;> cases e
  · exact h
  · exact h

theorem settleCall_inv {r : Res Ret} {t : State} (e : settleCall r = .next t) (h : r.Ends State.Closable) : t.Inv := by
  rcases settleCall_cases r with ⟨s, v, rfl, e'⟩ | ⟨k, s, rfl, e'⟩ | ⟨r, rfl, e'⟩ | ⟨f, rfl, e'⟩ <;> rw [e'] at e <;> cases e
  · exact h.endCall v
  · exact h

/-! ### Operands -/

section
variable {α : Type} {P : State → Prop} {s : State}

theorem withConfig_ends {c : Cfg} {k : Res α} (hk : c.WellFormed = true → k.Ends P) : (withConfig c k).Ends P := by
  rcases withConfig_cases c k with ⟨hc, e⟩ | ⟨r, e⟩ <;> rw [e]
  · exact hk hc
  · trivial

theorem withWidth_ends {n : Nat} {k : Res α} (hk : k.Ends P) : (withWidth n k).Ends P := by
  unfold withWidth
  split
  · trivial
  · exact hk

theorem withBuffer_ends {id : BufId} {k : Buffer → Res α} (hk : ∀ b, s.buf? id = some b → (k b).Ends P) :
    (withBuffer s id k).Ends P := by
  rcases withBuffer_cases s id k with ⟨b, hb, e⟩ | ⟨r, e⟩ <;> rw [e]
  · exact hk b hb
  · trivial

theorem withStream_ends {d : Dir} {k : BitStream → Buffer → Res α} (hk : ∀ bs b, s.Live d bs b → (k bs b).Ends P) :
    (withStream s d k).Ends P := by
  rcases withStream_cases s d k with ⟨r, e⟩ | ⟨bs, b, hl, e⟩ <;> rw [e]
  · trivial
  · exact hk bs b hl

theorem withCallConfig_ends {k : Cfg → Res α} (hk : ∀ c, (k c).Ends P) : (withCallConfig s k).Ends P := by
  unfold withCallConfig
  split
  · trivial
  · exact hk _

theorem withInput_ends {k : Buffer → Res α} (hk : ∀ b, (k b).Ends P) : (withInput s k).Ends P := by
  unfold withInput
  split
  · trivial
  · exact withBuffer_ends fun b _ => hk b

theorem withOutput_ends {k : BufId → Buffer → Res Unit} (hk : ∀ o b, s.buf? o = some b → (k o b).Ends P) :
    (withOutput s k).Ends P := by
  unfold withOutput
  split
  · trivial
  · exact withBuffer_ends fun b hb => hk _ b hb

theorem byDirection_ends {r w : Res Unit} (hr : r.Ends P) (hw : w.Ends P) : (byDirection s r w).Ends P := by
  unfold byDirection
  split
  · trivial
  · split
    · trivial
    · split
      · exact hr
      · exact hw

end

/-! ### Updates of a sound state -/

theorem BitStream.Inv.of_capacity {bs : BitStream} {b b' : Buffer} (h : bs.Inv b) (hc : b'.capacity = b.capacity) :
    bs.Inv b' := ⟨hc ▸ h.1, h.2⟩

theorem Buffer.wf_setLength {b : Buffer} {n : Nat} (h : b.wf = true) (hn : n ≤ b.capacity) :
    ({ b with length := n } : Buffer).wf = true := by
  simp only [Buffer.wf, Bool.and_eq_true, decide_eq_true_eq] at h ⊢
  exact ⟨h.1, hn⟩

section
variable {s : State} {p : Phase}

/-- The registers of the scan are free. -/
theorem State.Sound.setScan (h : s.Sound p) (m : Match) (k : Nat) (d : Word) (v : VlqRegs) (n : Nat) :
    ({ s with mtch := m, index := k, declared := d, vlq := v, draws := n } : State).Sound p :=
  ⟨h.memory, h.config, h.stream, h.place, h.operands⟩

/-- A buffer is replaced by one of the same capacity (R30). -/
theorem State.Sound.putBuf (h : s.Sound p) {id : BufId} {b b' : Buffer} (hb : s.buf? id = some b) (hw : b'.wf = true)
    (hc : b'.capacity = b.capacity) : (s.putBuf id b').Sound p where
  memory := Memory.wf_set h.memory hw
  config := h.config
  stream bs e := by
    obtain ⟨b1, h1, hi⟩ := h.stream bs e
    by_cases hid : id = bs.buf
    · subst hid
      obtain rfl : b = b1 := Option.some.inj (hb.symm.trans h1)
      exact ⟨b', State.buf?_putBuf_same hb, hi.of_capacity hc⟩
    · exact ⟨b1, (State.buf?_putBuf_other hid).trans h1, hi⟩
  place := h.place
  operands := h.operands

theorem State.Sound.putStream (h : s.Sound p) {bs : BitStream} {b : Buffer} (hb : s.buf? bs.buf = some b) (hi : bs.Inv b) :
    (s.putStream (some bs)).Sound p where
  memory := h.memory
  config := h.config
  stream bs' e := by cases e; exact ⟨b, hb, hi⟩
  place := h.place
  operands := h.operands

theorem State.Sound.dropStream (h : s.Sound p) : (s.putStream none).Sound p :=
  ⟨h.memory, h.config, nofun, h.place, h.operands⟩

/-- A buffer more, provided by the host or allocated (R214). -/
theorem State.Sound.addBuf (h : s.Sound p) {b : Buffer} (hw : b.wf = true) (g : List Bool) (n : Nat) :
    ({ s with mem := s.mem ++ [b], grants := g, draws := n } : State).Sound p where
  memory := Memory.wf_append h.memory hw
  config := h.config
  stream bs e := by
    obtain ⟨b1, h1, hi⟩ := h.stream bs e
    exact ⟨b1, (List.getElem?_append_left (List.getElem?_eq_some_iff.mp h1).1).trans h1, hi⟩
  place := h.place
  operands := h.operands

theorem hostAlloc_sound (h : s.Sound p) (n : Nat) : (hostAlloc n s).Ends fun t => t.Sound p := by
  rcases hostAlloc_cases n s with ⟨_, e⟩ | ⟨_, e⟩ <;> rw [e]
  · exact h.addBuf (Buffer.fresh_wf _ _) _ _
  · have ht : ({ s with grants := s.grants.tail, draws := s.draws + 1 } : State).Sound p :=
      ⟨h.memory, h.config, h.stream, h.place, h.operands⟩
    exact ht.takeError _

end

/-! ### The stream's operations (R33 to R36) -/

/-- A write on `bs` and `b` leaves the stream at an operation boundary of the buffer; one that fails keeps its position inside. -/
def Written.Keeps (bs : BitStream) (b : Buffer) : Written → Prop
  | .ok bs' b' => bs'.buf = bs.buf ∧ b'.capacity = b.capacity ∧ (b.wf = true → b'.wf = true) ∧ bs'.Inv b'
  | .raised bs' b' => bs'.buf = bs.buf ∧ (b.wf = true → b'.wf = true) ∧ bs'.position ≤ b'.capacity

/-- The same of a read, which touches no buffer (R83). -/
def Taken.Keeps {α : Type} (bs : BitStream) (b : Buffer) : Taken α → Prop
  | .ok bs' _ => bs'.buf = bs.buf ∧ bs'.dir = bs.dir ∧ bs'.dead = bs.dead ∧ bs'.Inv b
  | .raised bs' => bs'.buf = bs.buf ∧ bs'.position ≤ b.capacity

section
variable {bs : BitStream} {b : Buffer}

theorem pushBits_keeps (hi : bs.Inv b) (hk : bs.dead = false) (hd : bs.dir = .W) (xs : List Bool) :
    (pushBits bs b xs).Keeps bs b := by
  obtain ⟨hpos, hin⟩ := hi
  obtain ⟨h7, hacc⟩ := hin hk
  obtain ⟨bs', b', ⟨e, _, h7', _⟩ | ⟨e, _⟩, hb, _, _, _, hp, ha, hcap, _, hwf, _⟩ := pushBits_cases xs bs b h7 <;> rw [e]
  · exact ⟨hb, hcap, hwf, hcap ▸ hp hpos, fun _ => ⟨h7', fun _ => ha (hacc hd)⟩⟩
  · exact ⟨hb, hwf, hcap ▸ hp hpos⟩

theorem flushBits_keeps (hi : bs.Inv b) (hk : bs.dead = false) : (flushBits bs b).Keeps bs b := by
  rcases flushBits_cases bs b (hi.2 hk).1 with ⟨_, e⟩ | ⟨_, _, e⟩ | ⟨b', _, hlt, e, _, hcap, _, hwf, _⟩ <;> rw [e]
  · exact ⟨rfl, rfl, id, hi⟩
  · exact ⟨rfl, id, hi.1⟩
  · exact ⟨rfl, hcap, hwf, hcap ▸ hlt, fun _ => ⟨Nat.zero_le _, fun _ => by simp⟩⟩

/-- On an `R` stream only the position and the bit count are bounded. -/
theorem BitStream.Inv.of_read (hpos : bs.position ≤ b.capacity) (h7 : bs.bitCount ≤ 7) (hd : bs.dir = .R) : bs.Inv b :=
  ⟨hpos, fun _ => ⟨h7, fun hw => by rw [hd] at hw; cases hw⟩⟩

theorem pullBit_keeps (hi : bs.Inv b) (hk : bs.dead = false) (hd : bs.dir = .R) : (pullBit bs b).Keeps bs b := by
  rcases pullBit_cases bs b with ⟨_, _, _, e⟩ | ⟨x, bs', e, _, hb, hdir, hdead, hc, _, hp⟩ <;> rw [e]
  · exact ⟨rfl, hi.1⟩
  · exact ⟨hb, hdir, hdead, .of_read (hp hi.1) (hc (Nat.le_succ_of_le (hi.2 hk).1)) (hdir.trans hd)⟩

theorem pullBits_keeps (hi : bs.Inv b) (hk : bs.dead = false) (hd : bs.dir = .R) (n : Nat) :
    (pullBits n bs b).Keeps bs b := by
  rcases pullBits_cases n bs b with ⟨bs', _, e, hb, _, _, hp⟩ | ⟨xs, bs', e, _, _, hb, hdir, hdead, hc, hp⟩ <;> rw [e]
  · exact ⟨hb, hp hi.1⟩
  · exact ⟨hb, hdir, hdead, .of_read (hp hi.1) (hc (hi.2 hk).1) (hdir.trans hd)⟩

theorem pullField_keeps (hi : bs.Inv b) (hk : bs.dead = false) (hd : bs.dir = .R) (n : Nat) :
    (pullField n bs b).Keeps bs b := by
  have h := pullBits_keeps hi hk hd n
  unfold pullField
  cases e : pullBits n bs b <;> rw [e] at h <;> exact h

theorem pullGroups_keeps (hi : bs.Inv b) (hk : bs.dead = false) (hd : bs.dir = .R) : (pullGroups 5 0 bs b).Keeps bs b := by
  rcases pullGroups_cases 5 (Nat.le_refl 5) bs b hi hk hd (by decide) with
    ⟨gs, bs', e, _, _, hb, hdir, hdead, hi', _⟩ | ⟨bs', e, hb, _, _, hp, _⟩ <;> rw [Nat.sub_self, Nat.mul_zero] at e <;> rw [e]
  · exact ⟨hb, hdir.trans hd.symm, hdead.trans hk.symm, hi'⟩
  · exact ⟨hb, Nat.le_of_eq hp⟩

theorem pullVlq_keeps (hi : bs.Inv b) (hk : bs.dead = false) (hd : bs.dir = .R) : (pullVlq bs b).Keeps bs b := by
  have h := pullGroups_keeps hi hk hd
  unfold pullVlq
  cases e : pullGroups 5 0 bs b <;> rw [e] at h <;> exact h

theorem pullToken_keeps (hi : bs.Inv b) (hk : bs.dead = false) (hd : bs.dir = .R) (c : Cfg) :
    (pullToken c bs b).Keeps bs b := by
  have h1 := pullBit_keeps hi hk hd
  unfold pullToken
  cases e1 : pullBit bs b with
  | raised bs1 => rw [e1] at h1; exact h1
  | ok bs1 flag =>
    rw [e1] at h1
    obtain ⟨hb, hdir, hdead, hi1⟩ := h1
    have h2 := pullBits_keeps hi1 (hdead.trans hk) (hdir.trans hd) (if flag then c.offsetBits + c.lengthBits else 8)
    dsimp only
    cases e2 : pullBits (if flag then c.offsetBits + c.lengthBits else 8) bs1 b <;> rw [e2] at h2
    · obtain ⟨hb2, hdir2, hdead2, hi2⟩ := h2
      exact ⟨hb2.trans hb, hdir2.trans hdir, hdead2.trans hdead, hi2⟩
    · obtain ⟨hb2, hp2⟩ := h2
      exact ⟨hb2.trans hb, hp2⟩

end

section
variable {s : State} {p : Phase}

theorem State.Sound.boundary (h : s.Sound p) {d : Dir} {bs : BitStream} {b : Buffer} (hl : s.Live d bs b) : bs.Inv b := by
  obtain ⟨b', hb', hi⟩ := h.stream bs hl.1
  obtain rfl : b = b' := Option.some.inj (hl.2.2.2.symm.trans hb')
  exact hi

theorem writeStream_sound (h : s.Sound p) {f : BitStream → Buffer → Written}
    (hf : ∀ bs b, bs.Inv b → bs.dead = false → bs.dir = .W → (f bs b).Keeps bs b) :
    (writeStream s f).Ends fun t => t.Sound p := by
  refine withStream_ends fun bs b hl => ?_
  have hk := hf bs b (h.boundary hl) hl.2.1 hl.2.2.1
  have hbuf := hl.2.2.2
  have hwf := Memory.wf_get h.memory hbuf
  cases e : f bs b with
  | ok bs' b' =>
    rw [e] at hk
    obtain ⟨hb, hcap, hw, hi⟩ := hk
    exact (h.putBuf hbuf (hw hwf) hcap).putStream (by rw [hb]; exact State.buf?_putBuf_same hbuf) hi
  | raised bs' b' =>
    rw [e] at hk
    obtain ⟨hb, hw, hp⟩ := hk
    refine takeError_inv _ ⟨Memory.wf_set h.memory (hw hwf), h.config⟩ fun hi => ?_
    obtain ⟨hin, hout⟩ := h.operands (h.place.symm.trans hi)
    exact ⟨hin, hout, fun x ex => by cases ex; exact ⟨b', by rw [hb]; exact State.buf?_putBuf_same hbuf, hp⟩⟩

theorem readStream_sound {α : Type} (h : s.Sound p) {f : BitStream → Buffer → Taken α}
    (hf : ∀ bs b, bs.Inv b → bs.dead = false → bs.dir = .R → (f bs b).Keeps bs b) :
    (readStream s f).Ends fun t => t.Sound p := by
  refine withStream_ends fun bs b hl => ?_
  have hk := hf bs b (h.boundary hl) hl.2.1 hl.2.2.1
  have hbuf := hl.2.2.2
  cases e : f bs b with
  | ok bs' v =>
    rw [e] at hk
    obtain ⟨hb, _, _, hi⟩ := hk
    exact h.putStream (by rw [hb]; exact hbuf) hi
  | raised bs' =>
    rw [e] at hk
    obtain ⟨hb, hp⟩ := hk
    refine takeError_inv _ ⟨h.memory, h.config⟩ fun hi => ?_
    obtain ⟨hin, hout⟩ := h.operands (h.place.symm.trans hi)
    exact ⟨hin, hout, fun x ex => by cases ex; exact ⟨b, by rw [hb]; exact hbuf, hp⟩⟩

theorem pushes_sound (h : s.Sound p) (xs : List Bool) :
    (writeStream s fun bs b => pushBits bs b xs).Ends fun t => t.Sound p :=
  writeStream_sound h fun _ _ hi hk hd => pushBits_keeps hi hk hd xs

theorem flush_sound (h : s.Sound p) : (writeStream s flushBits).Ends fun t => t.Sound p :=
  writeStream_sound h fun _ _ hi hk _ => flushBits_keeps hi hk

/-! ### The units of the format -/

theorem runGroup_sound (h : s.Sound p) (g : Byte) : (runGroup g s).Ends fun t => t.Sound p :=
  byDirection_ends (h.setScan s.mtch s.index s.declared _ s.draws) (pushes_sound h _)

theorem runHdr_sound (h : s.Sound p) (v : Word) : (runHdr v s).Ends fun t => t.Sound p := by
  refine byDirection_ends (withOutput_ends fun o b _ => ?_)
    ((pushes_sound h _).bind fun t _ _ ht => ht.setScan t.mtch 0 t.declared t.vlq t.draws)
  split
  · exact (h.setScan s.mtch s.index v s.vlq s.draws).takeError _
  · exact h.setScan s.mtch 0 v s.vlq s.draws

theorem runLiteral_sound (h : s.Sound p) (v : Byte) : (runLiteral v s).Ends fun t => t.Sound p := by
  refine byDirection_ends (withOutput_ends fun o b hb => ?_)
    ((pushes_sound h _).bind fun t _ _ ht => ht.setScan t.mtch _ t.declared t.vlq t.draws)
  cases e : b.memWrite s.index v with
  | none => exact h.takeError _
  | some b' =>
    exact (h.putBuf hb (Buffer.memWrite_wf e (Memory.wf_get h.memory hb)) (Buffer.memWrite_some e).2.1).setScan
      s.mtch _ s.declared s.vlq s.draws

theorem readPair_sound (h : s.Sound p) (o l : Nat) : (readPair o l s).Ends fun t => t.Sound p := by
  refine withOutput_ends fun id b hb => ?_
  obtain ⟨hcap, _, hwf⟩ := copyForward_keeps o l s.index b
  have ht := h.putBuf hb (hwf (Memory.wf_get h.memory hb)) hcap
  dsimp only
  split
  · exact ht.setScan s.mtch _ s.declared s.vlq s.draws
  · exact ht.takeError _

theorem writePair_sound (h : s.Sound p) (ob lb o l : Nat) : (writePair ob lb o l s).Ends fun t => t.Sound p :=
  (pushes_sound h _).bind fun t _ _ ht => ht.setScan t.mtch _ t.declared t.vlq t.draws

theorem runPair_sound (h : s.Sound p) (o l : Nat) : (runPair o l s).Ends fun t => t.Sound p := by
  refine byDirection_ends (readPair_sound h o l) ?_
  split
  · trivial
  · exact writePair_sound h _ _ o l

theorem runPad_sound (h : s.Sound p) : (runPad s).Ends fun t => t.Sound p := byDirection_ends h (flush_sound h)

theorem runUnit_sound (h : s.Sound p) (i : Instr) : (runUnit i s).Ends fun t => t.Sound p := by
  cases i with
  | vlqLast v => exact runGroup_sound h _
  | vlqCont v => exact runGroup_sound h _
  | hdr v => exact runHdr_sound h v
  | literal v => exact runLiteral_sound h v
  | pair o l => exact runPair_sound h o l
  | pairDemo o l => exact byDirection_ends (readPair_sound h _ _) (writePair_sound h _ _ _ _)
  | pad k => exact runPad_sound h
  | _ => trivial

theorem decoded_sound (h : s.Sound p) (r : Except DecodeError (Instr × List Bool)) :
    (decoded s r).Ends fun t => t.Sound p := by
  rcases r with e | ⟨i, rest⟩
  · trivial
  · exact h

theorem fetchHeader_sound (h : s.Sound p) : (fetchHeader s).Ends fun t => t.Sound p := by
  unfold fetchHeader
  split
  · exact h
  · exact (readStream_sound h fun _ _ hi hk hd => pullGroups_keeps hi hk hd).bind fun _ _ _ ht => decoded_sound ht _

theorem chooseToken_sound (h : s.Sound p) : (chooseToken s).Ends fun t => t.Sound p := by
  refine withCallConfig_ends fun c => withInput_ends fun b => ?_
  have ht : (searchAt b s.index c s).Sound p := h.setScan _ s.index s.declared s.vlq _
  dsimp only
  split
  · exact ht
  · cases b.memRead s.index with
    | none => exact ht.takeError _
    | some v => exact ht

theorem nextUnit_sound (h : s.Sound p) : (nextUnit s).Ends fun t => t.Sound p := by
  unfold nextUnit
  split
  case h_1 => trivial
  case h_2 =>
    exact (readStream_sound h fun _ _ hi hk hd => pullBits_keeps hi hk hd 8).bind fun _ _ _ ht => decoded_sound ht _
  case h_3 => exact fetchHeader_sound h
  case h_4 =>
    exact withCallConfig_ends fun c =>
      (readStream_sound h fun _ _ hi hk hd => pullToken_keeps hi hk hd c).bind fun _ _ _ ht => decoded_sound ht _
  case h_5 => exact withStream_ends fun _ _ _ => h
  case h_6 => exact withInput_ends fun _ => h
  case h_7 => exact chooseToken_sound h
  case h_8 => exact withStream_ends fun _ _ _ => h

theorem unitOf_sound (h : s.Sound p) : (unitOf nextUnit s).Ends fun t => t.Sound p :=
  (nextUnit_sound h).bind fun _ i _ ht => runUnit_sound ht i

end

end Sys2Proof.Machine
end

section
/-! What a place inside a call promises of the scan, kept by every step of a call (R219, R246). -/

namespace Sys2Proof.Machine

/-! ### The decoder's scan -/

theorem State.Decoding.decodeCall {s : State} {n : Nat} (h : s.Decoding n) : ∃ bs bo, s.DecodeCall bs bo := by
  obtain ⟨c, i, o, bs, b, bo, h, _⟩ := h
  exact ⟨bs, bo, i, o, c, b, h.input, h.output, h.ne, h.config, h.live, h.wraps, h.dest⟩

theorem State.DecodeCall.decodingWith {bs : BitStream} {bo : Buffer} (h : s.DecodeCall bs bo) (hs : s.StreamInv) :
    ∃ c i o b, DecodingWith s c i o bs b bo := by
  obtain ⟨i, o, c, b, hi, ho, hne, hc, hl, hb, hd⟩ := h
  obtain ⟨b', hb', hinv⟩ := hs bs hl.1
  obtain rfl : b = b' := Option.some.inj (hl.2.2.2.symm.trans hb')
  exact ⟨c, i, o, b, hi, ho, hne, hc, hl, hb, hd, hinv⟩

/-- The decoder's scan in progress: `declared_length` is OUT's capacity, and the cursor is inside OUT or at its end (R245, R246). -/
def State.DecodeScan (s : State) : Prop :=
  ∃ c i o bs b bo, DecodingWith s c i o bs b bo ∧ s.declared.toNat = bo.capacity ∧ s.index ≤ bo.capacity

/-- The place the decoder reaches keeps its promise (R246). -/
theorem State.DecodeScan.callInv {s : State} (h : s.DecodeScan) : ({ s with phase := s.decPlace } : State).CallInv := by
  obtain ⟨c, i, o, bs, b, bo, h, hcap, hx⟩ := h
  have hd : ∀ p, ({ s with phase := p } : State).DecodeCall bs bo := fun p =>
    ⟨i, o, c, b, h.input, h.output, h.ne, h.config, h.live, h.wraps, h.dest⟩
  by_cases he : s.index = s.declared.toNat
  · rw [State.decPlace, if_pos he]
    exact ⟨bs, bo, hd _, hcap, he.trans hcap⟩
  · rw [State.decPlace, if_neg he]
    exact ⟨bs, bo, hd _, hcap, Nat.lt_of_le_of_ne hx (hcap ▸ he)⟩

section
variable {s u : State} {c : Cfg} {i o : BufId} {bs : BitStream} {b bo : Buffer}

/-- A header that passes the test of R245 starts the scan. -/
theorem DecodingWith.scan_of_header (h : DecodingWith s c i o bs b bo) {v : Word} (e : runUnit (.hdr v) s = .ok u ()) :
    u.DecodeScan := by
  simp only [runUnit, runHdr, byDirection_read h.live, readHdr, withOutput_some h.output h.dest] at e
  split at e
  · cases e
  · rename_i hcap
    cases e
    exact ⟨c, i, o, bs, b, bo, h.setScan 0 v s.vlq s.phase, Decidable.not_not.mp hcap, Nat.zero_le _⟩

/-- A pair copied to its end lies inside OUT (R252, R253). -/
theorem readPair_within (h : DecodingWith s c i o bs b bo) (hx : s.index ≤ bo.capacity) {offset length : Nat}
    (e : readPair offset length s = .ok u ()) :
    ∃ bo', bo'.capacity = bo.capacity ∧ s.index + length ≤ bo.capacity ∧
      u = { s.putBuf o bo' with index := s.index + length } := by
  rw [readPair_eq h.output h.dest] at e
  split at e
  · rename_i hok
    cases e
    refine ⟨_, (copyForward_keeps offset length s.index bo).1, ?_, rfl⟩
    by_contra hout
    rw [copyForward_outside (by omega) (.inr (by omega))] at hok
    cases hok
  · cases e

/-- A token that ends well moves the cursor inside OUT (R248, R250). -/
theorem runUnit_token_within (h : DecodingWith s c i o bs b bo) (hx : s.index ≤ bo.capacity) {tok : Instr}
    {l rest : List Bool} (hd : decodeToken c l = .ok (tok, rest)) (e : runUnit tok s = .ok u ()) :
    ∃ bo' k, bo'.capacity = bo.capacity ∧ k ≤ bo.capacity ∧ u = { s.putBuf o bo' with index := k } := by
  rcases decodeToken_slot hd with ⟨byte, rfl⟩ | ⟨p, n, rfl⟩ | ⟨p, n, rfl⟩
  · simp only [runUnit, runLiteral, byDirection_read h.live, readLiteral, withOutput_some h.output h.dest] at e
    cases hw : bo.memWrite s.index byte with
    | none => rw [hw] at e; cases e
    | some bo' =>
      rw [hw] at e
      cases e
      obtain ⟨hlt, hcap, _⟩ := Buffer.memWrite_some hw
      exact ⟨bo', _, hcap, hlt, rfl⟩
  · simp only [runUnit, runPair, byDirection_read h.live] at e
    obtain ⟨bo', hcap, hle, hu⟩ := readPair_within h hx e
    exact ⟨bo', _, hcap, hle, hu⟩
  · simp only [runUnit, runPairDemo, byDirection_read h.live] at e
    obtain ⟨bo', hcap, hle, hu⟩ := readPair_within h hx e
    exact ⟨bo', _, hcap, hle, hu⟩

end

/-- After the header the scan is in progress (R243, R245). -/
theorem State.Decoding.scan_of_header {s u : State} {n : Nat} (h : s.Decoding n) (e : unitOf fetchHeader s = .ok u ()) :
    u.DecodeScan := by
  obtain ⟨c, i, o, bs, b, bo, h, _⟩ := h
  cases hv : s.vlq.stopped with
  | true =>
    have ef : fetchHeader s = .ok s (.hdr s.vlq.result) := by simp [fetchHeader, hv]
    rw [unitOf, ef] at e
    exact h.scan_of_header e
  | false =>
    rcases fetchHeader_cases hv h.live h.inv with ⟨gs, bs', ef, _, _, hb, hd, hk, hi⟩ | ⟨bs', ef, _⟩ <;>
      rw [unitOf, ef] at e
    · exact (h.putStream hb hd hk hi).scan_of_header e
    · cases e

/-- After a token the scan is in progress (R246 to R250). -/
theorem State.DecodeScan.token {s u : State} (h : s.DecodeScan) (e : unitOf fetchToken s = .ok u ()) : u.DecodeScan := by
  obtain ⟨c, i, o, bs, b, bo, h, hcap, hx⟩ := h
  rcases fetchToken_cases h.config h.live h.inv with ⟨tok, bs', ef, hd, _, hb, hdir, hk, hi⟩ | ⟨_, bs', ef, _⟩ <;>
    rw [unitOf, ef] at e
  · have h' := h.putStream hb hdir hk hi
    obtain ⟨bo', k, hc, hle, rfl⟩ := runUnit_token_within h' hx hd e
    exact ⟨c, i, o, bs', b, bo', (h'.putOut bo').setScan k s.declared s.vlq s.phase, hcap.trans hc.symm, hc.symm ▸ hle⟩
  · cases e

/-! ### The encoder's scan -/

theorem State.Encoding.encodeCall {s : State} {n : Nat} (h : s.Encoding n) (h1 : 1 ≤ n) (hn : n ≤ 4294967295) :
    s.EncodeCall n := by
  obtain ⟨c, i, o, bs, b, bo, h, hl⟩ := h
  exact ⟨i, o, c, b, bs, bo, h.input, h.output, h.ne, h.config, h.source, hl, h1, hn, h.live, h.wraps⟩

/-- The place the encoder reaches keeps its promise (R219). -/
theorem State.Encoding.callInv {s : State} {n : Nat} (h : s.Encoding n) (h1 : 1 ≤ n) (hn : n ≤ 4294967295)
    (hx : s.index ≤ n) : ({ s with phase := s.encPlace } : State).CallInv := by
  have hc : ∀ p, ({ s with phase := p } : State).EncodeCall n := fun p =>
    (h.setScan s.mtch s.index s.draws p).encodeCall h1 hn
  by_cases he : s.index < s.inputLength
  · rw [State.encPlace, if_pos he]
    exact ⟨n, hc _, h.inputLength ▸ he⟩
  · rw [State.encPlace, if_neg he]
    rw [h.inputLength] at he
    exact ⟨n, hc _, Nat.le_antisymm hx (Nat.not_lt.mp he)⟩

/-- A token the encoder writes does not pass the end of the input (R219). -/
theorem State.Encoding.token_within {s u : State} {n : Nat} (h : s.Encoding n) (hx : s.index < n)
    (e : unitOf chooseToken s = .ok u ()) : u.index ≤ n := by
  obtain ⟨c, i, o, bs, b, bo, h, rfl⟩ := h
  have h' : EncodingWith (searchAt b s.index c s) c i o bs b bo := h.setScan _ s.index _ s.phase
  rcases chooseToken_cases h.config h.input h.source with ec | ec <;> rw [unitOf, ec] at e
  · obtain ⟨hslot, _, hadv, _, hle, ⟨bits, henc, _⟩, _⟩ :=
      chosen_spec (free := (Config.freeOffset s.draws).toNat) h.minimum hx
    rw [Res.bind_ok, runUnit_write h'.live h'.config (by rw [hslot]; decide) henc] at e
    obtain ⟨t, _, et, e⟩ := Res.bind_eq_ok e
    obtain ⟨_, _, hi⟩ := UnitEnds.of_ok (et ▸ h'.push bits)
    cases e
    have hi : t.index = s.index := hi
    rw [← hi] at hle hadv ⊢
    rwa [hadv]
  · cases e

/-! ### Steps of a call -/

section
variable {s t : State}

/-- A step of a call: an error, or the unit and what follows it. -/
theorem State.Inv.step_unit (h : s.Inv) (hp : s.phase ≠ .idle) (e : step s = .next t)
    (hn : ∀ u, unitOf nextUnit s = .ok u () → u.Sound s.phase → ∃ v, afterUnit u = .next v ∧ v.Inv) : t.Inv := by
  have hs := unitOf_sound h.sound
  cases hu : unitOf nextUnit s with
  | ok u _ =>
    rw [hu] at hs
    obtain ⟨v, ev, hv⟩ := hn u hu hs
    rw [step_of_ok hp hu, ev] at e
    cases e
    exact hv
  | raised k u =>
    rw [step_of_raised hp hu] at e
    rw [hu] at hs
    cases e
    exact hs
  | refused r => rw [step_call hp, hu] at e; cases e
  | stuck f => rw [step_call hp, hu] at e; cases e

/-- A sound state at a place whose promise is kept. -/
theorem State.Sound.atPlace {p q : Phase} (h : s.Sound p) (hc : ({ s with phase := q } : State).CallInv) :
    ({ s with phase := q } : State).Inv := ⟨h.memory, h.config, h.stream, hc⟩

theorem State.Inv.step_decGroups (h : s.Inv) (hp : s.phase = .decGroups) (e : step s = .next t) : t.Inv := by
  obtain ⟨bs, bo, hd, _⟩ : ∃ bs o, s.DecodeCall bs o ∧ s.vlq.stopped = false := by
    simpa only [State.CallInv, hp] using h.call
  obtain ⟨n, hd⟩ := hd.decoding h.stream
  refine h.step_unit (by simp [hp]) e fun u hu hs => ?_
  obtain ⟨_, m, _, hdu⟩ := UnitEnds.of_ok ((unitOf_decGroups hp).symm.trans hu ▸ hd.group)
  refine ⟨_, afterUnit_groups (hs.place.trans hp), hs.atPlace ?_⟩
  obtain ⟨bs, bo, hc⟩ := hdu.decodeCall
  cases hv : u.vlq.stopped with
  | true => exact ⟨bs, bo, hc⟩
  | false => exact ⟨bs, bo, hc, hv⟩

theorem State.Inv.step_decHeader (h : s.Inv) (hp : s.phase = .decHeader) (e : step s = .next t) : t.Inv := by
  obtain ⟨bs, bo, hd⟩ : ∃ bs o, s.DecodeCall bs o := by simpa only [State.CallInv, hp] using h.call
  obtain ⟨n, hd⟩ := hd.decoding h.stream
  refine h.step_unit (by simp [hp]) e fun u hu hs => ?_
  rw [unitOf_decHeader hp] at hu
  exact ⟨_, afterUnit_dec (.inl (hs.place.trans hp)), hs.atPlace (hd.scan_of_header hu).callInv⟩

theorem State.Inv.step_decBody (h : s.Inv) (hp : s.phase = .decBody) (e : step s = .next t) : t.Inv := by
  obtain ⟨bs, bo, hd, hcap, hx⟩ :
      ∃ bs o, s.DecodeCall bs o ∧ s.declared.toNat = o.capacity ∧ s.index < o.capacity := by
    simpa only [State.CallInv, hp] using h.call
  obtain ⟨c, i, o, b, hd⟩ := hd.decodingWith h.stream
  have hscan : s.DecodeScan := ⟨c, i, o, bs, b, bo, hd, hcap, Nat.le_of_lt hx⟩
  refine h.step_unit (by simp [hp]) e fun u hu hs => ?_
  rw [unitOf_decBody hp] at hu
  exact ⟨_, afterUnit_dec (.inr (hs.place.trans hp)), hs.atPlace (hscan.token hu).callInv⟩

theorem State.Inv.step_decTail (h : s.Inv) (hp : s.phase = .decTail) (e : step s = .next t) : t.Inv := by
  obtain ⟨bs, bo, hd, hcap, _⟩ :
      ∃ bs o, s.DecodeCall bs o ∧ s.declared.toNat = o.capacity ∧ s.index = o.capacity := by
    simpa only [State.CallInv, hp] using h.call
  obtain ⟨c, i, o, b, hd⟩ := hd.decodingWith h.stream
  refine h.step_unit (by simp [hp]) e fun u hu hs => ?_
  rw [unitOf_decTail hp, hd.pad] at hu
  cases hu
  have hw := Buffer.wf_setLength (Memory.wf_get h.memory hd.dest) (Nat.le_of_eq hcap)
  exact ⟨_, by simp only [afterUnit, hp, hd.done]; rfl, (hs.putBuf hd.dest hw rfl).closable.endCall .none⟩

/-- The parts of an encode call, with the bounds of its input. -/
theorem State.Inv.encoding (h : s.Inv) {n : Nat} (hc : s.EncodeCall n) : s.Encoding n ∧ 1 ≤ n ∧ n ≤ 4294967295 := by
  have he := hc.encoding h.stream h.config
  obtain ⟨_, _, _, _, _, _, _, _, _, _, _, _, h1, hn, _⟩ := hc
  exact ⟨he, h1, hn⟩

theorem State.Inv.step_encHeader (h : s.Inv) (hp : s.phase = .encHeader) (e : step s = .next t) : t.Inv := by
  obtain ⟨n, hc⟩ : ∃ n, s.EncodeCall n := by simpa only [State.CallInv, hp] using h.call
  obtain ⟨he, h1, hn⟩ := h.encoding hc
  refine h.step_unit (by simp [hp]) e fun u hu hs => ?_
  obtain ⟨_, heu, h0⟩ := UnitEnds.of_ok ((unitOf_encHeader hp).symm.trans hu ▸ he.header)
  exact ⟨_, afterUnit_enc (.inl (hs.place.trans hp)), hs.atPlace (heu.callInv h1 hn (h0 ▸ Nat.zero_le n))⟩

theorem State.Inv.step_encBody (h : s.Inv) (hp : s.phase = .encBody) (e : step s = .next t) : t.Inv := by
  obtain ⟨n, hc, hx⟩ : ∃ n, s.EncodeCall n ∧ s.index < n := by simpa only [State.CallInv, hp] using h.call
  obtain ⟨he, h1, hn⟩ := h.encoding hc
  refine h.step_unit (by simp [hp]) e fun u hu hs => ?_
  rw [unitOf_encBody hp] at hu
  obtain ⟨_, heu, _⟩ := UnitEnds.of_ok (hu ▸ he.token hx)
  exact ⟨_, afterUnit_enc (.inr (hs.place.trans hp)), hs.atPlace (heu.callInv h1 hn (he.token_within hx hu))⟩

theorem State.Inv.step_encTail (h : s.Inv) (hp : s.phase = .encTail) (e : step s = .next t) : t.Inv := by
  obtain ⟨n, hc, _⟩ : ∃ n, s.EncodeCall n ∧ s.index = n := by simpa only [State.CallInv, hp] using h.call
  obtain ⟨he, _, _⟩ := h.encoding hc
  refine h.step_unit (by simp [hp]) e fun u hu hs => ?_
  obtain ⟨_, c, i, o, bs, b, bo, hw, _⟩ := UnitEnds.of_ok ((unitOf_encTail hp).symm.trans hu ▸ he.pad)
  have hbuf : u.buf? o = some bo := hw.wraps ▸ hw.live.2.2.2
  have hwf := Buffer.wf_setLength (Memory.wf_get hs.memory hbuf) hw.inv.1
  exact ⟨_, by simp only [afterUnit, hs.place.trans hp, hw.done]; rfl, (hs.putBuf hbuf hwf rfl).closable.endCall _⟩

/-- A step of a call keeps the invariant. -/
theorem State.Inv.step_call (h : s.Inv) (hp : s.phase ≠ .idle) (e : step s = .next t) : t.Inv := by
  cases hq : s.phase with
  | idle => exact absurd hq hp
  | decGroups => exact h.step_decGroups hq e
  | decHeader => exact h.step_decHeader hq e
  | decBody => exact h.step_decBody hq e
  | decTail => exact h.step_decTail hq e
  | encHeader => exact h.step_encHeader hq e
  | encBody => exact h.step_encBody hq e
  | encTail => exact h.step_encTail hq e

/-- So do the steps of a call one after another. -/
theorem State.Inv.runCall {n : Nat} (h : s.Inv) (e : runCall n s = .next t) : t.Inv := by
  induction n generalizing s with
  | zero => cases e; exact h
  | succ n ih =>
    unfold Machine.runCall at e
    split at e
    · cases e; exact h
    · rename_i hp
      split at e
      · rename_i u hu
        exact ih (h.step_call hp hu) e
      · cases e
      · cases e

end

end Sys2Proof.Machine
end

section
/-! The requests of the host keep the invariant: the operations on a stream one by one, the Codec calls through their steps
(log 8). -/

namespace Sys2Proof.Machine

/-! ### The openings of the Codec calls -/

/-- A Codec call begun under the legal Config `c`, its stream still to be made (R62). -/
theorem beginCall_sound {s : State} {c : Cfg} {p : Phase} (hm : Memory.wf s.mem = true) (hc : c.WellFormed = true)
    (hp : p ≠ .idle) (i o : Option BufId) : ({ s.beginCall p i o with cfg := some c } : State).Sound p where
  memory := hm
  config c' e := by cases e; exact hc
  stream := nofun
  place := rfl
  operands h := absurd h hp

theorem openDecode_sound {s : State} (hm : Memory.wf s.mem = true) (c : Cfg) (input output : BufId) :
    (openDecode c input output s).Ends fun t => t.Sound .decHeader := by
  refine withConfig_ends fun hc => withBuffer_ends fun b hb => withBuffer_ends fun bo _ => ?_
  have ht := beginCall_sound (p := .decHeader) hm hc (by decide) (some input) (some output)
  split
  · trivial
  · dsimp only
    split
    · exact ht.takeError _
    · exact ht.putStream (b := b) hb (fresh_inv _ _ _)

/-- The encoder's opening also says that the input is neither empty nor too long (R215, R222). -/
theorem openEncode_sound {s : State} (hm : Memory.wf s.mem = true) (c : Cfg) (input : BufId) :
    (openEncode c input s).Ends fun t => t.Sound .encHeader ∧ 1 ≤ t.inputLength ∧ t.inputLength ≤ 4294967295 := by
  refine withConfig_ends fun hc => withBuffer_ends fun b hb => ?_
  have ht := beginCall_sound (p := .encHeader) hm hc (by decide) (some input) none
  dsimp only
  split
  · exact ht.takeError _
  · split
    · trivial
    · rename_i h0 hn
      have ha := hostAlloc_sound ht (upperBoundBytes b.length)
      rcases hostAlloc_cases (upperBoundBytes b.length) { s.beginCall .encHeader (some input) none with cfg := some c } with
        ⟨_, e⟩ | ⟨_, e⟩ <;> rw [e] at ha ⊢
      · have hlen : ∀ u : State, u.inBuf = some input → u.buf? input = some b →
            1 ≤ u.inputLength ∧ u.inputLength ≤ 4294967295 := by
          intro u hi hu
          simp only [State.inputLength, hi, hu, Option.map_some, Option.getD_some]
          exact ⟨Nat.one_le_iff_ne_zero.mpr h0, Nat.not_lt.mp hn⟩
        refine ⟨⟨ha.memory, ha.config, fun bs e => ?_, rfl, nofun⟩,
          hlen _ rfl ((List.getElem?_append_left (List.getElem?_eq_some_iff.mp hb).1).trans hb)⟩
        cases e
        exact ⟨_, List.getElem?_concat_length, fresh_inv _ _ _⟩
      · exact ha

/-- The opening of a decode call run one unit a step. -/
theorem openCall_decode_inv {s t : State} (hm : Memory.wf s.mem = true) (grouped : Bool) {c : Cfg} {input output : BufId}
    (e : openCall (if grouped then .decGroups else .decHeader) (openDecode c input output s) = .next t) : t.Inv := by
  refine settleUnit_inv e ((openDecode_sound hm c input output).bind fun u _ eo hs => ?_)
  rcases openDecode_cases c input output s with ⟨w, b, bo, ew, h, _, hv⟩ | ⟨w, ew⟩ | ⟨r, ew⟩ <;> rw [eo] at ew <;> cases ew
  have hc : u.DecodeCall (BitStream.fresh input .R) bo :=
    ⟨input, output, c, b, h.input, h.output, h.ne, h.config, h.live, h.wraps, h.dest⟩
  refine hs.atPlace ?_
  cases grouped with
  | true => exact ⟨_, bo, hc, by rw [hv]⟩
  | false => exact ⟨_, bo, hc⟩

/-- The opening of an encode call run one unit a step. -/
theorem openCall_encode_inv {s t : State} (hm : Memory.wf s.mem = true) {c : Cfg} {input : BufId}
    (e : openCall .encHeader (openEncode c input s) = .next t) : t.Inv := by
  refine settleUnit_inv e ((openEncode_sound hm c input).bind fun u _ eo ⟨hs, h1, hn⟩ => ?_)
  rcases openEncode_cases c input s with ⟨w, n, ew, h, _⟩ | ⟨k, w, ew⟩ | ⟨r, ew⟩ <;> rw [eo] at ew <;> cases ew
  rw [h.inputLength] at h1 hn
  exact hs.atPlace ⟨n, (h.setScan u.mtch u.index u.draws .encHeader).encodeCall h1 hn⟩

/-! ### The Codec calls -/

/-- `decode_into` after its tests, in any state: it ends where its steps end (O59). -/
theorem decodeInto_ends {s : State} (hm : Memory.wf s.mem = true) (c : Cfg) (input output : BufId) :
    ((openDecode c input output s).bind fun t _ => bodyDecode t).Ends State.Closable := by
  have key : ∀ u, settleCall ((openDecode c input output s).bind fun t _ => bodyDecode t).noValue = .next u → u.Inv := by
    intro u e
    obtain ⟨t, n, es, er⟩ := stepwiseDecodeIsDecodeInto
      { s with phase := .idle, requests := .decodeStepwise false c input output :: s.requests } u false c input output
      s.requests rfl rfl e
    exact State.Inv.runCall (openCall_decode_inv hm false (s := { s with phase := .idle }) es) er
  cases e : (openDecode c input output s).bind fun t _ => bodyDecode t with
  | ok u v =>
    have h := key (u.endCall .none) (by rw [e]; rfl)
    exact ⟨h.memory, h.config⟩
  | raised k u => exact key (Machine.takeError k u) (by rw [e]; rfl)
  | refused r => trivial
  | stuck f => trivial

/-- `encode`, in any state: it ends where its steps end (O60). -/
theorem execEncode_inv {s u : State} (hm : Memory.wf s.mem = true) {c : Cfg} {input : BufId}
    (e : execEncode c input s = .next u) : u.Inv := by
  obtain ⟨t, n, es, er⟩ := stepwiseEncodeIsEncode
    { s with phase := .idle, requests := .encodeStepwise c input :: s.requests } u c input s.requests rfl rfl e
  exact State.Inv.runCall (openCall_encode_inv hm (s := { s with phase := .idle }) es) er

theorem peekHeader_sound {s : State} {p : Phase} (h : s.Sound p) {input : BufId} {b : Buffer} (hb : s.buf? input = some b) :
    (peekHeader input s).Ends fun t => t.Sound p :=
  (readStream_sound (h.putStream (bs := BitStream.fresh input .R) hb (fresh_inv _ _ _))
    fun _ _ hi hk hd => pullVlq_keeps hi hk hd).bind fun _ _ _ ht => ht.dropStream

theorem execPeek_inv {s t : State} (h : s.Inv) {input : BufId} (e : execPeekOriginalLength input s = .next t) : t.Inv := by
  refine settleCall_inv e (withBuffer_ends fun b hb => ?_)
  have ht : (s.beginCall .decHeader (some input) none).Sound .decHeader := ⟨h.memory, h.config, nofun, rfl, nofun⟩
  dsimp only
  split
  · exact ht.takeError _
  · exact (peekHeader_sound ht hb).bind fun _ _ _ hu => hu.closable

theorem execDecode_inv {s t : State} (h : s.Inv) {c : Cfg} {input : BufId} (e : execDecode c input s = .next t) : t.Inv := by
  refine settleCall_inv e (withConfig_ends fun hc => withBuffer_ends fun b hb => ?_)
  have ht := beginCall_sound (p := .decHeader) h.memory hc (by decide) (some input) none
  dsimp only
  split
  · exact ht.takeError _
  · refine (peekHeader_sound ht hb).bind fun u d _ hu => ?_
    split
    · exact hu.takeError _
    · refine (hostAlloc_sound hu d.toNat).bind fun v o _ hv => ?_
      have hassoc : ((openDecode c input o v).bind fun w _ => (bodyDecode w).bind fun x _ => .ok x (.buf o)) =
          ((openDecode c input o v).bind fun w _ => bodyDecode w).bind fun x _ => .ok x (Ret.buf o) := by
        cases openDecode c input o v <;> rfl
      rw [hassoc]
      exact (decodeInto_ends hv.memory c input o).bind fun _ _ _ hx => hx

/-! ### Every instruction, every request -/

/-- An instruction executed while no call is in progress keeps the invariant. -/
theorem exec_inv {s t : State} {i : Instr} (h : s.Inv) (hp : s.phase = .idle) (e : exec i s = .next t) : t.Inv := by
  have hs : s.Sound .idle := hp ▸ h.sound
  by_cases hslot : i.slot = .command
  · cases i with
    | bsCreate b d => exact settle_inv e (withBuffer_ends fun _ hb => hs.putStream hb (fresh_inv _ _ _))
    | writeBit v =>
      refine settle_inv e (Res.Ends.noValue (writeStream_sound hs fun bs b hi hk hd => ?_))
      exact pushBits_single bs b _ ▸ pushBits_keeps hi hk hd [_]
    | readBit =>
      exact settle_inv e ((readStream_sound hs fun _ _ hi hk hd => pullBit_keeps hi hk hd).bind fun _ _ _ ht => ht)
    | writeUint32 v n => exact settle_inv e (withWidth_ends (pushes_sound hs _)).noValue
    | readUint32 n =>
      exact settle_inv e
        (withWidth_ends ((readStream_sound hs fun _ _ hi hk hd => pullField_keeps hi hk hd n).bind fun _ _ _ ht => ht))
    | flushPartial => exact settle_inv e (flush_sound hs).noValue
    | write7bitUint32 v => exact settle_inv e (pushes_sound hs _).noValue
    | read7bitUint32 =>
      exact settle_inv e ((readStream_sound hs fun _ _ hi hk hd => pullVlq_keeps hi hk hd).bind fun _ _ _ ht => ht)
    | findBestMatch b k c =>
      exact settle_inv e
        (withConfig_ends fun _ => withBuffer_ends fun _ _ => hs.setScan _ s.index s.declared s.vlq _)
    | codecInit ob lb ml =>
      refine settle_inv e (withConfig_ends fun hc => ?_)
      exact ⟨hs.memory, fun c ec => by cases ec; exact hc, hs.stream, hs.place, hs.operands⟩
    | upperBound n => exact settle_inv (r := .ok s (.nat (upperBoundBytes n))) e hs
    | encode c input => exact execEncode_inv h.memory e
    | peekOriginalLength input => exact execPeek_inv h e
    | decodeInto c input output => exact settleCall_inv e (decodeInto_ends h.memory c input output).noValue
    | decode c input => exact execDecode_inv h e
    | _ => cases hslot
  · rw [exec_unit hslot] at e
    exact settleUnit_inv e ((runUnit_sound hs i).mono fun _ ht => ht.inv)

theorem takeRequest_inv {s t : State} (h : s.Inv) (hp : s.phase = .idle) {r : Request} (e : takeRequest r s = .next t) :
    t.Inv := by
  have hs : s.Sound .idle := hp ▸ h.sound
  cases r with
  | call code args =>
    unfold takeRequest at e
    dsimp only at e
    split at e
    · cases e
    · exact exec_inv h hp e
  | decodeStepwise grouped c input output => exact openCall_decode_inv h.memory grouped e
  | encodeStepwise c input => exact openCall_encode_inv h.memory e
  | provide cap len cells =>
    unfold takeRequest takeBuffer at e
    dsimp only at e
    split at e
    · rename_i hw
      cases e
      exact (hs.addBuf hw s.grants (s.draws + 1)).inv
    · cases e
  | change id len cells =>
    obtain ⟨b, b', hb, hcap, _, hw, rfl⟩ := changeBuffer_next e
    exact (hs.putBuf hb hw hcap).inv

/-- Settles O54: between calls a request keeps the invariant, inside a call its next unit does. -/
theorem stepKeepsTheInvariant : Obligations.StepKeepsTheInvariant := by
  intro s t h e
  rcases step_cases s with ⟨_, _, e'⟩ | ⟨r, rest, hp, _, e'⟩ | ⟨hp, _⟩
  · rw [e'] at e
    cases e
    exact h
  · rw [e'] at e
    exact takeRequest_inv (s := { s with requests := rest }) ⟨h.memory, h.config, h.stream, h.call⟩ hp e
  · exact h.step_call hp e

/-- Settles O55: after reset there is no buffer, no Config, no stream and no call. -/
theorem resetMeetsTheInvariant : Obligations.ResetMeetsTheInvariant where
  memory := rfl
  config := nofun
  stream := nofun
  call := ⟨rfl, rfl⟩

/-- Settles O1: each part is read off the reset state. -/
theorem resetHoldsNothing : Obligations.ResetHoldsNothing := ⟨rfl, rfl, rfl, rfl, rfl, rfl⟩

end Sys2Proof.Machine
end

section
/-! No operation reads STATUS (R53, R297): run from a state with another STATUS, it ends in the same way but for STATUS, and the
end of the operation overwrites STATUS. -/

namespace Sys2Proof.Machine

/-! ### STATUS set -/

/-- The same state with another STATUS. -/
def State.setStatus (s : State) (k : Status) : State := { s with status := k }

/-- The same result with another STATUS. -/
def Res.setStatus {α : Type} (k : Status) : Res α → Res α
  | .ok s a => .ok (s.setStatus k) a
  | .raised e s => .raised e (s.setStatus k)
  | .refused r => .refused r
  | .stuck f => .stuck f

section
variable (s : State) (k : Status)

@[simp] theorem State.setStatus_bs : (s.setStatus k).bs = s.bs := rfl
@[simp] theorem State.setStatus_cfg : (s.setStatus k).cfg = s.cfg := rfl
@[simp] theorem State.setStatus_inBuf : (s.setStatus k).inBuf = s.inBuf := rfl
@[simp] theorem State.setStatus_outBuf : (s.setStatus k).outBuf = s.outBuf := rfl
@[simp] theorem State.setStatus_index : (s.setStatus k).index = s.index := rfl
@[simp] theorem State.buf?_setStatus (id : BufId) : (s.setStatus k).buf? id = s.buf? id := rfl

end

/-- An operation the host calls on a stream overwrites STATUS at its end. -/
theorem settle_setStatus (r : Res Ret) (k : Status) : settle (r.setStatus k) = settle r := by
  cases r <;> rfl

/-- So does a Codec call. -/
theorem settleCall_setStatus (r : Res Ret) (k : Status) : settleCall (r.setStatus k) = settleCall r := by
  cases r <;> rfl

/-! ### Operations that do not look at STATUS -/

/-- The operation does not look at STATUS and leaves it as it is. -/
def StatusFree {α : Type} (f : State → Res α) : Prop := ∀ s k, f (s.setStatus k) = (f s).setStatus k

/-- The outcome does not depend on STATUS. -/
def StatusBlind (f : State → Host.Outcome State Fault Refusal) : Prop := ∀ s k, f (s.setStatus k) = f s

theorem StatusFree.settle {f : State → Res Ret} (hf : StatusFree f) : StatusBlind fun s => settle (f s) := by
  intro s k
  dsimp only
  rw [hf s k, settle_setStatus]

theorem StatusFree.settleCall {f : State → Res Ret} (hf : StatusFree f) : StatusBlind fun s => settleCall (f s) := by
  intro s k
  dsimp only
  rw [hf s k, settleCall_setStatus]

section
variable {α β : Type}

theorem statusFree_refused (r : Refusal) : StatusFree fun _ => (.refused r : Res α) := fun _ _ => rfl

theorem StatusFree.bind {f : State → Res α} {g : State → α → Res β} (hf : StatusFree f)
    (hg : ∀ a, StatusFree fun s => g s a) : StatusFree fun s => (f s).bind g := by
  intro s k
  dsimp only
  rw [hf s k]
  cases f s with
  | ok t a => exact hg a t k
  | raised e t => rfl
  | refused r => rfl
  | stuck e => rfl

theorem StatusFree.noValue {f : State → Res Unit} (hf : StatusFree f) : StatusFree fun s => (f s).noValue :=
  hf.bind fun _ _ _ => rfl

/-- A test that STATUS has no part in. -/
theorem StatusFree.ite {c : State → Prop} [DecidablePred c] {f g : State → Res α} (hc : ∀ s k, c (s.setStatus k) = c s)
    (hf : StatusFree f) (hg : StatusFree g) : StatusFree fun s => if c s then f s else g s := by
  intro s k
  by_cases h : c s
  · simp only [hc s k, h, if_true, hf s k]
  · simp only [hc s k, h, if_false, hg s k]

theorem statusFree_withConfig (c : Cfg) {f : State → Res α} (hf : StatusFree f) :
    StatusFree fun s => withConfig c (f s) := .ite (fun _ _ => rfl) hf (statusFree_refused _)

theorem statusFree_withWidth (n : Nat) {f : State → Res α} (hf : StatusFree f) :
    StatusFree fun s => withWidth n (f s) := .ite (fun _ _ => rfl) (statusFree_refused _) hf

theorem statusFree_withBuffer (id : BufId) {f : State → Buffer → Res α} (hf : ∀ b, StatusFree fun s => f s b) :
    StatusFree fun s => withBuffer s id (f s) := by
  intro s k
  simp only [withBuffer, State.buf?_setStatus]
  cases s.buf? id with
  | none => rfl
  | some b => exact hf b s k

theorem statusFree_withStream (d : Dir) {f : State → BitStream → Buffer → Res α}
    (hf : ∀ bs b, StatusFree fun s => f s bs b) : StatusFree fun s => withStream s d (f s) := by
  intro s k
  simp only [withStream, State.setStatus_bs]
  cases s.bs with
  | none => rfl
  | some bs =>
    dsimp only
    split
    · rfl
    · split
      · rfl
      · exact statusFree_withBuffer bs.buf (hf bs) s k

theorem statusFree_withCallConfig {f : State → Cfg → Res α} (hf : ∀ c, StatusFree fun s => f s c) :
    StatusFree fun s => withCallConfig s (f s) := by
  intro s k
  simp only [withCallConfig, State.setStatus_cfg]
  cases s.cfg with
  | none => rfl
  | some c => exact hf c s k

theorem statusFree_withInput {f : State → Buffer → Res α} (hf : ∀ b, StatusFree fun s => f s b) :
    StatusFree fun s => withInput s (f s) := by
  intro s k
  simp only [withInput, State.setStatus_inBuf]
  cases s.inBuf with
  | none => rfl
  | some i => exact statusFree_withBuffer i hf s k

theorem statusFree_withOutput {f : State → BufId → Buffer → Res Unit} (hf : ∀ o b, StatusFree fun s => f s o b) :
    StatusFree fun s => withOutput s (f s) := by
  intro s k
  simp only [withOutput, State.setStatus_outBuf]
  cases s.outBuf with
  | none => rfl
  | some o => exact statusFree_withBuffer o (hf o) s k

theorem statusFree_byDirection {r w : State → Res Unit} (hr : StatusFree r) (hw : StatusFree w) :
    StatusFree fun s => byDirection s (r s) (w s) := by
  intro s k
  simp only [byDirection, State.setStatus_bs, hr s k, hw s k]
  cases s.bs with
  | none => rfl
  | some bs =>
    dsimp only
    split
    · rfl
    · cases bs.dir <;> rfl

theorem statusFree_writeStream (f : BitStream → Buffer → Written) : StatusFree fun s => writeStream s f :=
  statusFree_withStream .W fun bs b s k => by cases f bs b <;> rfl

theorem statusFree_readStream (f : BitStream → Buffer → Taken α) : StatusFree fun s => readStream s f :=
  statusFree_withStream .R fun bs b s k => by cases f bs b <;> rfl

theorem statusFree_decoded (r : Except DecodeError (Instr × List Bool)) : StatusFree fun s => decoded s r := by
  intro s k
  cases r <;> rfl

theorem statusFree_hostAlloc (n : Nat) : StatusFree (hostAlloc n) :=
  .ite (fun _ _ => rfl) (fun _ _ => rfl) fun _ _ => rfl

end

/-! ### The units of the format -/

theorem statusFree_runGroup (g : Byte) : StatusFree (runGroup g) :=
  statusFree_byDirection (fun _ _ => rfl) (statusFree_writeStream _)

theorem statusFree_runHdr (v : Word) : StatusFree (runHdr v) :=
  statusFree_byDirection
    (statusFree_withOutput fun _ _ => .ite (fun _ _ => rfl) (fun _ _ => rfl) fun _ _ => rfl)
    ((statusFree_writeStream _).bind fun _ _ _ => rfl)

theorem statusFree_runLiteral (v : Byte) : StatusFree (runLiteral v) := by
  refine statusFree_byDirection (statusFree_withOutput fun o b s k => ?_)
    ((statusFree_writeStream _).bind fun _ _ _ => rfl)
  simp only [State.setStatus_index]
  cases b.memWrite s.index v <;> rfl

theorem statusFree_readPair (o l : Nat) : StatusFree (readPair o l) :=
  statusFree_withOutput fun _ _ => .ite (fun _ _ => rfl) (fun _ _ => rfl) fun _ _ => rfl

theorem statusFree_writePair (ob lb o l : Nat) : StatusFree (writePair ob lb o l) :=
  (statusFree_writeStream _).bind fun _ _ _ => rfl

theorem statusFree_runPair (o l : Nat) : StatusFree (runPair o l) := by
  refine statusFree_byDirection (statusFree_readPair o l) fun s k => ?_
  simp only [State.setStatus_cfg]
  cases s.cfg with
  | none => rfl
  | some c => exact statusFree_writePair c.offsetBits c.lengthBits o l s k

theorem statusFree_runPad : StatusFree runPad := statusFree_byDirection (fun _ _ => rfl) (statusFree_writeStream _)

theorem statusFree_runUnit (i : Instr) : StatusFree (runUnit i) := by
  cases i with
  | vlqLast p => exact statusFree_runGroup _
  | vlqCont p => exact statusFree_runGroup _
  | hdr v => exact statusFree_runHdr v
  | literal v => exact statusFree_runLiteral v
  | pair o l => exact statusFree_runPair o l
  | pairDemo o l => exact statusFree_byDirection (statusFree_readPair _ _) (statusFree_writePair _ _ _ _)
  | pad k => exact statusFree_runPad
  | _ => exact statusFree_refused _

theorem statusFree_fetchHeader : StatusFree fetchHeader :=
  .ite (fun _ _ => rfl) (fun _ _ => rfl) ((statusFree_readStream _).bind fun _ => statusFree_decoded _)

theorem statusFree_fetchToken : StatusFree fetchToken :=
  statusFree_withCallConfig fun _ => (statusFree_readStream _).bind fun _ => statusFree_decoded _

theorem statusFree_chooseHeader : StatusFree chooseHeader := statusFree_withInput fun _ _ _ => rfl

theorem statusFree_chooseToken : StatusFree chooseToken := by
  refine statusFree_withCallConfig fun c => statusFree_withInput fun b => ?_
  refine .ite (fun _ _ => rfl) (fun _ _ => rfl) fun s k => ?_
  simp only [State.setStatus_index]
  cases b.memRead s.index <;> rfl

theorem statusFree_unit {get : State → Res Instr} (hg : StatusFree get) :
    StatusFree fun s => (get s).bind fun t i => runUnit i t := hg.bind statusFree_runUnit

/-! ### The Codec calls -/

theorem statusFree_decodeDone : StatusFree decodeDone := statusFree_withOutput fun _ _ _ _ => rfl

theorem statusFree_encodeDone : StatusFree encodeDone := statusFree_withStream .W fun _ _ _ _ => rfl

theorem statusFree_scanEncode (f : Nat) : StatusFree (scanEncode f) := by
  induction f with
  | zero => exact fun _ _ => rfl
  | succ f ih =>
    exact .ite (fun _ _ => rfl) ((statusFree_unit statusFree_chooseToken).bind fun _ => ih) fun _ _ => rfl

theorem statusFree_scanDecode (f : Nat) : StatusFree (scanDecode f) := by
  induction f with
  | zero => exact fun _ _ => rfl
  | succ f ih =>
    exact .ite (fun _ _ => rfl) (fun _ _ => rfl) ((statusFree_unit statusFree_fetchToken).bind fun _ => ih)

theorem statusFree_bodyEncode : StatusFree bodyEncode :=
  ((statusFree_unit statusFree_chooseHeader).bind fun _ s k => statusFree_scanEncode (s.inputLength + 1) s k).bind fun _ =>
    statusFree_runPad.bind fun _ => statusFree_encodeDone

theorem statusFree_bodyDecode : StatusFree bodyDecode :=
  ((statusFree_unit statusFree_fetchHeader).bind
    fun _ s k => statusFree_scanDecode (8 * s.inputCapacity + 2) s k).bind fun _ => statusFree_decodeDone

theorem statusFree_openEncode (c : Cfg) (input : BufId) : StatusFree (openEncode c input) := by
  refine statusFree_withConfig c (statusFree_withBuffer input fun b => ?_)
  refine .ite (fun _ _ => rfl) (fun _ _ => rfl) (.ite (fun _ _ => rfl) (statusFree_refused _) ?_)
  exact .bind (fun s k => statusFree_hostAlloc _ { s.beginCall .encHeader (some input) none with cfg := some c } k)
    fun _ _ _ => rfl

theorem statusFree_openDecode (c : Cfg) (input output : BufId) : StatusFree (openDecode c input output) :=
  statusFree_withConfig c (statusFree_withBuffer input fun _ => statusFree_withBuffer output fun _ =>
    .ite (fun _ _ => rfl) (statusFree_refused _) (.ite (fun _ _ => rfl) (fun _ _ => rfl) fun _ _ => rfl))

theorem statusFree_peekHeader (input : BufId) : StatusFree (peekHeader input) :=
  .bind (fun s k => statusFree_readStream pullVlq (s.putStream (some (BitStream.fresh input .R))) k) fun _ _ _ => rfl

theorem statusBlind_peek (input : BufId) : StatusBlind (execPeekOriginalLength input) := by
  refine StatusFree.settleCall (statusFree_withBuffer input fun _ => ?_)
  exact .ite (fun _ _ => rfl) (fun _ _ => rfl)
    (.bind (fun s k => statusFree_peekHeader input (s.beginCall .decHeader (some input) none) k) fun _ _ _ => rfl)

theorem statusBlind_decode (c : Cfg) (input : BufId) : StatusBlind (execDecode c input) := by
  refine StatusFree.settleCall (statusFree_withConfig c (statusFree_withBuffer input fun _ => ?_))
  refine .ite (fun _ _ => rfl) (fun _ _ => rfl) (.bind (fun s k =>
    statusFree_peekHeader input { s.beginCall .decHeader (some input) none with cfg := some c } k) fun d => ?_)
  exact .ite (fun _ _ => rfl) (fun _ _ => rfl) ((statusFree_hostAlloc d.toNat).bind fun o =>
    (statusFree_openDecode c input o).bind fun _ => statusFree_bodyDecode.bind fun _ _ _ => rfl)

/-- Every command ends by writing STATUS without having looked at it. -/
theorem statusBlind_exec {i : Instr} (h : i.slot = .command) : StatusBlind (exec i) := by
  cases i with
  | bsCreate b d => exact StatusFree.settle (statusFree_withBuffer b fun _ _ _ => rfl)
  | writeBit v => exact (statusFree_writeStream _).noValue.settle
  | readBit => exact StatusFree.settle ((statusFree_readStream _).bind fun _ _ _ => rfl)
  | writeUint32 v n => exact (statusFree_withWidth n (statusFree_writeStream _)).noValue.settle
  | readUint32 n => exact StatusFree.settle (statusFree_withWidth n ((statusFree_readStream _).bind fun _ _ _ => rfl))
  | flushPartial => exact (statusFree_writeStream _).noValue.settle
  | write7bitUint32 v => exact (statusFree_writeStream _).noValue.settle
  | read7bitUint32 => exact StatusFree.settle ((statusFree_readStream _).bind fun _ _ _ => rfl)
  | findBestMatch b n c => exact StatusFree.settle (statusFree_withConfig c (statusFree_withBuffer b fun _ _ _ => rfl))
  | codecInit ob lb ml => exact StatusFree.settle (statusFree_withConfig _ fun _ _ => rfl)
  | upperBound n => exact fun _ _ => rfl
  | encode c input =>
    exact StatusFree.settleCall
      ((statusFree_openEncode c input).bind fun _ => statusFree_bodyEncode.bind fun _ _ _ => rfl)
  | peekOriginalLength input => exact statusBlind_peek input
  | decodeInto c input output =>
    exact ((statusFree_openDecode c input output).bind fun _ => statusFree_bodyDecode).noValue.settleCall
  | decode c input => exact statusBlind_decode c input
  | _ => cases h

/-- Settles O53: no command looks at STATUS before its end overwrites it. -/
theorem statusIsNeverRead : Obligations.StatusIsNeverRead := fun s _ k h => statusBlind_exec h s k

end Sys2Proof.Machine
end

section
/-! The input of a Codec call (R84): it is never OUT, and a call changes no buffer but OUT. -/

namespace Sys2Proof.Machine

/-! ### The bodies of the Codec calls as one unit -/

/-- What runs after a unit ends as a unit of the same call does. -/
theorem UnitEnds.andThen {s : State} {r : Res Unit} {P Q : State → Prop} (h : UnitEnds s r P) {f : State → Res Unit}
    (hf : ∀ t, P t → UnitEnds t (f t) Q) : UnitEnds s (r.bind fun t _ => f t) Q := by
  rcases h with ⟨t, rfl, hst, hp⟩ | ⟨k, t, rfl, hst⟩
  · exact .of_frame hst (hf t hp)
  · exact .inr ⟨k, t, rfl, hst⟩

/-- The encoder's scan keeps the frame of a unit (R219). -/
theorem State.Encoding.scan (f : Nat) {s : State} {n : Nat} (h : s.Encoding n) (hf : n - s.index < f) :
    UnitEnds s (scanEncode f s) fun t => t.Encoding n := by
  induction f generalizing s with
  | zero => omega
  | succ f ih =>
    rw [scanEncode, h.inputLength]
    split
    · rename_i hx
      exact (h.token hx).andThen fun t ⟨ht, hlt⟩ => ih ht (by omega)
    · exact .inl ⟨s, rfl, .refl s, h⟩

/-- The last writes of `encode`: the flush and OUT's length (R215 steps 5 and 6). -/
theorem State.Encoding.finish {s : State} {n : Nat} (h : s.Encoding n) :
    UnitEnds s ((runPad s).bind fun t _ => encodeDone t) fun _ => True := by
  obtain ⟨c, i, o, bs, b, bo, h, _⟩ := h
  refine h.flush.andThen fun t ⟨c, i, o, bs, b, bo, ht, _⟩ => ?_
  exact .inl ⟨_, ht.done, .putOut ht.output _, trivial⟩

theorem State.Encoding.body {s : State} {n : Nat} (h : s.Encoding n) : UnitEnds s (bodyEncode s) fun _ => True := by
  have hscan : UnitEnds s ((unitOf chooseHeader s).bind fun t _ => scanEncode (t.inputLength + 1) t) fun t => t.Encoding n :=
    h.header.andThen fun t ⟨ht, _⟩ => ht.scan _ (by rw [ht.inputLength]; omega)
  exact hscan.andThen fun t ht => ht.finish

theorem DecodingWith.body {s : State} {c : Cfg} {i o : BufId} {b bo : Buffer}
    (h : DecodingWith s c i o (BitStream.fresh i .R) b bo) (hv : s.vlq.stopped = false) :
    UnitEnds s (bodyDecode s) fun _ => True := by
  obtain ⟨bs', bo', k, d, _, e | e | e⟩ := bodyDecode_cases h.config h.input h.live h.output h.dest h.ne hv
  · have hf := (UnitFrame.putOut h.output bo').trans (.putStream _ (some bs'))
    exact .inl ⟨_, e, hf.setScan s.mtch k d s.vlq s.draws, trivial⟩
  · have hf := (UnitFrame.putOut h.output bo').trans (.putStream _ (some bs'))
    exact .inr ⟨_, _, e, hf.setScan s.mtch k d s.vlq s.draws⟩
  · exact .inr ⟨_, _, e, (UnitFrame.putStream s (some bs')).setScan s.mtch s.index d s.vlq s.draws⟩

/-! ### The input kept -/

/-- The buffer `id` is `x`, and it is not OUT: an error or a write of the call leaves it alone. -/
structure State.HasInput (s : State) (id : BufId) (x : Option Buffer) : Prop where
  held : s.buf? id = x
  notOut : s.outBuf ≠ some id

/-- Wherever the operation ends, the buffer `id` is `x` and not OUT. -/
def Res.KeepsInput {α : Type} (id : BufId) (x : Option Buffer) : Res α → Prop
  | .ok s _ => s.HasInput id x
  | .raised _ s => s.HasInput id x
  | .refused _ => True
  | .stuck _ => True

section
variable {α β : Type} {s : State} {id : BufId} {x : Option Buffer}

theorem State.HasInput.putStream (h : s.HasInput id x) (bs : Option BitStream) : (s.putStream bs).HasInput id x :=
  ⟨h.held, h.notOut⟩

/-- A Codec call that has no OUT yet (R62, R70). -/
theorem beginCall_hasInput (h : s.buf? id = x) (p : Phase) (c : Option Cfg) :
    ({ s.beginCall p (some id) none with cfg := c } : State).HasInput id x := ⟨h, nofun⟩

theorem Res.KeepsInput.bind {r : Res α} {f : State → α → Res β} (hr : r.KeepsInput id x)
    (hf : ∀ t v, r = .ok t v → t.HasInput id x → (f t v).KeepsInput id x) : (r.bind f).KeepsInput id x := by
  cases r with
  | ok t v => exact hf t v rfl hr
  | raised k t => exact hr
  | refused r => trivial
  | stuck e => trivial

theorem Res.KeepsInput.noValue {r : Res Unit} (h : r.KeepsInput id x) : r.noValue.KeepsInput id x :=
  h.bind fun _ _ _ ht => ht

/-- The end of a Codec call keeps the input, OUT alone being lost on an error (R291). -/
theorem Res.KeepsInput.settleCall {r : Res Ret} {t : State} (h : r.KeepsInput id x) (e : settleCall r = .next t) :
    t.buf? id = x := by
  rcases settleCall_cases r with ⟨u, v, rfl, e'⟩ | ⟨k, u, rfl, e'⟩ | ⟨r, rfl, e'⟩ | ⟨f, rfl, e'⟩ <;> rw [e'] at e <;> cases e
  · exact h.held
  · rw [State.buf?, takeError_mem, outAfterError_other k u h.notOut]
    exact h.held

theorem UnitFrame.hasInput {t : State} (h : UnitFrame s t) (hs : s.HasInput id x) : t.HasInput id x :=
  ⟨(h.others id hs.notOut).trans hs.held, h.outBuf.symm ▸ hs.notOut⟩

/-- What runs as a unit of the call changes no buffer but OUT. -/
theorem UnitEnds.keepsInput {r : Res Unit} {P : State → Prop} (h : UnitEnds s r P) (hs : s.HasInput id x) :
    r.KeepsInput id x := by
  rcases h with ⟨t, rfl, hf, _⟩ | ⟨k, t, rfl, hf⟩
  · exact hf.hasInput hs
  · exact hf.hasInput hs

theorem withConfig_keepsInput {c : Cfg} {k : Res α} (hk : k.KeepsInput id x) :
    (withConfig c k).KeepsInput id x := by
  rcases withConfig_cases c k with ⟨_, e⟩ | ⟨r, e⟩ <;> rw [e]
  · exact hk
  · trivial

theorem withBuffer_keepsInput {j : BufId} {k : Buffer → Res α}
    (hk : ∀ b, s.buf? j = some b → (k b).KeepsInput id x) : (withBuffer s j k).KeepsInput id x := by
  rcases withBuffer_cases s j k with ⟨b, hb, e⟩ | ⟨r, e⟩ <;> rw [e]
  · exact hk b hb
  · trivial

/-- A read operation changes no buffer (R83, R159). -/
theorem readStream_keepsInput (hs : s.HasInput id x) (f : BitStream → Buffer → Taken α) :
    (readStream s f).KeepsInput id x := by
  rcases withStream_cases s .R _ with ⟨r, e⟩ | ⟨bs, b, _, e⟩ <;> rw [readStream, e]
  · trivial
  · cases f bs b with
    | ok bs' v => exact hs.putStream _
    | raised bs' => exact hs.putStream _

theorem peekHeader_keepsInput (hs : s.HasInput id x) (input : BufId) : (peekHeader input s).KeepsInput id x :=
  (readStream_keepsInput (hs.putStream _) pullVlq).bind fun _ _ _ ht => ht.putStream none

/-- An allocation adds a buffer behind those that exist (R214). -/
theorem hostAlloc_keepsInput {b : Buffer} (hs : s.HasInput id (some b)) (n : Nat) :
    (hostAlloc n s).KeepsInput id (some b) := by
  rcases hostAlloc_cases n s with ⟨_, e⟩ | ⟨_, e⟩ <;> rw [e]
  · exact ⟨(List.getElem?_append_left (List.getElem?_eq_some_iff.mp hs.held).1).trans hs.held, hs.notOut⟩
  · exact ⟨hs.held, hs.notOut⟩

/-- The buffer allocated is none that existed (R214). -/
theorem hostAlloc_ne {t : State} {b : Buffer} {n : Nat} {o : BufId} (hb : s.buf? id = some b)
    (e : hostAlloc n s = .ok t o) : o ≠ id := by
  have hlt : id < s.mem.length := (List.getElem?_eq_some_iff.mp hb).1
  rcases hostAlloc_cases n s with ⟨_, e'⟩ | ⟨_, e'⟩ <;> rw [e] at e' <;> cases e'
  exact Nat.ne_of_gt hlt

end

/-! ### The four calls -/

theorem openDecode_keepsInput (c : Cfg) (input output : BufId) (s : State) :
    (openDecode c input output s).KeepsInput input (s.buf? input) := by
  refine withConfig_keepsInput <| withBuffer_keepsInput fun b _ => withBuffer_keepsInput fun bo _ => ?_
  split
  · trivial
  · rename_i hne
    have hout : some output ≠ some input := fun h => hne (Option.some.inj h).symm
    dsimp only
    split
    · exact ⟨rfl, hout⟩
    · exact ⟨rfl, hout⟩

/-- A decode call once opened runs its body in the frame of a unit. -/
theorem bodyDecode_ends_of_open {c : Cfg} {input output : BufId} {s t : State} {v : Unit}
    (e : openDecode c input output s = .ok t v) : UnitEnds t (bodyDecode t) fun _ => True := by
  rcases openDecode_cases c input output s with ⟨u, b, bo, eu, h, _, hv⟩ | ⟨u, eu⟩ | ⟨r, eu⟩ <;> rw [e] at eu <;> cases eu
  exact h.body (by rw [hv])

theorem openEncode_keepsInput (c : Cfg) (input : BufId) (s : State) :
    (openEncode c input s).KeepsInput input (s.buf? input) := by
  refine withConfig_keepsInput <| withBuffer_keepsInput fun b hb => ?_
  rw [hb]
  have hin := beginCall_hasInput hb .encHeader (some c)
  dsimp only
  split
  · exact hin
  · split
    · trivial
    · exact (hostAlloc_keepsInput hin _).bind fun v o ev hv =>
        ⟨hv.held, fun h => hostAlloc_ne hin.held ev (Option.some.inj h)⟩

/-- An encode call once opened runs its body in the frame of a unit. -/
theorem bodyEncode_ends_of_open {c : Cfg} {input : BufId} {s t : State} {v : Unit}
    (e : openEncode c input s = .ok t v) : UnitEnds t (bodyEncode t) fun _ => True := by
  rcases openEncode_cases c input s with ⟨u, n, eu, h, _⟩ | ⟨k, u, eu⟩ | ⟨r, eu⟩ <;> rw [e] at eu <;> cases eu
  exact h.body

theorem execEncode_input {c : Cfg} {input : BufId} {s t : State} (e : execEncode c input s = .next t) :
    t.buf? input = s.buf? input := by
  refine Res.KeepsInput.settleCall ?_ e
  exact (openEncode_keepsInput c input s).bind fun _ _ eo ho =>
    ((bodyEncode_ends_of_open eo).keepsInput ho).bind fun _ _ _ hu => hu

theorem execPeek_input {input : BufId} {s t : State} (e : execPeekOriginalLength input s = .next t) :
    t.buf? input = s.buf? input := by
  refine Res.KeepsInput.settleCall (withBuffer_keepsInput fun b _ => ?_) e
  have hin := beginCall_hasInput (s := s) (id := input) rfl .decHeader s.cfg
  dsimp only
  split
  · exact hin
  · exact (peekHeader_keepsInput hin input).bind fun _ _ _ hu => hu

theorem execDecodeInto_input {c : Cfg} {input output : BufId} {s t : State}
    (e : execDecodeInto c input output s = .next t) : t.buf? input = s.buf? input :=
  ((openDecode_keepsInput c input output s).bind fun _ _ eo ho =>
    (bodyDecode_ends_of_open eo).keepsInput ho).noValue.settleCall e

theorem execDecode_input {c : Cfg} {input : BufId} {s t : State} (e : execDecode c input s = .next t) :
    t.buf? input = s.buf? input := by
  refine Res.KeepsInput.settleCall (withConfig_keepsInput (withBuffer_keepsInput fun b hb => ?_)) e
  rw [hb]
  have hin := beginCall_hasInput hb .decHeader (some c)
  dsimp only
  split
  · exact hin
  · refine (peekHeader_keepsInput hin input).bind fun u d _ hu => ?_
    split
    · exact hu
    · refine (hostAlloc_keepsInput hu _).bind fun v o _ hv => ?_
      refine Res.KeepsInput.bind (hv.held ▸ openDecode_keepsInput c input o v) fun w _ ew hw => ?_
      exact ((bodyDecode_ends_of_open ew).keepsInput hw).bind fun _ _ _ hx => hx

/-- Settles O42: the input of a call is never its OUT, and only OUT is written. -/
theorem inputIsNeverWritten : Obligations.InputIsNeverWritten := by
  intro s t c input output i hi e
  simp only [List.mem_cons, List.not_mem_nil, or_false] at hi
  rcases hi with rfl | rfl | rfl | rfl
  · exact execEncode_input e
  · exact execPeek_input e
  · exact execDecodeInto_input e
  · exact execDecode_input e

end Sys2Proof.Machine
end

section
/-! The encodings of 30_encoding.md in both directions: decoding an encoding gives the instruction back (R101 to R109, R115), and
what decodes to a group, a token or a command is its one encoding. -/

namespace Sys2Proof.Machine

/-! ### Fields -/

theorem takeBits_eq_some {n : Nat} {l xs rest : List Bool} (h : takeBits n l = some (xs, rest)) :
    l = xs ++ rest ∧ xs.length = n := by
  rcases takeBits_cases n l with ⟨_, e⟩ | ⟨ys, r, hl, hn, e⟩ <;> rw [e] at h <;> cases h
  exact ⟨hl, hn⟩

/-- Eight bits are the field of the byte they hold (R76). -/
theorem fieldBits_ofBits {xs : List Bool} (h : xs.length = 8) :
    fieldBits (BitVec.ofNat 8 (bitsValue xs)).toNat 8 = xs := by
  rw [BitVec.toNat_ofNat, fieldBits_mod, ← h, fieldBits_bitsValue]

/-! ### Groups (R101) -/

/-- The row of a group byte: its continuation flag chooses it, the other seven bits are the payload (R101). -/
def groupInstr (g : Byte) : Instr := if contFlag g then .vlqCont (g.setWidth 7) else .vlqLast (g.setWidth 7)

theorem groupInstr_lastGroup (p : BitVec 7) : groupInstr (lastGroup p) = .vlqLast p := by
  revert p; decide

theorem groupInstr_contGroup (p : BitVec 7) : groupInstr (contGroup p) = .vlqCont p := by
  revert p; decide

theorem encode_groupInstr (c : Cfg) (g : Byte) : encode c (groupInstr g) = .stream (fieldBits g.toNat 8) := by
  obtain ⟨hcont, hlast⟩ := groups_of_byte g
  unfold groupInstr
  split
  · rename_i h; rw [encode, ← contGroup_bits, hcont h]
  · rename_i h; rw [encode, ← lastGroup_bits, hlast (by simpa using h)]

theorem decodeGroup_groupInstr (g : Byte) (rest : List Bool) :
    decodeGroup (fieldBits g.toNat 8 ++ rest) = .ok (groupInstr g, rest) := by
  simp only [decodeGroup, takeBits_fieldBits, byte_of_fieldBits, groupInstr]

theorem decodeGroup_lastGroup (p : BitVec 7) (rest : List Bool) :
    decodeGroup (fieldBits (lastGroup p).toNat 8 ++ rest) = .ok (.vlqLast p, rest) := by
  rw [decodeGroup_groupInstr, groupInstr_lastGroup]

theorem decodeGroup_contGroup (p : BitVec 7) (rest : List Bool) :
    decodeGroup (fieldBits (contGroup p).toNat 8 ++ rest) = .ok (.vlqCont p, rest) := by
  rw [decodeGroup_groupInstr, groupInstr_contGroup]

/-- The group decoder answers only the row of the first eight bits. -/
theorem decodeGroup_eq_ok {l rest : List Bool} {i : Instr} (h : decodeGroup l = .ok (i, rest)) :
    ∃ g : Byte, i = groupInstr g ∧ l = fieldBits g.toNat 8 ++ rest := by
  unfold decodeGroup at h
  split at h
  · cases h
  · rename_i xs r e
    obtain ⟨hl, hn⟩ := takeBits_eq_some e
    cases h
    exact ⟨_, rfl, by rw [fieldBits_ofBits hn, hl]⟩

/-! ### The header and the padding (R103, R108) -/

theorem decodeHeader_vlqBits (v : Word) (rest : List Bool) : decodeHeader (vlqBits v ++ rest) = .ok (.hdr v, rest) := by
  obtain ⟨_, hread, hsum⟩ := vlqGroups_word v
  have hv : vlqValue 0#32 0 (vlqGroups 5 v.toNat) = v := by
    apply BitVec.eq_of_toNat_eq
    rw [vlqValue_groups, hsum, Nat.mod_eq_of_lt v.isLt]
  rw [vlqBits, decodeHeader_groups hread, hv]

theorem decodePad_zeros {k : Nat} (h : k ≤ 7) : decodePad (List.replicate k false) = .ok (.pad k, []) := by
  simp [decodePad, h]

/-! ### Tokens (R104 to R107, R109) -/

/-- The token decoder answers a literal on the literal's bits, or a pair of two fields in range on the pair's bits. -/
theorem decodeToken_eq_ok {c : Cfg} {l rest : List Bool} {i : Instr} (h : decodeToken c l = .ok (i, rest)) :
    (∃ b, i = .literal b ∧ l = literalBits b ++ rest) ∨
    ∃ o n, o < 2 ^ c.offsetBits ∧ n < 2 ^ c.lengthBits ∧ i = mkPair c o n ∧
      l = pairBits c.offsetBits c.lengthBits o n ++ rest := by
  unfold decodeToken at h
  split at h
  · cases h
  · split at h
    · cases h
    · rename_i xs r e
      obtain ⟨rfl, hn⟩ := takeBits_eq_some e
      cases h
      exact .inl ⟨_, rfl, by rw [literalBits, fieldBits_ofBits hn, List.cons_append]⟩
  · split at h
    · cases h
    · rename_i os l' e
      obtain ⟨rfl, ho⟩ := takeBits_eq_some e
      split at h
      · cases h
      · rename_i ns r e'
        obtain ⟨rfl, hn⟩ := takeBits_eq_some e'
        cases h
        refine .inr ⟨bitsValue os, bitsValue ns, ho ▸ bitsValue_lt os, hn ▸ bitsValue_lt ns, rfl, ?_⟩
        rw [pairBits, ← ho, ← hn, fieldBits_bitsValue, fieldBits_bitsValue, List.cons_append, List.append_assoc]

/-! ### Commands (R115) -/

theorem decodeCommand_encode {c : Cfg} {i : Instr} {code : BitVec 4} {args : List Operand}
    (h : encode c i = .command code args) : decodeCommand code args = .ok i := by
  cases i <;> cases h <;> rfl

/-- The command decoder answers only the instruction of that code and those operands: for each code the operands are opened one
after another, and the lists of other types than R115 lists drop out. -/
theorem decodeCommand_eq_ok {c : Cfg} {code : BitVec 4} {args : List Operand} {i : Instr}
    (h : decodeCommand code args = .ok i) : encode c i = .command code args := by
  obtain ⟨⟨k, hk⟩⟩ := code
  interval_cases k
  iterate 4
    all_goals rcases args with _ | ⟨a, args⟩ <;> try cases a
    all_goals try (cases h <;> rfl)

/-! ### Every slot (R109) -/

/-- A unit of the format, decoded at its slot, is given back and leaves what follows it. -/
theorem decodeAt_encode_stream {c : Cfg} {i : Instr} {bits : List Bool} (hw : i.WellFormed c = true)
    (hp : i.slot ≠ .padding) (he : encode c i = .stream bits) (rest : List Bool) :
    decodeAt c i.slot (.stream (bits ++ rest)) = .ok (i, rest) := by
  cases i with
  | vlqLast p => cases he; rw [← lastGroup_bits]; exact decodeGroup_lastGroup p rest
  | vlqCont p => cases he; rw [← contGroup_bits]; exact decodeGroup_contGroup p rest
  | hdr v => cases he; exact decodeHeader_vlqBits v rest
  | literal b => exact decodeToken_encoded rfl hw he rest
  | pair o l => exact decodeToken_encoded rfl hw he rest
  | pairDemo o l => exact decodeToken_encoded rfl hw he rest
  | pad k => exact absurd rfl hp
  | _ => cases he

/-- Padding bits decode to the padding (R108). -/
theorem decodeAt_encode_padding {c : Cfg} {i : Instr} {bits : List Bool} (hw : i.WellFormed c = true)
    (hp : i.slot = .padding) (he : encode c i = .stream bits) : decodeAt c .padding (.stream bits) = .ok (i, []) := by
  cases i with
  | pad k => cases he; exact decodePad_zeros (by simpa [Instr.WellFormed] using hw)
  | _ => cases hp

/-- Settles O7: slot by slot. -/
theorem decodeOfEncode : Obligations.DecodeOfEncode := by
  intro c i rest hw
  split
  · rename_i code args he
    rw [decodeAt, decodeCommand_encode he]; rfl
  · rename_i bits he
    split
    · exact decodeAt_encode_padding hw ‹_› he
    · exact decodeAt_encode_stream hw ‹_› he rest

/-- Settles O8: a decoder's answer names the bits, or the operands, it was read from. -/
theorem encodeOfDecode : Obligations.EncodeOfDecode := by
  refine ⟨fun c l i rest h => ?_, fun c l i rest h => ?_, fun c code args i h => decodeCommand_eq_ok h⟩
  · rcases decodeToken_eq_ok h with ⟨b, rfl, hl⟩ | ⟨o, n, ho, hn, rfl, hl⟩
    · exact ⟨rfl, _, rfl, hl⟩
    · obtain ⟨hw, he, _⟩ := mkPair_spec ho hn
      exact ⟨hw, _, he, hl⟩
  · obtain ⟨g, rfl, hl⟩ := decodeGroup_eq_ok h
    exact ⟨_, encode_groupInstr c g, hl⟩

/-- Settles O9: the decoders compute the ten answers. -/
theorem specWordsDecode : Obligations.SpecWordsDecode :=
  ⟨rfl, rfl, rfl, rfl, rfl, rfl, rfl, rfl, rfl, rfl⟩

end Sys2Proof.Machine
end

section
/-! A request taken, and the rows of the format executed one at a time: a group on the decoder's side, the padding on either side,
and on the encoder's side every row as its encoding appended (R108, R115, R174, R215). -/

namespace Sys2Proof.Machine

/-! ### A request (R115) -/

theorem step_call_request {s : State} {code : BitVec 4} {args : List Operand} {rest : List Request} (hp : s.phase = .idle)
    (hr : s.requests = .call code args :: rest) :
    step s = takeRequest (.call code args) { s with requests := rest } := by
  simp only [step, if_pos hp, stepIdle, hr]

/-- Settles O3: the command port runs what the decoder answers. -/
theorem stepRunsTheRequestedCommand : Obligations.StepRunsTheRequestedCommand := by
  intro s code args rest hp hr
  rw [step_call_request hp hr, takeRequest]
  exact ⟨fun i hi => by rw [hi], fun e he => by rw [he]⟩

/-! ### Groups on the decoder's side (R174, R176) -/

theorem payload_lastGroup (p : BitVec 7) : (lastGroup p &&& 0x7F#8).setWidth 32 = p.setWidth 32 := by
  revert p; decide

theorem payload_contGroup (p : BitVec 7) : (contGroup p &&& 0x7F#8).setWidth 32 = p.setWidth 32 := by
  revert p; decide

theorem contFlag_lastGroup (p : BitVec 7) : contFlag (lastGroup p) = false := by
  revert p; decide

theorem contFlag_contGroup (p : BitVec 7) : contFlag (contGroup p) = true := by
  revert p; decide

theorem runGroup_read {s : State} {bs : BitStream} {b : Buffer} (h : s.Live .R bs b) (g : Byte) :
    runGroup g s = .ok { s with vlq := vlqAfter s.vlq g } () := byDirection_read h _ _

/-- Settles O48: a group read enters the loop registers, and its flag or the fifth group ends the loop. -/
theorem groupsFillTheVlqRegisters : Obligations.GroupsFillTheVlqRegisters := by
  intro s bs b p h
  rw [exec, exec, execVlqLast, execVlqCont, runGroup_read h, runGroup_read h]
  simp only [vlqAfter, vlqAdd, vlqStop, payload_lastGroup, payload_contGroup, contFlag_lastGroup, contFlag_contGroup]
  exact ⟨rfl, rfl⟩

/-! ### The padding (R108, R154, R246) -/

theorem putStream_self {s : State} {x : Option BitStream} (h : s.bs = x) : s.putStream x = s := by
  subst h; rfl

theorem flushBits_empty {bs : BitStream} (b : Buffer) (h : bs.bitCount = 0) : flushBits bs b = .ok bs b := by
  simp [flushBits, h]

/-- With bits pending and room, the flush stores the accumulator, shifted to the byte boundary, at `position` (R154). -/
theorem flushBits_room {bs : BitStream} {b : Buffer} (h : 0 < bs.bitCount) (hp : bs.position < b.capacity) :
    ∃ b', b.memWrite bs.position (bs.byteBuffer <<< (8 - bs.bitCount)) = some b' ∧
      flushBits bs b = .ok { bs with position := bs.position + 1, byteBuffer := 0#8, bitCount := 0 } b' := by
  rcases b.memWrite_cases bs.position (bs.byteBuffer <<< (8 - bs.bitCount)) with ⟨hle, _⟩ | ⟨_, e⟩
  · omega
  · exact ⟨_, e, by simp only [flushBits, if_pos h, e]⟩

theorem runPad_read {s : State} {bs : BitStream} {b : Buffer} (h : s.Live .R bs b) : runPad s = .ok s () :=
  byDirection_read h _ _

theorem runPad_write {s : State} {bs : BitStream} {b : Buffer} (h : s.Live .W bs b) : runPad s = writeStream s flushBits :=
  byDirection_write h _ _

/-- Settles O49: the decoder's padding is nothing, the encoder's is the flush. -/
theorem paddingIsIgnoredAndFlushed : Obligations.PaddingIsIgnoredAndFlushed := by
  intro s bs b k _
  rw [exec, execPad]
  refine ⟨fun h => ?_, fun h h0 => ?_, fun h h0 hp => ?_⟩
  · rw [runPad_read h]; rfl
  · rw [runPad_write h, writeStream_ok h (flushBits_empty b h0), putBuf_self h.2.2.2, putStream_self h.1]; rfl
  · obtain ⟨b', hw, e⟩ := flushBits_room h0 hp
    obtain ⟨_, hcap, hlen, _, hv, ho⟩ := Buffer.memWrite_some hw
    obtain ⟨hsizes, hsame⟩ := putBuf_frame (lo := bs.position) (hi := bs.position + 1) h.2.2.2 hcap hlen
      fun j hj => ho j (by omega)
    refine ⟨(s.putBuf bs.buf b').putStream (some { bs with position := bs.position + 1, byteBuffer := 0#8, bitCount := 0 }),
      by rw [runPad_write h, writeStream_ok h e]; rfl, rfl, ?_, hsizes, hsame⟩
    calc (s.putBuf bs.buf b').byte? bs.buf bs.position = b'.memRead bs.position := byte?_putBuf_same h.2.2.2 _
      _ = some (bs.byteBuffer <<< (8 - bs.bitCount)) := by rw [Buffer.memRead_nat, hcap, if_pos hp, hv]

/-! ### Every row on the encoder's side (R215, R217, R218) -/

theorem slot_ne_command_of_stream {c : Cfg} {i : Instr} {xs : List Bool} (h : encode c i = .stream xs) :
    i.slot ≠ .command := by
  intro hs
  cases i <;> cases hs <;> cases h

/-- Settles O50: the unit is its encoding appended and the cursor moved; with room for it the bits go to `position` and on. -/
theorem tokensAppendTheirEncoding : Obligations.TokensAppendTheirEncoding := by
  intro s c bs b i xs h hi hc _ hs he hroom
  obtain ⟨bs', b', e, hw, hb, hd, hk, hi', hpos, hcount, hcap, hlen, _, ho⟩ := pushBits_room hi h.2.1 h.2.2.1 hroom
  obtain ⟨hsizes, hsame⟩ := putBuf_frame h.2.2.2 hcap hlen ho
  refine ⟨{ (s.putBuf bs.buf b').putStream (some bs') with index := indexAfter i s.index }, bs', b', ?_, rfl,
    State.buf?_putBuf_same h.2.2.2, hw, hb, hd, hk, hi', hpos, hcount, hsizes, hsame⟩
  rw [exec_unit (slot_ne_command_of_stream he), runUnit_write h hc hs he, writeStream_ok h e]
  rfl

end Sys2Proof.Machine
end

section
/-! What a successful `encode` leaves in its output (R100, R215 to R220). -/

namespace Sys2Proof.Machine

/-! ### A flushed stream -/

theorem writtenBits_length (bs : BitStream) (b : Buffer) : (writtenBits bs b).length = 8 * bs.position + bs.bitCount := by
  simp [writtenBits]

/-- After the flush the whole bytes hold the bits given to the stream, and zero bits up to the byte boundary (R154). -/
theorem flushBits_ok {bs bs' : BitStream} {b b' : Buffer} (hc : bs.bitCount ≤ 7) (e : flushBits bs b = .ok bs' b') :
    bs'.position = byteCount (writtenBits bs b).length ∧
    bitsFrom b' bs'.position 0 =
      writtenBits bs b ++ List.replicate (8 * bs'.position - (writtenBits bs b).length) false := by
  rw [writtenBits_length, byteCount]
  rcases flushBits_cases bs b hc with ⟨h0, e'⟩ | ⟨_, _, e'⟩ | ⟨b1, h0, _, e', hbits, _⟩ <;> rw [e] at e' <;> cases e'
  · exact ⟨by omega, by simp [writtenBits, h0, fieldBits]⟩
  · refine ⟨by dsimp only; omega, ?_⟩
    rw [hbits]
    congr 2
    dsimp only; omega

theorem bitsFrom_setLength (b : Buffer) (l n a : Nat) : bitsFrom { b with length := l } n a = bitsFrom b n a :=
  bitsFrom_congr fun _ _ _ => rfl

/-! ### The output -/

/-- R222: an empty input is `NoOp`, before anything is allocated. -/
theorem exec_encode_empty {s : State} {c : Cfg} {input : BufId} {b : Buffer} (hw : c.WellFormed = true)
    (hb : s.buf? input = some b) (h0 : b.length = 0) :
    exec (.encode c input) s =
      .next (takeError .noOp { s.beginCall .encHeader (some input) none with cfg := some c }) := by
  have hl : configLegal c = true := hw
  simp only [exec, execEncode, openEncode, withConfig, if_pos hl, withBuffer, hb, h0, if_true, Res.bind_raised, settleCall]

/-- Past its opening, an `encode` that returns `Ok` has appended all the coded bits to a fresh stream over the new buffer, flushed
it, and set the logical length to its position (R215, R220). -/
theorem exec_encode_ok (free : Nat) {s t : State} {c : Cfg} {input : BufId} {b : Buffer} (hb : s.buf? input = some b)
    (hcap : b.length ≤ b.capacity) (h : exec (.encode c input) s = .next t) (hok : t.status = .ok) :
    ∃ o bs1 o1 bs2 o2, pushBits (BitStream.fresh s.mem.length .W) o (codedBits b c free) = .ok bs1 o1 ∧
      flushBits bs1 o1 = .ok bs2 o2 ∧ t.buf? s.mem.length = some { o2 with length := bs2.position } := by
  obtain ⟨hw, hn⟩ := exec_encode_pre hb h
  by_cases h0 : b.length = 0
  · rw [exec_encode_empty hw hb h0] at h
    cases h
    simp at hok
  rcases exec_encode_cases hw hb (Nat.pos_of_ne_zero h0) hn with ⟨_, e⟩ | ⟨_, e⟩ <;> rw [e] at h
  · obtain ⟨o, _, hlive, hin, hne⟩ := opened_facts (c := c) hb
    rcases bodyEncode_writes free rfl (Cfg.minimum_of_wellFormed hw) hlive rfl hin hcap hne (fresh_inv _ _ o) with
      ⟨_, _, bs1, o1, bs2, o2, epush, eflush, ebody⟩ | ⟨_, _, _, _, _, _, _, ebody⟩ <;> rw [ebody] at h <;> cases h
    · exact ⟨o, bs1, o1, bs2, o2, epush, eflush, State.buf?_putBuf_same hlive.2.2.2⟩
    · simp at hok
  · cases h
    simp at hok

/-- Settles O34: the bits flushed are the coded bits, which the fresh stream was given and nothing else. -/
theorem encodeWritesTheGreedyTokens : Obligations.EncodeWritesTheGreedyTokens := by
  intro s t c input b free hb hcap h hok
  obtain ⟨o, bs1, o1, bs2, o2, epush, eflush, ht⟩ := exec_encode_ok free hb hcap h hok
  obtain ⟨_, _, ⟨e, hwritten, hc, _⟩ | ⟨e, _⟩, _⟩ :=
    pushBits_cases (codedBits b c free) (BitStream.fresh s.mem.length .W) o (Nat.zero_le 7) <;> rw [epush] at e <;> cases e
  rw [writtenBits_fresh, List.nil_append] at hwritten
  obtain ⟨hpos, hbits⟩ := flushBits_ok hc eflush
  rw [hwritten] at hpos hbits
  exact ⟨_, ht, hpos, by rw [bitsFrom_setLength]; exact hbits⟩

end Sys2Proof.Machine
end

section
/-! The BitStream operations on bits and fields as the host calls them between Codec calls (40_bitstream_bits.md): each is one
write or one read on the live stream, and ends well, raises, or is refused. -/

namespace Sys2Proof.Machine

/-! ### A live stream and its boundary, part by part -/

section
variable {s : State} {d : Dir} {bs : BitStream} {b : Buffer}

theorem State.Live.stream (h : s.Live d bs b) : s.bs = some bs := h.1
theorem State.Live.alive (h : s.Live d bs b) : bs.dead = false := h.2.1
theorem State.Live.direction (h : s.Live d bs b) : bs.dir = d := h.2.2.1
theorem State.Live.buffer (h : s.Live d bs b) : s.buf? bs.buf = some b := h.2.2.2

theorem BitStream.Inv.bitCount_le (hi : bs.Inv b) (hk : bs.dead = false) : bs.bitCount ≤ 7 := (hi.2 hk).1

end

/-! ### The two shapes of a stream operation -/

/-- A write operation the host calls. -/
def writeCall (f : BitStream → Buffer → Written) (s : State) : Host.Outcome State Fault Refusal :=
  settle (writeStream s f).noValue

/-- A read operation the host calls, `ret` making the returned value. -/
def readCall {α : Type} (f : BitStream → Buffer → Taken α) (ret : α → Ret) (s : State) : Host.Outcome State Fault Refusal :=
  settle ((readStream s f).bind fun t v => .ok t (ret v))

/-- The state after a stream operation that ended well (R53). -/
def State.streamOk (s : State) (bs : BitStream) (v : Ret) : State := { s with bs := some bs, status := .ok, result := v }

/-- The state after a stream operation that raised `BufferOutOfBounds` outside a Codec call (R157, R291). -/
def State.streamFailed (s : State) (bs : BitStream) : State :=
  { s with
    bs := some (bs.kill s.draws), status := .bufferOutOfBounds, result := .none, draws := s.draws + 1 }

section
variable {s : State} {bs bs' : BitStream} {b b' : Buffer} {f : BitStream → Buffer → Written}

theorem writeCall_ok (h : s.Live .W bs b) (e : f bs b = .ok bs' b') :
    writeCall f s = .next ((s.putBuf bs.buf b').streamOk bs' .none) := by
  rw [writeCall, writeStream_ok h e]; rfl

theorem writeCall_raised (h : s.Live .W bs b) (hp : s.phase = .idle) (e : f bs b = .raised bs' b') :
    writeCall f s = .next ((s.putBuf bs.buf b').streamFailed bs') := by
  rw [writeCall, writeStream_raised h e, Res.noValue, Res.bind_raised, settle, takeError_idle (by simpa using hp)]; rfl

theorem writeStream_refused_or_live (s : State) (f : BitStream → Buffer → Written) :
    (∃ r, writeStream s f = .refused r) ∨ ∃ bs b, s.Live .W bs b :=
  (withStream_cases s .W _).imp id fun ⟨bs, b, h, _⟩ => ⟨bs, b, h⟩

/-- A write operation that answers a next state ran its write on the live stream, and the write ended well or raised. -/
theorem writeCall_next {t : State} (hp : s.phase = .idle) (ht : writeCall f s = .next t) :
    ∃ bs b bs' b', s.Live .W bs b ∧
      (f bs b = .ok bs' b' ∧ t = (s.putBuf bs.buf b').streamOk bs' .none ∨
       f bs b = .raised bs' b' ∧ t = (s.putBuf bs.buf b').streamFailed bs') := by
  rcases writeStream_refused_or_live s f with ⟨r, e⟩ | ⟨bs, b, h⟩
  · rw [writeCall, e] at ht; cases ht
  · cases e : f bs b with
    | ok bs' b' => rw [writeCall_ok h e] at ht; cases ht; exact ⟨bs, b, bs', b', h, .inl ⟨e, rfl⟩⟩
    | raised bs' b' => rw [writeCall_raised h hp e] at ht; cases ht; exact ⟨bs, b, bs', b', h, .inr ⟨e, rfl⟩⟩

/-- A write that stores one byte at `position` and empties the accumulator (R142, R154). -/
theorem writeCall_stores {v : Byte} (h : s.Live .W bs b) (hw : b.memWrite bs.position v = some b')
    (e : f bs b = .ok { bs with position := bs.position + 1, byteBuffer := 0#8, bitCount := 0 } b') :
    ∃ t, writeCall f s = .next t ∧
      t = { s with
            mem := t.mem
            bs := some { bs with position := bs.position + 1, byteBuffer := 0#8, bitCount := 0 }
            status := .ok, result := .none } ∧
      t.byte? bs.buf bs.position = some v ∧ t.sizes = s.sizes ∧
      SameBytesBut s t bs.buf bs.position (bs.position + 1) := by
  obtain ⟨hp, hcap, hlen, _, hv, ho⟩ := Buffer.memWrite_some hw
  obtain ⟨hsizes, hsame⟩ := putBuf_frame (lo := bs.position) (hi := bs.position + 1) h.buffer hcap hlen
    fun j hj => ho j (by omega)
  refine ⟨_, writeCall_ok h e, rfl, ?_, hsizes, hsame⟩
  calc (s.putBuf bs.buf b').byte? bs.buf bs.position = b'.memRead bs.position := byte?_putBuf_same h.buffer _
    _ = some v := by rw [Buffer.memRead_nat, hcap, if_pos hp, hv]

/-- A write that raises at once writes nothing; the stream is dead (R143, R154, R157). -/
theorem writeCall_fails (h : s.Live .W bs b) (hp : s.phase = .idle) (e : f bs b = .raised bs b) :
    ∃ t bs', writeCall f s = .next t ∧
      t = { s with bs := some bs', status := .bufferOutOfBounds, result := .none, draws := t.draws } ∧
      bs'.buf = bs.buf ∧ bs'.position = bs.position ∧ bs'.dir = bs.dir ∧ bs'.dead = true := by
  refine ⟨s.streamFailed bs, bs.kill s.draws, ?_, rfl, rfl, rfl, rfl, rfl⟩
  rw [writeCall_raised h hp e, putBuf_self h.buffer]

end

section
variable {α : Type} {s : State} {bs bs' : BitStream} {b : Buffer} {f : BitStream → Buffer → Taken α}

theorem readCall_ok {v : α} (ret : α → Ret) (h : s.Live .R bs b) (e : f bs b = .ok bs' v) :
    readCall f ret s = .next (s.streamOk bs' (ret v)) := by
  rw [readCall, readStream_ok h e]; rfl

theorem readCall_raised (ret : α → Ret) (h : s.Live .R bs b) (hp : s.phase = .idle) (e : f bs b = .raised bs') :
    readCall f ret s = .next (s.streamFailed bs') := by
  rw [readCall, readStream_raised h e, Res.bind_raised, settle, takeError_idle (by simpa using hp)]; rfl

theorem readStream_refused_or_live (s : State) (f : BitStream → Buffer → Taken α) :
    (∃ r, readStream s f = .refused r) ∨ ∃ bs b, s.Live .R bs b :=
  (withStream_cases s .R _).imp id fun ⟨bs, b, h, _⟩ => ⟨bs, b, h⟩

/-- A read operation that answers a next state ran its read on the live stream, and the read ended well or raised. -/
theorem readCall_next {ret : α → Ret} {t : State} (hp : s.phase = .idle) (ht : readCall f ret s = .next t) :
    ∃ bs b bs', s.Live .R bs b ∧
      ((∃ v, f bs b = .ok bs' v ∧ t = s.streamOk bs' (ret v)) ∨ f bs b = .raised bs' ∧ t = s.streamFailed bs') := by
  rcases readStream_refused_or_live s f with ⟨r, e⟩ | ⟨bs, b, h⟩
  · rw [readCall, e] at ht; cases ht
  · cases e : f bs b with
    | ok bs' v => rw [readCall_ok ret h e] at ht; cases ht; exact ⟨bs, b, bs', h, .inl ⟨v, e, rfl⟩⟩
    | raised bs' => rw [readCall_raised ret h hp e] at ht; cases ht; exact ⟨bs, b, bs', h, .inr ⟨e, rfl⟩⟩

end

/-! A dead stream, and one in the other direction, refuse the operation (R157, R158). -/

theorem writeCall_dead {s : State} {bs : BitStream} (h : s.bs = some bs) (hd : bs.dead = true)
    (f : BitStream → Buffer → Written) : writeCall f s = .refused .deadStream := by
  rw [writeCall, writeStream, withStream_dead h hd]; rfl

theorem readCall_dead {α : Type} {s : State} {bs : BitStream} (h : s.bs = some bs) (hd : bs.dead = true)
    (f : BitStream → Buffer → Taken α) (ret : α → Ret) : readCall f ret s = .refused .deadStream := by
  rw [readCall, readStream, withStream_dead h hd]; rfl

theorem writeCall_onReader {s : State} {bs : BitStream} {b : Buffer} (h : s.Live .R bs b)
    (f : BitStream → Buffer → Written) : writeCall f s = .refused .wrongDirection := by
  obtain ⟨hbs, hk, hd, _⟩ := h
  rw [writeCall, writeStream, withStream_wrongDirection hbs hk (by simp [hd])]; rfl

theorem readCall_onWriter {α : Type} {s : State} {bs : BitStream} {b : Buffer} (h : s.Live .W bs b)
    (f : BitStream → Buffer → Taken α) (ret : α → Ret) : readCall f ret s = .refused .wrongDirection := by
  obtain ⟨hbs, hk, hd, _⟩ := h
  rw [readCall, readStream, withStream_wrongDirection hbs hk (by simp [hd])]; rfl

/-! ### The operations in these shapes -/

theorem exec_writeBit (v : Word) (s : State) :
    exec (.writeBit v) s = writeCall (fun bs b => pushBit bs b (v.getLsbD 0)) s := rfl

theorem exec_flushPartial (s : State) : exec .flushPartial s = writeCall flushBits s := rfl

theorem exec_writes {i : Instr} {xs : List Bool} (h : appended i = some xs) (s : State) :
    exec i s = writeCall (fun bs b => pushBits bs b xs) s := exec_appended h s

theorem exec_writeUint32_wide {n : Nat} (hn : 32 < n) (v : Word) (s : State) :
    exec (.writeUint32 v n) s = .refused .fieldTooWide := by
  simp only [exec, execWriteUint32, withWidth, if_pos hn, Res.noValue, Res.bind_refused, settle]

theorem exec_readBit (s : State) : exec .readBit s = readCall pullBit .bit s := rfl

theorem exec_readUint32 {n : Nat} (hn : n ≤ 32) (s : State) :
    exec (.readUint32 n) s = readCall (pullField n) (fun v => .word (BitVec.ofNat 32 v)) s := by
  simp only [exec, execReadUint32, withWidth, if_neg (Nat.not_lt.mpr hn), readCall]

theorem exec_readUint32_wide {n : Nat} (hn : 32 < n) (s : State) : exec (.readUint32 n) s = .refused .fieldTooWide := by
  simp only [exec, execReadUint32, withWidth, if_pos hn, settle]

theorem exec_read7bitUint32 (s : State) : exec .read7bitUint32 s = readCall pullVlq .word s := rfl

theorem exec_bsCreate {s : State} {id : BufId} {b : Buffer} (h : s.buf? id = some b) (d : Dir) :
    exec (.bsCreate id d) s = .next (s.streamOk (BitStream.fresh id d) .none) := by
  simp only [exec, execBsCreate, withBuffer, h, settle]; rfl

/-- The write operations: bits appended, the flush, or a field too wide. -/
theorem writeOp_cases {i : Instr} (h : isWriteOp i = true) :
    (∃ xs, appended i = some xs) ∨ i = .flushPartial ∨ ∃ v n, 32 < n ∧ i = .writeUint32 v n := by
  cases i with
  | writeBit v => exact .inl ⟨_, rfl⟩
  | write7bitUint32 v => exact .inl ⟨_, rfl⟩
  | flushPartial => exact .inr (.inl rfl)
  | writeUint32 v n =>
    by_cases hn : n ≤ 32
    · exact .inl ⟨_, if_pos hn⟩
    · exact .inr (.inr ⟨v, n, by omega, rfl⟩)
  | _ => cases h

theorem not_isReadOp_of_isWriteOp {i : Instr} (h : isWriteOp i = true) : isReadOp i = false := by
  rcases writeOp_cases h with ⟨xs, hx⟩ | rfl | ⟨v, n, _, rfl⟩
  · cases i <;> simp only [appended, reduceCtorEq] at hx <;> rfl
  · rfl
  · rfl

/-! ### What an operation moves (R159) -/

/-- The stream goes from `bs` to `bs'` over a buffer that goes from `b` to `b'`, changed only in the bytes passed. -/
structure Moved (bs bs' : BitStream) (b b' : Buffer) : Prop where
  buf : bs'.buf = bs.buf
  dir : bs'.dir = bs.dir
  position : bs.position ≤ bs'.position
  capacity : b'.capacity = b.capacity
  length : b'.length = b.length
  bytes : ∀ j, ¬ (bs.position ≤ j ∧ j < bs'.position) → b'.byteAt j = b.byteAt j

theorem Moved.refl (bs : BitStream) (b : Buffer) : Moved bs bs b b := ⟨rfl, rfl, Nat.le_refl _, rfl, rfl, fun _ _ => rfl⟩

theorem Moved.of_read {bs bs' : BitStream} (b : Buffer) (hb : bs'.buf = bs.buf) (hd : bs'.dir = bs.dir)
    (hle : bs.position ≤ bs'.position) : Moved bs bs' b b := ⟨hb, hd, hle, rfl, rfl, fun _ _ => rfl⟩

/-- Whether a write ends well or raises, it has moved the stream. -/
def Written.Moves (bs : BitStream) (b : Buffer) : Written → Prop
  | .ok bs' b' | .raised bs' b' => Moved bs bs' b b'

/-- Whether a read ends well or raises, it has moved the stream and left the buffer as it was. -/
def Taken.Moves {α : Type} (bs : BitStream) (b : Buffer) : Taken α → Prop
  | .ok bs' _ | .raised bs' => Moved bs bs' b b

theorem pushBits_moves {bs : BitStream} (b : Buffer) (hc : bs.bitCount ≤ 7) (xs : List Bool) :
    (pushBits bs b xs).Moves bs b := by
  obtain ⟨bs', b', h, hb, hd, _, hle, _, _, hcap, hlen, _, hj⟩ := pushBits_cases xs bs b hc
  have hm : Moved bs bs' b b' := ⟨hb, hd, hle, hcap, hlen, fun j hn => hj j (by omega)⟩
  rcases h with ⟨e, _⟩ | ⟨e, _⟩ <;> rw [e] <;> exact hm

theorem flushBits_moves {bs : BitStream} (b : Buffer) (hc : bs.bitCount ≤ 7) : (flushBits bs b).Moves bs b := by
  rcases flushBits_cases bs b hc with ⟨_, e⟩ | ⟨_, _, e⟩ | ⟨b', _, _, e, _, hcap, hlen, _, hj⟩ <;> rw [e]
  · exact .refl bs b
  · exact .refl bs b
  · exact ⟨rfl, rfl, Nat.le_succ _, hcap, hlen, fun j hn => hj j (by dsimp only at hn; omega)⟩

theorem pullBit_moves (bs : BitStream) (b : Buffer) : (pullBit bs b).Moves bs b := by
  rcases pullBit_cases bs b with ⟨_, _, _, e⟩ | ⟨x, bs', e, _, hb, hd, _, _, hle, _⟩ <;> rw [e]
  · exact .refl bs b
  · exact .of_read b hb hd hle

theorem pullField_moves (n : Nat) (bs : BitStream) (b : Buffer) : (pullField n bs b).Moves bs b := by
  have hle := pullBits_position n bs b
  unfold pullField
  rcases pullBits_cases n bs b with ⟨bs', _, e, hb, hd, _⟩ | ⟨xs, bs', e, _, _, hb, hd, _⟩ <;> rw [e] at hle ⊢ <;>
    exact .of_read b hb hd hle

theorem pullVlq_moves {bs : BitStream} {b : Buffer} (hi : bs.Inv b) (hk : bs.dead = false) (hd : bs.dir = .R) :
    (pullVlq bs b).Moves bs b := by
  rcases pullVlq_cases bs b hi hk hd with ⟨_, bs', _, e, _, _, _, hb, hd', _, _, hle⟩ | ⟨bs', e, hb, hd', _, hpos, _⟩ <;> rw [e]
  · exact .of_read b hb (hd'.trans hd.symm) hle
  · exact .of_read b hb (hd'.trans hd.symm) (hpos ▸ hi.1)

/-- A write operation has a width out of range and is refused, or is one write that moves the stream. -/
theorem exec_writeOp {i : Instr} (h : isWriteOp i = true) :
    ((∀ c, i.WellFormed c = false) ∧ ∀ s, exec i s = .refused .fieldTooWide) ∨
    ∃ f, (∀ s, exec i s = writeCall f s) ∧ ∀ bs b, bs.bitCount ≤ 7 → (f bs b).Moves bs b := by
  rcases writeOp_cases h with ⟨xs, hx⟩ | rfl | ⟨v, n, hn, rfl⟩
  · exact .inr ⟨_, exec_writes hx, fun _ b hc => pushBits_moves b hc xs⟩
  · exact .inr ⟨_, exec_flushPartial, fun _ b hc => flushBits_moves b hc⟩
  · exact .inl ⟨fun _ => by simpa [Instr.WellFormed] using hn, exec_writeUint32_wide hn v⟩

/-- The same of a read operation. -/
theorem exec_readOp {i : Instr} (h : isReadOp i = true) :
    ((∀ c, i.WellFormed c = false) ∧ ∀ s, exec i s = .refused .fieldTooWide) ∨
    ∃ (α : Type) (f : BitStream → Buffer → Taken α) (ret : α → Ret), (∀ s, exec i s = readCall f ret s) ∧
      ∀ bs b, bs.Inv b → bs.dead = false → bs.dir = .R → (f bs b).Moves bs b := by
  cases i with
  | readBit => exact .inr ⟨_, _, _, exec_readBit, fun bs b _ _ _ => pullBit_moves bs b⟩
  | readUint32 n =>
    by_cases hn : n ≤ 32
    · exact .inr ⟨_, _, _, exec_readUint32 hn, fun bs b _ _ _ => pullField_moves n bs b⟩
    · exact .inl ⟨fun _ => by simpa [Instr.WellFormed] using hn, exec_readUint32_wide (Nat.not_le.mp hn)⟩
  | read7bitUint32 => exact .inr ⟨_, _, _, exec_read7bitUint32, fun bs b hi hk hd => pullVlq_moves hi hk hd⟩
  | _ => cases h

theorem exec_writeOp_wellFormed {i : Instr} {c : Cfg} (h : isWriteOp i = true) (hwf : i.WellFormed c = true) :
    ∃ f, ∀ s, exec i s = writeCall f s := by
  rcases exec_writeOp h with ⟨hbad, _⟩ | ⟨f, e, _⟩
  · rw [hbad c] at hwf; cases hwf
  · exact ⟨f, e⟩

theorem exec_readOp_wellFormed {i : Instr} {c : Cfg} (h : isReadOp i = true) (hwf : i.WellFormed c = true) :
    ∃ (α : Type) (f : BitStream → Buffer → Taken α) (ret : α → Ret), ∀ s, exec i s = readCall f ret s := by
  rcases exec_readOp h with ⟨hbad, _⟩ | ⟨α, f, ret, e, _⟩
  · rw [hbad c] at hwf; cases hwf
  · exact ⟨α, f, ret, e⟩

/-- Everything a read or write operation that answers a next state has done: the live stream has moved, a read with its buffer as
it was, and the operation ended well or raised. -/
theorem streamOp_next {s t : State} {i : Instr} (hp : s.phase = .idle) (hop : isWriteOp i = true ∨ isReadOp i = true)
    (ht : exec i s = .next t) :
    ∃ bs b bs' b', s.bs = some bs ∧ s.buf? bs.buf = some b ∧ (bs.Inv b → Moved bs bs' b b') ∧ (isReadOp i = true → b' = b) ∧
      ((∃ v, t = (s.putBuf bs.buf b').streamOk bs' v) ∨ t = (s.putBuf bs.buf b').streamFailed bs') := by
  rcases hop with hw | hr
  · rcases exec_writeOp hw with ⟨_, e⟩ | ⟨f, e, hm⟩ <;> rw [e] at ht
    · cases ht
    · obtain ⟨bs, b, bs', b', ⟨hbs, hk, _, hb⟩, h⟩ := writeCall_next hp ht
      have hread : isReadOp i = true → b' = b := fun hr => by rw [not_isReadOp_of_isWriteOp hw] at hr; cases hr
      refine ⟨bs, b, bs', b', hbs, hb, fun hi => ?_, hread, ?_⟩
      · have hmv := hm bs b (hi.bitCount_le hk)
        rcases h with ⟨ef, _⟩ | ⟨ef, _⟩ <;> rw [ef] at hmv <;> exact hmv
      · exact h.imp (fun ⟨_, et⟩ => ⟨_, et⟩) fun ⟨_, et⟩ => et
  · rcases exec_readOp hr with ⟨_, e⟩ | ⟨_, f, ret, e, hm⟩ <;> rw [e] at ht
    · cases ht
    · obtain ⟨bs, b, bs', ⟨hbs, hk, hd, hb⟩, h⟩ := readCall_next hp ht
      refine ⟨bs, b, bs', b, hbs, hb, fun hi => ?_, fun _ => rfl, ?_⟩
      · have hmv := hm bs b hi hk hd
        rcases h with ⟨_, ef, _⟩ | ⟨ef, _⟩ <;> rw [ef] at hmv <;> exact hmv
      · rw [putBuf_self hb]
        exact h.imp (fun ⟨v, _, et⟩ => ⟨_, et⟩) fun ⟨_, et⟩ => et

/-! ### Creation, refusals, errors, the frame -/

/-- Settles O11: a fresh stream and nothing else. -/
theorem bsCreateMakesAFreshStream : Obligations.BsCreateMakesAFreshStream := fun _ _ d _ h => exec_bsCreate h d

/-- Settles O22: a well-formed operation is one write or one read, and the stream's direction refuses it. -/
theorem directionIsChecked : Obligations.DirectionIsChecked := by
  refine fun s bs b i c hwf => ⟨fun h hw => ?_, fun h hr => ?_⟩
  · obtain ⟨f, e⟩ := exec_writeOp_wellFormed hw hwf
    rw [e, writeCall_onReader h]
  · obtain ⟨_, f, ret, e⟩ := exec_readOp_wellFormed hr hwf
    rw [e, readCall_onWriter h]

/-- Settles O21: an end other than `Ok` is a raise, which kills the stream; on a dead stream no read or write is begun. -/
theorem errorsKillTheStream : Obligations.ErrorsKillTheStream := by
  refine ⟨fun s t i hp hop ht hst => ?_, fun s bs i c hbs hd hop hwf => ?_⟩
  · obtain ⟨_, _, _, _, _, _, _, _, ⟨_, rfl⟩ | rfl⟩ := streamOp_next hp hop ht
    · exact absurd rfl hst
    · exact ⟨_, rfl, rfl⟩
  · rcases hop with hw | hr
    · obtain ⟨f, e⟩ := exec_writeOp_wellFormed hw hwf
      rw [e, writeCall_dead hbs hd]
    · obtain ⟨_, f, ret, e⟩ := exec_readOp_wellFormed hr hwf
      rw [e, readCall_dead hbs hd]

/-- Settles O23: every end of an operation, good or not, leaves a stream that has moved. -/
theorem streamOperationsFrame : Obligations.StreamOperationsFrame := by
  refine ⟨fun s t id d ht => ?_, fun s t bs b i hbs hb hi hp hop ht => ?_⟩
  · cases hb : s.buf? id with
    | none => simp only [exec, execBsCreate, withBuffer, hb, settle, reduceCtorEq] at ht
    | some b =>
      rw [exec_bsCreate hb] at ht
      cases ht
      rfl
  · obtain ⟨bs0, b0, bs', b', hbs0, hb0, hmoved, hread, hend⟩ := streamOp_next hp hop ht
    cases hbs.symm.trans hbs0
    cases hb.symm.trans hb0
    have hm := hmoved hi
    obtain ⟨hsizes, hsame⟩ := putBuf_frame hb hm.capacity hm.length hm.bytes
    have hmem : isReadOp i = true → (s.putBuf bs.buf b').mem = s.mem := fun hr => by rw [hread hr, putBuf_self hb]
    rcases hend with ⟨v, rfl⟩ | rfl
    · exact ⟨bs', rfl, hm.buf, hm.dir, hm.position, hsizes, hsame, hmem⟩
    · exact ⟨bs'.kill s.draws, rfl, hm.buf, hm.dir, hm.position, hsizes, hsame, hmem⟩

end Sys2Proof.Machine
end

section
/-! One BitStream operation at a time: what is stored, what is returned, and when it raises (R142 to R155). -/

namespace Sys2Proof.Machine

/-! ### One bit -/

/-- The accumulator after `write_bit` in the words of R142: bit 0 of the operand ORed in. -/
theorem pushed_bit (acc : Byte) (v : Word) :
    (acc <<< 1) ||| BitVec.ofNat 8 (v.getLsbD 0).toNat = (acc <<< 1) ||| (v &&& 1#32).setWidth 8 := by
  congr 1
  refine BitVec.eq_of_getLsbD_eq fun i hi => ?_
  cases i with
  | zero => cases h : v.getLsbD 0 <;> simp [-BitVec.getLsbD_eq_getElem, h]
  | succ i => cases h : v.getLsbD 0 <;> simp

theorem pushBit_pending {bs : BitStream} (b : Buffer) (x : Bool) (h : bs.bitCount < 7) :
    pushBit bs b x =
      .ok { bs with byteBuffer := (bs.byteBuffer <<< 1) ||| BitVec.ofNat 8 x.toNat, bitCount := bs.bitCount + 1 } b := by
  have h8 : ¬ bs.bitCount + 1 = 8 := by omega
  simp only [pushBit, if_neg h8]

theorem pushBit_eighth {bs : BitStream} {b b' : Buffer} {x : Bool} (h : bs.bitCount = 7)
    (hw : b.memWrite bs.position ((bs.byteBuffer <<< 1) ||| BitVec.ofNat 8 x.toNat) = some b') :
    pushBit bs b x = .ok { bs with position := bs.position + 1, byteBuffer := 0#8, bitCount := 0 } b' := by
  simp only [pushBit, h, hw, if_true]

theorem pushBit_full {bs : BitStream} {b : Buffer} (x : Bool) (h : bs.bitCount = 7) (hp : b.capacity ≤ bs.position) :
    pushBit bs b x = .raised bs b := by
  simp only [pushBit, h, Buffer.memWrite_eq_none.mpr hp, if_true]

theorem memWrite_room {b : Buffer} {a : Nat} (h : a < b.capacity) (v : Byte) : ∃ b', b.memWrite a v = some b' :=
  Option.ne_none_iff_exists'.mp fun hn => absurd (Buffer.memWrite_eq_none.mp hn) (by omega)

theorem flushBits_full {bs : BitStream} {b : Buffer} (h : 0 < bs.bitCount) (hp : b.capacity ≤ bs.position) :
    flushBits bs b = .raised bs b := by
  simp only [flushBits, if_pos h, Buffer.memWrite_eq_none.mpr hp]

theorem pullBit_pending {bs : BitStream} (b : Buffer) (h : bs.bitCount ≠ 0) :
    pullBit bs b = .ok { bs with bitCount := bs.bitCount - 1 } (bs.byteBuffer.getLsbD (bs.bitCount - 1)) := by
  simp only [pullBit, if_neg h]

theorem pullBit_pulls {bs : BitStream} {b : Buffer} (h : bs.bitCount = 0) (hp : bs.position < b.capacity) :
    pullBit bs b =
      .ok { bs with byteBuffer := b.byteAt bs.position, position := bs.position + 1, bitCount := 7 }
        ((b.byteAt bs.position).getLsbD 7) := by
  simp only [pullBit, if_pos h, Buffer.memRead_nat, if_pos hp]

theorem pullBit_exhausted {bs : BitStream} {b : Buffer} (h : bs.bitCount = 0) (hp : b.capacity ≤ bs.position) :
    pullBit bs b = .raised bs := by
  simp only [pullBit, if_pos h, Buffer.memRead_nat, if_neg (Nat.not_lt.mpr hp)]

/-- Settles O12: below the eighth bit nothing is stored; the eighth stores the byte or raises. -/
theorem writeBitShiftsIn : Obligations.WriteBitShiftsIn := by
  intro s bs b v h _
  rw [exec_writeBit, ← pushed_bit]
  refine ⟨fun h7 => ?_, fun h7 hp => ?_, fun h7 hp hi => writeCall_fails h hi (pushBit_full _ h7 hp)⟩
  · rw [writeCall_ok h (pushBit_pending b _ h7), putBuf_self h.buffer]; rfl
  · obtain ⟨b', hw⟩ := memWrite_room hp ((bs.byteBuffer <<< 1) ||| BitVec.ofNat 8 (v.getLsbD 0).toNat)
    exact writeCall_stores h hw (pushBit_eighth h7 hw)

/-- Settles O18: the three cases of the flush, and the direction. -/
theorem flushPadsWithZeros : Obligations.FlushPadsWithZeros := by
  intro s bs b _
  rw [exec_flushPartial]
  refine ⟨fun h h0 => ?_, fun h h0 hp => ?_, fun h h0 hp hi => writeCall_fails h hi (flushBits_full h0 hp),
    fun h => writeCall_onReader h _⟩
  · rw [writeCall_ok h (flushBits_empty b h0), putBuf_self h.buffer, State.streamOk, ← h.stream]
  · obtain ⟨b', hw, e⟩ := flushBits_room h0 hp
    exact writeCall_stores h hw e

/-- Settles O16: the three cases of `read_bit`. -/
theorem readBitTakesTheNextBit : Obligations.ReadBitTakesTheNextBit := by
  intro s bs b h
  rw [exec_readBit]
  refine ⟨fun h0 => readCall_ok _ h (pullBit_pending b h0), fun h0 hp => readCall_ok _ h (pullBit_pulls h0 hp),
    fun h0 hp hi => ⟨_, bs.kill s.draws, readCall_raised _ h hi (pullBit_exhausted h0 hp), rfl, rfl, rfl, rfl, rfl⟩⟩

/-! ### Fields -/

/-- A field in the words of R148: bit `n - 1` first, bit 0 last. -/
theorem fieldBits_eq_map (v : Word) (n : Nat) :
    fieldBits v.toNat n = (List.range n).map fun k => v.getLsbD (n - 1 - k) := by
  induction n with
  | zero => rfl
  | succ n ih =>
    rw [fieldBits, ih, List.range_succ_eq_map, List.map_cons, List.map_map]
    congr 1
    refine List.map_congr_left fun k _ => ?_
    simp only [Function.comp, Nat.succ_eq_add_one]
    congr 1
    omega

theorem appended_writeUint32 {n : Nat} (hn : n ≤ 32) (v : Word) :
    appended (.writeUint32 v n) = some (fieldBits v.toNat n) := if_pos hn

/-- Settles O13: with room the field's bits are appended. -/
theorem writeFieldAppendsMsbFirst : Obligations.WriteFieldAppendsMsbFirst := by
  refine fun s bs b v n h hi => ⟨fun hn hroom => ?_, fun hn => exec_writeUint32_wide hn v s⟩
  obtain ⟨bs', b', e, hw, hb, hd, hk, hi', hpos, hcount, hcap, hlen, _, ho⟩ :=
    pushBits_room (xs := fieldBits v.toNat n) hi h.alive h.direction (by rwa [fieldBits_length])
  rw [fieldBits_length] at hpos hcount ho
  obtain ⟨hsizes, hsame⟩ := putBuf_frame h.buffer hcap hlen ho
  exact ⟨_, bs', b', (exec_writes (appended_writeUint32 hn v) s).trans (writeCall_ok h e), rfl, State.buf?_putBuf_same h.buffer,
    by rw [hw, fieldBits_eq_map], hb, hd, hk, hi', hpos, hcount, hsizes, hsame⟩

/-- Settles O15: all bits are appended, or the room runs out at the byte that has none. -/
theorem writesFailExactlyWithoutRoom : Obligations.WritesFailExactlyWithoutRoom := by
  intro s bs b i xs h hi hp hx
  rw [exec_writes hx]
  by_cases hroom : bs.position + (bs.bitCount + xs.length) / 8 ≤ b.capacity
  · obtain ⟨bs', b', e, _⟩ := pushBits_room hi h.alive h.direction hroom
    exact ⟨_, writeCall_ok h e, .inl rfl, ⟨nofun, fun hlt => absurd hroom (Nat.not_le.mpr hlt)⟩, nofun⟩
  · have hlt := Nat.lt_of_not_le hroom
    obtain ⟨bs', b', e, hb, hd, hpos, hbits, hcap, hlen, _, ho⟩ := pushBits_noRoom hi h.alive h.direction hlt
    obtain ⟨hsizes, hsame⟩ := putBuf_frame h.buffer hcap hlen ho
    exact ⟨_, writeCall_raised h hp e, .inr rfl, ⟨fun _ => hlt, fun _ => rfl⟩, fun _ => ⟨bs'.kill s.draws, b', rfl, hb,
      hd.trans h.direction.symm, rfl, hpos, State.buf?_putBuf_same h.buffer, hbits, hsizes, hsame⟩⟩

/-- A field read where enough bits are left: its value, the bits after it, and a stream as live as before (R151). -/
theorem exec_readUint32_enough {s : State} {bs : BitStream} {b : Buffer} {n : Nat} (hn : n ≤ 32) (h : s.Live .R bs b)
    (hi : bs.Inv b) (hl : n ≤ (unreadBits bs b).length) :
    ∃ bs' w, exec (.readUint32 n) s = .next (s.streamOk bs' (.word w)) ∧ w.toNat = bitsValue ((unreadBits bs b).take n) ∧
      unreadBits bs' b = (unreadBits bs b).drop n ∧ (s.streamOk bs' (.word w)).Live .R bs' b ∧ bs'.buf = bs.buf ∧ bs'.Inv b := by
  obtain ⟨bs', e, hu, hb, hd, hk, hi'⟩ := pullBits_enough hi h.alive hl
  have hd' : bs'.dir = .R := hd.trans h.direction
  have ef : pullField n bs b = .ok bs' (bitsValue ((unreadBits bs b).take n)) := by simp only [pullField, e]
  refine ⟨bs', _, by rw [exec_readUint32 hn, readCall_ok _ h ef], ?_, hu, ⟨rfl, hk, hd', ?_⟩, hb, hi' h.direction⟩
  · have hlt := bitsValue_lt ((unreadBits bs b).take n)
    rw [List.length_take_of_le hl] at hlt
    exact Nat.mod_eq_of_lt (Nat.lt_of_lt_of_le hlt (Nat.pow_le_pow_right (by decide) hn))
  · rw [hb]; exact h.buffer

/-- Settles O17: enough bits, too few, too wide. -/
theorem readFieldTakesMsbFirst : Obligations.ReadFieldTakesMsbFirst := by
  refine fun s bs b n h hi => ⟨fun hn hl => ?_, fun hn hl hp => ?_, fun hn => exec_readUint32_wide hn s⟩
  · obtain ⟨bs', w, e, hw, hu, ⟨_, hk, hd, _⟩, hb, hi'⟩ := exec_readUint32_enough hn h hi hl
    have hlt := bitsValue_lt ((unreadBits bs b).take n)
    rw [List.length_take_of_le hl] at hlt
    exact ⟨bs', w, e, hw, hw ▸ hlt, hu, hb, hd, hk, hi'⟩
  · obtain ⟨bs', e, hb, hd, _, hpos⟩ := pullBits_short hi.1 hl
    have ef : pullField n bs b = .raised bs' := by simp only [pullField, e]
    exact ⟨_, bs'.kill s.draws, by rw [exec_readUint32 hn, readCall_raised _ h hp ef], rfl, hb, hpos, hd, rfl⟩

end Sys2Proof.Machine
end

section
/-! Operations one after another: what a run of writes and a flush leave in the buffer, and fields read back from it (R153,
R156). -/

namespace Sys2Proof.Machine

/-! ### Runs of instructions -/

theorem execAll_cons {s t : State} {i : Instr} (e : exec i s = .next t) (rest : List Instr) :
    execAll (i :: rest) s = execAll rest t := by rw [execAll, e]

theorem execValues_cons {s t : State} {i : Instr} (e : exec i s = .next t) (rest : List Instr) :
    execValues (i :: rest) s = (execValues rest t).map fun vs => t.result :: vs := by rw [execValues, e]

/-- Writes one after another, with room for every byte they fill, append their bits (R142, R148, R170). -/
theorem execAll_writes {l : List (Instr × List Bool)} (hl : ∀ p ∈ l, appended p.1 = some p.2) (rest : List Instr) {s : State}
    {bs : BitStream} {b : Buffer} (h : s.Live .W bs b) (hi : bs.Inv b)
    (hroom : (writtenBits bs b ++ l.flatMap Prod.snd).length / 8 ≤ b.capacity) :
    ∃ t bs' b', execAll (l.map Prod.fst ++ rest) s = execAll rest t ∧ t.Live .W bs' b' ∧ bs'.Inv b' ∧ bs'.buf = bs.buf ∧
      b'.capacity = b.capacity ∧ writtenBits bs' b' = writtenBits bs b ++ l.flatMap Prod.snd := by
  induction l generalizing s bs b with
  | nil => exact ⟨s, bs, b, rfl, h, hi, rfl, rfl, by simp⟩
  | cons p l ih =>
    obtain ⟨hp, hl'⟩ := List.forall_mem_cons.mp hl
    rw [List.flatMap_cons, ← List.append_assoc] at hroom ⊢
    obtain ⟨b1, m1, e, hw, hb, hd, hk, hi1, _, _, hcap, _⟩ := pushBits_room (xs := p.2) hi h.alive h.direction <| by
      simp only [List.length_append, writtenBits_length] at hroom; omega
    have hlive : ((s.putBuf bs.buf m1).streamOk b1 .none).Live .W b1 m1 :=
      ⟨rfl, hk, hd, by rw [hb]; exact State.buf?_putBuf_same h.buffer⟩
    rw [← hw, ← hcap] at hroom
    obtain ⟨t, b2, m2, e2, h2, hi2, hb2, hcap2, hw2⟩ := ih hl' hlive hi1 hroom
    refine ⟨t, b2, m2, ?_, h2, hi2, hb2.trans hb, hcap2.trans hcap, hw ▸ hw2⟩
    rw [List.map_cons, List.cons_append, execAll_cons (by rw [exec_writes hp, writeCall_ok h e]), e2]

/-- The flush does not fail where the bits given so far fit, padded to whole bytes (R154). -/
theorem flushBits_enough {bs : BitStream} {b : Buffer} (hc : bs.bitCount ≤ 7)
    (hroom : byteCount (writtenBits bs b).length ≤ b.capacity) :
    ∃ bs' b', flushBits bs b = .ok bs' b' ∧ b'.capacity = b.capacity ∧ bs'.bitCount = 0 := by
  rcases flushBits_cases bs b hc with ⟨h0, e⟩ | ⟨hpos, hfull, _⟩ | ⟨b', _, _, e, _, hcap, _⟩
  · exact ⟨_, _, e, rfl, h0⟩
  · rw [writtenBits_length, byteCount] at hroom
    omega
  · exact ⟨_, _, e, hcap, rfl⟩

/-- Writes on a fresh stream and the flush: the bytes below `position` hold the bits, filled with zeros (R156). -/
theorem execAll_produces {s : State} {id : BufId} {b : Buffer} {l : List (Instr × List Bool)} (hb : s.buf? id = some b)
    (hl : ∀ p ∈ l, appended p.1 = some p.2) (hroom : byteCount (l.flatMap Prod.snd).length ≤ b.capacity) :
    ∃ t bs' b', execAll (.bsCreate id .W :: l.map Prod.fst ++ [.flushPartial]) s = .next t ∧ t.status = .ok ∧
      t.bs = some bs' ∧ t.buf? id = some b' ∧ b'.capacity = b.capacity ∧
      bs'.position = byteCount (l.flatMap Prod.snd).length ∧ bs'.bitCount = 0 ∧
      bitsFrom b' bs'.position 0 =
        l.flatMap Prod.snd ++ List.replicate (8 * bs'.position - (l.flatMap Prod.snd).length) false := by
  have hfresh : (s.streamOk (BitStream.fresh id .W) .none).Live .W (BitStream.fresh id .W) b := ⟨rfl, rfl, rfl, hb⟩
  obtain ⟨t, bs1, b1, e, h1, hi1, hb1, hcap1, hw1⟩ := execAll_writes hl [.flushPartial] hfresh (fresh_inv id .W b) <| by
    rw [writtenBits_fresh, List.nil_append]
    simp only [byteCount] at hroom
    omega
  rw [writtenBits_fresh, List.nil_append] at hw1
  have hc := hi1.bitCount_le h1.alive
  obtain ⟨bs2, b2, e2, hcap2, h0⟩ := flushBits_enough (bs := bs1) (b := b1) hc (by rwa [hw1, hcap1])
  obtain ⟨hpos2, hbits2⟩ := flushBits_ok hc e2
  rw [hw1] at hpos2 hbits2
  refine ⟨(t.putBuf bs1.buf b2).streamOk bs2 .none, bs2, b2, ?_, rfl, rfl, ?_, hcap2.trans hcap1, hpos2, h0, hbits2⟩
  · rw [List.cons_append, execAll_cons (exec_bsCreate hb .W), e, execAll_cons (by rw [exec_flushPartial, writeCall_ok h1 e2])]
    rfl
  · rw [show id = bs1.buf from hb1.symm]
    exact State.buf?_putBuf_same h1.buffer

/-- Settles O20: the produced bytes. -/
theorem producedByteCount : Obligations.ProducedByteCount := by
  intro s id b l hb hl hroom
  obtain ⟨t, bs', b', e, hst, hbs, hb', _, hpos, h0, hbits⟩ := execAll_produces hb hl hroom
  exact ⟨t, bs', b', e, hst, hbs, hb', hpos, h0, hbits⟩

/-! ### The round trip (R153) -/

/-- The stream bits of a list of fields. -/
def fieldsBits (fs : List (Word × Nat)) : List Bool := fs.flatMap fun f => fieldBits f.1.toNat f.2

theorem fieldsBits_cons (f : Word × Nat) (fs : List (Word × Nat)) :
    fieldsBits (f :: fs) = fieldBits f.1.toNat f.2 ++ fieldsBits fs := rfl

theorem fieldsBits_length (fs : List (Word × Nat)) : (fieldsBits fs).length = (fs.map Prod.snd).sum := by
  simp [fieldsBits, List.length_flatMap]

/-- The writes of a list of fields, each with the bits it appends. -/
def fieldWrites (fs : List (Word × Nat)) : List (Instr × List Bool) :=
  fs.map fun f => (.writeUint32 f.1 f.2, fieldBits f.1.toNat f.2)

theorem fieldWrites_instrs (fs : List (Word × Nat)) :
    (fieldWrites fs).map Prod.fst = fs.map fun f => .writeUint32 f.1 f.2 := by
  rw [fieldWrites, List.map_map]; rfl

theorem fieldWrites_bits (fs : List (Word × Nat)) : (fieldWrites fs).flatMap Prod.snd = fieldsBits fs := by
  rw [fieldWrites, List.flatMap_map]; rfl

theorem fieldWrites_appended {fs : List (Word × Nat)} (hf : ∀ f ∈ fs, f.2 ≤ 32) :
    ∀ p ∈ fieldWrites fs, appended p.1 = some p.2 :=
  List.forall_mem_map.mpr fun f hmem => appended_writeUint32 (hf f hmem) f.1

/-- A field whose bits come next is read as its value (R151). -/
theorem exec_readUint32_field {s : State} {bs : BitStream} {b : Buffer} {v : Word} {n : Nat} {rest : List Bool} (hn : n ≤ 32)
    (hv : v.toNat < 2 ^ n) (h : s.Live .R bs b) (hi : bs.Inv b) (hu : unreadBits bs b = fieldBits v.toNat n ++ rest) :
    ∃ bs', exec (.readUint32 n) s = .next (s.streamOk bs' (.word v)) ∧ unreadBits bs' b = rest ∧
      (s.streamOk bs' (.word v)).Live .R bs' b ∧ bs'.Inv b := by
  obtain ⟨bs', w, e, hw, hu', h', _, hi'⟩ := exec_readUint32_enough hn h hi (by rw [hu]; simp)
  rw [hu, List.take_left' (fieldBits_length _ _), bitsValue_fieldBits, Nat.mod_eq_of_lt hv] at hw
  obtain rfl := BitVec.eq_of_toNat_eq hw
  rw [hu, List.drop_left' (fieldBits_length _ _)] at hu'
  exact ⟨bs', e, hu', h', hi'⟩

/-- Fields that come next are read one after another as their values. -/
theorem execValues_reads {fs : List (Word × Nat)} (hf : ∀ f ∈ fs, f.2 ≤ 32 ∧ f.1.toNat < 2 ^ f.2) {s : State}
    {bs : BitStream} {b : Buffer} {rest : List Bool} (h : s.Live .R bs b) (hi : bs.Inv b)
    (hu : unreadBits bs b = fieldsBits fs ++ rest) :
    execValues (fs.map fun f => .readUint32 f.2) s = some (fs.map fun f => .word f.1) := by
  induction fs generalizing s bs with
  | nil => rfl
  | cons f fs ih =>
    obtain ⟨⟨hn, hv⟩, hf'⟩ := List.forall_mem_cons.mp hf
    rw [fieldsBits_cons, List.append_assoc] at hu
    obtain ⟨bs', e, hu', h', hi'⟩ := exec_readUint32_field hn hv h hi hu
    rw [List.map_cons, execValues_cons e, ih hf' h' hi' hu']
    rfl

/-- Settles O19: the flushed bytes begin with the fields' bits, and the reads take them off one by one. -/
theorem fieldsRoundTrip : Obligations.FieldsRoundTrip := by
  intro s id b fs hb hf hroom
  obtain ⟨t, bs', b', e, hst, _, hb', hcap, hpos, _, hbits⟩ :=
    execAll_produces hb (fieldWrites_appended fun f hmem => (hf f hmem).1) <| by
      rw [fieldWrites_bits, fieldsBits_length, byteCount]; omega
  rw [fieldWrites_bits] at hpos hbits
  rw [fieldWrites_instrs] at e
  rw [fieldsBits_length, byteCount] at hpos
  refine ⟨t, e, hst, ?_⟩
  have hle : bs'.position ≤ b'.capacity := by omega
  have hunread : unreadBits (BitStream.fresh id .R) b' = fieldsBits fs ++
      (List.replicate (8 * bs'.position - (fieldsBits fs).length) false ++
        bitsFrom b' (b'.capacity - bs'.position) bs'.position) := by
    rw [unreadBits_fresh, Buffer.bits, ← Nat.add_sub_of_le hle, bitsFrom_append, hbits, List.append_assoc,
      Nat.zero_add, Nat.add_sub_cancel_left]
  have hlive : (t.streamOk (BitStream.fresh id .R) .none).Live .R (BitStream.fresh id .R) b' := ⟨rfl, rfl, rfl, hb'⟩
  rw [execValues_cons (exec_bsCreate hb' .R), execValues_reads hf hlive (fresh_inv id .R b') hunread]
  rfl

end Sys2Proof.Machine
end

section
/-! The VLQ coder as the host calls it between Codec calls (41_bitstream_vlq.md): the shortest form, one VLQ written, one VLQ
read, and the round trip at any bit position (R170 to R178). -/

namespace Sys2Proof.Machine

/-! ### The shortest form (R172) -/

/-- One group more is seven bits more. -/
theorem size_eq_size_div_add_seven {v : Nat} (h : 128 ≤ v) : Nat.size v = Nat.size (v / 128) + 7 := by
  have h7 : 7 < Nat.size v := Nat.lt_size.mpr h
  refine Nat.le_antisymm (Nat.size_le.mpr ?_) ?_
  · have hq := Nat.lt_size_self (v / 128)
    rw [Nat.pow_add]
    omega
  · have hq : Nat.size (v / 128) ≤ Nat.size v - 7 := by
      have hv := Nat.lt_size_self v
      rw [← Nat.sub_add_cancel h7.le, Nat.pow_add] at hv
      exact Nat.size_le.mpr (Nat.div_lt_of_lt_mul (by omega))
    omega

theorem IsVlqOf.length_eq {v : Nat} {gs : List Byte} (h : IsVlqOf v gs) : gs.length = max 1 ((Nat.size v + 6) / 7) := by
  induction v, gs using IsVlqOf.induct with
  | case1 v => exact h.elim
  | case2 v g =>
    have hs : Nat.size v ≤ 7 := Nat.size_le.mpr h.1
    rw [List.length_singleton]
    omega
  | case3 v g k gs ih =>
    obtain ⟨hv, _, hrest⟩ := h
    have hpos : 0 < Nat.size (v / 128) := Nat.size_pos.mpr (by omega)
    rw [List.length_cons, ih hrest, size_eq_size_div_add_seven hv]
    omega

/-- The final group says that none follows, and holds the value's highest bits. -/
theorem IsVlqOf.getLast {v : Nat} {gs : List Byte} {g : Byte} (h : IsVlqOf v gs) (hg : gs.getLast? = some g) :
    g.toNat < 128 ∧ (g.toNat = 0 → v = 0) := by
  induction v, gs using IsVlqOf.induct with
  | case1 v => exact h.elim
  | case2 v k =>
    obtain ⟨hv, rfl⟩ := h
    cases hg
    exact ⟨hv, id⟩
  | case3 v k l gs ih =>
    obtain ⟨hv, _, hrest⟩ := h
    rw [List.getLast?_cons_cons] at hg
    obtain ⟨hlt, hzero⟩ := ih hrest hg
    exact ⟨hlt, fun h0 => by have := hzero h0; omega⟩

/-- Settles O10: what is so of any VLQ of the value is so of the one the writer makes. -/
theorem vlqIsTheShortestForm : Obligations.VlqIsTheShortestForm := by
  intro v
  obtain ⟨hvlq, ⟨_, hfive, _⟩, _⟩ := vlqGroups_word v
  refine ⟨hvlq.length_eq, hfive, fun g hg => ?_⟩
  obtain ⟨hlt, hzero⟩ := hvlq.getLast hg
  refine ⟨by rw [contFlag_toNat]; exact decide_eq_false (by omega), ?_⟩
  rintro rfl
  exact BitVec.eq_of_toNat_eq (hzero rfl)

/-! ### One VLQ written (R170) -/

/-- Settles O14: the value has one VLQ, and its groups are appended as 8-bit fields. -/
theorem writeVlqAppendsGroups : Obligations.WriteVlqAppendsGroups := by
  intro s bs b v gs h hi hgs hroom
  have hx : appended (.write7bitUint32 v) = some (groupBits gs) := by
    rw [isVlqOf_unique hgs (vlqGroups_word v).1]; rfl
  have h7 := hi.bitCount_le h.alive
  obtain ⟨bs', b', e, hw, hb, hd, hk, hi', hpos, hcount, hcap, hlen, _, ho⟩ :=
    pushBits_room (xs := groupBits gs) hi h.alive h.direction (by rwa [Laws.EncodedWidth.groupBits_length])
  rw [Laws.EncodedWidth.groupBits_length] at hpos hcount ho
  obtain ⟨hsizes, hsame⟩ := putBuf_frame h.buffer hcap hlen ho
  exact ⟨_, bs', b', (exec_writes hx s).trans (writeCall_ok h e), rfl, State.buf?_putBuf_same h.buffer, hw, hb, hd, hk, hi',
    by omega, by omega, hsizes, hsame⟩

/-! ### One VLQ read (R174 to R177) -/

section
variable {s : State} {bs : BitStream} {b : Buffer}

/-- A VLQ that comes next is read as the sum of its payloads, and nothing after it is consumed (R174, R176). -/
theorem exec_read7bitUint32_groups {gs : List Byte} {rest : List Bool} (h : s.Live .R bs b) (hi : bs.Inv b)
    (hg : IsReadVlq gs) (hu : unreadBits bs b = groupBits gs ++ rest) :
    ∃ bs' w, exec .read7bitUint32 s = .next (s.streamOk bs' (.word w)) ∧ w.toNat = groupSum gs % 2 ^ 32 ∧
      unreadBits bs' b = rest ∧ bs'.buf = bs.buf ∧ bs'.dir = .R ∧ bs'.dead = false ∧ bs'.Inv b := by
  rcases pullVlq_cases bs b hi h.alive h.direction with
    ⟨gs', bs', w, e, hg', hw, hu', hb, hd, hk, hi', _⟩ | ⟨_, _, _, _, _, _, hno⟩
  · obtain ⟨rfl, rfl⟩ := isReadRest_unique hg hg' (hu.symm.trans hu')
    exact ⟨bs', w, readCall_ok .word h e, hw, rfl, hb, hd, hk, hi'⟩
  · exact absurd ⟨gs, rest, hg, hu⟩ hno

/-- Fields that come next are read one after another, and the run goes on behind them. -/
theorem execAll_reads {fs : List (Word × Nat)} (hf : ∀ f ∈ fs, f.2 ≤ 32 ∧ f.1.toNat < 2 ^ f.2) (more : List Instr)
    {rest : List Bool} (h : s.Live .R bs b) (hi : bs.Inv b) (hu : unreadBits bs b = fieldsBits fs ++ rest) :
    ∃ t bs', execAll ((fs.map fun f => .readUint32 f.2) ++ more) s = execAll more t ∧ t.Live .R bs' b ∧ bs'.Inv b ∧
      unreadBits bs' b = rest := by
  induction fs generalizing s bs with
  | nil => exact ⟨s, bs, rfl, h, hi, hu⟩
  | cons f fs ih =>
    obtain ⟨⟨hn, hv⟩, hf'⟩ := List.forall_mem_cons.mp hf
    rw [fieldsBits_cons, List.append_assoc] at hu
    obtain ⟨bs1, e1, hu1, h1, hi1⟩ := exec_readUint32_field hn hv h hi hu
    obtain ⟨t, bs', e, hrest⟩ := ih hf' h1 hi1 hu1
    exact ⟨t, bs', by rw [List.map_cons, List.cons_append, execAll_cons e1, e], hrest⟩

end

/-- Settles O24: the reader takes the one VLQ that the unread bits start with. -/
theorem readVlqAssemblesGroups : Obligations.ReadVlqAssemblesGroups :=
  fun _ _ _ _ _ h hi hg hu => exec_read7bitUint32_groups h hi hg hu

/-- Settles O25: the reader takes one VLQ, or raises where the unread bits start with none. -/
theorem readVlqFailsExactlyAtTheEnd : Obligations.ReadVlqFailsExactlyAtTheEnd := by
  intro s bs b h hi hp
  rw [exec_read7bitUint32]
  rcases pullVlq_cases bs b hi h.alive h.direction with
    ⟨gs, bs', w, e, hg, _, hu, _⟩ | ⟨bs', e, hb, hd, _, _, hno⟩
  · exact ⟨_, readCall_ok .word h e, .inl rfl, ⟨fun _ => ⟨gs, _, hg, hu⟩, fun _ => rfl⟩, nofun⟩
  · exact ⟨_, readCall_raised .word h hp e, .inr rfl, ⟨nofun, fun hex => absurd hex hno⟩, fun _ =>
      ⟨bs'.kill s.draws, rfl, hb, hd.trans h.direction.symm, rfl⟩⟩

/-! ### The round trip (R178) -/

/-- The unread bits of a fresh stream begin with those of the first `n` bytes. -/
theorem unreadBits_fresh_split (id : BufId) {b : Buffer} {n : Nat} (h : n ≤ b.capacity) :
    unreadBits (BitStream.fresh id .R) b = bitsFrom b n 0 ++ bitsFrom b (b.capacity - n) n := by
  rw [unreadBits_fresh, Buffer.bits, ← Nat.add_sub_of_le h, bitsFrom_append, Nat.zero_add, Nat.add_sub_cancel_left]

theorem unreadBits_length (bs : BitStream) (b : Buffer) :
    (unreadBits bs b).length = bs.bitCount + 8 * (b.capacity - bs.position) := by
  rw [unreadBits, List.length_append, fieldBits_length, bitsFrom_length]

/-- The reader's position is the number of bits consumed in whole bytes: it has pulled the byte it is in (R35, R145). -/
theorem position_eq_byteCount {bs : BitStream} {b : Buffer} {n : Nat} (hi : bs.Inv b) (hk : bs.dead = false)
    (hn : n + (unreadBits bs b).length = 8 * b.capacity) : bs.position = byteCount n := by
  have hc := hi.bitCount_le hk
  have hp := hi.1
  rw [unreadBits_length] at hn
  rw [byteCount]
  omega

/-- Fields and a VLQ at the start of the unread bits are read; the reader has then consumed their bits. -/
theorem execAll_reads_vlq {t : State} {id : BufId} {b : Buffer} {v : Word} {fs : List (Word × Nat)} {rest : List Bool}
    (hb : t.buf? id = some b) (hf : ∀ f ∈ fs, f.2 ≤ 32 ∧ f.1.toNat < 2 ^ f.2)
    (hu : unreadBits (BitStream.fresh id .R) b = fieldsBits fs ++ vlqBits v ++ rest) :
    ∃ u br, execAll (.bsCreate id .R :: (fs.map fun f => .readUint32 f.2) ++ [.read7bitUint32]) t = .next u ∧
      u.status = .ok ∧ u.result = .word v ∧ u.bs = some br ∧ br.position = byteCount (fieldsBits fs ++ vlqBits v).length := by
  have hlive : (t.streamOk (BitStream.fresh id .R) .none).Live .R (BitStream.fresh id .R) b := ⟨rfl, rfl, rfl, hb⟩
  obtain ⟨_, hread, hsum⟩ := vlqGroups_word v
  obtain ⟨u, b1, e1, h1, hi1, hu1⟩ :=
    execAll_reads hf [.read7bitUint32] hlive (fresh_inv id .R b) (hu.trans (List.append_assoc ..))
  obtain ⟨br, w, e2, hw, hu2, _, _, hk2, hi2⟩ := exec_read7bitUint32_groups h1 hi1 hread hu1
  obtain rfl : w = v := BitVec.eq_of_toNat_eq (by rw [hw, hsum, Nat.mod_eq_of_lt v.isLt])
  refine ⟨u.streamOk br (.word w), br, ?_, rfl, rfl, rfl, position_eq_byteCount hi2 hk2 ?_⟩
  · rw [List.cons_append, execAll_cons (exec_bsCreate hb .R), e1, execAll_cons e2]; rfl
  · rw [hu2, ← List.length_append, ← hu, unreadBits_fresh, Buffer.bits, bitsFrom_length]

/-- The writes of a list of fields and then a VLQ, each with the bits it appends. -/
def vlqWrites (fs : List (Word × Nat)) (v : Word) : List (Instr × List Bool) :=
  fieldWrites fs ++ [(.write7bitUint32 v, vlqBits v)]

theorem vlqWrites_instrs (fs : List (Word × Nat)) (v : Word) :
    (vlqWrites fs v).map Prod.fst = (fs.map fun f => .writeUint32 f.1 f.2) ++ [.write7bitUint32 v] := by
  rw [vlqWrites, List.map_append, fieldWrites_instrs]; rfl

theorem vlqWrites_bits (fs : List (Word × Nat)) (v : Word) :
    (vlqWrites fs v).flatMap Prod.snd = fieldsBits fs ++ vlqBits v := by
  rw [vlqWrites, List.flatMap_append, fieldWrites_bits, List.flatMap_singleton]

theorem vlqWrites_appended {fs : List (Word × Nat)} (hf : ∀ f ∈ fs, f.2 ≤ 32) (v : Word) :
    ∀ p ∈ vlqWrites fs v, appended p.1 = some p.2 :=
  List.forall_mem_append.mpr ⟨fieldWrites_appended hf, List.forall_mem_singleton.mpr rfl⟩

/-- Settles O26: the flushed bytes begin with the bits of the fields and the VLQ, and both sides count the bytes those bits
fill. -/
theorem vlqRoundTrip : Obligations.VlqRoundTrip := by
  intro s id b v fs hb hf hroom
  have hlen : (fieldsBits fs ++ vlqBits v).length = (fs.map Prod.snd).sum + 8 * (vlqGroups 5 v.toNat).length := by
    rw [List.length_append, fieldsBits_length, vlqBits, Laws.EncodedWidth.groupBits_length]
  obtain ⟨t, bw, b', e, hst, hbw, hb', hcap, hpos, _, hwritten⟩ :=
    execAll_produces hb (vlqWrites_appended (fun f hmem => (hf f hmem).1) v) (by rwa [vlqWrites_bits, hlen])
  rw [vlqWrites_instrs, List.cons_append, List.append_assoc] at e
  rw [vlqWrites_bits] at hpos hwritten
  have hle : bw.position ≤ b'.capacity := by rw [hpos, hlen, hcap]; exact hroom
  obtain ⟨u, br, e', hst', hres, hbr, hpos'⟩ := execAll_reads_vlq (v := v) hb' hf <| by
    rw [unreadBits_fresh_split id hle, hwritten, List.append_assoc (_ ++ _)]
  exact ⟨t, u, bw, br, e, hst, e', hst', hres, hbw, hbr, hpos'.trans hpos.symm⟩

end Sys2Proof.Machine
end

section
/-! The MatchFinder as the host calls it (42_matchfinder.md): what the search answers (R191 to R195), and the call around it. -/

namespace Sys2Proof.Machine

/-! ### The answer of the search -/

section
variable {b : Buffer} {index : Nat} {c : Cfg} {free : Nat} {m : Match} (hm : findMatch b index c free = m)
include hm

/-- R191. -/
theorem findMatch_length_of_tailGuard (hguard : b.length ≤ index + c.minimumLength) : m.length = 0 := by
  subst hm
  rw [findMatch, if_pos hguard]

/-- R194, R195: the kept candidate gives the answer. -/
theorem findMatch_of_isKept {cand r : Nat} (hin : index + c.minimumLength < b.length) (hk : IsKept b index c cand r) :
    m.length = min r (2 ^ c.lengthBits - 1) ∧ (0 < m.length → m.offset = index - cand) := by
  subst hm
  rcases findMatch_cases b index c free with ⟨e, hguard | hzero⟩ | ⟨cand', r', hk', _, _, e⟩ <;> rw [e]
  · exact absurd hin (Nat.not_lt.mpr hguard)
  · exact ⟨(hzero cand r hk).symm, fun hpos => absurd hpos (Nat.lt_irrefl 0)⟩
  · obtain ⟨rfl, rfl⟩ := isKept_unique hk hk'
    exact ⟨rfl, fun _ => rfl⟩

/-- R195: a length above 0 comes from a kept candidate of the window, and its run is not empty. -/
theorem findMatch_length_of_no_run
    (hnone : ∀ cand, index - (2 ^ c.offsetBits - 1) ≤ cand → cand < index → IsRun b index cand 0) : m.length = 0 := by
  subst hm
  rcases findMatch_cases b index c free with ⟨e, _⟩ | ⟨cand, r, ⟨hwin, hlt, hrun, _⟩, _, hpos, e⟩ <;> rw [e]
  obtain rfl := isRun_unique hrun (hnone cand hwin hlt)
  exact Nat.zero_min _

/-- R195: the window bounds the offset, the cap and the end of the buffer bound the length, and the bytes of the match lie within
the candidate's run. -/
theorem findMatch_isReference (hpos : 0 < m.length) :
    1 ≤ m.offset ∧ m.offset ≤ min index (2 ^ c.offsetBits - 1) ∧ m.length ≤ 2 ^ c.lengthBits - 1 ∧
    index + m.length ≤ b.length ∧ ∀ j, j < m.length → b.byteAt (index - m.offset + j) = b.byteAt (index + j) := by
  subst hm
  rcases findMatch_cases b index c free with ⟨e, _⟩ | ⟨cand, r, ⟨hwin, hlt, ⟨hend, hsame, _⟩, _⟩, _, _, e⟩
  · rw [e] at hpos
    exact absurd hpos (Nat.lt_irrefl 0)
  · rw [e]
    dsimp only
    have hrun : min r (2 ^ c.lengthBits - 1) ≤ r := Nat.min_le_left _ _
    refine ⟨by omega, by omega, Nat.min_le_right _ _, by omega, fun j hj => ?_⟩
    rw [Nat.sub_sub_self hlt.le]
    exact hsame j (by omega)

end

/-! ### The call -/

/-- R196: on a buffer, under a legal Config, the call returns the Match of the search; only a Config that is not legal is
refused. -/
theorem exec_findBestMatch_cases {s : State} {id : BufId} {b : Buffer} (hb : s.buf? id = some b) (index : Nat) (c : Cfg) :
    (c.WellFormed = true ∧ exec (.findBestMatch id index c) s =
      .next { searchAt b index c s with status := .ok, result := .mtch (searchAt b index c s).mtch }) ∨
    (c.WellFormed = false ∧ exec (.findBestMatch id index c) s = .refused .invalidConfig) := by
  have e : exec (.findBestMatch id index c) s =
      settle (withConfig c (.ok (searchAt b index c s) (.mtch (searchAt b index c s).mtch))) := by
    simp only [exec, execFindBestMatch, withBuffer, hb]
  rw [e, withConfig, configLegal_eq_wellFormed]
  cases c.WellFormed with
  | true => exact .inl ⟨rfl, rfl⟩
  | false => exact .inr ⟨rfl, rfl⟩

/-- Settles O27: the call returns the answer of the search, whose three cases are the guard, a kept candidate, and no run. -/
theorem findBestMatchKeepsTheLastLongestRun : Obligations.FindBestMatchKeepsTheLastLongestRun := by
  intro s id b index c hc hb
  rcases exec_findBestMatch_cases hb index c with ⟨_, e⟩ | ⟨hc', _⟩
  · exact ⟨_, e, findMatch_length_of_tailGuard rfl, fun hin =>
      ⟨fun _ _ hk => findMatch_of_isKept rfl hin hk, findMatch_length_of_no_run rfl⟩⟩
  · rw [hc] at hc'
    cases hc'

/-- Settles O28: a call that has a next state leaves the answer of the search in the Match registers. -/
theorem foundMatchIsAReference : Obligations.FoundMatchIsAReference := by
  intro s t id b index c hb e hpos
  rcases exec_findBestMatch_cases hb index c with ⟨_, e'⟩ | ⟨_, e'⟩ <;> rw [e'] at e <;> cases e
  exact findMatch_isReference rfl hpos

end Sys2Proof.Machine
end

section
/-! The Codec's configuration, its sizing, and what a call of `encode` leaves behind: the call ends at one of its tests, or the
coded bits are appended to a fresh buffer and flushed, or they find no room there (43_codec_encode.md). -/

namespace Sys2Proof.Machine

/-! ### Configuration and sizing -/

/-- Settles O29: the two invariants of R210 are the test that the call makes. -/
theorem codecInitMakesTheConfig : Obligations.CodecInitMakesTheConfig := by
  intro s ob lb ml
  have e : exec (.codecInit ob lb ml) s =
      settle (withConfig ⟨ob, lb, ml⟩ (.ok { s with cfg := some ⟨ob, lb, ml⟩ } (.cfg ⟨ob, lb, ml⟩))) := rfl
  rw [e, withConfig]
  refine ⟨fun hw hm => ?_, fun hbad => ?_⟩
  · rw [if_pos (by simp [configLegal, hw, hm])]; rfl
  · rw [if_neg (by simp [configLegal]; omega)]; rfl

/-- Settles O30: rounding up gives the least multiple of 8 that is large enough. -/
theorem upperBoundIsTheLeastByteCount : Obligations.UpperBoundIsTheLeastByteCount := by
  intro s n
  refine ⟨upperBoundBytes n, rfl, ?_, fun p hp => ?_⟩ <;> rw [upperBoundBytes] <;> omega

/-! ### Bits appended to a fresh stream and flushed -/

section
variable {id : BufId} {o : Buffer} {xs : List Bool}

/-- Where all the bits and the flush find room, the stream ends within the buffer (R33). -/
theorem pushed_flushed_position {bs1 bs2 : BitStream} {o1 o2 : Buffer}
    (epush : pushBits (BitStream.fresh id .W) o xs = .ok bs1 o1) (eflush : flushBits bs1 o1 = .ok bs2 o2) :
    bs2.position ≤ o2.capacity ∧ o2.capacity = o.capacity := by
  obtain ⟨_, _, ⟨e, _, hc, _⟩ | ⟨e, _⟩, _, _, _, _, hp, _, hcap, _⟩ :=
    pushBits_cases xs (BitStream.fresh id .W) o (Nat.zero_le 7) <;> rw [epush] at e <;> cases e
  have hp := hp (Nat.zero_le _)
  rcases flushBits_cases bs1 o1 hc with ⟨_, e⟩ | ⟨_, _, e⟩ | ⟨_, _, hlt, e, _, hcap', _⟩ <;> rw [eflush] at e <;> cases e
  · exact ⟨hcap ▸ hp, hcap⟩
  · exact ⟨hcap' ▸ hlt, hcap'.trans hcap⟩

/-- The bits or their flush find no room only where there are more of them than the buffer has (R143, R155). -/
theorem capacity_lt_of_push_or_flush_raised
    (h : (∃ bs1 o1, pushBits (BitStream.fresh id .W) o xs = .raised bs1 o1) ∨
      ∃ bs1 o1 bs2 o2, pushBits (BitStream.fresh id .W) o xs = .ok bs1 o1 ∧ flushBits bs1 o1 = .raised bs2 o2) :
    8 * o.capacity < xs.length := by
  obtain ⟨bs', o', hends, _, _, _, _, _, _, hcap, _⟩ :=
    pushBits_cases xs (BitStream.fresh id .W) o (Nat.zero_le 7)
  simp only [BitStream.fresh_position, BitStream.fresh_bitCount] at hends
  rcases hends with ⟨e, _, hc, hn⟩ | ⟨_, hfull, hn⟩
  · rcases h with ⟨_, _, e'⟩ | ⟨_, _, _, _, e', eflush⟩ <;> rw [e] at e' <;> cases e'
    rcases flushBits_cases bs' o' hc with ⟨_, e'⟩ | ⟨h0, hfull, _⟩ | ⟨_, _, _, e', _⟩
    · rw [eflush] at e'; cases e'
    · omega
    · rw [eflush] at e'; cases e'
  · omega

end

/-! ### The ends of an encode call -/

/-- An error inside an encode call: OUT is emptied, the call is over (R221, R291). -/
theorem takeError_encode {s : State} {o : BufId} {b : Buffer} (k : Status)
    (hp : s.phase = .encHeader ∨ s.phase = .encBody ∨ s.phase = .encTail) (ho : s.outBuf = some o)
    (hb : s.buf? o = some b) :
    takeError k s =
      { s with
        status := k, result := .none, mem := s.mem.set o (b.afterFailedEncode s.draws), bs := none, phase := .idle
        inBuf := none, outBuf := none, vlq := ⟨0#32, 0, false⟩, draws := s.draws + 1 } := by
  rw [takeError_call (by rcases hp with h | h | h <;> simp [h]), outAfterError_encode hp ho hb]

/-- What `encode` leaves of a state, whatever way it ends (R10, R39, R84): the buffers `mem` and the answers `grants` are new,
and the registers of the call. -/
def EncodeLeaves (s t : State) (c : Cfg) (mem : List Buffer) (grants : List Bool) : Prop :=
  t = { s with
    mem := mem, bs := none, cfg := some c, inBuf := none, outBuf := none, mtch := t.mtch, index := t.index
    declared := t.declared, vlq := t.vlq, status := t.status, result := t.result, phase := .idle, grants := grants
    draws := t.draws }

section
variable {s t : State} {c : Cfg} {bufs : List Buffer} {answers : List Bool} (h : EncodeLeaves s t c bufs answers)
include h

theorem EncodeLeaves.mem : t.mem = bufs := congrArg State.mem h

theorem EncodeLeaves.grants : t.grants = answers := congrArg State.grants h

theorem EncodeLeaves.frame : EncodeLeaves s t c t.mem t.grants := by rwa [h.mem, h.grants]

end

section
variable {s : State} {c : Cfg} {input : BufId} {b : Buffer}

/-- An error taken before OUT exists leaves the buffers as they were (R222). -/
theorem takeError_unopened (s : State) (c : Cfg) (input : BufId) (k : Status) (grants : List Bool) (draws : Nat) :
    EncodeLeaves s
      (takeError k
        { s.beginCall .encHeader (some input) none with cfg := some c, grants := grants, draws := draws })
      c s.mem grants := by
  rw [takeError_call (by simp)]; rfl

/-- R215: an input that the header cannot say is refused. -/
theorem exec_encode_tooLong (hw : c.WellFormed = true) (hb : s.buf? input = some b) (hn : 4294967295 < b.length) :
    exec (.encode c input) s = .refused .inputTooLong := by
  have hl : configLegal c = true := hw
  have h0 : b.length ≠ 0 := by omega
  simp only [exec, execEncode, openEncode, withConfig, if_pos hl, withBuffer, hb, if_neg h0,
    if_pos (show Config.nMax < b.length from hn), Res.bind_refused, settleCall]

/-- The end of an encode call past the tests on its input: the new buffer with its length within its capacity, or, the coded bits
being more than it has, with length 0 (R215, R220, R221). -/
def ReturnsOutput (s t : State) (b o : Buffer) (xs : List Bool) : Prop :=
  o.capacity = upperBoundBytes b.length ∧
  (t.status = .ok ∧ t.result = .buf s.mem.length ∧ t.index = b.length ∧ o.length ≤ o.capacity ∨
   t.status = .bufferOutOfBounds ∧ t.result = .none ∧ o.length = 0 ∧ 8 * o.capacity < xs.length)

/-- The call from its opened state on (R215 to R221). -/
theorem encode_opened_ends (free : Nat) (hw : c.WellFormed = true) (hb : s.buf? input = some b)
    (hcap : b.length ≤ b.capacity) :
    ∃ t o,
      settleCall ((bodyEncode (opened s c input b.length)).bind fun u _ => .ok u ((u.outBuf.map Ret.buf).getD .none)) =
        .next t ∧
      EncodeLeaves s t c (s.mem ++ [o]) s.grants.tail ∧ ReturnsOutput s t b o (codedBits b c free) := by
  obtain ⟨o, ho, hlive, hin, hne⟩ := opened_facts (c := c) hb
  have hocap : o.capacity = upperBoundBytes b.length := by rw [ho]
  rcases bodyEncode_writes free rfl (Cfg.minimum_of_wellFormed hw) hlive rfl hin hcap hne (fresh_inv _ _ o) with
    ⟨m, d, bs1, o1, bs2, o2, epush, eflush, e⟩ | ⟨m, d, k, bs', o', hcap', hraised, e⟩ <;> rw [e]
  · obtain ⟨hpos, hcap2⟩ := pushed_flushed_position epush eflush
    refine ⟨_, { o2 with length := bs2.position }, rfl, ?_, hcap2.trans hocap, .inl ⟨rfl, rfl, rfl, hpos⟩⟩
    simp [EncodeLeaves, State.endCall, State.leaveCall, opened, State.beginCall, State.putBuf, State.putStream]
  · have hlt := capacity_lt_of_push_or_flush_raised hraised
    refine ⟨_, o'.afterFailedEncode d,
      congrArg Host.Outcome.next (takeError_encode _ (.inl rfl) rfl (State.buf?_putBuf_same hlive.buffer)), ?_,
      hcap'.trans hocap, .inr ⟨rfl, rfl, rfl, hcap' ▸ hlt⟩⟩
    simp [EncodeLeaves, opened, State.beginCall, State.putBuf, State.putStream]

/-- Everything a call of `encode` that is not refused can do: it ends before OUT exists, or with OUT (R215, R222). -/
theorem exec_encode_next (free : Nat) {t : State} (hb : s.buf? input = some b) (hcap : b.length ≤ b.capacity)
    (h : exec (.encode c input) s = .next t) :
    (∃ grants, (grants = s.grants ∨ grants = s.grants.tail) ∧ EncodeLeaves s t c s.mem grants ∧
      (t.status = .noOp ∨ t.status = .couldNotAllocate) ∧ t.result = .none) ∨
    ∃ o, EncodeLeaves s t c (s.mem ++ [o]) s.grants.tail ∧ ReturnsOutput s t b o (codedBits b c free) := by
  obtain ⟨hw, hn⟩ := exec_encode_pre hb h
  by_cases h0 : b.length = 0
  · cases h.symm.trans (exec_encode_empty hw hb h0)
    exact .inl ⟨_, .inl rfl, takeError_unopened s c input .noOp s.grants _, .inl (takeError_status ..), takeError_result ..⟩
  · rcases exec_encode_cases hw hb (Nat.pos_of_ne_zero h0) hn with ⟨_, e⟩ | ⟨_, e⟩
    · obtain ⟨t', o, e', hleaves, hout⟩ := encode_opened_ends free hw hb hcap
      cases h.symm.trans (e.trans e')
      exact .inr ⟨o, hleaves, hout⟩
    · cases h.symm.trans e
      exact .inl ⟨_, .inr rfl, takeError_unopened s c input _ _ _, .inr (takeError_status ..), takeError_result ..⟩

end

/-! ### The statements on encode -/

/-- Settles O31: the tests of the opening, one after another. -/
theorem encodeStopsInOrder : Obligations.EncodeStopsInOrder := by
  intro s c input b hw hb
  refine ⟨fun h0 => ?_, fun hn => exec_encode_tooLong hw hb hn, fun h0 hn hg => ?_⟩
  · exact ⟨_, exec_encode_empty hw hb h0, takeError_status .., takeError_result .., takeError_mem .., takeError_grants ..⟩
  · rcases exec_encode_cases hw hb h0 hn with ⟨hg', _⟩ | ⟨_, e⟩
    · exact absurd (hg'.symm.trans (nextGrant_of hg)) nofun
    · exact ⟨_, e, takeError_status .., takeError_result .., takeError_mem .., takeError_grants ..⟩

/-- Settles O32: the call ends before OUT exists, or OUT is the one buffer added. -/
theorem encodeFrame : Obligations.EncodeFrame := by
  intro s t c input b hb hcap h
  rcases exec_encode_next 0 hb hcap h with ⟨grants, hgrants, hleaves, hst, hres⟩ | ⟨o, hleaves, hocap, hends⟩
  · have hmem := hleaves.mem
    exact ⟨hleaves.frame, fun j _ => by rw [hmem], hleaves.grants ▸ hgrants, .inr (.inr ⟨hst, hres, hmem⟩)⟩
  · have hmem := hleaves.mem
    refine ⟨hleaves.frame, fun j hj => by rw [hmem, List.getElem?_append_left hj], .inr hleaves.grants, ?_⟩
    rcases hends with ⟨hst, hres, hindex, hlen⟩ | ⟨hst, hres, hlen, _⟩
    · exact .inl ⟨hst, hres, hindex, o, hmem, hocap, hlen⟩
    · exact .inr (.inl ⟨hst, hres, o, hmem, hocap, hlen⟩)

/-- Settles O33: the coded bits are at most `32 + 9n`, and the new buffer has as many. -/
theorem encodeFitsItsUpperBound : Obligations.EncodeFitsItsUpperBound := by
  intro s c input b hw hb hcap h0 hn hwidth hg
  have hlen := codedBits_length (free := 0) (Cfg.minimum_of_wellFormed hw) hn hwidth
  rcases exec_encode_cases hw hb h0 (by omega) with ⟨_, e⟩ | ⟨hg', _⟩
  · obtain ⟨t, o, e', _, hocap, ⟨hst, hres, _⟩ | ⟨_, _, _, hlt⟩⟩ := encode_opened_ends (c := c) 0 hw hb hcap
    · exact ⟨t, e.trans e', hst, hres⟩
    · rw [hocap, upperBoundBytes] at hlt
      omega
  · exact absurd (hg'.symm.trans (nextGrant_of hg)) nofun

end Sys2Proof.Machine
end

section
/-! An encode call one unit a step: which unit a step runs, where the call goes after it, and what becomes of a unit without room
(R215 to R221). -/

namespace Sys2Proof.Machine

/-! ### The unit at each place -/

section
variable {s : State} {c : Cfg} {i : BufId} {b : Buffer}

theorem nextUnit_encHeader (hp : s.phase = .encHeader) (hi : s.inBuf = some i) (hb : s.buf? i = some b) :
    nextUnit s = .ok s (.hdr (BitVec.ofNat 32 b.length)) := by
  simp only [nextUnit, hp, chooseHeader, withInput, hi, withBuffer, hb]

/-- At a position of the scan, the answer of the search chooses the token (R216, R218). -/
theorem nextUnit_encBody (hp : s.phase = .encBody) (hc : s.cfg = some c) (hi : s.inBuf = some i) (hb : s.buf? i = some b)
    (hx : s.index < b.capacity) {m : Match} (hm : findMatch b s.index c (Config.freeOffset s.draws).toNat = m) :
    nextUnit s = .ok { s with mtch := m, draws := s.draws + 1 }
      (if c.minimumLength ≤ m.length then mkPair c m.offset m.length else .literal (b.byteAt s.index)) := by
  simp only [nextUnit, hp, chooseToken, withCallConfig, hc, withInput, hi, withBuffer, hb, searchAt, hm, Buffer.memRead_nat,
    if_pos hx]
  split <;> rfl

theorem nextUnit_encTail {bs : BitStream} {o : Buffer} (hp : s.phase = .encTail) (h : s.Live .W bs o) :
    nextUnit s = .ok s (.pad ((8 - bs.bitCount) % 8)) := by
  simp only [nextUnit, hp, choosePad, withStream_live h]

end

/-- Settles O5: place by place; the search of a step draws its own free offset, which a match of length 0 alone has. -/
theorem stepRunsTheChosenUnit : Obligations.StepRunsTheChosenUnit := by
  intro s c i b hc hi hb hcap
  refine ⟨fun hp => ?_, fun hp hx => ?_, fun bs o hp h => ?_⟩
  · exact step_unit_of (by simp [hp]) (nextUnit_encHeader hp hi hb)
  · obtain ⟨hlen, hfree⟩ := findMatch_free b s.index c (Config.freeOffset s.draws).toNat 0
    exact ⟨_, hlen, hfree, step_unit_of (by simp [hp]) (nextUnit_encBody hp hc hi hb (hx.trans_le hcap) rfl)⟩
  · exact step_unit_of (by simp [hp]) (nextUnit_encTail hp h)

/-! ### The place after a unit -/

section
variable {s : State}

/-- The return of a decode call (R243 step 4, R259). -/
theorem afterUnit_decTail {o : BufId} {b : Buffer} (hp : s.phase = .decTail) (ho : s.outBuf = some o)
    (hb : s.buf? o = some b) :
    afterUnit s = .next ((s.putBuf o { b with length := s.declared.toNat }).endCall .none) := by
  simp only [afterUnit, hp, decodeDone, withOutput_some ho hb]; rfl

/-- The return of an encode call (R215 step 6, R220). -/
theorem afterUnit_encTail {bs : BitStream} {b : Buffer} (hp : s.phase = .encTail) (ho : s.outBuf = some bs.buf)
    (h : s.Live .W bs b) :
    afterUnit s = .next ((s.putBuf bs.buf { b with length := bs.position }).endCall (.buf bs.buf)) := by
  simp only [afterUnit, hp, encodeDone, withStream_live h, Res.bind_ok, State.putBuf_outBuf, ho]; rfl

theorem encPlace_eq {i : BufId} {b : Buffer} (hi : s.inBuf = some i) (hb : s.buf? i = some b) :
    s.encPlace = if s.index < b.length then .encBody else .encTail := by
  simp only [State.encPlace, State.inputLength, hi, hb, Option.map_some, Option.getD_some]

end

/-- Settles O6: the next place on either side, and the two returns. -/
theorem placesFollowTheScan : Obligations.PlacesFollowTheScan := by
  refine ⟨fun s hp => afterUnit_dec hp, fun s i b hp hi hb => ?_, fun s o b hp ho hb => ?_, fun s bs b hp ho h => ?_⟩
  · rw [afterUnit_enc hp, encPlace_eq hi hb]
  · exact ⟨_, afterUnit_decTail hp ho hb, rfl, rfl, rfl, rfl, rfl, rfl⟩
  · exact ⟨_, afterUnit_encTail hp ho h, rfl, rfl, rfl, rfl, rfl, rfl, rfl⟩

/-! ### A unit without room -/

/-- A write of an encode call that raises ends the call, OUT being emptied (R221, R295). -/
theorem settleUnit_raised_encode {s : State} {bs bs' : BitStream} {b b' : Buffer}
    (hp : s.phase = .encHeader ∨ s.phase = .encBody ∨ s.phase = .encTail) (ho : s.outBuf = some bs.buf)
    (h : s.Live .W bs b) :
    settleUnit (.raised .bufferOutOfBounds ((s.putBuf bs.buf b').putStream (some bs'))) =
      .next { s with
        mem := s.mem.set bs.buf (b'.afterFailedEncode s.draws), bs := none, inBuf := none, outBuf := none
        vlq := ⟨0#32, 0, false⟩, status := .bufferOutOfBounds, result := .none, phase := .idle, draws := s.draws + 1 } := by
  rw [settleUnit, takeError_encode (s := (s.putBuf bs.buf b').putStream (some bs')) .bufferOutOfBounds hp ho
    (State.buf?_putBuf_same h.buffer)]
  simp only [State.putStream, State.putBuf, List.set_set]

/-- Padding that finds no room raises, and leaves the stream and the buffer as they were (R154, R155). -/
theorem flushBits_noRoom {bs : BitStream} {b : Buffer} (h0 : 0 < bs.bitCount) (h : b.capacity ≤ bs.position) :
    flushBits bs b = .raised bs b := by
  simp only [flushBits, if_pos h0, Buffer.memWrite_eq_none.mpr h]

/-- A group, the header or a token for which there is no room is one write that raises (R143, R149). -/
theorem exec_unit_noRoom {s : State} {c : Cfg} {bs : BitStream} {b : Buffer} {i : Instr} {xs : List Bool} (h : s.Live .W bs b)
    (hi : bs.Inv b) (hc : s.cfg = some c) (hslot : i.slot ≠ .padding) (henc : encode c i = .stream xs)
    (hroom : b.capacity < bs.position + (bs.bitCount + xs.length) / 8) :
    ∃ bs' b', b'.capacity = b.capacity ∧
      exec i s = settleUnit (.raised .bufferOutOfBounds ((s.putBuf bs.buf b').putStream (some bs'))) := by
  obtain ⟨bs', b', e, _, _, _, _, hcap, _⟩ := pushBits_noRoom hi h.alive h.direction hroom
  refine ⟨bs', b', hcap, ?_⟩
  rw [exec_unit (slot_ne_command_of_stream henc), runUnit_write h hc hslot henc, writeStream_raised h e, Res.bind_raised]

/-- Padding for which there is no room is one write that raises (R155). -/
theorem exec_pad_noRoom {s : State} {bs : BitStream} {b : Buffer} (k : Nat) (h : s.Live .W bs b) (h0 : 0 < bs.bitCount)
    (hroom : b.capacity ≤ bs.position) :
    exec (.pad k) s = settleUnit (.raised .bufferOutOfBounds ((s.putBuf bs.buf b).putStream (some bs))) := by
  rw [exec, execPad, runPad_write h, writeStream_raised h (flushBits_noRoom h0 hroom)]

/-- Settles O51: the write of the unit raises, which ends the call. -/
theorem tokenWithoutRoomEndsTheCall : Obligations.TokenWithoutRoomEndsTheCall := by
  intro s c bs b i h hi hc hp ho hroom
  simp only [List.mem_cons, List.not_mem_nil, or_false] at hp
  obtain ⟨bs', b', hcap, e⟩ : ∃ bs' b', b'.capacity = b.capacity ∧
      exec i s = settleUnit (.raised .bufferOutOfBounds ((s.putBuf bs.buf b').putStream (some bs'))) := by
    rcases hroom with ⟨hslot, _, xs, henc, hlt⟩ | ⟨hslot, h0, hfull⟩
    · exact exec_unit_noRoom h hi hc hslot henc hlt
    · cases i with
      | pad k => exact ⟨bs, b, rfl, exec_pad_noRoom k h h0 hfull⟩
      | _ => cases hslot
  exact ⟨_, b'.afterFailedEncode s.draws, e.trans (settleUnit_raised_encode hp ho h), rfl, rfl, hcap⟩

end Sys2Proof.Machine
end

section
/-! `decode` on a buffer that holds a header and well-formed tokens (R260), such as `encode` leaves (R225). -/

namespace Sys2Proof.Machine

/-! ### The parts of a decode call -/

section
variable {s : State} {c : Cfg} {input output : BufId} {b bo : Buffer}

/-- The header of a buffer that starts with a VLQ is its value; the stream made for it is discarded (R240). -/
theorem peekHeader_groups {gs : List Byte} {rest : List Bool} (hb : s.buf? input = some b) (hg : IsReadVlq gs)
    (hu : b.bits = groupBits gs ++ rest) :
    peekHeader input s = .ok (s.putStream none) (BitVec.ofNat 32 (groupSum gs)) := by
  have h : (s.putStream (some (BitStream.fresh input .R))).Live .R (BitStream.fresh input .R) b := ⟨rfl, rfl, rfl, hb⟩
  rw [← unreadBits_fresh input b] at hu
  rcases pullVlq_cases _ b (fresh_inv input .R b) rfl rfl with ⟨gs', bs', w, e, hg', hw, hu', _⟩ | ⟨_, _, _, _, _, _, hno⟩
  · obtain ⟨rfl, _⟩ := isReadRest_unique hg hg' (hu.symm.trans hu')
    obtain rfl : w = BitVec.ofNat 32 (groupSum gs) := BitVec.eq_of_toNat_eq (by rw [hw, BitVec.toNat_ofNat])
    rw [peekHeader, readStream_ok h e]; rfl
  · exact absurd ⟨gs, rest, hg, hu⟩ hno

/-- The state after an allocation that the host grants (R214). -/
def State.allocated (s : State) (n : Nat) : State :=
  { s with
    grants := s.grants.tail, draws := s.draws + 1
    mem := s.mem ++ [{ capacity := n, length := 0, cells := [], tag := s.draws }] }

/-- An allocation whose oldest answer grants it (R214, log 5). -/
theorem hostAlloc_granted (n : Nat) (hg : s.grants.head? = some true) :
    hostAlloc n s = .ok (s.allocated n) s.mem.length := by
  rcases hostAlloc_cases n s with ⟨_, e⟩ | ⟨hg', _⟩
  · exact e
  · exact absurd (hg'.symm.trans (nextGrant_of hg)) nofun

theorem State.buf?_allocated_old (hb : s.buf? input = some b) (n : Nat) : (s.allocated n).buf? input = some b :=
  (List.getElem?_append_left (List.getElem?_eq_some_iff.mp hb).1).trans hb

theorem State.buf?_allocated_new (s : State) (n : Nat) :
    (s.allocated n).buf? s.mem.length = some { capacity := n, length := 0, cells := [], tag := s.draws } :=
  List.getElem?_concat_length

/-- The start of `decode`, before its OUT exists (R62, R260). -/
def decodeStarted (s : State) (c : Cfg) (input : BufId) : State :=
  { s.beginCall .decHeader (some input) none with cfg := some c }

/-- The state after the opening of a decode call (R62, R243 step 1). -/
def decodeOpened (s : State) (c : Cfg) (input output : BufId) : State :=
  { s.beginCall .decHeader (some input) (some output) with cfg := some c, bs := some (BitStream.fresh input .R) }

/-- Two buffers, the input not empty and OUT of a capacity above 0, open the call (R243, R244). -/
theorem openDecode_opens (hw : c.WellFormed = true) (hb : s.buf? input = some b) (hbo : s.buf? output = some bo)
    (hne : input ≠ output) (h0 : b.length ≠ 0) (h1 : bo.capacity ≠ 0) :
    openDecode c input output s = .ok (decodeOpened s c input output) () := by
  have hl : configLegal c = true := hw
  simp only [openDecode, withConfig, if_pos hl, withBuffer, hb, hbo, if_neg hne, h0, h1, or_self, if_false]; rfl

/-- `decode` on a header of a value above 0, the allocation granted, is a decode call into a new buffer of that size (R260). -/
theorem exec_decode_opened {d : Word} (hw : c.WellFormed = true) (hb : s.buf? input = some b) (h0 : b.length ≠ 0)
    (hpeek : peekHeader input (decodeStarted s c input) = .ok (decodeStarted s c input) d) (hd : d.toNat ≠ 0)
    (hgrant : s.grants.head? = some true) :
    exec (.decode c input) s =
      settleCall ((bodyDecode (decodeOpened ((decodeStarted s c input).allocated d.toNat) c input s.mem.length)).bind
        fun x _ => .ok x (.buf s.mem.length)) := by
  have hl : configLegal c = true := hw
  have hd0 : d ≠ 0#32 := by rintro rfl; exact hd rfl
  have hne : input ≠ s.mem.length := (List.getElem?_eq_some_iff.mp hb).1.ne
  have halloc : hostAlloc d.toNat (decodeStarted s c input) =
      .ok ((decodeStarted s c input).allocated d.toNat) s.mem.length := hostAlloc_granted _ hgrant
  have hopen : openDecode c input s.mem.length ((decodeStarted s c input).allocated d.toNat) =
      .ok (decodeOpened ((decodeStarted s c input).allocated d.toNat) c input s.mem.length) () :=
    openDecode_opens hw (State.buf?_allocated_old (s := decodeStarted s c input) hb _)
      (State.buf?_allocated_new (decodeStarted s c input) _) hne h0 hd
  rw [exec, execDecode, withConfig, if_pos hl, withBuffer, hb]
  dsimp only
  rw [if_neg h0, ← decodeStarted, hpeek, Res.bind_ok, if_neg hd0, halloc, Res.bind_ok, hopen, Res.bind_ok]

/-- The call on a header and well-formed tokens: one new buffer, of exactly the declared length, that holds the bytes the tokens
stand for; nothing else but the registers of the call changes (R260). -/
theorem exec_decode_tokens {gs : List Byte} {toks : List Instr} {rest : List Bool} {out : List Byte}
    (hw : c.WellFormed = true) (hb : s.buf? input = some b) (h0 : b.length ≠ 0) (hg : IsReadVlq gs)
    (htoks : ∀ i ∈ toks, i.WellFormed c = true) (hu : b.bits = groupBits gs ++ (unitBits c toks ++ rest))
    (hexp : expandTokens [] toks = some out) (hlen : out.length = groupSum gs % 2 ^ 32) (hout : out ≠ [])
    (hgrant : s.grants.head? = some true) :
    ∃ t o, exec (.decode c input) s = .next t ∧
      t = { s with
            mem := s.mem ++ [o], bs := none, cfg := some c, inBuf := none, outBuf := none, mtch := t.mtch
            index := out.length, declared := BitVec.ofNat 32 out.length, vlq := t.vlq, status := .ok
            result := .buf s.mem.length, phase := .idle, grants := s.grants.tail, draws := t.draws } ∧
      o.capacity = out.length ∧ o.length = out.length ∧ o.bytes = out := by
  have hpeek : peekHeader input (decodeStarted s c input) = .ok (decodeStarted s c input) (BitVec.ofNat 32 (groupSum gs)) :=
    peekHeader_groups hb hg hu
  have hd : (BitVec.ofNat 32 (groupSum gs)).toNat = out.length := by rw [BitVec.toNat_ofNat, hlen]
  have hne : input ≠ s.mem.length := (List.getElem?_eq_some_iff.mp hb).1.ne
  have hin := State.buf?_allocated_old (s := decodeStarted s c input) hb out.length
  obtain ⟨bs', o, hbody, hcap, holen, hbytes⟩ :=
    bodyDecode_tokens (s := decodeOpened ((decodeStarted s c input).allocated out.length) c input s.mem.length)
      rfl rfl ⟨rfl, rfl, rfl, hin⟩ rfl (State.buf?_allocated_new (decodeStarted s c input) _) hne rfl hg htoks hu hexp hlen rfl
  have e := exec_decode_opened hw hb h0 hpeek (by simpa [hd] using hout) hgrant
  rw [hd, hbody] at e
  refine ⟨_, o, e, ?_, hcap, holen, hbytes⟩
  simp [decodeOpened, decodeStarted, State.allocated, State.endCall, State.leaveCall, State.beginCall, State.putBuf,
    State.putStream]

end

/-! ### What `encode` leaves, decoded -/

/-- An `encode` that returns `Ok` had a byte to encode (R222). -/
theorem length_pos_of_exec_encode_ok {s t : State} {c : Cfg} {input : BufId} {b : Buffer} (hb : s.buf? input = some b)
    (h : exec (.encode c input) s = .next t) (hok : t.status = .ok) : 1 ≤ b.length := by
  by_contra h0
  rw [exec_encode_empty (exec_encode_pre hb h).1 hb (by omega)] at h
  cases h
  simp at hok

/-- The header alone takes a group (R101, R103). -/
theorem codedBits_length_pos (b : Buffer) (c : Cfg) (free : Nat) : 0 < (codedBits b c free).length := by
  obtain ⟨_, ⟨hne, _⟩, _⟩ := vlqGroups_word (BitVec.ofNat 32 b.length)
  have := List.length_pos_iff.mpr hne
  rw [codedBits, List.length_append, vlqBits, Laws.EncodedWidth.groupBits_length]
  omega

/-- The new buffer of an `encode` that returns `Ok` starts with the coded bits (R100). -/
theorem exec_encode_ok_bits {s t : State} {c : Cfg} {input : BufId} {b : Buffer} (free : Nat) (hb : s.buf? input = some b)
    (hcap : b.length ≤ b.capacity) (h : exec (.encode c input) s = .next t) (hok : t.status = .ok) :
    ∃ o rest, t.buf? s.mem.length = some o ∧ o.length = byteCount (codedBits b c free).length ∧
      o.bits = codedBits b c free ++ rest := by
  obtain ⟨o, ho, hlen, hbits⟩ := encodeWritesTheGreedyTokens s t c input b free hb hcap h hok
  have hle : o.length ≤ o.capacity := by
    rcases exec_encode_next free hb hcap h with ⟨_, _, _, hst, _⟩ | ⟨o', hleaves, _, ⟨_, _, _, hle⟩ | ⟨hst, _⟩⟩
    · rcases hst with hst | hst <;> rw [hok] at hst <;> cases hst
    · rw [State.buf?, hleaves.mem, List.getElem?_concat_length] at ho
      cases ho
      exact hle
    · rw [hok] at hst; cases hst
  have hsplit := unreadBits_fresh_split s.mem.length hle
  rw [unreadBits_fresh, hbits, List.append_assoc] at hsplit
  exact ⟨o, _, ho, hlen, hsplit⟩

/-- Settles O35: the new buffer starts with the header and the greedy tokens, which stand for the input's bytes. -/
theorem decodeInvertsEncode : Obligations.DecodeInvertsEncode := by
  intro s t c input b hb hcap h hok hgrant
  obtain ⟨hw, hn⟩ := exec_encode_pre hb h
  have h1 := length_pos_of_exec_encode_ok hb h hok
  obtain ⟨o, rest, ho, hlen, hbits⟩ := exec_encode_ok_bits 0 hb hcap h hok
  obtain ⟨htoks, _, hexp⟩ :=
    greedyTokens_spec (b := b) (free := 0) (index := 0) b.length (Cfg.minimum_of_wellFormed hw) (Nat.zero_le _) (by omega)
  obtain ⟨_, hread, hsum⟩ := vlqGroups_word (BitVec.ofNat 32 b.length)
  have hbytes : b.bytes.length = b.length := by simp [Buffer.bytes]
  have h0 : o.length ≠ 0 := by
    have := codedBits_length_pos b c 0
    rw [hlen, byteCount]
    omega
  rw [codedBits, List.append_assoc] at hbits
  obtain ⟨u, bo, e, hu, _, _, hout⟩ := exec_decode_tokens hw ho h0 hread htoks hbits hexp
    (by rw [hsum, hbytes, BitVec.toNat_ofNat]; omega) (List.ne_nil_of_length_pos (by omega)) hgrant
  have hmem : u.mem = t.mem ++ [bo] := congrArg State.mem hu
  exact ⟨u, bo, e, congrArg State.status hu, congrArg State.result hu,
    by rw [State.buf?, hmem, List.getElem?_concat_length], hout⟩

end Sys2Proof.Machine
end

section
/-! The rows of the format on the decoder's side of a call, one at a time: the header's test of OUT's size, the literal, the pair
with its irregular forms (R243 to R255), and how an error of a decode call ends it (R257, R258, R291). -/

namespace Sys2Proof.Machine

/-! ### Errors of a decode call -/

/-- An error of a decode call other than `BufferOutOfBounds`: the call is over, no buffer has changed (R258, R291). -/
theorem takeError_decode_kept {s : State} {k : Status} (hk : k ≠ .bufferOutOfBounds)
    (hp : s.phase = .decGroups ∨ s.phase = .decHeader ∨ s.phase = .decBody ∨ s.phase = .decTail) :
    takeError k s =
      { s with
        status := k, result := .none, bs := none, phase := .idle, inBuf := none, outBuf := none, vlq := ⟨0#32, 0, false⟩
        draws := s.draws + 1 } := by
  rw [takeError_call (by rcases hp with h | h | h | h <;> simp [h]), outAfterError_decode hk hp]

/-- `BufferOutOfBounds` in a decode call: the call is over, OUT alone has changed (R257, R291). -/
theorem takeError_decode_outOfBounds {s : State} {o : BufId} {b : Buffer}
    (hp : s.phase = .decGroups ∨ s.phase = .decHeader ∨ s.phase = .decBody ∨ s.phase = .decTail) (ho : s.outBuf = some o)
    (hb : s.buf? o = some b) :
    takeError .bufferOutOfBounds s =
      { s with
        status := .bufferOutOfBounds, result := .none, mem := s.mem.set o (b.afterFailedDecode s.draws), bs := none
        phase := .idle, inBuf := none, outBuf := none, vlq := ⟨0#32, 0, false⟩, draws := s.draws + 1 } := by
  rw [takeError_call (by rcases hp with h | h | h | h <;> simp [h]), outAfterError_outOfBounds hp ho hb]

section
variable {s : State} {bs : BitStream} {b bo : Buffer} {o : BufId}

/-! ### The header (R243, R245) -/

theorem runHdr_read (h : s.Live .R bs b) (ho : s.outBuf = some o) (hb : s.buf? o = some bo) {value : Word}
    (hv : value.toNat = bo.capacity) : runUnit (.hdr value) s = .ok { s with declared := value, index := 0 } () := by
  simp only [runUnit, runHdr, byDirection_read h, readHdr, withOutput_some ho hb, hv, ne_eq, not_true, if_false]

theorem runHdr_read_wrongSize (h : s.Live .R bs b) (ho : s.outBuf = some o) (hb : s.buf? o = some bo) {value : Word}
    (hv : value.toNat ≠ bo.capacity) :
    runUnit (.hdr value) s = .raised .wrongOutputSize { s with declared := value } := by
  simp only [runUnit, runHdr, byDirection_read h, readHdr, withOutput_some ho hb, if_pos hv]

end

/-- Settles O43: the test passes and the scan starts, or its error ends the call. -/
theorem hdrChecksTheOutputSize : Obligations.HdrChecksTheOutputSize := by
  intro s bs b o bo value h ho hb
  rw [exec_unit (by simp [Instr.slot])]
  refine ⟨fun hv => by rw [runHdr_read h ho hb hv, settleUnit], fun hv hp => ?_⟩
  rw [runHdr_read_wrongSize h ho hb hv, settleUnit,
    takeError_decode_kept (k := .wrongOutputSize) (s := { s with declared := value }) nofun (.inr (.inl hp))]
  exact ⟨_, rfl, rfl⟩

/-! ### The literal (R248) -/

/-- Settles O44: one byte of OUT is written. -/
theorem literalStoresItsByte : Obligations.LiteralStoresItsByte := by
  intro s bs b o bo byte h ho hb hx
  obtain ⟨bo', hw⟩ := memWrite_room hx byte
  obtain ⟨_, hcap, hlen, _, hbyte, hother⟩ := Buffer.memWrite_some hw
  obtain ⟨hsizes, hsame⟩ := putBuf_frame (lo := s.index) (hi := s.index + 1) hb hcap hlen fun j hj => hother j (by omega)
  refine ⟨{ s.putBuf o bo' with index := s.index + 1 }, ?_, rfl, ?_, hsizes, hsame⟩
  · simp only [exec, execLiteral, runLiteral, byDirection_read h, readLiteral, withOutput_some ho hb, hw, settleUnit]
  · exact (byte?_putBuf_same hb _).trans (by rw [Buffer.memRead_nat, if_pos (hcap ▸ hx), hbyte])

/-! ### The pair (R250 to R255) -/

/-- The instruction is one of the two pair rows, with these operands (R106). -/
def IsPairRow (i : Instr) (offset length : Nat) : Prop :=
  i = .pair offset length ∨ ∃ (f : BitVec 10) (g : BitVec 6), i = .pairDemo f g ∧ f.toNat = offset ∧ g.toNat = length

section
variable {s : State} {bs : BitStream} {b bo : Buffer} {o : BufId} {i : Instr} {offset length : Nat}

/-- On the decoder's side either pair row is one forward copy (R250). -/
theorem exec_pairRow_read (h : s.Live .R bs b) (hi : IsPairRow i offset length) :
    exec i s = settleUnit (readPair offset length s) := by
  rcases hi with rfl | ⟨f, g, rfl, rfl, rfl⟩
  · rw [exec, execPair, runPair, byDirection_read h]
  · rw [exec, execPairDemo, runPairDemo, byDirection_read h]

/-- A copy that stays in bounds replaces OUT by the buffer it makes, and `index` advances (R250). -/
theorem exec_pairRow_inside (h : s.Live .R bs b) (ho : s.outBuf = some o) (hb : s.buf? o = some bo)
    (hi : IsPairRow i offset length) (hin : (copyForward offset length s.index bo).2 = true) :
    exec i s =
      .next { s.putBuf o (copyForward offset length s.index bo).1 with index := s.index + length } := by
  rw [exec_pairRow_read h hi, readPair_eq ho hb, if_pos hin, settleUnit]

end

/-- Settles O45: the copy inside OUT, byte by byte. -/
theorem pairCopiesForward : Obligations.PairCopiesForward := by
  intro s bs b o bo i offset length h ho hb hi h1 hlo hhi
  obtain ⟨hin, hcopy, hother⟩ := copyForward_inside h1 hlo hhi
  obtain ⟨hcap, hlen, _⟩ := copyForward_keeps offset length s.index bo
  obtain ⟨hsizes, hsame⟩ := putBuf_frame hb hcap hlen hother
  refine ⟨_, exec_pairRow_inside h ho hb hi hin, rfl, fun k hk => ?_, hsizes, hsame⟩
  have hm : k % offset < offset := Nat.mod_lt _ h1
  refine (byte?_putBuf_same hb _).trans ?_
  rw [State.byte?, hb, Option.bind_some, Buffer.memRead_nat, Buffer.memRead_nat, if_pos (by omega), if_pos (by omega),
    hcopy k hk]

/-- Settles O46: the copy fails at its first step out of bounds, which ends the call. -/
theorem pairOutOfBoundsEndsTheCall : Obligations.PairOutOfBoundsEndsTheCall := by
  intro s bs b o bo i offset length h ho hb hp hi h0 hout
  have hfail := copyForward_outside (b := bo) h0 hout
  obtain ⟨bo', hbo'⟩ : ∃ bo', bo' = (copyForward offset length s.index bo).1 := ⟨_, rfl⟩
  have hcap : bo'.capacity = bo.capacity := hbo' ▸ (copyForward_keeps offset length s.index bo).1
  have e : exec i s = .next (takeError .bufferOutOfBounds (s.putBuf o bo')) := by
    rw [exec_pairRow_read h hi, readPair_eq ho hb, hfail, if_neg (by simp), ← hbo', settleUnit]
  refine ⟨_, bo'.afterFailedDecode s.draws, e, ?_, hcap⟩
  rw [takeError_decode_outOfBounds (s := s.putBuf o bo') (.inr (.inr (.inl hp))) ho (State.buf?_putBuf_same hb)]
  simp only [State.putBuf, List.set_set]

/-- Settles O47: each byte is copied onto itself, or there is no byte to copy. -/
theorem irregularPairsRun : Obligations.IrregularPairsRun := by
  intro s bs b o bo i offset length h ho hb hi
  refine ⟨?_, ?_⟩
  · rintro rfl hhi
    obtain ⟨hin, hsame⟩ := copyForward_zero hhi
    obtain ⟨hcap, hlen, _⟩ := copyForward_keeps 0 length s.index bo
    obtain ⟨hsizes, hbytes⟩ := putBuf_frame (lo := 0) (hi := 0) hb hcap hlen fun j _ => hsame j
    exact ⟨_, exec_pairRow_inside h ho hb hi hin, rfl, hsizes, fun j a => hbytes j a (by omega)⟩
  · rintro rfl
    rw [exec_pairRow_inside h ho hb hi rfl]
    exact congrArg Host.Outcome.next (putBuf_self hb)

end Sys2Proof.Machine
end

section
/-! A decode call one unit a step: which unit a step runs, and where the unread bits hold none (R104, R109, R243, R256). -/

namespace Sys2Proof.Machine

section
variable {s : State} {c : Cfg} {bs : BitStream} {b : Buffer}

/-- The operation fetches the unit the decoder answers on the unread bits, the stream having consumed exactly its bits; or the
decoder answers none, and the operation raises `BufferOutOfBounds`. -/
def Fetches (s : State) (bs : BitStream) (b : Buffer) (fetched : Res Instr)
    (answer : Except DecodeError (Instr × List Bool)) : Prop :=
  (∃ i bs', fetched = .ok (s.putStream (some bs')) i ∧ answer = .ok (i, unreadBits bs' b) ∧ bs'.buf = bs.buf ∧ bs'.dir = .R ∧
    bs'.dead = false ∧ bs'.Inv b) ∨
  ∃ e bs', fetched = .raised .bufferOutOfBounds (s.putStream (some bs')) ∧ answer = .error e

theorem fetchGroup_fetches (h : s.Live .R bs b) (hi : bs.Inv b) :
    Fetches s bs b (fetchGroup s) (decodeGroup (unreadBits bs b)) := by
  rcases Nat.lt_or_ge (unreadBits bs b).length 8 with hshort | hlen
  · obtain ⟨bs', e, _⟩ := pullBits_short hi.1 hshort
    exact .inr ⟨.groupCut, bs', by rw [fetchGroup, readStream_raised h e]; rfl, by rw [decodeGroup, takeBits_of_lt hshort]⟩
  · obtain ⟨bs', e, hu, hb, hd, hk, hi'⟩ := pullBits_enough hi h.alive hlen
    obtain ⟨g, hg⟩ : ∃ g : Byte, (unreadBits bs b).take 8 = fieldBits g.toNat 8 :=
      ⟨_, (fieldBits_ofBits (by simp [hlen])).symm⟩
    have hdec := decodeGroup_groupInstr g []
    rw [List.append_nil] at hdec
    refine .inl ⟨groupInstr g, bs', ?_, ?_, hb, hd.trans h.direction, hk, hi' h.direction⟩
    · rw [fetchGroup, readStream_ok h e, Res.bind_ok, hg, hdec, decoded]
    · rw [hu, ← decodeGroup_groupInstr, ← hg, List.take_append_drop]

theorem fetchHeader_fetches (hv : s.vlq.stopped = false) (h : s.Live .R bs b) (hi : bs.Inv b) :
    Fetches s bs b (fetchHeader s) (decodeHeader (unreadBits bs b)) := by
  rcases fetchHeader_cases hv h hi with ⟨gs, bs', e, hg, hu, hb, hd, hk, hi'⟩ | ⟨bs', e, hno⟩
  · exact .inl ⟨_, bs', e, by rw [hu, decodeHeader_groups hg], hb, hd, hk, hi'⟩
  · exact .inr ⟨_, bs', e, decodeHeader_cut hno⟩

theorem fetchToken_fetches (hc : s.cfg = some c) (h : s.Live .R bs b) (hi : bs.Inv b) :
    Fetches s bs b (fetchToken s) (decodeToken c (unreadBits bs b)) := by
  rcases fetchToken_cases hc h hi with ⟨i, bs', e, hd, _, hb, hdir, hk, hi'⟩ | ⟨er, bs', e, hd⟩
  · exact .inl ⟨i, bs', e, hd, hb, hdir, hk, hi'⟩
  · exact .inr ⟨er, bs', e, hd⟩

/-- At the place of a group, of the header or of a token, the next unit is what the decoder answers for that slot (R109). -/
theorem nextUnit_fetches {p : Phase} {slot : Slot} (hc : s.cfg = some c) (h : s.Live .R bs b) (hi : bs.Inv b)
    (hslot : (p, slot) ∈ [(Phase.decGroups, Slot.group), (Phase.decHeader, Slot.header), (Phase.decBody, Slot.token)])
    (hp : s.phase = p) (hv : p = .decHeader → s.vlq.stopped = false) :
    s.phase ≠ .idle ∧ Fetches s bs b (nextUnit s) (decodeAt c slot (.stream (unreadBits bs b))) := by
  simp only [List.mem_cons, Prod.mk.injEq, List.not_mem_nil, or_false] at hslot
  rcases hslot with ⟨rfl, rfl⟩ | ⟨rfl, rfl⟩ | ⟨rfl, rfl⟩ <;>
    refine ⟨by simp [hp], ?_⟩ <;> simp only [nextUnit, hp, decodeAt]
  · exact fetchGroup_fetches h hi
  · exact fetchHeader_fetches (hv rfl) h hi
  · exact fetchToken_fetches hc h hi

theorem nextUnit_decHeader_stopped (hp : s.phase = .decHeader) (hv : s.vlq.stopped = true) :
    nextUnit s = .ok s (.hdr s.vlq.result) := by
  simp only [nextUnit, hp, fetchHeader, hv, if_true]

theorem nextUnit_decTail (hp : s.phase = .decTail) (h : s.Live .R bs b) : nextUnit s = .ok s (.pad bs.bitCount) := by
  simp only [nextUnit, hp, fetchPad, withStream_live h]

end

/-- Settles O4: place by place; bits that hold no unit end the call with its error. -/
theorem stepRunsTheDecodedUnit : Obligations.StepRunsTheDecodedUnit := by
  intro s c bs b hc h hi
  refine ⟨fun p slot i rest hslot hp hv hd => ?_, fun p slot e hslot hp hv hd => ?_, fun hp hv => ?_, fun hp => ?_⟩
  · obtain ⟨hidle, ⟨i', bs', en, ha, hb, hdir, hk, hi'⟩ | ⟨e, _, _, ha⟩⟩ := nextUnit_fetches hc h hi hslot hp hv <;>
      rw [hd] at ha <;> cases ha
    exact ⟨bs', step_unit_of hidle en, rfl, hb, hdir, hk, hi'⟩
  · obtain ⟨hidle, ⟨_, _, _, ha, _⟩ | ⟨e', bs', en, _⟩⟩ := nextUnit_fetches hc h hi hslot hp hv
    · rw [hd] at ha; cases ha
    · refine ⟨_, step_raised_of hidle en, ?_, fun j hj => ?_, ?_⟩
      · rw [takeError_call (s := s.putStream (some bs')) hidle]; rfl
      · rw [State.buf?, takeError_mem, outAfterError_other _ (s.putStream (some bs')) hj]; rfl
      · rw [takeError_mem, outAfterError_capacity]; rfl
  · exact step_unit_of (by simp [hp]) (nextUnit_decHeader_stopped hp hv)
  · exact step_unit_of (by simp [hp]) (nextUnit_decTail hp h)

end Sys2Proof.Machine
end

section
/-! The decode calls of the Codec as the host makes them (44_codec_decode.md): `peek_original_length`, `decode_into`, `decode`; the
tests each makes in its order, and what it leaves behind. -/

namespace Sys2Proof.Machine

/-! ### peek_original_length (R240, R241) -/

/-- An error taken before a call has an OUT leaves the buffers as they were. -/
theorem outAfterError_unopened {s : State} (k : Status) (h : s.outBuf = none) : s.outAfterError k = s.mem := by
  simp only [State.outAfterError, h]

theorem takeError_mem_unopened {s : State} (k : Status) (h : s.outBuf = none) : (takeError k s).mem = s.mem :=
  (takeError_mem ..).trans (outAfterError_unopened k h)

/-- An error taken in a call that has no OUT yet: STATUS gets the kind, and no buffer, Config, request or answer changes (R291). -/
theorem takeError_unopened_call {s : State} (k : Status) (hp : s.phase ≠ .idle) (h : s.outBuf = none) :
    (takeError k s).status = k ∧ (takeError k s).result = .none ∧ (takeError k s).mem = s.mem ∧ (takeError k s).bs = none ∧
      (takeError k s).cfg = s.cfg ∧ (takeError k s).requests = s.requests ∧ (takeError k s).grants = s.grants :=
  ⟨takeError_status .., takeError_result .., takeError_mem_unopened k h, takeError_bs_call hp, takeError_cfg ..,
    takeError_requests .., takeError_grants ..⟩

section
variable {s : State} {c : Cfg} {input output : BufId} {b bo : Buffer}

/-- Without a whole VLQ the header is cut (R241). -/
theorem peekHeader_cut (hb : s.buf? input = some b) (hno : ¬ ∃ gs rest, IsReadVlq gs ∧ b.bits = groupBits gs ++ rest) :
    ∃ bs', peekHeader input s = .raised .bufferOutOfBounds (s.putStream (some bs')) := by
  have h : (s.putStream (some (BitStream.fresh input .R))).Live .R (BitStream.fresh input .R) b := ⟨rfl, rfl, rfl, hb⟩
  rw [← unreadBits_fresh input b] at hno
  rcases pullVlq_cases _ b (fresh_inv input .R b) rfl rfl with ⟨gs, bs', w, _, hg, _, hu, _⟩ | ⟨bs', e, _⟩
  · exact absurd ⟨gs, _, hg, hu⟩ hno
  · exact ⟨bs', by rw [peekHeader, readStream_raised h e]; rfl⟩

/-- The start of `peek_original_length` (R62, R240). -/
def peekStarted (s : State) (input : BufId) : State := s.beginCall .decHeader (some input) none

theorem exec_peek_empty (hb : s.buf? input = some b) (h0 : b.length = 0) :
    exec (.peekOriginalLength input) s = .next (takeError .noOp (peekStarted s input)) := by
  simp only [exec, execPeekOriginalLength, withBuffer, hb, if_pos h0]; rfl

theorem exec_peek_header (hb : s.buf? input = some b) (h0 : b.length ≠ 0) :
    exec (.peekOriginalLength input) s =
      settleCall ((peekHeader input (peekStarted s input)).bind fun u v => .ok u (.word v)) := by
  simp only [exec, execPeekOriginalLength, withBuffer, hb, if_neg h0]; rfl

end

/-- Settles O36: the test on the input, then the header, whole or cut. -/
theorem peekReadsTheHeader : Obligations.PeekReadsTheHeader := by
  intro s input b hb
  refine ⟨fun h0 => ?_, fun h0 gs rest hg hu => ?_, fun h0 hno => ?_⟩
  · exact ⟨_, exec_peek_empty hb h0, takeError_unopened_call .noOp nofun rfl⟩
  · have e := exec_peek_header hb h0
    rw [peekHeader_groups (s := peekStarted s input) hb hg hu] at e
    exact ⟨_, _, e, BitVec.toNat_ofNat .., rfl⟩
  · obtain ⟨bs', ep⟩ := peekHeader_cut (s := peekStarted s input) hb hno
    have e := exec_peek_header hb h0
    rw [ep] at e
    exact ⟨_, e, takeError_unopened_call .bufferOutOfBounds nofun rfl⟩

/-! ### The opening of `decode_into` (R90, R243, R244) -/

section
variable {s : State} {c : Cfg} {input output : BufId} {b bo : Buffer}

theorem exec_decodeInto_aliased (hw : c.WellFormed = true) (hb : s.buf? input = some b) :
    exec (.decodeInto c input input) s = .refused .aliasedBuffers := by
  have hl : configLegal c = true := hw
  simp only [exec, execDecodeInto, openDecode, withConfig, if_pos hl, withBuffer, hb, if_true]; rfl

/-- The start of a decode call, before its stream exists (R62). -/
def decodeIntoStarted (s : State) (c : Cfg) (input output : BufId) : State :=
  { s.beginCall .decHeader (some input) (some output) with cfg := some c }

theorem exec_decodeInto_noOp (hw : c.WellFormed = true) (hb : s.buf? input = some b) (hbo : s.buf? output = some bo)
    (hne : input ≠ output) (h0 : b.length = 0 ∨ bo.capacity = 0) :
    exec (.decodeInto c input output) s = .next (takeError .noOp (decodeIntoStarted s c input output)) := by
  have hl : configLegal c = true := hw
  simp only [exec, execDecodeInto, openDecode, withConfig, if_pos hl, withBuffer, hb, hbo, if_neg hne, if_pos h0]; rfl

theorem exec_decodeInto_opened (hw : c.WellFormed = true) (hb : s.buf? input = some b) (hbo : s.buf? output = some bo)
    (hne : input ≠ output) (h0 : b.length ≠ 0) (h1 : bo.capacity ≠ 0) :
    exec (.decodeInto c input output) s = settleCall (bodyDecode (decodeOpened s c input output)).noValue := by
  rw [exec, execDecodeInto, openDecode_opens hw hb hbo hne h0 h1, Res.bind_ok]

/-- The opened call is a decode call in progress (R243). -/
theorem decodeOpened_decodingWith (c : Cfg) (hb : s.buf? input = some b) (hbo : s.buf? output = some bo)
    (hne : input ≠ output) :
    DecodingWith (decodeOpened s c input output) c input output (BitStream.fresh input .R) b bo where
  input := rfl
  output := rfl
  ne := hne
  config := rfl
  live := ⟨rfl, rfl, rfl, hb⟩
  wraps := rfl
  dest := hbo
  inv := fresh_inv ..

/-! ### The header against the size of OUT (R245, R258) -/

theorem DecodingWith.decodeFrom_wrongSize {bs : BitStream} (h : DecodingWith s c input output bs b bo) {v : Word}
    (hv : v.toNat ≠ bo.capacity) : decodeFrom v s = .raised .wrongOutputSize { s with declared := v } := by
  rw [decodeFrom, runHdr_read_wrongSize h.live h.output h.dest hv]; rfl

/-- Past the test on the size of OUT only `BufferOutOfBounds` is left as an error (R245, R258). -/
theorem DecodingWith.decodeFrom_ends {bs : BitStream} (h : DecodingWith s c input output bs b bo) {v : Word}
    (hv : v.toNat = bo.capacity) (hlen : (unreadBits bs b).length ≤ 8 * b.capacity) :
    ∃ u, decodeFrom v s = .ok u () ∨ decodeFrom v s = .raised .bufferOutOfBounds u := by
  obtain ⟨t, ht⟩ : ∃ t : State, t = { s with declared := v, index := 0 } := ⟨_, rfl⟩
  have h' : DecodingWith t c input output bs b bo := ht ▸ h.setScan 0 v s.vlq s.phase
  have hin : t.inputCapacity = b.capacity := by
    have hbuf : t.buf? input = some b := h'.wraps ▸ h'.live.buffer
    simp only [State.inputCapacity, h'.input, hbuf, Option.map_some, Option.getD_some]
  rw [decodeFrom, runHdr_read h.live h.output h.dest hv, ← ht, Res.bind_ok]
  obtain ⟨bs', bo', k, _, ⟨e, _⟩ | e⟩ := scanDecode_cases (8 * t.inputCapacity + 2) h'.config h'.live h'.inv h'.output h'.dest
    (h'.wraps ▸ h'.ne) (by omega) <;> rw [e]
  · exact ⟨_, .inl (withOutput_some (s := { (t.putBuf output bo').putStream (some bs') with index := k }) h'.output
      (State.buf?_putBuf_same h'.dest) _)⟩
  · exact ⟨_, .inr rfl⟩

/-- The header of an opened call that starts with a VLQ, and the stream after it. -/
theorem fetchHeader_groups {gs : List Byte} {rest : List Bool}
    (h : DecodingWith s c input output (BitStream.fresh input .R) b bo) (hv : s.vlq.stopped = false) (hg : IsReadVlq gs)
    (hu : b.bits = groupBits gs ++ rest) :
    ∃ bs', fetchHeader s = .ok (s.putStream (some bs')) (.hdr (BitVec.ofNat 32 (groupSum gs))) ∧
      DecodingWith (s.putStream (some bs')) c input output bs' b bo ∧ (unreadBits bs' b).length ≤ 8 * b.capacity := by
  rw [← unreadBits_fresh input b] at hu
  rcases fetchHeader_cases hv h.live h.inv with ⟨gs', bs', e, hg', hu', hb, hd, hk, hi⟩ | ⟨_, _, hno⟩
  · obtain ⟨rfl, rfl⟩ := isReadRest_unique hg hg' (hu.symm.trans hu')
    have hval : vlqValue 0#32 0 gs = BitVec.ofNat 32 (groupSum gs) :=
      BitVec.eq_of_toNat_eq (by rw [vlqValue_groups, BitVec.toNat_ofNat])
    have hlen := bits_length b
    rw [← unreadBits_fresh input b, hu, List.length_append] at hlen
    exact ⟨bs', hval ▸ e, h.putStream hb hd hk hi, by omega⟩
  · exact absurd ⟨gs, rest, hg, hu⟩ hno

/-! ### How `decode_into` ends (R257 to R259, R296) -/

theorem mem_set_self {id : BufId} (h : s.buf? id = some b) : s.mem.set id b = s.mem := congrArg State.mem (putBuf_self h)

/-- What `decode_into` leaves of a state, whatever way it ends: the buffers `mem` are new, and the registers of the call. -/
def DecodeLeaves (s t : State) (c : Cfg) (mem : List Buffer) : Prop :=
  t = { s with
    mem := mem, bs := none, cfg := some c, inBuf := none, outBuf := none, mtch := t.mtch, index := t.index
    declared := t.declared, vlq := t.vlq, status := t.status, result := .none, phase := .idle, draws := t.draws }

theorem DecodeLeaves.mem {t : State} {bufs : List Buffer} (h : DecodeLeaves s t c bufs) : t.mem = bufs :=
  congrArg State.mem h

/-- An error of the call that is not `BufferOutOfBounds` leaves every buffer as it was (R258). -/
theorem takeError_decodeLeaves_kept {k : Status} (hk : k ≠ .bufferOutOfBounds) (s : State) (c : Cfg) (input output : BufId)
    (x : Option BitStream) (d : Word) :
    DecodeLeaves s (takeError k { (decodeIntoStarted s c input output).putStream x with declared := d }) c s.mem := by
  rw [takeError_decode_kept hk (.inr (.inl rfl))]; rfl

/-- `BufferOutOfBounds` leaves every buffer but OUT as it was (R257). -/
theorem takeError_decodeLeaves_outOfBounds (c : Cfg) (input : BufId) (hbo : s.buf? output = some bo) (bo' : Buffer)
    (x : Option BitStream) (k : Nat) (d : Word) :
    DecodeLeaves s
      (takeError .bufferOutOfBounds
        { ((decodeOpened s c input output).putBuf output bo').putStream x with index := k, declared := d })
      c (s.mem.set output (bo'.afterFailedDecode (s.draws + 1))) := by
  have e := takeError_decode_outOfBounds (o := output) (b := bo')
    (s := { ((decodeOpened s c input output).putBuf output bo').putStream x with index := k, declared := d })
    (.inr (.inl rfl)) rfl (State.buf?_putBuf_same (s := decodeOpened s c input output) hbo)
  rw [e]
  simp [DecodeLeaves, decodeOpened, State.beginCall, State.putBuf, State.putStream]

/-- Everything `decode_into` can do with a legal Config on two buffers (R257, R258, R296). -/
theorem exec_decodeInto_ends (hw : c.WellFormed = true) (hb : s.buf? input = some b) (hbo : s.buf? output = some bo)
    (hne : input ≠ output) :
    ∃ t bo', exec (.decodeInto c input output) s = .next t ∧ DecodeLeaves s t c (s.mem.set output bo') ∧
      bo'.capacity = bo.capacity ∧ t.status ≠ .couldNotAllocate ∧
      (t.status = .noOp ∨ t.status = .wrongOutputSize → t.mem = s.mem) := by
  by_cases h0 : b.length = 0 ∨ bo.capacity = 0
  · have hleaves := takeError_decodeLeaves_kept (k := .noOp) nofun s c input output none (Config.freeDeclared s.draws)
    exact ⟨_, bo, exec_decodeInto_noOp hw hb hbo hne h0, (mem_set_self hbo).symm ▸ hleaves, rfl,
      by rw [takeError_status]; nofun, fun _ => hleaves.mem⟩
  · rw [not_or] at h0
    rw [exec_decodeInto_opened hw hb hbo hne h0.1 h0.2]
    have h := decodeOpened_decodingWith (s := s) c hb hbo hne
    obtain ⟨bs', bo', k, d, hcap, e | e | e⟩ := bodyDecode_cases h.config h.input h.live h.output h.dest h.ne rfl <;> rw [e]
    · exact ⟨_, bo', rfl, rfl, hcap, nofun, nofun⟩
    · exact ⟨_, _, rfl, takeError_decodeLeaves_outOfBounds c input hbo bo' (some bs') k d, hcap,
        by rw [takeError_status]; nofun, by rw [takeError_status]; nofun⟩
    · have hleaves := takeError_decodeLeaves_kept (k := .wrongOutputSize) nofun s c input output (some bs') d
      exact ⟨_, bo, rfl, (mem_set_self hbo).symm ▸ hleaves, rfl, by rw [takeError_status]; nofun,
        fun _ => hleaves.mem⟩

/-- A header value other than the capacity of OUT ends the call (R245). -/
theorem exec_decodeInto_wrongSize {gs : List Byte} {rest : List Bool} (hw : c.WellFormed = true)
    (hb : s.buf? input = some b) (hbo : s.buf? output = some bo) (hne : input ≠ output) (h0 : b.length ≠ 0)
    (h1 : bo.capacity ≠ 0) (hg : IsReadVlq gs) (hu : b.bits = groupBits gs ++ rest)
    (hsize : groupSum gs % 2 ^ 32 ≠ bo.capacity) :
    ∃ bs' d, exec (.decodeInto c input output) s =
      .next (takeError .wrongOutputSize
        { (decodeIntoStarted s c input output).putStream (some bs') with declared := d }) := by
  obtain ⟨bs', e, h', _⟩ := fetchHeader_groups (decodeOpened_decodingWith (s := s) c hb hbo hne) rfl hg hu
  refine ⟨bs', BitVec.ofNat 32 (groupSum gs), ?_⟩
  rw [exec_decodeInto_opened hw hb hbo hne h0 h1, bodyDecode_fetched e,
    h'.decodeFrom_wrongSize (by rwa [BitVec.toNat_ofNat])]
  rfl

/-- A cut header ends the call (R256, R258). -/
theorem exec_decodeInto_cut (hw : c.WellFormed = true) (hb : s.buf? input = some b) (hbo : s.buf? output = some bo)
    (hne : input ≠ output) (h0 : b.length ≠ 0) (h1 : bo.capacity ≠ 0)
    (hno : ¬ ∃ gs rest, IsReadVlq gs ∧ b.bits = groupBits gs ++ rest) :
    ∃ u, exec (.decodeInto c input output) s = .next (takeError .bufferOutOfBounds u) := by
  have h := decodeOpened_decodingWith (s := s) c hb hbo hne
  rw [← unreadBits_fresh input b] at hno
  rw [exec_decodeInto_opened hw hb hbo hne h0 h1]
  rcases fetchHeader_cases rfl h.live h.inv with ⟨gs, bs', _, hg, hu, _⟩ | ⟨bs', e, _⟩
  · exact absurd ⟨gs, _, hg, hu⟩ hno
  · exact ⟨_, by rw [bodyDecode, e]; rfl⟩

end

/-- Settles O38: the tests of the opening, the header against OUT, and the ends of the call. -/
theorem decodeIntoStopsBeforeWriting : Obligations.DecodeIntoStopsBeforeWriting := by
  intro s c input output bi bo hw hb hbo
  refine ⟨by rintro rfl; exact exec_decodeInto_aliased hw hb, fun hne => ⟨fun h0 => ?_, fun h0 h1 => ⟨?_, ?_⟩,
    exec_decodeInto_ends hw hb hbo hne⟩⟩
  · have hleaves := takeError_decodeLeaves_kept (k := .noOp) nofun s c input output none (Config.freeDeclared s.draws)
    exact ⟨_, exec_decodeInto_noOp hw hb hbo hne h0, takeError_status .., takeError_result .., hleaves.mem⟩
  · intro gs rest hg hu hsize
    obtain ⟨bs', d, e⟩ := exec_decodeInto_wrongSize hw hb hbo hne h0 h1 hg hu hsize
    have hleaves := takeError_decodeLeaves_kept (k := .wrongOutputSize) nofun s c input output (some bs') d
    exact ⟨_, e, takeError_status .., takeError_result .., hleaves.mem⟩
  · intro hno
    obtain ⟨u, e⟩ := exec_decodeInto_cut hw hb hbo hne h0 h1 hno
    exact ⟨_, e, takeError_status .., takeError_result ..⟩

/-- Settles O37: the call opens, and its scan expands the tokens into OUT. -/
theorem decodeIntoExecutesTheTokens : Obligations.DecodeIntoExecutesTheTokens := by
  intro s c input output bi bo gs toks rest out hw hb hbo hne h0 hg htoks hu hexp hlen hcap hout
  have h := decodeOpened_decodingWith (s := s) c hb hbo hne
  obtain ⟨bs', bo', e, hcap', hlen', hbytes⟩ :=
    bodyDecode_tokens h.config h.input h.live h.output h.dest h.ne rfl hg htoks hu hexp hlen hcap
  have h1 : bo.capacity ≠ 0 := by rw [hcap]; simpa using hout
  have e' := exec_decodeInto_opened hw hb hbo hne h0 h1
  rw [e] at e'
  exact ⟨_, bo', e', rfl, hcap', hlen', hbytes⟩

/-- Settles O39: `decode` on a header and well-formed tokens. -/
theorem decodeAllocatesTheDeclaredLength : Obligations.DecodeAllocatesTheDeclaredLength :=
  fun _ _ _ _ _ _ _ _ hw hb h0 hg htoks hu hexp hlen hout hgrant =>
    exec_decode_tokens hw hb h0 hg htoks hu hexp hlen hout hgrant

end Sys2Proof.Machine
end

section
/-! The ends of `decode` in the order of its tests (R260, R261). -/

namespace Sys2Proof.Machine

section
variable {s : State} {c : Cfg} {input : BufId} {b : Buffer}

/-! ### The tests (R261) -/

theorem exec_decode_empty (hw : c.WellFormed = true) (hb : s.buf? input = some b) (h0 : b.length = 0) :
    exec (.decode c input) s = .next (takeError .noOp (decodeStarted s c input)) := by
  have hl : configLegal c = true := hw
  simp only [exec, execDecode, withConfig, if_pos hl, withBuffer, hb, if_pos h0]; rfl

/-- An input that is not empty is peeked, and its header decides (R260). -/
theorem exec_decode_peeks (hw : c.WellFormed = true) (hb : s.buf? input = some b) (h0 : b.length ≠ 0) :
    exec (.decode c input) s =
      settleCall ((peekHeader input (decodeStarted s c input)).bind fun u d =>
        if d = 0#32 then .raised .noOp u
        else (hostAlloc d.toNat u).bind fun v o =>
          (openDecode c input o v).bind fun w _ => (bodyDecode w).bind fun x _ => .ok x (.buf o)) := by
  have hl : configLegal c = true := hw
  simp only [exec, execDecode, withConfig, if_pos hl, withBuffer, hb, if_neg h0]; rfl

theorem exec_decode_cut (hw : c.WellFormed = true) (hb : s.buf? input = some b) (h0 : b.length ≠ 0)
    (hno : ¬ ∃ gs rest, IsReadVlq gs ∧ b.bits = groupBits gs ++ rest) :
    ∃ bs', exec (.decode c input) s =
      .next (takeError .bufferOutOfBounds ((decodeStarted s c input).putStream (some bs'))) := by
  obtain ⟨bs', e⟩ := peekHeader_cut (s := decodeStarted s c input) hb hno
  exact ⟨bs', by rw [exec_decode_peeks hw hb h0, e]; rfl⟩

variable {gs : List Byte} {rest : List Bool}

theorem exec_decode_zero (hw : c.WellFormed = true) (hb : s.buf? input = some b) (h0 : b.length ≠ 0) (hg : IsReadVlq gs)
    (hu : b.bits = groupBits gs ++ rest) (hd : groupSum gs % 2 ^ 32 = 0) :
    exec (.decode c input) s = .next (takeError .noOp (decodeStarted s c input)) := by
  have hd' : BitVec.ofNat 32 (groupSum gs) = 0#32 := BitVec.eq_of_toNat_eq (by simpa using hd)
  rw [exec_decode_peeks hw hb h0, peekHeader_groups (s := decodeStarted s c input) hb hg hu, Res.bind_ok, if_pos hd']
  rfl

/-- The allocation of `decode`, refused or granted, past its other tests (R260). -/
theorem exec_decode_allocates (hw : c.WellFormed = true) (hb : s.buf? input = some b) (h0 : b.length ≠ 0)
    (hg : IsReadVlq gs) (hu : b.bits = groupBits gs ++ rest) (hd : groupSum gs % 2 ^ 32 ≠ 0) :
    ((decodeStarted s c input).nextGrant = false ∧ exec (.decode c input) s =
      .next (takeError .couldNotAllocate
        { decodeStarted s c input with grants := s.grants.tail, draws := s.draws + 2 })) ∨
    ((decodeStarted s c input).nextGrant = true ∧ exec (.decode c input) s =
      settleCall ((bodyDecode (decodeOpened ((decodeStarted s c input).allocated (groupSum gs % 2 ^ 32)) c input
        s.mem.length)).bind fun x _ => .ok x (.buf s.mem.length))) := by
  have hv : (BitVec.ofNat 32 (groupSum gs)).toNat = groupSum gs % 2 ^ 32 := BitVec.toNat_ofNat ..
  have hd' : BitVec.ofNat 32 (groupSum gs) ≠ 0#32 := fun h => hd (by rw [← hv, h]; rfl)
  have hne : input ≠ s.mem.length := (List.getElem?_eq_some_iff.mp hb).1.ne
  rw [exec_decode_peeks hw hb h0, peekHeader_groups (s := decodeStarted s c input) hb hg hu, Res.bind_ok, if_neg hd', hv]
  rcases hostAlloc_cases (groupSum gs % 2 ^ 32) ((decodeStarted s c input).putStream none) with ⟨hgr, e⟩ | ⟨hgr, e⟩ <;> rw [e]
  · have hopen : openDecode c input s.mem.length ((decodeStarted s c input).allocated (groupSum gs % 2 ^ 32)) =
        .ok (decodeOpened ((decodeStarted s c input).allocated (groupSum gs % 2 ^ 32)) c input s.mem.length) () :=
      openDecode_opens hw (State.buf?_allocated_old (s := decodeStarted s c input) hb _)
        (State.buf?_allocated_new (decodeStarted s c input) _) hne h0 hd
    refine .inr ⟨hgr, ?_⟩
    rw [Res.bind_ok]
    exact congrArg (fun r : Res Unit => settleCall (r.bind fun w _ => (bodyDecode w).bind fun x _ => .ok x (.buf s.mem.length)))
      hopen
  · exact .inl ⟨hgr, rfl⟩

/-! ### What `decode` leaves of the buffers that existed (R261) -/

/-- `t` is an end that R261 allows a `decode` called in `s`: not with `WrongOutputSize`, with a value only on `Ok`, and no buffer
that existed has changed. -/
def DecodeEnds (s t : State) : Prop :=
  t.status ≠ .wrongOutputSize ∧ (t.status ≠ .ok → t.result = .none) ∧ ∀ j, j < s.mem.length → t.mem[j]? = s.mem[j]?

/-- An error of `decode` before its OUT exists. -/
theorem decodeEnds_takeError_unopened {u : State} {k : Status} (hk : k ≠ .wrongOutputSize) (ho : u.outBuf = none)
    (hm : u.mem = s.mem) : DecodeEnds s (takeError k u) :=
  ⟨by rwa [takeError_status], fun _ => takeError_result .., fun j _ => by rw [takeError_mem_unopened k ho, hm]⟩

/-- The body of `decode` in a call whose OUT has the size that the header says and is none of the buffers that existed: the test
of the header passes (R260, R261). -/
theorem DecodingWith.decodeEnds {w t : State} {o : BufId} {bo : Buffer}
    (h : DecodingWith w c input o (BitStream.fresh input .R) b bo) (hv : w.vlq.stopped = false) (hg : IsReadVlq gs)
    (hu : b.bits = groupBits gs ++ rest) (hsize : groupSum gs % 2 ^ 32 = bo.capacity)
    (hold : ∀ j, j < s.mem.length → o ≠ j ∧ w.mem[j]? = s.mem[j]?)
    (e : settleCall ((bodyDecode w).bind fun x _ => .ok x (.buf o)) = .next t) : DecodeEnds s t := by
  have hkept : ∀ u, CallFrame w u → ∀ j, j < s.mem.length → u.mem[j]? = s.mem[j]? := fun u hf j hj =>
    (hf.others j (by rw [h.output]; exact fun h => (hold j hj).1 (Option.some.inj h))).trans (hold j hj).2
  obtain ⟨bs', ef, h', hlen⟩ := fetchHeader_groups h hv hg hu
  obtain ⟨u, eu⟩ := h'.decodeFrom_ends (v := BitVec.ofNat 32 (groupSum gs)) (by rwa [BitVec.toNat_ofNat]) hlen
  rw [← bodyDecode_fetched ef] at eu
  have hends := h.body hv
  rcases eu with eu | eu <;> rw [eu] at e hends <;> cases e
  · exact ⟨nofun, fun hst => absurd rfl hst, hkept _ ((UnitEnds.of_ok hends).1.endCall _)⟩
  · rcases hends with ⟨_, e', _⟩ | ⟨_, _, e', hf⟩ <;> cases e'
    exact ⟨by rw [takeError_status]; nofun, fun _ => takeError_result .., hkept _ (hf.takeError _)⟩

/-- Everything a `decode` that is not refused can do to the buffers that existed, STATUS and the result. -/
theorem exec_decode_ends {t : State} (hw : c.WellFormed = true) (hb : s.buf? input = some b)
    (e : exec (.decode c input) s = .next t) : DecodeEnds s t := by
  by_cases h0 : b.length = 0
  · cases (exec_decode_empty hw hb h0).symm.trans e
    exact decodeEnds_takeError_unopened nofun rfl rfl
  · by_cases hno : ∃ gs rest, IsReadVlq gs ∧ b.bits = groupBits gs ++ rest
    · obtain ⟨gs, rest, hg, hu⟩ := hno
      by_cases hd : groupSum gs % 2 ^ 32 = 0
      · cases (exec_decode_zero hw hb h0 hg hu hd).symm.trans e
        exact decodeEnds_takeError_unopened nofun rfl rfl
      · rcases exec_decode_allocates hw hb h0 hg hu hd with ⟨_, e'⟩ | ⟨_, e'⟩
        · cases e'.symm.trans e
          exact decodeEnds_takeError_unopened nofun rfl rfl
        · have hne : input ≠ s.mem.length := (List.getElem?_eq_some_iff.mp hb).1.ne
          exact (decodeOpened_decodingWith c (State.buf?_allocated_old (s := decodeStarted s c input) hb _)
              (State.buf?_allocated_new (decodeStarted s c input) _) hne).decodeEnds rfl hg hu rfl
            (fun j hj => ⟨hj.ne', List.getElem?_append_left hj⟩) (e'.symm.trans e)
    · obtain ⟨bs', e'⟩ := exec_decode_cut hw hb h0 hno
      cases e'.symm.trans e
      exact decodeEnds_takeError_unopened nofun rfl rfl

end

/-- Settles O40: the tests one after another, and the ends of the call. -/
theorem decodeStopsInOrder : Obligations.DecodeStopsInOrder := by
  intro s c input bi hw hb
  refine ⟨fun h0 => ?_, fun h0 hno => ?_, fun h0 gs rest hg hu => ⟨fun hd => ?_, fun hd hgrant => ?_⟩,
    fun t e => exec_decode_ends hw hb e⟩
  · exact ⟨_, exec_decode_empty hw hb h0, takeError_status .., takeError_mem_unopened _ rfl⟩
  · obtain ⟨bs', e⟩ := exec_decode_cut hw hb h0 hno
    exact ⟨_, e, takeError_status .., takeError_mem_unopened _ rfl⟩
  · exact ⟨_, exec_decode_zero hw hb h0 hg hu hd, takeError_status .., takeError_mem_unopened _ rfl⟩
  · have hrefused : (decodeStarted s c input).nextGrant = false := nextGrant_of (s := decodeStarted s c input) hgrant
    rcases exec_decode_allocates hw hb h0 hg hu hd with ⟨_, e⟩ | ⟨hgranted, _⟩
    · exact ⟨_, e, takeError_status .., takeError_mem_unopened _ rfl⟩
    · rw [hrefused] at hgranted; cases hgranted

end Sys2Proof.Machine
end

section
/-! `decode_into` never reads `minimum_length` (R247): run under a Config of the same field widths, every operation of the decoder
ends in the same way but for that Config. -/

namespace Sys2Proof.Machine

/-! ### `minimum_length` set -/

/-- The same state with another `minimum_length` in CFG. -/
def State.setMinimum (s : State) (m : Nat) : State := { s with cfg := s.cfg.map fun c => { c with minimumLength := m } }

/-- The same result with another `minimum_length` in CFG. -/
def Res.setMinimum {α : Type} (m : Nat) : Res α → Res α
  | .ok s v => .ok (s.setMinimum m) v
  | .raised k s => .raised k (s.setMinimum m)
  | .refused r => .refused r
  | .stuck f => .stuck f

section
variable (s : State) (m : Nat)

@[simp] theorem State.setMinimum_bs : (s.setMinimum m).bs = s.bs := rfl
@[simp] theorem State.setMinimum_cfg : (s.setMinimum m).cfg = s.cfg.map fun c => { c with minimumLength := m } := rfl
@[simp] theorem State.setMinimum_outBuf : (s.setMinimum m).outBuf = s.outBuf := rfl
@[simp] theorem State.setMinimum_index : (s.setMinimum m).index = s.index := rfl
@[simp] theorem State.buf?_setMinimum (id : BufId) : (s.setMinimum m).buf? id = s.buf? id := rfl

/-- Taking an error does not look at CFG (R291). -/
theorem takeError_setMinimum (k : Status) : takeError k (s.setMinimum m) = (takeError k s).setMinimum m := by
  by_cases hp : s.phase = .idle
  · rw [takeError_idle hp, takeError_idle (s := s.setMinimum m) hp]; rfl
  · rw [takeError_call hp, takeError_call (s := s.setMinimum m) hp]; rfl

end

theorem settleCall_setMinimum {r : Res Ret} {t : State} (m : Nat) (e : settleCall r = .next t) :
    settleCall (r.setMinimum m) = .next (t.setMinimum m) := by
  rcases settleCall_cases r with ⟨s, v, rfl, e'⟩ | ⟨k, s, rfl, e'⟩ | ⟨r, rfl, e'⟩ | ⟨f, rfl, e'⟩ <;> cases e'.symm.trans e
  · rfl
  · exact congrArg Host.Outcome.next (takeError_setMinimum s m k)

/-! ### Operations that do not look at it -/

/-- The operation neither reads the `minimum_length` in CFG nor changes it. -/
def MinimumFree {α : Type} (f : State → Res α) : Prop := ∀ s m, f (s.setMinimum m) = (f s).setMinimum m

section
variable {α β : Type}

theorem MinimumFree.bind {f : State → Res α} {g : State → α → Res β} (hf : MinimumFree f)
    (hg : ∀ v, MinimumFree fun s => g s v) : MinimumFree fun s => (f s).bind g := by
  intro s m
  dsimp only
  rw [hf s m]
  cases f s with
  | ok t v => exact hg v t m
  | raised k t => rfl
  | refused r => rfl
  | stuck e => rfl

theorem MinimumFree.noValue {f : State → Res Unit} (hf : MinimumFree f) : MinimumFree fun s => (f s).noValue :=
  hf.bind fun _ _ _ => rfl

theorem MinimumFree.ite {p : State → Prop} [DecidablePred p] {f g : State → Res α} (hp : ∀ s m, p (s.setMinimum m) = p s)
    (hf : MinimumFree f) (hg : MinimumFree g) : MinimumFree fun s => if p s then f s else g s := by
  intro s m
  by_cases h : p s
  · simp only [hp s m, h, if_true, hf s m]
  · simp only [hp s m, h, if_false, hg s m]

theorem minimumFree_withBuffer (id : BufId) {f : State → Buffer → Res α} (hf : ∀ b, MinimumFree fun s => f s b) :
    MinimumFree fun s => withBuffer s id (f s) := by
  intro s m
  simp only [withBuffer, State.buf?_setMinimum]
  cases s.buf? id with
  | none => rfl
  | some b => exact hf b s m

theorem minimumFree_withStream (d : Dir) {f : State → BitStream → Buffer → Res α}
    (hf : ∀ bs b, MinimumFree fun s => f s bs b) : MinimumFree fun s => withStream s d (f s) := by
  intro s m
  simp only [withStream, State.setMinimum_bs]
  cases s.bs with
  | none => rfl
  | some bs =>
    dsimp only
    split
    · rfl
    · split
      · rfl
      · exact minimumFree_withBuffer bs.buf (hf bs) s m

theorem minimumFree_withOutput {f : State → BufId → Buffer → Res Unit} (hf : ∀ o b, MinimumFree fun s => f s o b) :
    MinimumFree fun s => withOutput s (f s) := by
  intro s m
  simp only [withOutput, State.setMinimum_outBuf]
  cases s.outBuf with
  | none => rfl
  | some o => exact minimumFree_withBuffer o (hf o) s m

theorem minimumFree_byDirection {r w : State → Res Unit} (hr : MinimumFree r) (hw : MinimumFree w) :
    MinimumFree fun s => byDirection s (r s) (w s) := by
  intro s m
  simp only [byDirection, State.setMinimum_bs, hr s m, hw s m]
  cases s.bs with
  | none => rfl
  | some bs =>
    dsimp only
    split
    · rfl
    · cases bs.dir <;> rfl

theorem minimumFree_writeStream (f : BitStream → Buffer → Written) : MinimumFree fun s => writeStream s f :=
  minimumFree_withStream .W fun bs b s m => by cases f bs b <;> rfl

theorem minimumFree_readStream (f : BitStream → Buffer → Taken α) : MinimumFree fun s => readStream s f :=
  minimumFree_withStream .R fun bs b s m => by cases f bs b <;> rfl

theorem minimumFree_decoded (r : Except DecodeError (Instr × List Bool)) : MinimumFree fun s => decoded s r := by
  intro s m
  cases r <;> rfl

end

/-! ### The units of the format -/

theorem minimumFree_writeUnit (f : BitStream → Buffer → Written) (g : Nat → Nat) :
    MinimumFree fun s => (writeStream s f).bind fun t _ => .ok { t with index := g t.index } () :=
  (minimumFree_writeStream f).bind fun _ _ _ => rfl

theorem minimumFree_runGroup (g : Byte) : MinimumFree (runGroup g) :=
  minimumFree_byDirection (fun _ _ => rfl) (minimumFree_writeStream _)

theorem minimumFree_runHdr (v : Word) : MinimumFree (runHdr v) :=
  minimumFree_byDirection
    (minimumFree_withOutput fun _ _ => .ite (fun _ _ => rfl) (fun _ _ => rfl) fun _ _ => rfl)
    (minimumFree_writeUnit _ fun _ => 0)

theorem minimumFree_runLiteral (v : Byte) : MinimumFree (runLiteral v) := by
  refine minimumFree_byDirection (minimumFree_withOutput fun o b s m => ?_) (minimumFree_writeUnit _ fun k => k + 1)
  simp only [State.setMinimum_index]
  cases b.memWrite s.index v <;> rfl

theorem minimumFree_readPair (o l : Nat) : MinimumFree (readPair o l) :=
  minimumFree_withOutput fun _ _ => .ite (fun _ _ => rfl) (fun _ _ => rfl) fun _ _ => rfl

theorem minimumFree_writePair (ob lb o l : Nat) : MinimumFree (writePair ob lb o l) := minimumFree_writeUnit _ fun k => k + l

/-- A pair token looks at the field widths of the Config only (R106, R109). -/
theorem minimumFree_runPair (o l : Nat) : MinimumFree (runPair o l) := by
  refine minimumFree_byDirection (minimumFree_readPair o l) fun s m => ?_
  simp only [State.setMinimum_cfg]
  cases s.cfg with
  | none => rfl
  | some c => exact minimumFree_writePair c.offsetBits c.lengthBits o l s m

theorem minimumFree_runUnit (i : Instr) : MinimumFree (runUnit i) := by
  cases i with
  | vlqLast p => exact minimumFree_runGroup _
  | vlqCont p => exact minimumFree_runGroup _
  | hdr v => exact minimumFree_runHdr v
  | literal v => exact minimumFree_runLiteral v
  | pair o l => exact minimumFree_runPair o l
  | pairDemo o l => exact minimumFree_byDirection (minimumFree_readPair _ _) (minimumFree_writePair _ _ _ _)
  | pad k => exact minimumFree_byDirection (fun _ _ => rfl) (minimumFree_writeStream _)
  | _ => exact fun _ _ => rfl

theorem minimumFree_unitOf {get : State → Res Instr} (hg : MinimumFree get) : MinimumFree (unitOf get) :=
  hg.bind minimumFree_runUnit

theorem minimumFree_fetchHeader : MinimumFree fetchHeader :=
  .ite (fun _ _ => rfl) (fun _ _ => rfl) ((minimumFree_readStream _).bind fun _ => minimumFree_decoded _)

theorem decodeToken_setMinimum (c : Cfg) (m : Nat) (l : List Bool) :
    decodeToken { c with minimumLength := m } l = decodeToken c l := by
  unfold decodeToken
  split <;> rfl

/-- A token is fetched by the field widths of the Config only (R104, R109). -/
theorem minimumFree_fetchToken : MinimumFree fetchToken := by
  intro s m
  simp only [fetchToken, withCallConfig, State.setMinimum_cfg]
  cases s.cfg with
  | none => rfl
  | some c =>
    simp only [Option.map_some, decodeToken_setMinimum]
    exact ((minimumFree_readStream (pullToken c)).bind fun xs => minimumFree_decoded (decodeToken c xs)) s m

/-! ### The call -/

theorem minimumFree_scanDecode (f : Nat) : MinimumFree (scanDecode f) := by
  induction f with
  | zero => exact fun _ _ => rfl
  | succ f ih =>
    exact .ite (fun _ _ => rfl) (fun _ _ => rfl) ((minimumFree_unitOf minimumFree_fetchToken).bind fun _ => ih)

theorem minimumFree_bodyDecode : MinimumFree bodyDecode :=
  ((minimumFree_unitOf minimumFree_fetchHeader).bind
    fun _ s m => minimumFree_scanDecode (8 * s.inputCapacity + 2) s m).bind fun _ =>
      minimumFree_withOutput fun _ _ _ _ => rfl

theorem openDecode_setMinimum {ob lb ml ml' : Nat} (hw : (Cfg.mk ob lb ml).WellFormed = true)
    (hw' : (Cfg.mk ob lb ml').WellFormed = true) (input output : BufId) (s : State) :
    openDecode ⟨ob, lb, ml'⟩ input output s = (openDecode ⟨ob, lb, ml⟩ input output s).setMinimum ml' := by
  have hl : configLegal ⟨ob, lb, ml⟩ = true := hw
  have hl' : configLegal ⟨ob, lb, ml'⟩ = true := hw'
  simp only [openDecode, withConfig, if_pos hl, if_pos hl', withBuffer]
  split
  · rfl
  · split
    · rfl
    · split
      · rfl
      · split <;> rfl

/-- Two Configs of the same field widths (R247). -/
theorem exec_decodeInto_setMinimum {ob lb ml ml' : Nat} (hw : (Cfg.mk ob lb ml).WellFormed = true)
    (hw' : (Cfg.mk ob lb ml').WellFormed = true) {input output : BufId} {s t : State}
    (e : exec (.decodeInto ⟨ob, lb, ml⟩ input output) s = .next t) :
    exec (.decodeInto ⟨ob, lb, ml'⟩ input output) s = .next (t.setMinimum ml') := by
  rw [exec, execDecodeInto] at e ⊢
  rw [openDecode_setMinimum hw hw', ← settleCall_setMinimum ml' e]
  congr 1
  cases openDecode ⟨ob, lb, ml⟩ input output s with
  | ok u v => exact (minimumFree_bodyDecode.noValue) u ml'
  | raised k u => rfl
  | refused r => rfl
  | stuck f => rfl

/-- A call of `decode_into` that is not refused has a legal Config and two buffers (R90, R210, R243). -/
theorem exec_decodeInto_pre {c : Cfg} {input output : BufId} {s t : State}
    (e : exec (.decodeInto c input output) s = .next t) :
    c.WellFormed = true ∧ ∃ b bo, s.buf? input = some b ∧ s.buf? output = some bo ∧ input ≠ output := by
  rw [exec, execDecodeInto, openDecode] at e
  rcases withConfig_cases c _ with ⟨hw, e1⟩ | ⟨r, e1⟩ <;> rw [e1] at e
  · rcases withBuffer_cases s input _ with ⟨b, hb, e2⟩ | ⟨r, e2⟩ <;> rw [e2] at e
    · rcases withBuffer_cases s output _ with ⟨bo, hbo, e3⟩ | ⟨r, e3⟩ <;> rw [e3] at e
      · refine ⟨hw, b, bo, hb, hbo, ?_⟩
        rintro rfl
        rw [if_pos rfl] at e
        cases e
      · cases e
    · cases e
  · cases e

/-- Settles O41: the two calls end alike but for the `minimum_length` in CFG, which holds the operand. -/
theorem minimumLengthIsNotRead : Obligations.MinimumLengthIsNotRead := by
  intro s t ob lb ml ml' input output hml e
  obtain ⟨hw, b, bo, hb, hbo, hne⟩ := exec_decodeInto_pre e
  have hw' : (Cfg.mk ob lb ml').WellFormed = true := by
    simp only [Cfg.WellFormed, Bool.and_eq_true, decide_eq_true_eq] at hw ⊢
    exact ⟨hw.1, hml⟩
  obtain ⟨u, _, eu, hleaves, _⟩ := exec_decodeInto_ends hw hb hbo hne
  obtain rfl : u = t := Host.Outcome.next.inj (eu.symm.trans e)
  have hcfg : u.cfg = some ⟨ob, lb, ml⟩ := congrArg State.cfg hleaves
  rw [exec_decodeInto_setMinimum hw hw' e, State.setMinimum, hcfg]
  rfl

end Sys2Proof.Machine
end

section
/-! The error entry (60_exceptions.md, R291): what taking an error leaves of the stream, the buffers and the call, whatever state it
is taken in. -/

namespace Sys2Proof.Machine

/-- A stream that outlives an error is the host's own, and dead (R157, R39). -/
theorem takeError_bs_dead {k : Status} {s : State} {bs' : BitStream} (h : (takeError k s).bs = some bs') :
    bs'.dead = true := by
  by_cases hp : s.phase = .idle
  · rw [takeError_bs_idle hp] at h
    obtain ⟨bs, -, rfl⟩ := Option.map_eq_some_iff.mp h
    exact bs.kill_dead s.draws
  · rw [takeError_bs_call hp] at h
    cases h

/-- An error between Codec calls keeps every byte as written (R149, R157). -/
theorem takeError_mem_idle {k : Status} {s : State} (h : s.phase = .idle) : (takeError k s).mem = s.mem :=
  (takeError_mem k s).trans (outAfterError_idle h)

/-- An error inside a Codec call gives its stream, IN and OUT up (R39, R18). -/
theorem takeError_discards_call {k : Status} {s : State} (h : s.phase ≠ .idle) :
    (takeError k s).bs = none ∧ (takeError k s).inBuf = none ∧ (takeError k s).outBuf = none := by
  rw [takeError_call h]
  exact ⟨rfl, rfl, rfl⟩

/-- No buffer but OUT changes when an error is taken. -/
theorem takeError_buf?_other (k : Status) {s : State} {j : BufId} (h : s.outBuf ≠ some j) :
    (takeError k s).buf? j = s.buf? j := by
  rw [State.buf?, takeError_mem, outAfterError_other k s h, State.buf?]

/-- OUT of an encode call after an error (R221). -/
theorem takeError_buf?_encode (k : Status) {s : State} {o : BufId} {b : Buffer}
    (hp : s.phase = .encHeader ∨ s.phase = .encBody ∨ s.phase = .encTail) (ho : s.outBuf = some o)
    (hb : s.buf? o = some b) : (takeError k s).buf? o = some (b.afterFailedEncode s.draws) := by
  rw [takeError_encode k hp ho hb]
  exact State.buf?_putBuf_same hb

/-- Settles O52: the fields one after another, then the stream, the call's registers, the other buffers, and OUT of an encode
call. -/
theorem errorEntry : Obligations.ErrorEntry := by
  intro k s
  refine ⟨takeError_status .., takeError_result .., takeError_phase .., takeError_cfg .., takeError_mtch .., takeError_index ..,
    takeError_declared .., takeError_requests .., takeError_grants .., fun _ => takeError_bs_dead, takeError_mem_idle,
    takeError_discards_call, fun _ => takeError_buf?_other k, fun o b hp ho hb => ?_⟩
  exact ⟨_, takeError_buf?_encode k (by simpa using hp) ho hb, b.afterFailedEncode_length s.draws,
    b.afterFailedEncode_capacity s.draws⟩

end Sys2Proof.Machine
end

section
/-! A step with no call in progress and no request (R320, log 7). -/

namespace Sys2Proof.Machine

/-- Settles O2: of all a step can do, taking a request needs one in the queue, and a unit of the format needs a call in progress. -/
theorem idleBlockWaitsForACall : Obligations.IdleBlockWaitsForACall := by
  intro s hp hr
  rcases step_cases s with ⟨_, _, stays⟩ | ⟨r, rest, _, queued, _⟩ | ⟨busy, _⟩
  · exact stays
  · cases hr.symm.trans queued
  · exact absurd hp busy

end Sys2Proof.Machine
end
